-- ==== Sys2Proof/Word.lean ====
section
/-! DEFINITION. The word types of the splicer (00_scope.md sections 3.1 to 3.6) and nothing that a test could show wrong. -/

namespace Sys2Proof

/-- One byte of a bus request or response. -/
abbrev Byte := BitVec 8
/-- A 36-bit byte address (00_scope.md 3.4). -/
abbrev Addr := BitVec 36
/-- A tick value, modulo 2^33 (00_scope.md 3.2). -/
abbrev Ticks := BitVec 33
/-- An arrival stamp or a duration in counts, modulo 2^32 (00_scope.md 3.2). -/
abbrev Stamp := BitVec 32
/-- A sequence number, modulo 2^32 (00_scope.md 3.3). -/
abbrev SeqNo := BitVec 32
/-- A 13-bit packet identifier (00_scope.md 3.6). -/
abbrev Pid := BitVec 13
/-- A four-bit continuity counter. -/
abbrev CC := BitVec 4
/-- A duration in ticks that a record or cue may hold: at most 2^32 - 1 (R35). -/
abbrev Dur := BitVec 32
/-- A 16-bit counter of the splicer (00_scope.md 3.7). -/
abbrev Counter := BitVec 16
/-- Channels 0 to 31 (00_scope.md 3.5). -/
abbrev ChanNo := Fin 32
/-- Rings 0 to 47 (00_scope.md 3.5). -/
abbrev RingNo := Fin 48
/-- Clips 0 to 255 (00_scope.md 3.5). -/
abbrev ClipNo := Fin 256
/-- Pods 0 to 63 (00_scope.md 3.5). -/
abbrev PodNo := Fin 64
/-- Spots 0 to 7 of a pod (00_scope.md 3.5). -/
abbrev SpotNo := Fin 8
/-- A set of channels, bit c for channel c (11.8, alert record bytes 0 to 3). -/
abbrev ChanSet := BitVec 32

end Sys2Proof
end

