-- ==== Sys2Proof/Syntax.lean ====
section
/-! DEFINITION. The commands the splicer takes: one constructor of Instr for each row of spec/opcode_table.json, with the bus requests they carry. -/

namespace Sys2Proof

/-- A write request (00_scope.md 3.4): its address and its bytes in address order, each with its byte enable.
The length is the number of bytes. -/
structure WriteReq where
  addr  : Addr
  bytes : List (Byte × Bool)
deriving DecidableEq, Repr, Inhabited

/-- A request on either bus port (00_scope.md 3.4). -/
inductive Request where
  | read (addr : Addr) (len : Nat)
  | write (w : WriteReq)
deriving DecidableEq, Repr

/-- The commands. A row that names a request carries that request; the Path Unit classifies it by its address (R2). -/
inductive Instr where
  /-- POWER_ON_RESET (R8, R160): the whole of power-on reset, with the strap levels CRB7..CRB0 sampled at its end. -/
  | powerOnReset (straps : Byte)
  /-- RST_N_ASSERT (R8): RST_N goes low. -/
  | rstNAssert
  /-- RST_N_RELEASE (R160): RST_N goes high, with the strap levels sampled then. -/
  | rstNRelease (straps : Byte)
  /-- OTHER_TRAFFIC (R2, R3): any read or write. -/
  | otherTraffic (r : Request)
  /-- FORWARDED_READ_RESPONSE (R3): the bytes the downstream port returns for a forwarded read. -/
  | forwardedReadResponse (data : List Byte)
  /-- WRITE_ACKNOWLEDGEMENT (R3). -/
  | writeAcknowledgement
  /-- STATUS_WINDOW_READ (R168). -/
  | statusWindowRead (addr : Addr) (len : Nat)
  /-- RING_FULL_CELL_WRITE (R9 to R12): 192 enabled bytes at a slot address. -/
  | ringFullCellWrite (addr : Addr) (cell : List Byte)
  /-- RING_PARTIAL_WRITE (R13). -/
  | ringPartialWrite (w : WriteReq)
  /-- WINDOW_FULL_CELL_READ (R99): length 192 at a window slot address. -/
  | windowFullCellRead (addr : Addr)
  /-- WINDOW_PARTIAL_READ (R17). -/
  | windowPartialRead (addr : Addr) (len : Nat)
  /-- WINDOW_WRITE (R18). -/
  | windowWrite (w : WriteReq)
  /-- SOURCE_CELL_RETURN (R38): the 192 bytes memory returns for a redirected read. -/
  | sourceCellReturn (data : List Byte)
  /-- NETWORK_CELL_RETURN (R105): the 192 bytes memory returns for a read served from the network. -/
  | networkCellReturn (data : List Byte)
  /-- RING_RECORD_WRITE (R161): a whole write of the 32-byte record of ring k. -/
  | ringRecordWrite (k : RingNo) (record : List Byte)
  /-- CHANNEL_RECORD_WRITE (R161): a whole write of the 32-byte record of channel c. -/
  | channelRecordWrite (c : ChanNo) (record : List Byte)
  /-- ALERT_RECORD_WRITE (R161): a whole write of the 64-byte alert record. -/
  | alertRecordWrite (record : List Byte)
  /-- POD_RECORD_WRITE (R161): a whole write of the 64-byte record of pod p. -/
  | podRecordWrite (p : PodNo) (record : List Byte)
  /-- CLIP_RECORD_WRITE (R161): a whole write of the 32-byte record of clip n. -/
  | clipRecordWrite (n : ClipNo) (record : List Byte)
  /-- RECORD_WRITE_PARTIAL (R161). -/
  | recordWritePartial (w : WriteReq)
  /-- MAILBOX_MALFORMED_WRITE (R163). -/
  | mailboxMalformedWrite (w : WriteReq)
  /-- SPLICE_NOW (R164): a whole write of mailbox 1. -/
  | spliceNow (mb : List Byte)
  /-- RETURN_NOW (R165): a whole write of mailbox 2. -/
  | returnNow (mb : List Byte)
  /-- CANCEL_EVENT (R165): a whole write of mailbox 3. -/
  | cancelEvent (mb : List Byte)
  /-- POD_REVOKE (R83): a whole write of mailbox 4. -/
  | podRevoke (mb : List Byte)
  /-- FEED_START (R122): a whole write of mailbox 5. -/
  | feedStart (mb : List Byte)
  /-- FEED_STOP (R123): a whole write of mailbox 6. -/
  | feedStop (mb : List Byte)
  /-- ALERT_ENGAGE (R143): a whole write of mailbox 7. -/
  | alertEngage (mb : List Byte)
  /-- ALERT_END (R143): a whole write of mailbox 8. -/
  | alertEnd (mb : List Byte)
  /-- LOCKDOWN (R153): a whole write of mailbox 9. -/
  | lockdown (mb : List Byte)
  /-- SOFT_RESET (R166): a whole write of mailbox 10. -/
  | softReset (mb : List Byte)
  /-- FLAG_CLEAR (R170): a whole write of the word at 0x0100. -/
  | flagClear (word : List Byte)
  /-- FLAG_ENABLES (R169): a whole write of the word at 0x0108. -/
  | flagEnables (word : List Byte)
  /-- COUNTER_CLEAR (R169): a whole write of the word at 0x0110. -/
  | counterClear (word : List Byte)
  /-- CONSUME_INDEX (R158): a whole write of the word at 0x0118. -/
  | consumeIndex (word : List Byte)
  /-- STATUS_WORD_PARTIAL_WRITE (R169). -/
  | statusWordPartialWrite (w : WriteReq)
  /-- CONTROL_REGION_OTHER_WRITE (R160). -/
  | controlRegionOtherWrite (w : WriteReq)
  /-- LINE_SAMPLE (R135): the levels of ALRQ0, ALRQ1 and PROT_N at a sample, true for high. -/
  | lineSample (alrq0 alrq1 protN : Bool)
  /-- EPISODE_TIMER_ADVANCE (R137): 1 ms has passed. -/
  | episodeTimerAdvance
  /-- NETWORK_SLOT_NULL_RETURN (R108): the 192 bytes memory returns for a read served as a null cell in place of a network slot. -/
  | networkSlotNullReturn (data : List Byte)
deriving DecidableEq, Repr

end Sys2Proof
end

