-- ==== Sys2Proof/Decode.lean ====
section
/-! DEFINITION. The words of spec/opcode_table.json: the table gives bits to none of its rows. -/

namespace Sys2Proof

/-- The command a word spells by the table's bits. No row of the table has bits: the commands come as bus requests, responses and
events, whose operands are in their own constructors. -/
def decodeTableWord (_nbits _w : Nat) : Option Instr := none

end Sys2Proof
end

