-- ==== Sys2Proof/Config.lean ====
section
/-! DEFINITION. The capacities of 00_scope.md 3.5 and the one free value of the model. -/

namespace Sys2Proof.Config

/-- Entries of the cue queue (R55). -/
def cueQueueSize : Nat := 32
/-- Entries of one ring's watch list (R84). -/
def watchListSize : Nat := 16
/-- Points of one channel's switch queue (R92). -/
def switchQueueSize : Nat := 4
/-- Records of the as-run queue (R157). -/
def asRunSize : Nat := 128
/-- The longest cue section (R48). -/
def maxSection : Nat := 364
/-- Bytes of the status window: 12 KiB (R160). -/
def statusWindowSize : Nat := 0x3000
/-- Bytes of the control region: 64 KiB (R160). -/
def regionSize : Nat := 0x10000
/-- Bytes of one cell (00_scope.md 3.1). -/
def cellSize : Nat := 192
/-- The largest alignment window in ticks (R89). -/
def maxWindow : Nat := 900000
/-- The longest clip duration in ticks (R35). -/
def maxClipDuration : Nat := 54000000

/-- FREE VALUE (log 9). What the byte at this offset of the status window reads as while the field it belongs to is absent and
11.8 does not say what an absent field reads as; the second argument counts the status reads, so that no two reads need agree. -/
opaque absentByte (offset count : Nat) : Byte

end Sys2Proof.Config
end

