-- ==== Sys2Proof/Machine/State.lean ====
section
/-! DEFINITION. The whole state of the splicer, block by block (00_scope.md 1.2), its value after power-on reset, and the two ways a step can stop. -/

namespace Sys2Proof.Machine

/-! ### Rings (chapters 1 and 2) -/

/-- The kind of a ring record (table of 1.3). -/
inductive RingKind where | unused | network | feed
deriving DecidableEq, Repr

/-- The five component PIDs that ring and clip records share, each present or absent (R107, R109). -/
structure Components where
  pcr    : Option Pid := none
  video  : Option Pid := none
  audio1 : Option Pid := none
  audio2 : Option Pid := none
  aux    : Option Pid := none
deriving DecidableEq, Repr

/-- A ring record as the shadow holds it (table of 1.3; the base field has 40 bits, 11.8). -/
structure RingShadow where
  kind      : RingKind := .unused
  slotCount : BitVec 16 := 0
  base      : BitVec 40 := 0
  comps     : Components := {}
  pmt       : Option Pid := none
  cue       : Option Pid := none
deriving DecidableEq, Repr

/-- The class of a slot (table of 1.4). -/
inductive SlotClass where | unwritten | other | psi | vstart
deriving DecidableEq, Repr

/-- A start mark: sequence, PTS and stamp of a video start cell (R24). -/
structure StartMark where
  seq   : SeqNo
  pts   : Ticks
  stamp : Stamp
deriving DecidableEq, Repr

/-- A ring's section assembler (R48). In IDLE the buffer is empty and the other parts are absent. -/
inductive Assembler where
  | idle
  | collecting (buffer : List Byte) (expected : Option Nat) (lastCC : CC)
deriving DecidableEq, Repr

/-- What the Ring Tracker holds for one ring (table of 1.4), with the ring's section assembler (R48). -/
structure Ring where
  shadow     : RingShadow := {}
  writeCount : SeqNo := 0
  lastSlot   : Option Nat := none
  classes    : List SlotClass := []
  mark       : Option StartMark := none
  pcrBase    : Option Ticks := none
  syncLoss   : Counter := 0
  order      : Counter := 0
  assembler  : Assembler := .idle
deriving DecidableEq, Repr

/-! ### Cues (chapter 4) -/

/-- When a target falls due: at a tick value, or immediately (R54, R84). -/
inductive Target where
  | atTick (t : Ticks)
  | immediate
deriving DecidableEq, Repr

/-- The values of an OUT cue that a queue entry and a binding both hold (R55, R79). The target is the splice PTS, or
immediate with the splice PTS absent. -/
structure CueValues where
  target     : Target
  duration   : Option Dur
  autoReturn : Bool
  avail      : Byte
  expected   : Byte
  /-- The arrival start mark sequence. -/
  markSeq    : Option SeqNo
deriving DecidableEq, Repr

/-- An entry of the cue queue (R55). -/
structure CueEntry where
  ring       : RingNo
  event      : BitVec 32
  zones      : BitVec 8
  cue        : CueValues
  arrivalSeq : SeqNo
  waiting    : ChanSet
deriving DecidableEq, Repr

/-- The device-wide counters of the Cue Unit (R53). -/
structure CueCounters where
  crcError    : Counter := 0
  formatError : Counter := 0
  repeated    : Counter := 0
  lateRepeat  : Counter := 0
  lost        : Counter := 0
  other       : Counter := 0
deriving DecidableEq, Repr

/-! ### Clips, pods and targets (chapters 5 and 6) -/

/-- A clip shadow (R65). -/
structure ClipShadow where
  valid     : Bool := false
  base      : BitVec 40 := 0
  cellCount : BitVec 16 := 0
  comps     : Components := {}
  firstPts  : Ticks := 0
  duration  : Dur := 0
deriving DecidableEq, Repr

/-- The states of a pod (R69). -/
inductive PodState where | empty | ready | bound | pending | airing | suspended
deriving DecidableEq, Repr

/-- The fate of a spot (R69). -/
inductive SpotFate where | unstarted | playing | recorded
deriving DecidableEq, Repr

/-- What a pod keeps of one spot (R69), with the target stamp of the spot's switch-in, which its record needs (R116; log 15). R69 gives the fate no value
at a reset: UNSTARTED is the model's choice (log 10). -/
structure SpotInfo where
  fate       : SpotFate := .unstarted
  startSeq   : Option SeqNo := none
  startStamp : Option Stamp := none
  late       : Bool := false
  unaligned  : Bool := false
deriving DecidableEq, Repr

/-- A pod's binding to an OUT cue (R79). -/
structure Binding where
  ring  : RingNo
  event : Option (BitVec 32)
  cue   : CueValues
deriving DecidableEq, Repr

/-- The record part of a pod shadow (R68). The spot count is the length of the list. -/
structure PodRecord where
  chan       : ChanNo := 0
  spots      : List ClipNo := []
  filter     : Byte := 0
  breakDur   : Option Dur := none
  breakLimit : Option Dur := none
  filler     : Option ClipNo := none
  resume     : Bool := false
deriving DecidableEq, Repr

/-- A pod shadow with the pod's state (R68, R69) and its anchor (R45). -/
structure Pod where
  record      : PodRecord := {}
  state       : PodState := .empty
  binding     : Option Binding := none
  anchor      : Option (Ticks × SpotNo) := none
  spotInfo    : Vector SpotInfo 8 := Vector.replicate 8 {}
  fillerTotal : BitVec 32 := 0
deriving DecidableEq, Repr

/-- The kind of a watch entry or switch point, with its pod, spot or feed ring (R84, R91). -/
inductive PointKind where
  | out (p : PodNo)
  | ret (p : PodNo)
  | slotResume (p : PodNo) (k : SpotNo)
  | feedIn (f : RingNo)
  | feedOut (f : RingNo)
deriving DecidableEq, Repr

/-- A watch entry (R84). -/
structure WatchEntry where
  kind    : PointKind
  chan    : ChanNo
  target  : Target
  pcrBase : Option Ticks
  markSeq : Option SeqNo
deriving DecidableEq, Repr

/-- A switch point (R91). -/
structure SwitchPoint where
  kind    : PointKind
  seq     : SeqNo
  anchor  : Ticks
  stamp   : Stamp
  mark    : Option StartMark
  aligned : Bool
deriving DecidableEq, Repr

/-! ### Channels (chapters 2, 3, 7, 8 and 9) -/

/-- The state of a channel (R97, R98). -/
inductive ChanState where | off | network | insert | resumeWait | feed | alert
deriving DecidableEq, Repr

/-- A channel record as taken (R117): byte 0 as written, the other fields of 11.8, the alignment window clamped (R89). -/
structure ChannelRecord where
  flags  : Byte := 0
  ring   : Byte := 0
  base   : BitVec 40 := 0
  zone   : BitVec 3 := 0
  window : BitVec 32 := 0
deriving DecidableEq, Repr

/-- Where a playing pod stands: phase, spot index and cell index (R97). In EXHAUSTED the cell index is kept and not used (log 28). -/
inductive Position where
  | spot (k : SpotNo) (cell : Nat)
  | filler (cell : Nat)
  | exhausted (cell : Nat)
deriving DecidableEq, Repr

/-- A channel's last-output record (R29): V with t_V, and t_L. -/
structure LastOutput where
  video : Option (Ticks × Stamp) := none
  tL    : Option Stamp := none
deriving DecidableEq, Repr

/-- A switch-in (R37). `place` is the anchor P_s and the target stamp T, absent for a switch-in by estimate (R44); `ref` is P_a;
`origin` is the start mark's stamp that stands in place of t0 for a feed (R47). -/
structure SwitchIn where
  place  : Option (Ticks × Stamp)
  ref    : Ticks
  origin : Option Stamp
deriving DecidableEq, Repr

/-- An entry of the component CC table (R109). -/
structure CcEntry where
  pid  : Pid
  cc   : Option CC
  mark : Bool
deriving DecidableEq, Repr

/-- A feed run record (R121). -/
structure FeedRun where
  startSeq   : SeqNo
  startStamp : Stamp
  startPts   : Ticks
  delivered  : BitVec 32
  underrun   : BitVec 32
  late       : Bool
  unaligned  : Bool
deriving DecidableEq, Repr

/-- Feed ring, feed read sequence and run record, present together (R121). -/
structure FeedState where
  ring : RingNo
  fs   : SeqNo
  run  : FeedRun
deriving DecidableEq, Repr

/-- An alert source (00_scope.md 2.0), in priority order. -/
inductive Source where | line0 | line1 | command
deriving DecidableEq, Repr

/-- A pending alert mark (R145). -/
inductive AlertMark where | none | engage | source | restore
deriving DecidableEq, Repr

/-- A saved context (R146): the saved state with its parts. -/
inductive Saved where
  | network
  | insert (p : PodNo) (pos : Position)
  | resumeWait (p : PodNo)
  | feed (f : FeedState)
deriving DecidableEq, Repr

/-- What the Splice Engine and the Cell Rewriter hold for one channel (R29, R36, R92, R97, R109, R121, R145). -/
structure Channel where
  state      : ChanState := .off
  inForce    : ChannelRecord := {}
  staged     : Option ChannelRecord := none
  queue      : List SwitchPoint := []
  playing    : Option PodNo := none
  pos        : Option Position := none
  /-- The next redirected read is the first read of a new pass of a looping clip (R46; log 14). -/
  wrapDue    : Bool := false
  markReq    : Bool := false
  late       : Counter := 0
  d90        : Ticks := 0
  s          : Stamp := 0
  pendingIn  : Option SwitchIn := none
  runTarget  : Option Stamp := none
  spotTarget : Option Stamp := none
  lastOut    : LastOutput := {}
  cc         : List CcEntry := []
  feed       : Option FeedState := none
  underrun   : Counter := 0
  lostFeed   : Counter := 0
  mark       : AlertMark := .none
  alert      : Option (Source × ClipNo) := none
  alertCell  : Nat := 0
  saved      : Option Saved := none
deriving DecidableEq, Repr

/-! ### Alert Controller (chapter 9) -/

/-- Polarity of an alert line (R133). -/
inductive Polarity where | activeHigh | activeLow
deriving DecidableEq, Repr

/-- Mode of an alert line (R133). -/
inductive LineMode where | follow | latch
deriving DecidableEq, Repr

/-- What the alert record holds for one line (R133). -/
structure LineConfig where
  clip     : Option ClipNo := none
  polarity : Polarity := .activeHigh
  mode     : LineMode := .follow
  filter   : Nat := 1
deriving DecidableEq, Repr

/-- The alert record shadow, clamped (R133). -/
structure AlertRecord where
  participation : ChanSet := 0
  line0         : LineConfig := {}
  line1         : LineConfig := {}
  commandClip   : Option ClipNo := none
  hold          : Nat := 0
  limit         : Nat := 0
  protect       : Bool := false
deriving DecidableEq, Repr

/-- A line filter: filtered level and run count (R135). -/
structure LineFilter where
  active : Bool := false
  run    : Nat := 0
deriving DecidableEq, Repr

/-- The device alert state (R137). -/
inductive AlertState where | idle | active | hold
deriving DecidableEq, Repr

/-- A set of alert sources: bit 0 LINE0, bit 1 LINE1, bit 2 COMMAND (11.8, device block 0x004). -/
abbrev SourceSet := BitVec 3

/-- What the Alert Controller holds (R133, R135, R137). -/
structure AlertCtl where
  record   : AlertRecord := {}
  filter0  : LineFilter := {}
  filter1  : LineFilter := {}
  state    : AlertState := .idle
  engaged  : SourceSet := 0
  playing  : Option Source := none
  timer    : BitVec 32 := 0
  episode  : SourceSet := 0
  lockdown : ChanSet := 0
  protHigh : Bool := true
deriving DecidableEq, Repr

/-! ### As-Run Recorder (chapter 10) -/

/-- The kind of an as-run record (R154). -/
inductive RecordKind where
  | spotAired | spotTruncated | spotPreempted | spotNotAired | availMissed | feedEnded | alertStart | alertEnd
deriving DecidableEq, Repr

/-- The reason of an as-run record (R154). -/
inductive Reason where
  | truncated | preempted | revoked | noPod | queueFull | watchFull | released | limit | switchFull
deriving DecidableEq, Repr

/-- An as-run record (R154). -/
structure AsRunRecord where
  kind          : RecordKind
  reason        : Option Reason := none
  chan          : Option ChanNo := none
  pod           : Option PodNo := none
  spot          : Option SpotNo := none
  clip          : Option ClipNo := none
  event         : Option (BitVec 32) := none
  avail         : Option (Byte × Byte) := none
  startSeq      : Option SeqNo := none
  startStamp    : Option Stamp := none
  startPts      : Option Ticks := none
  delivered     : Option (BitVec 32) := none
  cellsExpected : Option (BitVec 16) := none
  fillerCells   : Option (BitVec 32) := none
  underrunCells : Option (BitVec 32) := none
  episodeMs     : Option (BitVec 32) := none
  sources       : Option SourceSet := none
  late          : Bool := false
  unaligned     : Bool := false
  underfill     : Bool := false
  filled        : Bool := false
deriving DecidableEq, Repr

/-- The as-run queue (R157). -/
structure AsRun where
  slots    : Vector (Option AsRunRecord) 128 := Vector.replicate 128 none
  producer : BitVec 8 := 0
  consume  : BitVec 8 := 0
  lost     : Counter := 0
deriving DecidableEq, Repr

/-! ### Control Intake (chapter 11) -/

/-- The result of a command (R163). -/
inductive Result where | accepted | state | range | isProtected | malformed
deriving DecidableEq, Repr

/-- The last command: tag, mailbox 1 to 10, result (R163). -/
structure LastCommand where
  tag     : Option (BitVec 32)
  mailbox : Nat
  result  : Result
deriving DecidableEq, Repr

/-- Why a record write was refused (R162). -/
inductive RefuseReason where | invalid | inUse | isProtected | partialWrite
deriving DecidableEq, Repr

/-! ### Path Unit (chapter 1) -/

/-- How a full-cell window read was served at its acceptance (R16, R105, R106), which decides what the Cell Rewriter does with its data. -/
inductive Serving where
  /-- A network cell (R105, or order 1 of R106). -/
  | network
  /-- An unwritten-slot read in NETWORK or RESUME_WAIT (R16). -/
  | untouched
  /-- A null cell in place of the network slot (R108). -/
  | nullSlot
  /-- Redirected to an insertion source (R38): the source's PIDs at acceptance (R107), whether the cell lies in a feed slot classed
  PSI (R128), the switch-in the read carries (R37), and the clip duration when the read is the first of a new pass (R46). -/
  | source (map : Components) (feedPsi : Bool) (switchIn : Option SwitchIn) (wrap : Option Dur)
deriving DecidableEq, Repr

/-- A full-cell window read whose data is still to come: its channel, its serving, whether it carries a mark request (R111), and the
pod whose resume is judged at its return (R151, R152). -/
structure WindowRead where
  chan    : ChanNo
  serving : Serving
  markReq : Bool
  resume  : Option PodNo
deriving DecidableEq, Repr

/-- How the response to a forwarded request is to be taken. -/
inductive Handling where
  | plain
  | window (w : WindowRead)
deriving DecidableEq, Repr

/-- An accepted request that has no response yet (R3): one forwarded downstream, with the request as forwarded; or a status window
read, whose answer was fixed at its acceptance (R168). -/
inductive Outstanding where
  | forwarded (r : Request) (how : Handling)
  | status (answer : List Byte)
deriving DecidableEq, Repr

/-- A response on the upstream port (R3). -/
inductive UpResponse where
  | readData (data : List Byte)
  | writeAck
deriving DecidableEq, Repr

/-! ### The state -/

/-- The state of the splicer. -/
structure State where
  /-- RST_N is low (R8). -/
  rstLow      : Bool := false
  /-- The strap levels CRB7..CRB0 as last sampled (R160). -/
  straps      : Byte := 0
  /-- Accepted requests without a response, in acceptance order (R3). -/
  outstanding : List Outstanding := []
  /-- Abandoned requests whose downstream response will be discarded, oldest first, true for a write (R8). -/
  abandoned   : List Bool := []
  /-- What the upstream port returned during the last command (log 4). -/
  upOut       : List UpResponse := []
  /-- What the downstream port was sent during the last command (log 4). -/
  downOut     : List Request := []
  rings       : Vector Ring 48 := Vector.replicate 48 {}
  cueQueue    : List CueEntry := []
  cueCounters : CueCounters := {}
  clips       : Vector ClipShadow 256 := Vector.replicate 256 {}
  pods        : Vector Pod 64 := Vector.replicate 64 {}
  ready       : Vector (List PodNo) 32 := Vector.replicate 32 []
  watch       : Vector (List WatchEntry) 48 := Vector.replicate 48 []
  channels    : Vector Channel 32 := Vector.replicate 32 {}
  alert       : AlertCtl := {}
  asRun       : AsRun := {}
  /-- The event flags, bit i as device block 0x014 numbers them (R170). -/
  flags       : BitVec 9 := 0
  enables     : BitVec 9 := 0
  lastCommand : Option LastCommand := none
  lastRefused : Option (Addr × RefuseReason) := none
  /-- The model's own: counts the status reads, for the free values of absent fields (log 9). -/
  freeCount   : Nat := 0
  /-- The commands that wait, first in first out. -/
  pending     : List Instr := []
deriving DecidableEq, Repr

/-- The machine right after power-on reset, with RST_N high and all straps low (log 5, log 6): every block at the values its chapter
gives, unexamined record fields at 0 or absent and the spot fates UNSTARTED (log 10). -/
def State.reset : State := {}

/-- Why a step stops: what the downstream port did is nothing the spec gives an effect (R3). -/
inductive Fault where
  /-- Raised by the response commands: the downstream port answers when no forwarded request awaits an answer of that kind. Safe: R3 says it does not
  happen (log 7). -/
  | responseOutOfOrder
  /-- Raised by the read response commands: the data is not as long as the read that awaits it. Safe (log 7). -/
  | responseLength
deriving DecidableEq, Repr

/-- Why a command has no meaning. -/
inductive Refusal where
  /-- Raised by an arm of exec whose command has no meaning yet. Safe. -/
  | notModelled (mnemonic : String)
  /-- Raised by every meaning for a command that no bus request or response can be (WellFormed.lean). Safe (log 8). -/
  | illFormed
deriving DecidableEq, Repr

end Sys2Proof.Machine
end

