-- ==== Sys2Proof/Machine/Arith.lean ====
section
/-! DEFINITION. Time arithmetic: the order of wrapping values (R33), durations in counts (R34), duration ranges (R35) and the presentation
estimate (R43). -/

namespace Sys2Proof.Machine

/-- Tick value `a` is at or after tick value `b` (R33). -/
def ticksAtOrAfter (a b : Ticks) : Bool := (a - b).toNat < 2 ^ 32

/-- Tick value `a` is after tick value `b` (R33). -/
def ticksAfter (a b : Ticks) : Bool := ticksAtOrAfter a b && a != b

/-- Tick value `a` is before tick value `b` (R33). -/
def ticksBefore (a b : Ticks) : Bool := !ticksAtOrAfter a b

/-- Sequence number `a` is at or after sequence number `b` (R33). -/
def seqAtOrAfter (a b : SeqNo) : Bool := (a - b).toNat < 2 ^ 31

/-- Sequence number `a` is after sequence number `b` (R33). -/
def seqAfter (a b : SeqNo) : Bool := seqAtOrAfter a b && a != b

/-- Sequence number `a` is before sequence number `b` (R33). -/
def seqBefore (a b : SeqNo) : Bool := !seqAtOrAfter a b

/-- A duration of `d` ticks in counts, modulo 2^32 (R34). -/
def inCounts (d : Dur) : Stamp := BitVec.ofNat 32 (300 * d.toNat)

/-- A duration as a tick value, to be added to a time (R34). -/
def asTicks (d : Dur) : Ticks := d.setWidth 33

/-- A break duration or limit from a wider field: present when it lies in 1..2^32 - 1 (R35). -/
def breakDuration (v : Nat) : Option Dur :=
  if 1 ≤ v ∧ v < 2 ^ 32 then some (BitVec.ofNat 32 v) else none

/-- The presentation estimate P_est of a last-output record (R43). -/
def estimate (o : LastOutput) : Option Ticks :=
  match o.video with
  | none => none
  | some (v, tV) =>
    let delta := (o.tL.getD tV - tV).toNat
    if 2 ^ 31 ≤ delta then some v else some (v + BitVec.ofNat 33 ((delta + 150) / 300))

/-- A counter of the splicer increased by `n`, saturating at 65,535 (00_scope.md 3.7). -/
def counterAdd (c : Counter) (n : Nat) : Counter := BitVec.ofNat 16 (min 65535 (c.toNat + n))

/-- A 32-bit count increased by one, held at 2^32 - 1 (R69, R121, R137). -/
def heldInc (c : BitVec 32) : BitVec 32 := if c = BitVec.allOnes 32 then c else c + 1

end Sys2Proof.Machine
end

