-- ==== Sys2Proof/Machine/Flags.lean ====
section
/-! DEFINITION. The nine event flags, their enables and the attention line (R170). -/

namespace Sys2Proof.Machine

/-- The event flags (R170). -/
inductive Flag where | asrun | alert | cue | refuse | command | late | feed | order | limit
deriving DecidableEq, Repr

/-- The bit of a flag in the flags and enables words (11.8, device block 0x014). -/
def flagBit : Flag → Nat
  | .asrun => 0
  | .alert => 1
  | .cue => 2
  | .refuse => 3
  | .command => 4
  | .late => 5
  | .feed => 6
  | .order => 7
  | .limit => 8

/-- The word with one flag's bit set. -/
def flagMask (f : Flag) : BitVec 9 := BitVec.twoPow 9 (flagBit f)

/-- An event sets a flag, whatever its enable (R170). -/
def setFlag (f : Flag) (s : State) : State := { s with flags := s.flags ||| flagMask f }

/-- A flag is set. -/
def hasFlag (f : Flag) (s : State) : Bool := s.flags.getLsbD (flagBit f)

/-- ATN_N is driven low: some flag is set together with its enable (R170). -/
def atnLow (s : State) : Bool := (s.flags &&& s.enables) != 0

end Sys2Proof.Machine
end

