-- ==== Sys2Proof/Machine/Bytes.lean ====
section
/-! DEFINITION. Byte order and fields of byte lists: multi-byte fields are most significant byte first and byte 0 lies lowest (11.8). -/

namespace Sys2Proof.Machine

/-- A byte list read as one number, most significant byte first (11.8). -/
def beNat (bs : List Byte) : Nat := bs.foldl (fun acc b => acc * 256 + b.toNat) 0

/-- `n` bytes from offset `off`. -/
def field (bs : List Byte) (off n : Nat) : List Byte := (bs.drop off).take n

/-- The `n`-byte field at `off` as a number (11.8). -/
def fieldNat (bs : List Byte) (off n : Nat) : Nat := beNat (field bs off n)

/-- The byte at `off`; a list that ends before it gives 0, which no well-formed structure shows. -/
def byteAt (bs : List Byte) (off : Nat) : Byte := bs.getD off 0

/-- Bit `i` of the byte at `off`, bit 7 the most significant (11.8). -/
def bitAt (bs : List Byte) (off i : Nat) : Bool := (byteAt bs off).getLsbD i

/-- A number as `n` bytes, most significant byte first (11.8). -/
def toBytes : (n v : Nat) → List Byte
  | 0, _ => []
  | n + 1, v => BitVec.ofNat 8 (v / 256 ^ n) :: toBytes n v

/-- The bytes `new` written over `bs` from offset `off`. -/
def overwrite (bs : List Byte) (off : Nat) (new : List Byte) : List Byte :=
  bs.take off ++ new ++ bs.drop (off + new.length)

/-- A two-byte PID field of a record: the low 13 bits, 0x1FFF meaning absent (00_scope.md 3.6, 11.8). -/
def pidField (bs : List Byte) (off : Nat) : Option Pid :=
  let p : Pid := BitVec.ofNat 13 (fieldNat bs off 2)
  if p = 0x1FFF then none else some p

/-- A 33-bit time in a five-byte field: bit 0 of the first byte and the next four bytes (11.8). -/
def timeField (bs : List Byte) (off : Nat) : Ticks := BitVec.ofNat 33 (fieldNat bs off 5)

end Sys2Proof.Machine
end

