-- ==== Sys2Proof/Machine/Operands.lean ====
section
/-! DEFINITION. The operand forms: every record, mailbox and cue section of 11.8 as the splicer reads it from bytes. -/

namespace Sys2Proof.Machine

/-- The kind byte of a ring record: 0 UNUSED, 1 NETWORK, 2 FEED, others none of them (11.8, R5). -/
def ringKindOf (b : Byte) : Option RingKind :=
  if b = 0 then some .unused else if b = 1 then some .network else if b = 2 then some .feed else none

/-- A ring record (11.8); absent when its kind byte names no kind (R5). -/
def parseRing (bs : List Byte) : Option RingShadow :=
  (ringKindOf (byteAt bs 0)).map fun kind =>
    { kind := kind, slotCount := BitVec.ofNat 16 (fieldNat bs 2 2), base := BitVec.ofNat 40 (fieldNat bs 4 5),
      comps := { pcr := pidField bs 10, video := pidField bs 12, audio1 := pidField bs 14, audio2 := pidField bs 16,
                 aux := pidField bs 18 },
      pmt := pidField bs 20, cue := pidField bs 22 }

/-- A channel record (11.8), its alignment window clamped (R89). -/
def parseChannel (bs : List Byte) : ChannelRecord :=
  { flags := byteAt bs 0, ring := byteAt bs 1, zone := (byteAt bs 2).extractLsb' 0 3,
    base := BitVec.ofNat 40 (fieldNat bs 4 5),
    window := BitVec.ofNat 32 (min (fieldNat bs 12 4) Config.maxWindow) }

/-- The enable bit of a channel record (11.8). -/
def ChannelRecord.enable (r : ChannelRecord) : Bool := r.flags.getLsbD 0

/-- The cue response of a channel record is IGNORE (11.8). -/
def ChannelRecord.ignoresCues (r : ChannelRecord) : Bool := r.flags.getLsbD 1

/-- A clip field of the alert record: bit 7 of the first byte is the present flag, the second byte the clip (11.8). -/
def clipField (bs : List Byte) (off : Nat) : Option ClipNo :=
  if bitAt bs off 7 then some (byteAt bs (off + 1)).toFin else none

/-- One line's part of the alert record, its filter length clamped to 1..16 (R133). -/
def lineField (bs : List Byte) (clipOff cfgOff : Nat) : LineConfig :=
  { clip := clipField bs clipOff,
    polarity := if bitAt bs cfgOff 0 then .activeLow else .activeHigh,
    mode := if bitAt bs cfgOff 1 then .latch else .follow,
    filter := max 1 (min 16 (byteAt bs (cfgOff + 1)).toNat) }

/-- The alert record (11.8) with the clamps of R133. -/
def parseAlert (bs : List Byte) : AlertRecord :=
  { participation := BitVec.ofNat 32 (fieldNat bs 0 4), line0 := lineField bs 4 10, line1 := lineField bs 6 12,
    commandClip := clipField bs 8, hold := min 60000 (fieldNat bs 14 2), limit := min 120 (fieldNat bs 16 2),
    protect := bitAt bs 18 0 }

/-- The clip that the alert record names for a source (R133). -/
def AlertRecord.clipOf (r : AlertRecord) : Source → Option ClipNo
  | .line0 => r.line0.clip
  | .line1 => r.line1.clip
  | .command => r.commandClip

/-- The load flag of a pod record (R68, 11.8). -/
def podLoadFlag (bs : List Byte) : Bool := bitAt bs 0 0

/-- An optional break duration or limit of a pod record: outer none when it is present and out of range (R70). -/
def podDuration (bs : List Byte) (bit off : Nat) : Option (Option Dur) :=
  if bitAt bs 0 bit then (breakDuration (fieldNat bs off 5)).map some else some none

/-- A pod record (11.8), present when the conditions of R70 that need no clip shadow hold. -/
def parsePod (bs : List Byte) : Option PodRecord :=
  let c := (byteAt bs 1).toNat
  let n := (byteAt bs 2).toNat
  if h : c < 32 then
    if 1 ≤ n ∧ n ≤ 8 then
      match podDuration bs 3 16, podDuration bs 4 24 with
      | some dur, some limit =>
        some { chan := ⟨c, h⟩, spots := (field bs 4 n).map (·.toFin), filter := byteAt bs 3, breakDur := dur,
               breakLimit := limit, filler := if bitAt bs 0 2 then some (byteAt bs 12).toFin else none,
               resume := bitAt bs 0 1 }
      | _, _ => none
    else none
  else none

/-- The fields of a clip record (11.8), with the validity that R66 gives them. -/
def parseClip (bs : List Byte) : ClipShadow :=
  let base := fieldNat bs 0 5
  let count := fieldNat bs 6 2
  let dur := fieldNat bs 24 4
  { valid := decide (1 ≤ count) && base % 64 == 0 && decide (1 ≤ dur) && decide (dur ≤ Config.maxClipDuration) &&
      decide (base + Config.cellSize * count ≤ 2 ^ 36),
    base := BitVec.ofNat 40 base, cellCount := BitVec.ofNat 16 count,
    comps := { pcr := pidField bs 8, video := pidField bs 10, audio1 := pidField bs 12, audio2 := pidField bs 14,
               aux := pidField bs 16 },
    firstPts := timeField bs 18, duration := BitVec.ofNat 32 dur }

/-- The tag of a mailbox (R163). -/
def mailboxTag (mb : List Byte) : BitVec 32 := BitVec.ofNat 32 (fieldNat mb 0 4)

/-- The operands of FEED_START: channel, feed ring, start PTS, end PTS (11.8, R122). -/
structure FeedStartArgs where
  chan  : Nat
  ring  : Nat
  start : Option Ticks
  stop  : Option Ticks
deriving DecidableEq, Repr

/-- The FEED_START mailbox (11.8). -/
def parseFeedStart (mb : List Byte) : FeedStartArgs :=
  { chan := (byteAt mb 4).toNat % 64, ring := (byteAt mb 5).toNat,
    start := if bitAt mb 4 6 then some (timeField mb 6) else none,
    stop := if bitAt mb 4 7 then some (timeField mb 11) else none }

/-- A channel number of a mailbox byte, when it lies in 0..31. -/
def chanOf (n : Nat) : Option ChanNo := if h : n < 32 then some ⟨n, h⟩ else none

/-- A ring number of a mailbox byte, when it lies in 0..47. -/
def ringOf (n : Nat) : Option RingNo := if h : n < 48 then some ⟨n, h⟩ else none

/-- A pod number of a mailbox byte, when it lies in 0..63. -/
def podOf (n : Nat) : Option PodNo := if h : n < 64 then some ⟨n, h⟩ else none

/-- The kinds of a good cue (R52). -/
inductive CueKind where | out | back | cancel
deriving DecidableEq, Repr

/-- The fields of a good cue (R54); the arrival start mark sequence is added by the Cue Unit. -/
structure Cue where
  kind       : CueKind
  event      : BitVec 32
  zones      : BitVec 8
  target     : Target
  duration   : Option Dur
  autoReturn : Bool
  avail      : Byte
  expected   : Byte
deriving DecidableEq, Repr

/-- The command kind of a section: 1 OUT, 2 IN, 3 CANCEL (R52). -/
def cueKindOf (b : Byte) : Option CueKind :=
  if b = 1 then some .out else if b = 2 then some .back else if b = 3 then some .cancel else none

/-- One byte taken into the CRC register, most significant bit first, polynomial 0x04C11DB7 (R52). -/
def crcByte (crc : BitVec 32) (b : Byte) : BitVec 32 :=
  (List.range 8).foldl (fun c _ => if c.msb then (c <<< 1) ^^^ 0x04C11DB7 else c <<< 1) (crc ^^^ (b.setWidth 32 <<< 24))

/-- The CRC-32 of a section, from all ones, with no inversion of the result (R52). -/
def crc32 (bs : List Byte) : BitVec 32 := bs.foldl crcByte (BitVec.allOnes 32)

/-- The fields of a complete section whose kind is known (R54, 11.8). -/
def cueFields (kind : CueKind) (sec : List Byte) : Cue :=
  { kind := kind, event := BitVec.ofNat 32 (fieldNat sec 5 4), zones := byteAt sec 9,
    target := if bitAt sec 10 0 then .immediate else .atTick (timeField sec 11),
    duration := if bitAt sec 10 1 then breakDuration (timeField sec 16).toNat else none,
    autoReturn := bitAt sec 10 2, avail := byteAt sec 21, expected := byteAt sec 22 }

/-- How a complete section fares in the checks of R52. -/
inductive SectionCheck where
  | crcError
  | formatError
  | good (c : Cue)
deriving DecidableEq, Repr

/-- The checks of R52, in order. -/
def checkSection (sec : List Byte) : SectionCheck :=
  if crc32 sec ≠ 0 then .crcError
  else if byteAt sec 3 ≠ 0 then .formatError
  else match cueKindOf (byteAt sec 4) with
    | none => .formatError
    | some kind => .good (cueFields kind sec)

end Sys2Proof.Machine
end

