-- ==== Sys2Proof/Machine/Ops.lean ====
section
/-! DEFINITION. The named operations over the state: one read and one write for each bank, the as-run queue (R157), refusals (R162),
where rings, windows and the control region lie (R1, R2, R14, R160). -/

namespace Sys2Proof.Machine

/-! ### Banks -/

/-- Ring `r`. -/
def State.ring (s : State) (r : RingNo) : Ring := s.rings.get r
/-- Ring `r` replaced. -/
def State.setRing (s : State) (r : RingNo) (x : Ring) : State := { s with rings := s.rings.set r x }
/-- Clip shadow `n`. -/
def State.clip (s : State) (n : ClipNo) : ClipShadow := s.clips.get n
/-- Clip shadow `n` replaced. -/
def State.setClip (s : State) (n : ClipNo) (x : ClipShadow) : State := { s with clips := s.clips.set n x }
/-- Pod `p`. -/
def State.pod (s : State) (p : PodNo) : Pod := s.pods.get p
/-- Pod `p` replaced. -/
def State.setPod (s : State) (p : PodNo) (x : Pod) : State := { s with pods := s.pods.set p x }
/-- The ready list of channel `c` (R74). -/
def State.readyList (s : State) (c : ChanNo) : List PodNo := s.ready.get c
/-- The ready list of channel `c` replaced. -/
def State.setReady (s : State) (c : ChanNo) (x : List PodNo) : State := { s with ready := s.ready.set c x }
/-- The watch list of ring `r` (R84). -/
def State.watchList (s : State) (r : RingNo) : List WatchEntry := s.watch.get r
/-- The watch list of ring `r` replaced. -/
def State.setWatch (s : State) (r : RingNo) (x : List WatchEntry) : State := { s with watch := s.watch.set r x }
/-- Channel `c`. -/
def State.chan (s : State) (c : ChanNo) : Channel := s.channels.get c
/-- Channel `c` replaced. -/
def State.setChan (s : State) (c : ChanNo) (x : Channel) : State := { s with channels := s.channels.set c x }
/-- Channel `c` changed. -/
def State.modChan (s : State) (c : ChanNo) (f : Channel → Channel) : State := s.setChan c (f (s.chan c))
/-- Pod `p` changed. -/
def State.modPod (s : State) (p : PodNo) (f : Pod → Pod) : State := s.setPod p (f (s.pod p))
/-- Ring `r` changed. -/
def State.modRing (s : State) (r : RingNo) (f : Ring → Ring) : State := s.setRing r (f (s.ring r))

/-- All channels, ascending. -/
def allChans : List ChanNo := List.finRange 32
/-- All rings, ascending. -/
def allRings : List RingNo := List.finRange 48
/-- All pods, ascending. -/
def allPods : List PodNo := List.finRange 64
/-- All spots, ascending. -/
def allSpots : List SpotNo := List.finRange 8

/-- An effect taken for each element of a list in its order, each whole before the next. -/
def forEach {α : Type} (xs : List α) (f : α → State → State) (s : State) : State := xs.foldl (fun s x => f x s) s

/-- A channel is in a set (bit c for channel c, 11.8). -/
def setHas (set : ChanSet) (c : ChanNo) : Bool := set.getLsbD c.val
/-- A set without one channel. -/
def setDrop (set : ChanSet) (c : ChanNo) : ChanSet := set &&& ~~~ (BitVec.twoPow 32 c.val)

/-! ### Channels, rings and pods: what they are in -/

/-- A channel is enabled exactly while it is not OFF (R97, R98). -/
def Channel.enabled (ch : Channel) : Bool := ch.state != .off

/-- The network ring of a record. Read for enabled channels only, whose ring number R14 holds to 0..47 (log 26). -/
def ChannelRecord.netRing (r : ChannelRecord) : RingNo := Fin.ofNat 48 r.ring.toNat

/-- The record names ring `r` as its network ring. -/
def ChannelRecord.names (rc : ChannelRecord) (r : RingNo) : Bool := rc.ring.toNat == r.val

/-- The network ring of channel `c`. -/
def State.netRing (s : State) (c : ChanNo) : RingNo := (s.chan c).inForce.netRing

/-- Channel `c` is enabled with network ring `r`. -/
def State.isOnRing (s : State) (c : ChanNo) (r : RingNo) : Bool := (s.chan c).enabled && (s.chan c).inForce.names r

/-- Pod `p` belongs to channel `c` and is not EMPTY: its record names the channel (R68). -/
def State.ownedBy (s : State) (p : PodNo) (c : ChanNo) : Bool := (s.pod p).state != .empty && (s.pod p).record.chan == c

/-- A pod state in which the pod's record and clips are fixed (R67, R73). -/
def PodState.isBusy : PodState → Bool
  | .empty | .ready => false
  | .bound | .pending | .airing | .suspended => true

/-- A pod state past the resolution of the OUT entry (R56, R62, R118). -/
def PodState.isStarted : PodState → Bool
  | .empty | .ready | .bound => false
  | .pending | .airing | .suspended => true

/-- Some pod of channel `c` is PENDING, AIRING or SUSPENDED (R118). -/
def State.hasStartedPod (s : State) (c : ChanNo) : Bool :=
  allPods.any fun p => s.ownedBy p c && (s.pod p).state.isStarted

/-- The binding of pod `p` names ring `r` and event `e` (R56). -/
def State.bindingIs (s : State) (p : PodNo) (r : RingNo) (e : BitVec 32) : Bool :=
  match (s.pod p).binding with
  | some b => b.ring == r && b.event == some e
  | none => false

/-! ### Pods' clips and slot starts -/

/-- The clip of spot `k` of a pod record. -/
def PodRecord.clipOf (r : PodRecord) (k : Nat) : ClipNo := r.spots.getD k 0

/-- The pod names the clip as one of its spots or as its filler (R67). -/
def PodRecord.lists (r : PodRecord) (n : ClipNo) : Bool := r.spots.contains n || r.filler == some n

/-- Every clip the record lists has a VALID shadow (R70, R76). -/
def State.clipsValid (s : State) (r : PodRecord) : Bool :=
  r.spots.all (fun n => (s.clip n).valid) && (match r.filler with | some n => (s.clip n).valid | none => true)

/-- The pod's avail filter accepts an avail number (R76). -/
def PodRecord.accepts (r : PodRecord) (avail : Byte) : Bool := r.filter == 0 || r.filter == avail

/-- The sum of the clip durations of spots j to k - 1 (R45). -/
def State.spotSpan (s : State) (r : PodRecord) (j k : Nat) : Ticks :=
  ((List.range k).drop j).foldl (fun t i => t + asTicks (s.clip (r.clipOf i)).duration) 0

/-- The slot start of spot `k`, or of the filler for `k` equal to the spot count, from the pod's anchor (R45). -/
def State.slotStart (s : State) (p : PodNo) (k : Nat) : Ticks :=
  match (s.pod p).anchor with
  | some (a, j0) => a + s.spotSpan (s.pod p).record j0.val k
  | none => 0

/-! ### The as-run queue -/

/-- The number of records held (R157). -/
def AsRun.held (q : AsRun) : Nat := (q.producer - q.consume).toNat

/-- The record slots with one slot replaced. -/
def AsRun.store (q : AsRun) (rec : AsRunRecord) : Vector (Option AsRunRecord) 128 :=
  q.slots.set (q.producer.toNat % 128) (some rec) (Nat.mod_lt _ (by decide))

/-- A record reaches the queue: stored while fewer than 128 are held, counted lost otherwise (R157). -/
def AsRun.push (rec : AsRunRecord) (q : AsRun) : AsRun :=
  if q.held < Config.asRunSize then { q with slots := q.store rec, producer := q.producer + 1 }
  else { q with lost := counterAdd q.lost 1 }

/-- A record reaches the As-Run Recorder; ASRUN is set either way (R157). -/
def asRunPush (rec : AsRunRecord) (s : State) : State := setFlag .asrun { s with asRun := s.asRun.push rec }

/-- An AVAIL_MISSED record (R59, R61, R79, R93). -/
def availMissed (c : ChanNo) (reason : Reason) (event : Option (BitVec 32)) (cv : CueValues) : State → State :=
  asRunPush { kind := .availMissed, reason := some reason, chan := some c, event := event, avail := some (cv.avail, cv.expected) }

/-! ### Refusals and results -/

/-- A refused record or word write: REFUSE is set and the last refused write replaced (R162). -/
def refuse (a : Addr) (why : RefuseReason) (s : State) : State :=
  setFlag .refuse { s with lastRefused := some (a, why) }

/-- A command's result replaces the last command; a result other than ACCEPTED sets COMMAND (R163). -/
def finishCommand (tag : Option (BitVec 32)) (mailbox : Nat) (result : Result) (s : State) : State :=
  let s := { s with lastCommand := some { tag := tag, mailbox := mailbox, result := result } }
  if result = .accepted then s else setFlag .command s

/-! ### Where things lie -/

/-- Two byte ranges (start, length) have a byte in common. -/
def rangesMeet (a la b lb : Nat) : Bool := decide (0 < la) && decide (0 < lb) && decide (a < b + lb) && decide (b < a + la)

/-- The first range lies wholly within the second. -/
def rangeWithin (a la b lb : Nat) : Bool := decide (b ≤ a) && decide (a + la ≤ b + lb)

/-- The base address of the control region: the straps are address bits 35 to 28 (R160). -/
def State.regionBase (s : State) : Nat := (s.straps ++ (0 : BitVec 28)).toNat

/-- The address at an offset of the control region. -/
def State.regionAddr (s : State) (off : Nat) : Addr := BitVec.ofNat 36 (s.regionBase + off)

/-- The length in bytes of a ring's slot range (R1). -/
def RingShadow.bytes (r : RingShadow) : Nat := Config.cellSize * r.slotCount.toNat

/-- The ring is tracked: its kind is not UNUSED, so it has a slot range (R2). -/
def RingShadow.tracked (r : RingShadow) : Bool := r.kind != .unused

/-- A byte range touches the slot range of a ring (R2). -/
def RingShadow.meets (r : RingShadow) (a la : Nat) : Bool := r.tracked && rangesMeet a la r.base.toNat r.bytes

/-- The length of a window: as many slots as the network ring (R14). -/
def State.windowBytes (s : State) (c : ChanNo) : Nat := (s.ring (s.netRing c)).shadow.bytes

/-- The base of a channel's window. -/
def State.windowBase (s : State) (c : ChanNo) : Nat := (s.chan c).inForce.base.toNat

/-- A byte range touches the window of channel `c`, which is recognised while the channel is enabled (R14). -/
def State.windowMeets (s : State) (c : ChanNo) (a la : Nat) : Bool :=
  (s.chan c).enabled && rangesMeet a la (s.windowBase c) (s.windowBytes c)

/-- A byte range touches the control region (R2). -/
def State.regionMeets (s : State) (a la : Nat) : Bool := rangesMeet a la s.regionBase Config.regionSize

/-- The slot whose address is `a`, in an area of `n` slots at `base` (R1). -/
def slotAt (base n a : Nat) : Option Nat :=
  if base ≤ a ∧ (a - base) % Config.cellSize = 0 ∧ (a - base) / Config.cellSize < n then
    some ((a - base) / Config.cellSize)
  else none

/-- The address of slot `k` of a ring (R1). -/
def RingShadow.slotAddr (r : RingShadow) (k : Nat) : Addr := BitVec.ofNat 36 (r.base.toNat + Config.cellSize * k)

/-- The address of cell `i` of a clip (5.1). -/
def ClipShadow.cellAddr (cl : ClipShadow) (i : Nat) : Addr := BitVec.ofNat 36 (cl.base.toNat + Config.cellSize * i)

/-- The class of slot `k` of a ring (table of 1.4). -/
def Ring.classOf (r : Ring) (k : Nat) : SlotClass := r.classes.getD k .unwritten

/-- The ring with slot `k` classed (R10, R13, R23). -/
def Ring.setClass (r : Ring) (k : Nat) (c : SlotClass) : Ring := { r with classes := r.classes.set k c }

/-- The ORDER flag is set and a ring's order counter incremented (section 1.7). -/
def countOrder (r : RingNo) (s : State) : State :=
  setFlag .order (s.modRing r fun x => { x with order := counterAdd x.order 1 })

end Sys2Proof.Machine
end

