-- ==== Sys2Proof/Machine/Breaks.lean ====
section
/-! DEFINITION. The Break Scheduler: watch lists (R84 to R87), switch queues' removals (R92), closing (R75), binding (R76 to R80) and
unbinding (R81). -/

namespace Sys2Proof.Machine

/-! ### Watch entries and switch points -/

/-- The pod of an entry or point, when its kind has one (R84, R91). -/
def PointKind.pod? : PointKind → Option PodNo
  | .out p | .ret p | .slotResume p _ => some p
  | .feedIn _ | .feedOut _ => none

/-- The feed ring of an entry or point, when its kind has one (R84, R91). -/
def PointKind.feed? : PointKind → Option RingNo
  | .feedIn f | .feedOut f => some f
  | .out _ | .ret _ | .slotResume _ _ => none

/-- An entry or point is of kind FEED_IN. -/
def PointKind.isFeedIn : PointKind → Bool
  | .feedIn _ => true
  | _ => false

/-- An entry or point is of kind FEED_OUT. -/
def PointKind.isFeedOut : PointKind → Bool
  | .feedOut _ => true
  | _ => false

/-- An entry or point is a SLOT_RESUME of pod `p`. -/
def PointKind.isResumeOf (p : PodNo) : PointKind → Bool
  | .slotResume q _ => q == p
  | _ => false

/-- Two entries are the same entry: a pod has at most one of each kind, a channel at most one FEED_IN and FEED_OUT (R84). -/
def WatchEntry.same (a b : WatchEntry) : Bool := a.kind == b.kind && a.chan == b.chan

/-- The ring's watch list has a free place (R85). -/
def State.watchHasRoom (s : State) (r : RingNo) (n : Nat := 1) : Bool :=
  decide ((s.watchList r).length + n ≤ Config.watchListSize)

/-- The entry as it is armed on ring `r` now (R85): an immediate target takes the ring's latest PCR base, and only an immediate OUT
holds a start mark sequence (R84). -/
def State.armed (s : State) (r : RingNo) (kind : PointKind) (c : ChanNo) (target : Target) (markSeq : Option SeqNo) : WatchEntry :=
  match target with
  | .atTick _ => { kind := kind, chan := c, target := target, pcrBase := none, markSeq := none }
  | .immediate => { kind := kind, chan := c, target := target, pcrBase := (s.ring r).pcrBase, markSeq := markSeq }

/-- Arms a new entry, placed last; the caller has seen a free place (R85). -/
def arm (r : RingNo) (kind : PointKind) (c : ChanNo) (target : Target) (markSeq : Option SeqNo) (s : State) : State :=
  s.setWatch r (s.watchList r ++ [s.armed r kind c target markSeq])

/-- Replaces the target of an entry in its place (R86). -/
def rearm (r : RingNo) (kind : PointKind) (c : ChanNo) (target : Target) (markSeq : Option SeqNo) (s : State) : State :=
  let new := s.armed r kind c target markSeq
  s.setWatch r ((s.watchList r).map fun e => if e.same new then new else e)

/-- The ring's list holds an entry of this kind and channel. -/
def State.watches (s : State) (r : RingNo) (kind : PointKind) (c : ChanNo) : Bool :=
  (s.watchList r).any fun e => e.kind == kind && e.chan == c

/-- The entry of pod `p` of kind RETURN on ring `r`, when it has one. -/
def State.returnEntry (s : State) (r : RingNo) (p : PodNo) : Option WatchEntry :=
  (s.watchList r).find? fun e => e.kind == .ret p

/-- Removes from every watch list the entries that a test picks out; the others keep their order (R87). -/
def dropEntries (gone : WatchEntry → Bool) (s : State) : State :=
  { s with watch := s.watch.map fun l => l.filter fun e => !gone e }

/-- Removes from a channel's switch queue the points that a test picks out; the others keep their order (R92). -/
def dropPoints (c : ChanNo) (gone : SwitchPoint → Bool) (s : State) : State :=
  s.modChan c fun ch => { ch with queue := ch.queue.filter fun pt => !gone pt }

/-- Removes every watch entry and switch point of pod `p` (R75 steps 2 and 3, R81 steps 1 and 2). -/
def dropPodTargets (p : PodNo) (s : State) : State :=
  dropPoints (s.pod p).record.chan (fun pt => pt.kind.pod? == some p) (dropEntries (fun e => e.kind.pod? == some p) s)

/-- Removes the FEED_IN and FEED_OUT entries and points of channel `c` (R123, R131). -/
def dropFeedTargets (c : ChanNo) (s : State) : State :=
  dropPoints c (fun pt => pt.kind.feed?.isSome) (dropEntries (fun e => e.chan == c && e.kind.feed?.isSome) s)

/-- A feed start is abandoned: its entries and points go and FEED is set (R131). -/
def abandonFeed (c : ChanNo) (s : State) : State := setFlag .feed (dropFeedTargets c s)

/-- Some watch entry of channel `c` passes a test. -/
def State.hasEntry (s : State) (c : ChanNo) (test : PointKind → Bool) : Bool :=
  allRings.any fun r => (s.watchList r).any fun e => e.chan == c && test e.kind

/-- Some point in channel `c`'s switch queue passes a test. -/
def State.hasPoint (s : State) (c : ChanNo) (test : PointKind → Bool) : Bool :=
  (s.chan c).queue.any fun pt => test pt.kind

/-! ### As-run records of spots -/

/-- The flags LATE and UNALIGNED of the point at whose application a record is made (R155). -/
structure EndFlags where
  late      : Bool := false
  unaligned : Bool := false
deriving DecidableEq, Repr

/-- What every spot record carries (R75, R116): channel, pod, spot, clip, event id and avail pair of the binding, cells expected. -/
def State.spotRecord (s : State) (p : PodNo) (k : SpotNo) (kind : RecordKind) : AsRunRecord :=
  let pod := s.pod p
  let n := pod.record.clipOf k.val
  { kind := kind, chan := some pod.record.chan, pod := some p, spot := some k, clip := some n,
    event := pod.binding.bind (·.event), avail := pod.binding.map fun b => (b.cue.avail, b.cue.expected),
    cellsExpected := some (s.clip n).cellCount }

/-- The record of a spot whose fate is PLAYING (R116): the start fields, cells delivered, and the flags of the point that began it
together with those of the point that ends it (R155). -/
def State.playedRecord (s : State) (p : PodNo) (k : SpotNo) (kind : RecordKind) (delivered : Nat) (ends : EndFlags) : AsRunRecord :=
  let info := (s.pod p).spotInfo.get k
  { s.spotRecord p k kind with
    startSeq := info.startSeq, startStamp := info.startStamp, startPts := some (s.slotStart p k.val),
    delivered := some (BitVec.ofNat 32 delivered),
    late := info.late || ends.late, unaligned := info.unaligned || ends.unaligned }

/-- A SPOT_NOT_AIRED record (R75). -/
def State.notAiredRecord (s : State) (p : PodNo) (k : SpotNo) (why : Reason) (ends : EndFlags) : AsRunRecord :=
  { s.spotRecord p k .spotNotAired with reason := some why, late := ends.late, unaligned := ends.unaligned }

/-- What a pod keeps of one spot, changed. -/
def modSpot (p : PodNo) (k : SpotNo) (f : SpotInfo → SpotInfo) (s : State) : State :=
  s.modPod p fun pod => { pod with spotInfo := pod.spotInfo.set k.val (f (pod.spotInfo.get k)) }

/-- A spot's fate becomes RECORDED (R69). -/
def markRecorded (p : PodNo) (k : SpotNo) : State → State := modSpot p k fun i => { i with fate := .recorded }

/-- A spot that never started is given its SPOT_NOT_AIRED record (R75 step 1). -/
def recordNotAired (p : PodNo) (why : Reason) (ends : EndFlags) (k : SpotNo) (s : State) : State :=
  if k.val < (s.pod p).record.spots.length && ((s.pod p).spotInfo.get k).fate == .unstarted then
    markRecorded p k (asRunPush (s.notAiredRecord p k why ends) s)
  else s

/-- A pod with no binding and no anchor, EMPTY (R75 step 4). -/
def Pod.close (pod : Pod) : Pod := { pod with binding := none, anchor := none, state := .empty }

/-- A pod is closed (R75). -/
def closePod (p : PodNo) (why : Reason) (ends : EndFlags) (s : State) : State :=
  (dropPodTargets p (forEach allSpots (recordNotAired p why ends) s)).modPod p Pod.close

/-! ### Binding -/

/-- A pod that a cue has bound: BOUND, with its binding (R79). -/
def Pod.bind (r : RingNo) (event : Option (BitVec 32)) (cv : CueValues) (pod : Pod) : Pod :=
  { pod with state := .bound, binding := some { ring := r, event := event, cue := cv } }

/-- The watch entry of an OUT target is armed for the pod, or no place is free and channel `c` is given AVAIL_MISSED with reason
WATCH_FULL (R79). Answers whether the binding was made. -/
def bindPod (p : PodNo) (c : ChanNo) (r : RingNo) (event : Option (BitVec 32)) (cv : CueValues) (s : State) : State × Bool :=
  if s.watchHasRoom r then
    let s := s.setReady c ((s.readyList c).filter (· != p))
    let s := s.modPod p (Pod.bind r event cv)
    (arm r (.out p) c cv.target cv.markSeq s, true)
  else (availMissed c .watchFull event cv s, false)

/-- The pod is eligible for a cue with this avail number (R76). -/
def State.eligible (s : State) (avail : Byte) (p : PodNo) : Bool :=
  (s.pod p).record.accepts avail && s.clipsValid (s.pod p).record

/-- Binding is tried for channel `c` against a cue (R77): the oldest eligible pod of its ready list. Answers whether the channel
leaves the pending set. -/
def tryChannel (c : ChanNo) (r : RingNo) (event : BitVec 32) (cv : CueValues) (s : State) : State × Bool :=
  match (s.readyList c).find? (s.eligible cv.avail) with
  | none => (s, false)
  | some p => ((bindPod p c r (some event) cv s).1, true)

/-- Binding is tried for each channel of a set, ascending (R57 step 3, R59 step 1). Answers the channels that remain. -/
def tryChannels (set : ChanSet) (r : RingNo) (event : BitVec 32) (cv : CueValues) (s : State) : State × ChanSet :=
  allChans.foldl
    (fun acc c =>
      if setHas acc.2 c then
        let t := tryChannel c r event cv acc.1
        (t.1, if t.2 then setDrop acc.2 c else acc.2)
      else acc)
    (s, set)

/-- The pending set of the queue entry for a ring and event is replaced; an entry whose set becomes empty is removed (R55). -/
def setWaiting (r : RingNo) (event : BitVec 32) (set : ChanSet) (s : State) : State :=
  { s with cueQueue :=
      (s.cueQueue.map fun e => if e.ring = r ∧ e.event = event then { e with waiting := set } else e).filter (·.waiting != 0) }

/-- A READY pod is tried against the cue queue: the oldest entry that lists its channel and whose avail number it accepts (R78). -/
def tryQueue (p : PodNo) (s : State) : State :=
  let record := (s.pod p).record
  if s.clipsValid record then
    match s.cueQueue.find? (fun e => setHas e.waiting record.chan && record.accepts e.cue.avail) with
    | none => s
    | some e => setWaiting e.ring e.event (setDrop e.waiting record.chan) (bindPod p record.chan e.ring (some e.event) e.cue s).1
  else s

/-- What becoming READY makes of a pod: spots UNSTARTED, filler total 0, no binding, no anchor (R69, R45). -/
def Pod.becomeReady (pod : Pod) : Pod :=
  { pod with state := .ready, binding := none, anchor := none, spotInfo := Vector.replicate 8 {}, fillerTotal := 0 }

/-- A pod becomes READY at the tail of its channel's ready list (R74). -/
def makeReady (p : PodNo) (s : State) : State :=
  let c := (s.pod p).record.chan
  let s := s.modPod p Pod.becomeReady
  s.setReady c (s.readyList c ++ [p])

/-- A BOUND or PENDING pod is unbound (R81). -/
def unbind (p : PodNo) (s : State) : State := tryQueue p (makeReady p (dropPodTargets p s))

/-- A CANCEL for a ring and event (R63 steps 1 to 3). Answers whether it removed an entry or unbound a pod. -/
def cancelBreak (r : RingNo) (event : BitVec 32) (s : State) : State × Bool :=
  let isIt := fun e : CueEntry => decide (e.ring = r ∧ e.event = event)
  let found := s.cueQueue.any isIt
  let s := { s with cueQueue := s.cueQueue.filter fun e => !isIt e }
  let hits := allPods.filter fun p => s.bindingIs p r event && ((s.pod p).state == .bound || (s.pod p).state == .pending)
  (forEach hits unbind s, found || !hits.isEmpty)

end Sys2Proof.Machine
end

