-- ==== Sys2Proof/Machine/Alert.lean ====
section
/-! DEFINITION. The Alert Controller: marks (R144, R145), engagement and release (R138, R139), the end of an episode (R140, R141), line
samples (R135, R136), protection (R142), the alert record (R134) and lock-down (R153). -/

namespace Sys2Proof.Machine

/-- The Alert Controller's state changed. -/
def modAlert (f : AlertCtl → AlertCtl) (s : State) : State := { s with alert := f s.alert }

/-- The bit of a source in a source set (11.8). -/
def sourceBit : Source → Nat
  | .line0 => 0
  | .line1 => 1
  | .command => 2

/-- A source is in a set. -/
def hasSource (set : SourceSet) (x : Source) : Bool := set.getLsbD (sourceBit x)
/-- A set with a source. -/
def addSource (set : SourceSet) (x : Source) : SourceSet := set ||| BitVec.twoPow 3 (sourceBit x)
/-- A set without a source. -/
def dropSource (set : SourceSet) (x : Source) : SourceSet := set &&& ~~~ (BitVec.twoPow 3 (sourceBit x))

/-- The highest source of a set in the order LINE0, LINE1, COMMAND (R137). -/
def highest (set : SourceSet) : Option Source :=
  if hasSource set .line0 then some .line0
  else if hasSource set .line1 then some .line1
  else if hasSource set .command then some .command
  else none

/-- The splicer is protected (R142). -/
def AlertCtl.isProtected (a : AlertCtl) : Bool := a.record.protect && !a.protHigh

/-- The effective participation (R144). -/
def AlertCtl.effective (a : AlertCtl) : ChanSet := a.record.participation ||| a.lockdown

/-- An episode runs: ACTIVE or HOLD. -/
def AlertCtl.running (a : AlertCtl) : Bool := a.state != .idle

/-- The clip a source plays, when it is present and its shadow VALID (R138). -/
def State.sourceClip (s : State) (x : Source) : Option ClipNo :=
  (s.alert.record.clipOf x).filter fun n => (s.clip n).valid

/-! ### Marks -/

/-- The marks the Alert Controller posts (R145). -/
inductive Posting where | engage | sourceChange | restore
deriving DecidableEq, Repr

/-- The pending mark after a posting (table of R145); `inAlert` is whether the channel is in ALERT. -/
def postedMark (m : Posting) (inAlert : Bool) (held : AlertMark) : AlertMark :=
  match m, inAlert with
  | .engage, true => .source
  | .engage, false => .engage
  | .sourceChange, true => if held = .restore then .restore else .source
  | .sourceChange, false => if held = .engage then .engage else .none
  | .restore, true => .restore
  | .restore, false => .none

/-- A mark is posted to a channel (R145). -/
def post (m : Posting) (c : ChanNo) (s : State) : State :=
  s.modChan c fun ch => { ch with mark := postedMark m (ch.state == .alert) ch.mark }

/-- A mark is posted to each channel that passes a test, ascending. -/
def postAll (m : Posting) (test : ChanNo → Bool) (s : State) : State := forEach (allChans.filter test) (post m) s

/-- The marks for the channels that joined and left the effective participation during an episode (R144). -/
def postParticipation (before : ChanSet) (s : State) : State :=
  if s.alert.running then
    let now := s.alert.effective
    let s := postAll .engage (fun c => setHas now c && !setHas before c && (s.chan c).enabled) s
    postAll .restore (fun c => setHas before c && !setHas now c) s
  else s

/-! ### Engagement, release and the end of an episode -/

/-- The playing source is made the highest engaged source; when it changes, a source-change mark is posted to every channel in ALERT
(R138 step 6, R139 step 2). -/
def recomputePlaying (s : State) : State :=
  let best := highest s.alert.engaged
  if best = s.alert.playing then s
  else postAll .sourceChange (fun c => (s.chan c).state == .alert) (modAlert (fun a => { a with playing := best }) s)

/-- A source is engaged (R138). -/
def engage (x : Source) (s : State) : State :=
  if (s.sourceClip x).isNone then setFlag .alert s
  else
    let s := modAlert (fun a => { a with engaged := addSource a.engaged x }) s
    match s.alert.state with
    | .idle =>
      let s := modAlert (fun a => { a with state := .active, timer := 0, episode := addSource 0 x, playing := some x }) s
      let s := setFlag .alert (asRunPush { kind := .alertStart, sources := some s.alert.engaged } s)
      postAll .engage (fun c => (s.chan c).enabled && setHas s.alert.effective c) s
    | .hold => recomputePlaying (modAlert (fun a => { a with state := .active, episode := addSource a.episode x }) s)
    | .active => recomputePlaying (modAlert (fun a => { a with episode := addSource a.episode x }) s)

/-- The device alert state becomes IDLE (R140). -/
def enterIdle (why : Reason) (s : State) : State :=
  let s := modAlert (fun a => { a with engaged := 0 }) s
  let s := postAll .restore (fun c => (s.chan c).state == .alert || (s.chan c).mark == .engage) s
  let s := asRunPush { kind := .alertEnd, reason := some why, episodeMs := some s.alert.timer, sources := some s.alert.episode } s
  modAlert (fun a => { a with playing := none, state := .idle }) s

/-- A source is released (R139). The minimum hold is the one the alert record holds now, a record just taken included (R133, R134; log 38). -/
def release (x : Source) (s : State) : State :=
  if hasSource s.alert.engaged x then
    let s := modAlert (fun a => { a with engaged := dropSource a.engaged x }) s
    if s.alert.engaged ≠ 0 then recomputePlaying s
    else if s.alert.timer.toNat < s.alert.record.hold then modAlert (fun a => { a with state := .hold }) s
    else enterIdle .released s
  else s

/-- The episode timer advances by 1 ms (R137); the time limit is tested, then the hold (R140, R141). -/
def advanceTimer (s : State) : State :=
  if s.alert.running then
    let s := modAlert (fun a => { a with timer := heldInc a.timer }) s
    if s.alert.record.limit ≠ 0 ∧ s.alert.record.limit * 60000 ≤ s.alert.timer.toNat then
      enterIdle .limit (setFlag .limit s)
    else if s.alert.state = .hold ∧ s.alert.record.hold ≤ s.alert.timer.toNat then enterIdle .released s
    else s
  else s

/-! ### Lines -/

/-- A line's level taken as ACTIVE by its polarity (R135). -/
def LineConfig.activeAt (l : LineConfig) (high : Bool) : Bool :=
  match l.polarity with
  | .activeHigh => high
  | .activeLow => !high

/-- A line filter after a sample (R135). -/
def LineFilter.sample (f : LineFilter) (length : Nat) (level : Bool) : LineFilter :=
  if level = f.active then { f with run := 0 }
  else if length ≤ f.run + 1 then { active := level, run := 0 }
  else { f with run := f.run + 1 }

/-- A change of a line's filtered level acts on its source by the line's mode (table of R136). -/
def lineChanged (x : Source) (mode : LineMode) (before after : Bool) (s : State) : State :=
  if before = after then s
  else if after then (if hasSource s.alert.engaged x then s else engage x s)
  else match mode with
    | .follow => release x s
    | .latch => s

/-- One sample of ALRQ0, ALRQ1 and PROT_N (R135, R136, R142). -/
def sampleLines (alrq0 alrq1 protN : Bool) (s : State) : State :=
  let a := s.alert
  let f0 := a.filter0.sample a.record.line0.filter (a.record.line0.activeAt alrq0)
  let f1 := a.filter1.sample a.record.line1.filter (a.record.line1.activeAt alrq1)
  let s := modAlert (fun a => { a with filter0 := f0, filter1 := f1, protHigh := protN }) s
  let s := lineChanged .line0 a.record.line0.mode a.filter0.active f0.active s
  lineChanged .line1 a.record.line1.mode a.filter1.active f1.active s

/-! ### The alert record and lock-down -/

/-- The write would change whether a clip is present, or which is named, for a source that is engaged or playing during an episode (R134). -/
def AlertCtl.changesBusyClip (a : AlertCtl) (new : AlertRecord) : Bool :=
  a.running && [Source.line0, .line1, .command].any fun x =>
    (hasSource a.engaged x || a.playing == some x) && a.record.clipOf x != new.clipOf x

/-- A line taken from LATCH to FOLLOW with its source engaged and its filtered level INACTIVE has its source released (R134). -/
def modeReleased (x : Source) (old new : LineConfig) (f : LineFilter) (s : State) : State :=
  if old.mode = .latch ∧ new.mode = .follow ∧ f.active = false then release x s else s

/-- A whole alert record write (R134): taken, or the reason of its refusal. -/
def takeAlertRecord (bytes : List Byte) (s : State) : Except RefuseReason State :=
  let new := parseAlert bytes
  let a := s.alert
  if a.isProtected then .error .isProtected
  else if a.changesBusyClip new then .error .inUse
  else
    let s := modAlert (fun a => { a with record := new }) s
    let s := postParticipation a.effective s
    let s := modeReleased .line0 a.record.line0 new.line0 a.filter0 s
    .ok (modeReleased .line1 a.record.line1 new.line1 a.filter1 s)

/-- LOCKDOWN adds a set of channels to the lock-down set, with the marks of R144 (R153). -/
def lockDown (set : ChanSet) (s : State) : State :=
  postParticipation s.alert.effective (modAlert (fun a => { a with lockdown := a.lockdown ||| set }) s)

end Sys2Proof.Machine
end

