-- ==== Sys2Proof/Machine/Resolve.lean ====
section
/-! DEFINITION. Splice point resolution: aligned at video starts (R88), forced by PCR (R89, R90), the point (R91), its place in the switch
queue or its drop (R93), and the return target of an OUT (R94). -/

namespace Sys2Proof.Machine

/-- What a resolving cell gives the points made at it (R88, R89). -/
structure Arrival where
  ring  : RingNo
  seq   : SeqNo
  stamp : Stamp
deriving DecidableEq, Repr

/-- The point made from an entry (R91). A FEED_IN captures the feed ring's last start mark as it stands. -/
def State.pointOf (s : State) (e : WatchEntry) (at_ : Arrival) (anchor : Ticks) (aligned : Bool) : SwitchPoint :=
  { kind := e.kind, seq := at_.seq, anchor := anchor, stamp := at_.stamp,
    mark := match e.kind with
      | .feedIn f => (s.ring f).mark
      | _ => none,
    aligned := aligned }

/-- The queue has a place for a point: fewer than 4 points, and the point's sequence after the tail's (R93). -/
def queueAdmits (queue : List SwitchPoint) (seq : SeqNo) : Bool :=
  decide (queue.length < Config.switchQueueSize) &&
    (match queue.getLast? with
     | none => true
     | some tail => seqAfter seq tail.seq)

/-- The RETURN target of a pod whose OUT resolved at an anchor (table of R94). -/
def returnTarget (b : Binding) (record : PodRecord) (anchor : Ticks) : Option Ticks :=
  let dur := match b.cue.duration with
    | some d => some d
    | none => record.breakDur
  match dur, b.cue.autoReturn, record.breakLimit with
  | some d, true, _ => some (anchor + asTicks d)
  | _, _, some l => some (anchor + asTicks l)
  | _, _, none => none

/-- A pod whose OUT point is placed: PENDING, its spot 0 anchored (R94). -/
def Pod.makePending (anchor : Ticks) (pod : Pod) : Pod := { pod with state := .pending, anchor := some (anchor, 0) }

/-- A pod's OUT point has been placed: the pod becomes PENDING with its anchor, and its RETURN is armed (R94). -/
def outResolved (r : RingNo) (p : PodNo) (c : ChanNo) (anchor : Ticks) (s : State) : State :=
  let s := s.modPod p (Pod.makePending anchor)
  match (s.pod p).binding.bind fun b => returnTarget b (s.pod p).record anchor with
  | none => s
  | some t => if s.watchHasRoom r then arm r (.ret p) c (.atTick t) none s else s

/-- What follows a dropped point (table of R93). -/
def dropPoint (r : RingNo) (e : WatchEntry) (s : State) : State :=
  let s := setFlag .late s
  match e.kind with
  | .out p =>
    match (s.pod p).binding with
    | none => unbind p s
    | some b => availMissed e.chan .switchFull b.event b.cue (unbind p s)
  | .ret _ | .slotResume _ _ | .feedOut _ => rearm r e.kind e.chan .immediate none s
  | .feedIn _ => abandonFeed e.chan s

/-- A point joins the tail of its channel's switch queue (R93). -/
def enqueuePoint (c : ChanNo) (pt : SwitchPoint) (s : State) : State := s.modChan c fun ch => { ch with queue := ch.queue ++ [pt] }

/-- An entry leaves its ring's watch list (R87). -/
def leaveWatch (r : RingNo) (e : WatchEntry) (s : State) : State := s.setWatch r ((s.watchList r).filter fun x => !x.same e)

/-- What a placed point does at once: an OUT makes its pod PENDING (R94). -/
def placed (r : RingNo) (e : WatchEntry) (anchor : Ticks) (s : State) : State :=
  match e.kind with
  | .out p => outResolved r p e.chan anchor s
  | .ret _ | .slotResume _ _ | .feedIn _ | .feedOut _ => s

/-- An entry resolves: its point is placed and the entry leaves the list, or the point is dropped (R93). -/
def resolveEntry (e : WatchEntry) (at_ : Arrival) (anchor : Ticks) (aligned : Bool) (s : State) : State :=
  if queueAdmits (s.chan e.chan).queue at_.seq then
    placed at_.ring e anchor (leaveWatch at_.ring e (enqueuePoint e.chan (s.pointOf e at_ anchor aligned) s))
  else dropPoint at_.ring e s

/-- A FEED_IN entry whose feed ring has no start mark is not resolved (R88, R89). -/
def State.heldBack (s : State) (kind : PointKind) : Bool :=
  match kind with
  | .feedIn f => (s.ring f).mark.isNone
  | _ => false

/-- An entry falls due at a video start of this sequence and PTS (R88). -/
def State.dueAtStart (s : State) (e : WatchEntry) (seq : SeqNo) (pts : Ticks) : Bool :=
  !s.heldBack e.kind &&
    match e.target, e.kind with
    | .atTick t, _ => ticksAtOrAfter pts t
    | .immediate, .out _ =>
      match e.markSeq with
      | none => true
      | some m => seqBefore m seq
    | .immediate, _ => true

/-- The anchor of an entry forced at a PCR base, when the base has passed the entry's target by the channel's alignment window (R89). -/
def State.dueAtPcr (s : State) (e : WatchEntry) (base : Ticks) : Option Ticks :=
  let w : Ticks := (s.chan e.chan).inForce.window.setWidth 33
  if s.heldBack e.kind then none
  else match e.target, e.pcrBase with
    | .atTick t, _ => if ticksAtOrAfter base (t + w) then some t else none
    | .immediate, some q => if ticksAtOrAfter base (q + w) then some base else none
    | .immediate, none => none

/-- The entries of a ring's list are tested in its order against a video start, each taken to its end before the next (R88). Only entries
that stood in the list when the report was taken are tested, and each once (R85). Answers the entries that resolved. -/
def resolveAtStart (at_ : Arrival) (pts : Ticks) (s : State) : State × List WatchEntry :=
  (s.watchList at_.ring).foldl
    (fun acc e =>
      if (acc.1.watchList at_.ring).any e.same && acc.1.dueAtStart e at_.seq pts then
        (resolveEntry e at_ pts true acc.1, acc.2 ++ [e])
      else acc)
    (s, [])

/-- Immediate entries armed while the ring had no PCR take the report's base (R90). -/
def fillPcrBase (r : RingNo) (base : Ticks) (s : State) : State :=
  s.setWatch r ((s.watchList r).map fun e =>
    if e.target = .immediate ∧ e.pcrBase = none then { e with pcrBase := some base } else e)

/-- The entries of a ring's list are tested in its order against a PCR (R89). `old` is the list as it stood before the cell's reports and
`gone` the entries the cell's video start resolved: an entry armed or resolved at this cell is not tested against it (R85, R89; log 20). -/
def resolveAtPcr (at_ : Arrival) (base : Ticks) (old gone : List WatchEntry) (s : State) : State :=
  let s := fillPcrBase at_.ring base s
  (s.watchList at_.ring).foldl
    (fun s e =>
      if (s.watchList at_.ring).any e.same && old.any e.same && !gone.any e.same then
        match s.dueAtPcr e base with
        | some anchor => resolveEntry e at_ anchor false s
        | none => s
      else s)
    s

end Sys2Proof.Machine
end

