-- ==== Sys2Proof/Machine/Cues.lean ====
section
/-! DEFINITION. The Cue Unit: section reception (R48 to R53), OUT cues (R56 to R59), expiry (R61), IN and CANCEL cues (R62, R63). -/

namespace Sys2Proof.Machine

/-! ### The section assembler -/

/-- What the assembler hands on while it takes one cell (R50 to R52). -/
inductive SectionEvent where
  | formatError
  | other
  | complete (sec : List Byte)
deriving DecidableEq, Repr

/-- The assembler after bytes reached its buffer, with the header checks of R50 made and the section complete when it is. -/
def collect (buffer : List Byte) (cc : CC) : Assembler × List SectionEvent :=
  if buffer = [] then (.collecting [] none cc, [])
  else if byteAt buffer 0 ≠ 0xC7 then (.idle, [.other])
  else if buffer.length < 3 then (.collecting buffer none cc, [])
  else
    let len := fieldNat buffer 1 2 % 4096
    if len < 24 ∨ 361 < len then (.idle, [.formatError])
    else if buffer.length < 3 + len then (.collecting buffer (some (3 + len)) cc, [])
    else (.idle, [.complete (buffer.take (3 + len))])

/-- A cell with its payload unit start indicator set begins a section (R50). -/
def beginSection (a : Assembler) (cc : CC) (payload : List Byte) : Assembler × List SectionEvent :=
  let abandoned := match a with
    | .idle => []
    | .collecting _ _ _ => [SectionEvent.formatError]
  let first := 1 + (byteAt payload 0).toNat
  if payload.length ≤ first then (.idle, abandoned ++ [.formatError])
  else
    let t := collect (payload.drop first) cc
    (t.1, abandoned ++ t.2)

/-- A cell with its payload unit start indicator clear continues the section in progress (R51): a section spans at most two cells. -/
def continueSection (a : Assembler) (cc : CC) (payload : List Byte) : Assembler × List SectionEvent :=
  match a with
  | .idle => (.idle, [])
  | .collecting buffer _ lastCC =>
    if cc ≠ lastCC + 1 then (.idle, [.formatError])
    else match collect (buffer ++ payload) cc with
      | (.collecting _ _ _, ev) => (.idle, ev ++ [.formatError])
      | (.idle, ev) => (.idle, ev)

/-! ### Counters -/

/-- The counters of the Cue Unit changed. -/
def modCue (f : CueCounters → CueCounters) (s : State) : State := { s with cueCounters := f s.cueCounters }

/-- A CRC error (R53). -/
def countCrcError (s : State) : State := setFlag .cue (modCue (fun k => { k with crcError := counterAdd k.crcError 1 }) s)
/-- A format error (R53). -/
def countFormatError (s : State) : State := setFlag .cue (modCue (fun k => { k with formatError := counterAdd k.formatError 1 }) s)
/-- A lost cue (R53). -/
def countLost (s : State) : State := setFlag .cue (modCue (fun k => { k with lost := counterAdd k.lost 1 }) s)
/-- A repeat (R53). -/
def countRepeat : State → State := modCue fun k => { k with repeated := counterAdd k.repeated 1 }
/-- A late repeat (R53). -/
def countLateRepeat : State → State := modCue fun k => { k with lateRepeat := counterAdd k.lateRepeat 1 }
/-- Another table, or a cue that acts on nothing (R53). -/
def countOther : State → State := modCue fun k => { k with other := counterAdd k.other 1 }

/-! ### OUT cues -/

/-- The cue's values with the arrival start mark sequence as ring `r` gives it now, kept for an immediate cue only (R55, R79). -/
def State.cueValues (s : State) (r : RingNo) (c : Cue) : CueValues :=
  { target := c.target, duration := c.duration, autoReturn := c.autoReturn, avail := c.avail, expected := c.expected,
    markSeq := match c.target with
      | .immediate => (s.ring r).mark.map (·.seq)
      | .atTick _ => none }

/-- A holder's values are the same as the cue's: IMMEDIATE, splice PTS and duration agree (R56). -/
def CueValues.sameAs (v : CueValues) (c : Cue) : Bool := v.target == c.target && v.duration == c.duration

/-- The queue entry for a ring and event (R56). -/
def State.cueEntry (s : State) (r : RingNo) (e : BitVec 32) : Option CueEntry :=
  s.cueQueue.find? fun x => decide (x.ring = r ∧ x.event = e)

/-- Channel `c` is in the pending set of a new OUT cue (R58). -/
def State.admits (s : State) (r : RingNo) (zones : BitVec 8) (c : ChanNo) : Bool :=
  let ch := s.chan c
  ch.enabled && ch.inForce.names r && zones.getLsbD ch.inForce.zone.toNat && !ch.inForce.ignoresCues && ch.state != .feed

/-- The set of the channels that pass a test. -/
def chanSetOf (test : ChanNo → Bool) : ChanSet :=
  allChans.foldl (fun set c => if test c then set ||| BitVec.twoPow 32 c.val else set) 0

/-- The entry that a new OUT cue leaves for the channels that remain in its pending set (R55, R59 step 3). -/
def entryOf (r : RingNo) (arrival : SeqNo) (c : Cue) (cv : CueValues) (rest : ChanSet) : CueEntry :=
  { ring := r, event := c.event, zones := c.zones, cue := cv, arrivalSeq := arrival, waiting := rest }

/-- The channels that no pod was bound for are queued, or the cue is lost for them (R59 steps 2 to 4). -/
def queueCue (r : RingNo) (arrival : SeqNo) (c : Cue) (cv : CueValues) (rest : ChanSet) (s : State) : State :=
  if rest = 0 then s
  else if s.cueQueue.length < Config.cueQueueSize then { s with cueQueue := s.cueQueue ++ [entryOf r arrival c cv rest] }
  else forEach (allChans.filter (setHas rest)) (fun ch => availMissed ch .queueFull (some c.event) cv) (countLost s)

/-- A new OUT cue (R58, R59). -/
def newCue (r : RingNo) (arrival : SeqNo) (c : Cue) (s : State) : State :=
  let cv := s.cueValues r c
  let t := tryChannels (chanSetOf (s.admits r c.zones)) r c.event cv s
  queueCue r arrival c cv t.2 t.1

/-- A pod whose binding carries the cue's new values (R57). -/
def Pod.takeValues (cv : CueValues) (pod : Pod) : Pod := { pod with binding := pod.binding.map fun b => { b with cue := cv } }

/-- A BOUND pod of the cue's event takes the new values, and its OUT entry is re-armed in place (R57 step 2, R86). -/
def updatePod (r : RingNo) (cv : CueValues) (p : PodNo) (s : State) : State :=
  let s := s.modPod p (Pod.takeValues cv)
  rearm r (.out p) (s.pod p).record.chan cv.target cv.markSeq s

/-- The queue entry for the cue's ring and event takes the new values and the new arrival sequence (R57 step 1). -/
def renewEntry (r : RingNo) (event : BitVec 32) (arrival : SeqNo) (cv : CueValues) (s : State) : State :=
  { s with cueQueue := s.cueQueue.map fun e =>
      if e.ring = r ∧ e.event = event then { e with cue := cv, arrivalSeq := arrival } else e }

/-- Binding is tried again for each channel still in the entry's pending set (R57 step 3). -/
def retryEntry (r : RingNo) (event : BitVec 32) (cv : CueValues) (s : State) : State :=
  match s.cueEntry r event with
  | none => s
  | some e => setWaiting r event (tryChannels e.waiting r event cv s).2 (tryChannels e.waiting r event cv s).1

/-- An updating OUT cue (R57). -/
def updateCue (r : RingNo) (arrival : SeqNo) (c : Cue) (bound : List PodNo) (s : State) : State :=
  let cv := s.cueValues r c
  retryEntry r c.event cv (forEach bound (updatePod r cv) (renewEntry r c.event arrival cv s))

/-- A good OUT cue is compared with its holders (table of R56). -/
def outCue (r : RingNo) (arrival : SeqNo) (c : Cue) (s : State) : State :=
  let entry := s.cueEntry r c.event
  let holders := allPods.filter fun p => s.bindingIs p r c.event
  let bound := holders.filter fun p => (s.pod p).state == .bound
  let values := (entry.map (·.cue)).toList ++ bound.filterMap fun p => (s.pod p).binding.map (·.cue)
  if entry.isNone && holders.isEmpty then newCue r arrival c s
  else if values.any (fun v => !v.sameAs c) then updateCue r arrival c bound s
  else if !values.isEmpty then countRepeat s
  else countLateRepeat s

/-! ### Expiry -/

/-- An entry's pending channels are given AVAIL_MISSED with reason NO_POD, ascending (R61). -/
def missEntry (e : CueEntry) : State → State :=
  forEach (allChans.filter (setHas e.waiting)) fun c => availMissed c .noPod (some e.event) e.cue

/-- The entries that a test picks out expire in queue order (R61). -/
def expireEntries (test : CueEntry → Bool) (s : State) : State :=
  let s := forEach (s.cueQueue.filter test) missEntry s
  { s with cueQueue := s.cueQueue.filter fun e => !test e }

/-- An entry expires at a video start of its ring with this sequence and PTS (R61). -/
def CueEntry.expiresAt (e : CueEntry) (r : RingNo) (seq : SeqNo) (pts : Ticks) : Bool :=
  e.ring == r &&
    match e.cue.target with
    | .atTick t => ticksAtOrAfter pts t
    | .immediate => seqAfter seq e.arrivalSeq

/-! ### IN and CANCEL cues -/

/-- A RETURN target is armed for a pod: in place of its unresolved RETURN entry, or in a free place of ring `r`'s list (R62, R95, R165).
Absent when the list is full. -/
def armReturn (r : RingNo) (p : PodNo) (target : Target) (s : State) : Option State :=
  let c := (s.pod p).record.chan
  if (s.returnEntry r p).isSome then some (rearm r (.ret p) c target none s)
  else if s.watchHasRoom r then some (arm r (.ret p) c target none s)
  else none

/-- A RETURN point of pod `p` is in its channel's switch queue (R62). -/
def State.returnQueued (s : State) (p : PodNo) : Bool := s.hasPoint (s.pod p).record.chan fun k => k == .ret p

/-- One pod of an IN cue: its RETURN target is armed, or the cue is lost for it (R62). The Bool says whether any target was armed. -/
def returnStep (r : RingNo) (target : Target) (acc : State × Bool) (p : PodNo) : State × Bool :=
  match armReturn r p target acc.1 with
  | some s' => (s', true)
  | none => (countLost acc.1, acc.2)

/-- A good IN cue (R62). -/
def inCue (r : RingNo) (c : Cue) (s : State) : State :=
  let hits := allPods.filter fun p => s.bindingIs p r c.event && (s.pod p).state.isStarted && !s.returnQueued p
  let t := hits.foldl (returnStep r c.target) (s, false)
  if t.2 then t.1 else countOther t.1

/-- A good CANCEL cue (R63). -/
def cancelCue (r : RingNo) (c : Cue) (s : State) : State :=
  let t := cancelBreak r c.event s
  if t.2 then t.1 else countOther t.1

/-- A good cue is acted on by kind (R52). -/
def takeCue (r : RingNo) (arrival : SeqNo) (c : Cue) (s : State) : State :=
  match c.kind with
  | .out => outCue r arrival c s
  | .back => inCue r c s
  | .cancel => cancelCue r c s

/-- What the assembler handed on is counted or checked and acted on (R50 to R53). -/
def takeSectionEvent (r : RingNo) (arrival : SeqNo) (ev : SectionEvent) (s : State) : State :=
  match ev with
  | .formatError => countFormatError s
  | .other => countOther s
  | .complete sec =>
    match checkSection sec with
    | .crcError => countCrcError s
    | .formatError => countFormatError s
    | .good c => takeCue r arrival c s

/-- A cue-PID cell is given to the Cue Unit (R26, R49 to R51): `payload` is absent for every cause that R26 names. -/
def cueCell (r : RingNo) (arrival : SeqNo) (unitStart : Bool) (cc : CC) (payload : Option (List Byte)) (s : State) : State :=
  match payload with
  | none => s
  | some bytes =>
    let a := (s.ring r).assembler
    let t := if unitStart then beginSection a cc bytes else continueSection a cc bytes
    forEach t.2 (takeSectionEvent r arrival) (s.modRing r fun x => { x with assembler := t.1 })

end Sys2Proof.Machine
end

