-- ==== Sys2Proof/Machine/Records.lean ====
section
/-! DEFINITION. Record writes as their owners take them: channel records (R14, R118 to R120), ring records (R5 to R7, R82), clip records
(R66, R67) and pod records (R70 to R73). Each answers the state, or the reason of the refusal. -/

namespace Sys2Proof.Machine

/-! ### Component CC tables -/

/-- The component PIDs of a ring shadow that are present (R109). -/
def Components.present (c : Components) : List Pid :=
  [c.pcr, c.video, c.audio1, c.audio2, c.aux].filterMap id

/-- The distinct component PIDs, the keys of a component CC table (R109). Their order, PCR, VIDEO, AUDIO1, AUDIO2, AUX with a repeated PID at its last
place, is the model's choice (log 36). -/
def Components.keys (c : Components) : List Pid := c.present.dedup

/-- A component CC table rebuilt to a key set: entries whose PID remains keep what they hold (R109). -/
def rebuildCc (keys : List Pid) (old : List CcEntry) : List CcEntry :=
  keys.map fun k => (old.find? (·.pid == k)).getD { pid := k, cc := none, mark := false }

/-! ### Channel records -/

/-- The checks of R14 on a record that enables channel `c`. -/
def State.windowOk (s : State) (c : ChanNo) (r : ChannelRecord) : Bool :=
  let a := r.base.toNat
  let len := (s.ring r.netRing).shadow.bytes
  decide (r.ring.toNat < 48) && (s.ring r.netRing).shadow.kind == .network && r.base.toNat % 64 == 0 &&
    decide (a + len ≤ 2 ^ 36) && !s.regionMeets a len && !(allRings.any fun k => (s.ring k).shadow.meets a len) &&
    !(allChans.any fun d => d != c && s.windowMeets d a len)

/-- The window reads of channel `c` that are outstanding are answered without rewriting from now on (R119). -/
def plainReads (c : ChanNo) (s : State) : State :=
  { s with outstanding := s.outstanding.map fun o =>
      match o with
      | .forwarded r (.window w) => if w.chan = c then .forwarded r .plain else o
      | _ => o }

/-- Channel `c` leaves the pending sets that a record no longer admits it to (R60). -/
def leaveWaiting (c : ChanNo) (r : ChannelRecord) (s : State) : State :=
  { s with cueQueue :=
      (s.cueQueue.map fun e =>
        if r.enable && r.names e.ring && e.zones.getLsbD r.zone.toNat && !r.ignoresCues then e
        else { e with waiting := setDrop e.waiting c }).filter (·.waiting != 0) }

/-- What a record that disables `c` or changes its network ring takes away: the BOUND pods' bindings, every watch entry and point of the
channel (R119 step 3). -/
def withdrawTargets (c : ChanNo) (s : State) : State :=
  let s := forEach (allPods.filter fun p => s.ownedBy p c && (s.pod p).state == .bound) unbind s
  dropPoints c (fun _ => true) (dropEntries (fun e => e.chan == c) s)

/-- A channel enabled from OFF (R119 step 5): the record of the last output and the time state at their reset values (R29, R36), the switch
queue empty (R92), position and mark request absent. -/
def Channel.enableFresh (ch : Channel) (keys : List Pid) : Channel :=
  { ch with state := .network, queue := [], playing := none, pos := none, wrapDue := false, markReq := false, d90 := 0, s := 0,
            pendingIn := none, runTarget := none, spotTarget := none, lastOut := {}, cc := rebuildCc keys [] }

/-- A channel disabled (R119 step 5), with its pending alert mark set to none (R144). -/
def Channel.disable (ch : Channel) : Channel :=
  { ch with state := .off, playing := none, pos := none, wrapDue := false, markReq := false, pendingIn := none, cc := [], mark := .none }

/-- A channel record in force and the change of state it brings (R119 steps 4 and 5, R144). -/
def enforce (c : ChanNo) (r : ChannelRecord) (s : State) : State :=
  let old := s.chan c
  let keys := (s.ring r.netRing).shadow.comps.keys
  let s := s.modChan c fun ch => { ch with inForce := r }
  if !r.enable then plainReads c (s.modChan c Channel.disable)
  else if !old.enabled then
    let s := s.modChan c fun ch => ch.enableFresh keys
    if s.alert.running && setHas s.alert.effective c then post .engage c s else s
  else if old.inForce.ring ≠ r.ring then s.modChan c fun ch => { ch with cc := rebuildCc keys ch.cc, markReq := true }
  else s

/-- A channel record is applied to channel `c` (R119), or the reason of its refusal (R14, R153). -/
def applyChannel (c : ChanNo) (r : ChannelRecord) (s : State) : Except RefuseReason State :=
  let ch := s.chan c
  if r.enable && !s.windowOk c r then .error .invalid
  else if !r.enable && ch.enabled && setHas s.alert.lockdown c then .error .isProtected
  else
    let s := leaveWaiting c r s
    let s := if !r.enable || ch.inForce.ring != r.ring then withdrawTargets c s else s
    .ok (enforce c r s)

/-- The condition under which a channel record is applied at once (R118). -/
def State.appliesAtOnce (s : State) (c : ChanNo) : Bool :=
  (s.chan c).state == .off || ((s.chan c).state == .network && !s.hasStartedPod c)

/-- A whole channel record write is applied at once or staged (R118). -/
def takeChannelRecord (c : ChanNo) (bytes : List Byte) (s : State) : Except RefuseReason State :=
  let r := parseChannel bytes
  if s.appliesAtOnce c then applyChannel c r s
  else .ok (s.modChan c fun ch => { ch with staged := some r })

/-- A staged copy of channel `c` is applied, or refused and discarded, when its condition holds (R119, R120, R162). -/
def applyStaged (c : ChanNo) (s : State) : State :=
  match (s.chan c).staged with
  | none => s
  | some r =>
    if s.appliesAtOnce c then
      let s := s.modChan c fun ch => { ch with staged := none }
      match applyChannel c r s with
      | .ok s' => s'
      | .error why => refuse (s.regionAddr (0x5000 + 32 * c.val)) why s
    else s

/-- The last part of an event: every staged copy whose condition holds is applied, ascending (R120; log 16). What counts as the
event is said where this is called (log 39). -/
def applyAllStaged (s : State) : State := forEach allChans applyStaged s

/-! ### Ring records -/

/-- The window of channel `d` under a changed set of ring shadows: base and length (R5). -/
def windowUnder (shadow : RingNo → RingShadow) (s : State) (d : ChanNo) : Nat × Nat :=
  (s.windowBase d, (shadow (s.netRing d)).bytes)

/-- Some enabled channel on ring `k` would, with the written record, have a window that overlaps a tracked ring, another enabled
channel's window or the control region (R5; log 19). -/
def State.windowsBreak (s : State) (k : RingNo) (new : RingShadow) : Bool :=
  let shadow := fun j => if j = k then new else (s.ring j).shadow
  allChans.any fun c => s.isOnRing c k &&
    (let w := windowUnder shadow s c
     s.regionMeets w.1 w.2 || (allRings.any fun j => (shadow j).meets w.1 w.2) ||
       allChans.any fun d => d != c && (s.chan d).enabled &&
         (let v := windowUnder shadow s d
          rangesMeet w.1 w.2 v.1 v.2))

/-- The checks of R5 on a written ring record of a known kind. -/
def State.ringOk (s : State) (k : RingNo) (new : RingShadow) : Bool :=
  let named := allChans.any fun c => s.isOnRing c k
  match new.kind with
  | .unused => !named
  | _ =>
    let a := new.base.toNat
    decide (64 ≤ new.slotCount.toNat) && decide (new.slotCount.toNat ≤ 2048) && a % 64 == 0 &&
      decide (a + new.bytes ≤ 2 ^ 36) && !s.regionMeets a new.bytes &&
      !(allRings.any fun j => j != k && (s.ring j).shadow.meets a new.bytes) &&
      !(allChans.any fun c => s.windowMeets c a new.bytes) && !s.windowsBreak k new &&
      !(new.kind == .feed && named)

/-- The feed ring of a saved context (R82). -/
def savedFeed : Option Saved → Option RingNo
  | some (.feed f) => some f.ring
  | _ => none

/-- Ring `f` is a feed in use (R82, R132). -/
def State.feedInUse (s : State) (f : RingNo) : Bool :=
  allChans.any (fun c =>
    let ch := s.chan c
    ch.feed.map (·.ring) == some f || savedFeed ch.saved == some f || ch.queue.any (fun pt => pt.kind.feed? == some f)) ||
  allRings.any fun r => (s.watchList r).any fun e => e.kind.feed? == some f

/-- Kind, base or slot count differ (R6, R7). -/
def RingShadow.moved (old new : RingShadow) : Bool :=
  old.kind != new.kind || old.base != new.base || old.slotCount != new.slotCount

/-- Ring `k` is in use (R6, R82). -/
def State.ringInUse (s : State) (k : RingNo) (new : RingShadow) : Bool :=
  (allChans.any fun c => s.isOnRing c k && (s.chan c).state != .network) || s.feedInUse k ||
  (allPods.any fun p => (s.pod p).state.isBusy && (match (s.pod p).binding with | some b => b.ring == k | none => false)) ||
  ((s.ring k).shadow.moved new &&
    (!(s.watchList k).isEmpty || allChans.any fun c => (s.chan c).inForce.names k && !(s.chan c).queue.isEmpty))

/-- A ring's tracking restarted with a new shadow (R7): the two counters keep their values. -/
def Ring.restart (r : Ring) (new : RingShadow) : Ring :=
  { shadow := new, classes := if new.tracked then List.replicate new.slotCount.toNat .unwritten else [],
    syncLoss := r.syncLoss, order := r.order }

/-- A ring record taken without a restart: a different CUE PID returns the assembler to IDLE (R7, R48). -/
def Ring.retune (r : Ring) (new : RingShadow) : Ring :=
  { r with shadow := new, assembler := if r.shadow.cue = new.cue then r.assembler else .idle }

/-- A ring record is taken (R7), with the component CC tables of the channels on the ring rebuilt (R109). -/
def takeRing (k : RingNo) (new : RingShadow) (s : State) : State :=
  let s :=
    if (s.ring k).shadow.moved new then
      expireEntries (fun e => e.ring == k) (s.modRing k fun r => r.restart new)
    else s.modRing k fun r => r.retune new
  forEach (allChans.filter fun c => s.isOnRing c k)
    (fun c s => s.modChan c fun ch => { ch with cc := rebuildCc new.comps.keys ch.cc }) s

/-- A whole ring record write (R5, R6, R7, R82). -/
def takeRingRecord (k : RingNo) (bytes : List Byte) (s : State) : Except RefuseReason State :=
  match parseRing bytes with
  | none => .error .invalid
  | some new =>
    if !s.ringOk k new then .error .invalid
    else if s.ringInUse k new then .error .inUse
    else .ok (takeRing k new s)

/-! ### Clip records -/

/-- Clip `n` is in use (R67, R147). -/
def State.clipInUse (s : State) (n : ClipNo) : Bool :=
  (allPods.any fun p => (s.pod p).state.isBusy && (s.pod p).record.lists n) ||
  ([Source.line0, .line1, .command].any fun x => hasSource s.alert.engaged x && s.alert.record.clipOf x == some n) ||
  (s.alert.running && (match s.alert.playing with | some x => s.alert.record.clipOf x == some n | none => false)) ||
  allChans.any fun c => (s.chan c).state == .alert && (s.chan c).alert.map (·.2) == some n

/-- A whole clip record write (R66). A refusal of an invalid record still loads the shadow, so the answer carries both. -/
def takeClipRecord (n : ClipNo) (bytes : List Byte) (s : State) : State × Option RefuseReason :=
  let new := parseClip bytes
  let old := s.clip n
  if s.clipInUse n then (s, some .inUse)
  else
    let s := s.setClip n new
    if !new.valid then (s, some .invalid)
    else if old.valid then (s, none)
    else
      let held := allPods.filter fun p =>
        (s.pod p).state == .ready && (s.pod p).record.lists n && s.clipsValid (s.pod p).record
      (forEach held tryQueue s, none)

/-! ### Pod records -/

/-- A pod loads a record and is tried against the cue queue: appended to the channel's ready list when it was EMPTY or changes channel,
kept in its place otherwise (R71, R72). -/
def loadPod (p : PodNo) (r : PodRecord) (s : State) : State :=
  let old := s.pod p
  let stays := old.state == .ready && old.record.chan == r.chan
  let s := if old.state == .ready && !stays then
      s.setReady old.record.chan ((s.readyList old.record.chan).filter (· != p)) else s
  let s := s.modPod p fun pod => { pod.becomeReady with record := r }
  let s := if stays then s else s.setReady r.chan (s.readyList r.chan ++ [p])
  tryQueue p s

/-- A whole pod record write (R70 to R73). -/
def takePodRecord (p : PodNo) (bytes : List Byte) (s : State) : Except RefuseReason State :=
  if (s.pod p).state.isBusy then .error .inUse
  else if !podLoadFlag bytes then .ok s
  else match parsePod bytes with
    | none => .error .invalid
    | some r => if s.clipsValid r then .ok (loadPod p r s) else .error .invalid

/-- POD_REVOKE of a pod by its state (table of R83). -/
def revokePod (p : PodNo) (s : State) : State × Result :=
  match (s.pod p).state with
  | .empty | .airing | .suspended => (s, .state)
  | .ready =>
    let c := (s.pod p).record.chan
    ((s.setReady c ((s.readyList c).filter (· != p))).modPod p fun pod => { pod with state := .empty }, .accepted)
  | .bound | .pending => (closePod p .revoked {} s, .accepted)

end Sys2Proof.Machine
end

