-- ==== Sys2Proof/Machine/Mailbox.lean ====
section
/-! DEFINITION. The commands that mailbox writes carry (R163): each operation answers the state and the command's result. SOFT_RESET, which
resets the whole splicer, is in Resets.lean. -/

namespace Sys2Proof.Machine

/-- The pod that a SPLICE_NOW names, or the oldest on the channel's ready list whose clips are all VALID for 0xFF (R164). -/
def State.spliceChoice (s : State) (c : ChanNo) (pod : Byte) : Option PodNo :=
  if pod = 0xFF then (s.readyList c).find? fun p => s.clipsValid (s.pod p).record
  else (podOf pod.toNat).filter fun p =>
    (s.pod p).state == .ready && (s.pod p).record.chan == c && s.clipsValid (s.pod p).record

/-- The values of a SPLICE_NOW binding on ring `r` (R80). -/
def State.spliceValues (s : State) (r : RingNo) : CueValues :=
  { target := .immediate, duration := none, autoReturn := false, avail := 0, expected := 0, markSeq := (s.ring r).mark.map (·.seq) }

/-- SPLICE_NOW (R164, R80). -/
def spliceNow (mb : List Byte) (s : State) : State × Result :=
  let pod := byteAt mb 5
  match chanOf (byteAt mb 4).toNat with
  | none => (s, .range)
  | some c =>
    if pod ≠ 0xFF ∧ 63 < pod.toNat then (s, .range)
    else if (s.chan c).state ≠ .network ∨ (s.chan c).queue ≠ [] then (s, .state)
    else match s.spliceChoice c pod with
      | none => (s, .state)
      | some p =>
        let r := s.netRing c
        let t := bindPod p c r none (s.spliceValues r) s
        (t.1, if t.2 then .accepted else .state)

/-- RETURN_NOW (R165). -/
def returnNow (mb : List Byte) (s : State) : State × Result :=
  match chanOf (byteAt mb 4).toNat with
  | none => (s, .range)
  | some c =>
    match (s.chan c).state, (s.chan c).playing with
    | .insert, some p =>
      if s.hasPoint c (fun k => k == .ret p) then (s, .state)
      else match armReturn (s.netRing c) p .immediate s with
        | some s' => (s', .accepted)
        | none => (s, .state)
    | _, _ => (s, .state)

/-- CANCEL_EVENT (R165): the steps of R63 without counting. -/
def cancelEvent (mb : List Byte) (s : State) : State × Result :=
  match ringOf (byteAt mb 4).toNat with
  | none => (s, .range)
  | some r => ((cancelBreak r (BitVec.ofNat 32 (fieldNat mb 8 4)) s).1, .accepted)

/-- POD_REVOKE (R83). -/
def podRevoke (mb : List Byte) (s : State) : State × Result :=
  match podOf (byteAt mb 4).toNat with
  | none => (s, .range)
  | some p => revokePod p s

/-- Channel `c` has a FEED_IN or FEED_OUT watch entry or switch point (R122). -/
def State.hasFeedTarget (s : State) (c : ChanNo) : Bool :=
  s.hasEntry c (fun k => k.feed?.isSome) || s.hasPoint c (fun k => k.feed?.isSome)

/-- Some pod of channel `c` is PENDING (R122). -/
def State.hasPendingPod (s : State) (c : ChanNo) : Bool := allPods.any fun p => s.ownedBy p c && (s.pod p).state == .pending

/-- The target of an optional PTS: immediate when it is absent (R122). -/
def targetOf (t : Option Ticks) : Target :=
  match t with
  | some x => .atTick x
  | none => .immediate

/-- The end PTS, when both are present, is after the start PTS (R122 check 4). -/
def feedSpanOk (a : FeedStartArgs) : Bool :=
  match a.start, a.stop with
  | some x, some y => ticksAfter y x
  | _, _ => true

/-- The number of watch entries a FEED_START needs (R122). -/
def FeedStartArgs.entries (a : FeedStartArgs) : Nat := if a.stop.isSome then 2 else 1

/-- The targets of an accepted FEED_START are armed, the FEED_IN first (R122). -/
def armFeed (c : ChanNo) (f : RingNo) (a : FeedStartArgs) (s : State) : State :=
  let r := s.netRing c
  let s := arm r (.feedIn f) c (targetOf a.start) none s
  match a.stop with
  | some t => arm r (.feedOut f) c (.atTick t) none s
  | none => s

/-- FEED_START (R122). -/
def feedStartCmd (mb : List Byte) (s : State) : State × Result :=
  let a := parseFeedStart mb
  match chanOf a.chan, ringOf a.ring with
  | some c, some f =>
    if (s.chan c).state ≠ .network ∨ s.hasPendingPod c ∨ s.hasFeedTarget c then (s, .state)
    else if (s.ring f).shadow.kind ≠ .feed then (s, .range)
    else if !feedSpanOk a then (s, .range)
    else if !s.watchHasRoom (s.netRing c) a.entries then (s, .state)
    else (armFeed c f a s, .accepted)
  | _, _ => (s, .range)

/-- The feed ring of a channel in FEED, or in ALERT with saved state FEED (R123). -/
def Channel.feedRing (ch : Channel) : Option RingNo :=
  match ch.state with
  | .feed => ch.feed.map (·.ring)
  | .alert => savedFeed ch.saved
  | _ => none

/-- FEED_STOP (R123), by the first case that holds. -/
def feedStop (mb : List Byte) (s : State) : State × Result :=
  match chanOf (byteAt mb 4).toNat with
  | none => (s, .range)
  | some c =>
    let r := s.netRing c
    if s.hasEntry c PointKind.isFeedIn ∨ s.hasPoint c PointKind.isFeedIn then (dropFeedTargets c s, .accepted)
    else match (s.chan c).feedRing with
      | none => (s, .state)
      | some f =>
        if s.hasPoint c PointKind.isFeedOut then (s, .accepted)
        else match (s.watchList r).find? (fun e => e.chan == c && e.kind.isFeedOut) with
          | some e => (rearm r e.kind c .immediate none s, .accepted)
          | none =>
            if s.watchHasRoom r then (arm r (.feedOut f) c .immediate none s, .accepted) else (s, .state)

/-- ALERT_ENGAGE (R143). -/
def alertEngage (s : State) : State × Result :=
  if hasSource s.alert.engaged .command then (s, .accepted)
  else if (s.sourceClip .command).isNone then (setFlag .alert s, .state)
  else (engage .command s, .accepted)

/-- A LATCH line source, when engaged, is released by ALERT_END (R143). -/
def releaseLatched (x : Source) (mode : LineMode) (s : State) : State := if mode = .latch then release x s else s

/-- ALERT_END (R143): COMMAND, then unless protected the LATCH line sources, LINE0 first. -/
def alertEnd (s : State) : State × Result :=
  if s.alert.state = .idle then (s, .state)
  else
    let a := s.alert
    let s := release .command s
    if a.isProtected then (s, .accepted)
    else (releaseLatched .line1 a.record.line1.mode (releaseLatched .line0 a.record.line0.mode s), .accepted)

/-- LOCKDOWN (R153). -/
def lockdownCmd (mb : List Byte) (s : State) : State × Result := (lockDown (BitVec.ofNat 32 (fieldNat mb 4 4)) s, .accepted)

end Sys2Proof.Machine
end

