-- ==== Sys2Proof/Machine/Resets.lean ====
section
/-! DEFINITION. The three resets (R8, R166, R167) and their commands. -/

namespace Sys2Proof.Machine

/-- An outstanding request's downstream response that is still to come, true for a write; none for a status read, which was not forwarded. -/
def Outstanding.awaits : Outstanding → Option Bool
  | .forwarded (.write _) _ => some true
  | .forwarded (.read _ _) _ => some false
  | .status _ => none

/-- A window read outstanding at SOFT_RESET is answered with the data memory returns, without rewriting (R8). -/
def Outstanding.plainly : Outstanding → Outstanding
  | .forwarded r _ => .forwarded r .plain
  | .status a => .status a

/-- What every reset keeps that is not the splicer's: the command queue and the count of status reads (log 24). -/
def State.afterReset (s : State) : State := { State.reset with pending := s.pending, freeCount := s.freeCount }

/-- Every accepted request without a response is abandoned; the responses still to come will be discarded (R8). -/
def State.abandonedAll (s : State) : List Bool := s.abandoned ++ s.outstanding.filterMap Outstanding.awaits

/-- Power-on reset: every block at its reset values, the straps sampled (R8, R160). The level of RST_N is the pin's (log 6). -/
def powerOn (straps : Byte) (s : State) : State :=
  { s.afterReset with straps := straps, abandoned := s.abandonedAll, rstLow := s.rstLow }

/-- RST_N goes low: as power-on reset, but the lock-down set is kept (R137) and the straps are sampled only at the release (R160). -/
def rstAssert (s : State) : State :=
  { s.afterReset with
    straps := s.straps, abandoned := s.abandonedAll, rstLow := true, alert := { lockdown := s.alert.lockdown } }

/-- RST_N goes high: the straps are sampled (R160). -/
def rstRelease (straps : Byte) (s : State) : State := if s.rstLow then { s with rstLow := false, straps := straps } else s

/-- SOFT_RESET's reset (R8, R166): the lock-down set, the sampled PROT_N level (R137) and the base are kept, and the requests on the bus
complete, window reads without rewriting. -/
def softReset (s : State) : State :=
  { s.afterReset with
    straps := s.straps, rstLow := s.rstLow, abandoned := s.abandoned, upOut := s.upOut, downOut := s.downOut,
    outstanding := s.outstanding.map Outstanding.plainly,
    alert := { lockdown := s.alert.lockdown, protHigh := s.alert.protHigh } }

/-- SOFT_RESET as a command (R166). -/
def softResetCmd (s : State) : State × Result :=
  if s.alert.isProtected ∧ s.alert.state ≠ .idle then (s, .isProtected) else (softReset s, .accepted)

/-- The ports as a command begins: nothing sent yet (log 4). -/
def State.quiet (s : State) : State := { s with upOut := [], downOut := [] }

/-- POWER_ON_RESET (R8, R160). -/
def execPowerOnReset (straps : Byte) (s : State) : Host.Outcome State Fault Refusal := .next (powerOn straps s)

/-- RST_N_ASSERT (R8). -/
def execRstNAssert (s : State) : Host.Outcome State Fault Refusal := .next (rstAssert s)

/-- RST_N_RELEASE (R160). -/
def execRstNRelease (straps : Byte) (s : State) : Host.Outcome State Fault Refusal := .next (rstRelease straps s.quiet)

end Sys2Proof.Machine
end

