-- ==== Sys2Proof/Machine/Intake.lean ====
section
/-! DEFINITION. Control Intake: the areas of the control region (R160), whole and partial record writes (R161, R162), mailbox writes (R163)
and the writable status words (R169). -/

namespace Sys2Proof.Machine

/-- A record of the control region (R161). -/
inductive RecordId where
  | ring (k : RingNo)
  | channel (c : ChanNo)
  | alert
  | pod (p : PodNo)
  | clip (n : ClipNo)
deriving DecidableEq, Repr

/-- The index of the record at an offset of an area of records of one size: record i lies at start + size × i (R160). -/
def recordIndex (start size count off : Nat) : Option Nat := (List.range count).find? fun i => off == start + size * i

/-- The record whose address is an offset of the control region and whose size is `len` (R160, R161). -/
def recordAt (off len : Nat) : Option RecordId :=
  if len = 32 then
    match recordIndex 0x4000 32 48 off, recordIndex 0x5000 32 32 off, recordIndex 0x8000 32 256 off with
    | some k, _, _ => some (.ring (Fin.ofNat 48 k))
    | none, some c, _ => some (.channel (Fin.ofNat 32 c))
    | none, none, some n => some (.clip (Fin.ofNat 256 n))
    | none, none, none => none
  else if len = 64 then
    if off = 0x6000 then some .alert else (recordIndex 0x7000 64 64 off).map fun p => .pod (Fin.ofNat 64 p)
  else none

/-- The record areas of the control region: offset and length (R160). -/
def recordAreas : List (Nat × Nat) := [(0x4000, 0x600), (0x5000, 0x400), (0x6000, 0x40), (0x7000, 0x1000), (0x8000, 0x2000)]

/-- A write touches a record area, by its byte range (R161). -/
def State.recordAreaMeets (s : State) (w : WriteReq) : Bool :=
  recordAreas.any fun a => rangesMeet w.addr.toNat w.bytes.length (s.regionBase + a.1) a.2

/-- All byte enables of a write are set. -/
def writeFull (w : WriteReq) : Bool := w.bytes.all (·.2)

/-- The data bytes of a write. -/
def writeData (w : WriteReq) : List Byte := w.bytes.map (·.1)

/-- The offset of a write's address in the control region; absent below the region. -/
def State.offsetOf (s : State) (w : WriteReq) : Option Nat :=
  if s.regionBase ≤ w.addr.toNat then some (w.addr.toNat - s.regionBase) else none

/-- An owner's answer is kept, or its refusal recorded with the record's address (R162). -/
def settle (a : Addr) (t : Except RefuseReason State) (s : State) : State :=
  match t with
  | .ok s' => s'
  | .error why => refuse a why s

/-- A clip record write, whose refusal as INVALID loads the shadow all the same (R66). -/
def settleClip (a : Addr) (t : State × Option RefuseReason) : State :=
  match t.2 with
  | none => t.1
  | some why => refuse a why t.1

/-- A whole record is handed to its owner (table of R161). -/
def takeRecord (id : RecordId) (a : Addr) (bytes : List Byte) (s : State) : State :=
  match id with
  | .ring k => settle a (takeRingRecord k bytes s) s
  | .channel c => settle a (takeChannelRecord c bytes s) s
  | .alert => settle a (takeAlertRecord bytes s) s
  | .pod p => settle a (takePodRecord p bytes s) s
  | .clip n => settleClip a (takeClipRecord n bytes s)

/-- The record that a whole record write carries (R161). -/
def State.recordOf (s : State) (w : WriteReq) : Option RecordId :=
  (s.offsetOf w).bind fun off => if writeFull w then recordAt off w.bytes.length else none

/-- The record areas' examination of a write (R161): a whole record, a PARTIAL refusal, or nothing. -/
def examineRecords (w : WriteReq) (s : State) : State :=
  match s.recordOf w with
  | some id => takeRecord id w.addr (writeData w) s
  | none => if s.recordAreaMeets w then refuse w.addr .partialWrite s else s

/-- The mailbox, 1 to 10, of a whole mailbox write (R163). -/
def State.mailboxOf (s : State) (w : WriteReq) : Option Nat :=
  (s.offsetOf w).bind fun off =>
    if w.bytes.length = 16 ∧ writeFull w then (recordIndex 0x3000 16 10 off).map (· + 1) else none

/-- The lowest mailbox that a write touches (R163). -/
def State.lowestMailbox (s : State) (w : WriteReq) : Option Nat :=
  ((List.range 10).find? fun i => rangesMeet w.addr.toNat w.bytes.length (s.regionBase + 0x3000 + 16 * i) 16).map (· + 1)

/-- The command of a mailbox (table of R163). -/
def command (mailbox : Nat) (mb : List Byte) (s : State) : State × Result :=
  match mailbox with
  | 1 => spliceNow mb s
  | 2 => returnNow mb s
  | 3 => cancelEvent mb s
  | 4 => podRevoke mb s
  | 5 => feedStartCmd mb s
  | 6 => feedStop mb s
  | 7 => alertEngage s
  | 8 => alertEnd s
  | 9 => lockdownCmd mb s
  | _ => softResetCmd s

/-- A whole mailbox write carries its command, whose result it leaves (R163). -/
def runCommand (n : Nat) (mb : List Byte) (s : State) : State :=
  finishCommand (some (mailboxTag mb)) n (command n mb s).2 (command n mb s).1

/-- Any other write that touches a mailbox leaves a MALFORMED result for the lowest it touches (R163). -/
def examineMalformed (w : WriteReq) (s : State) : State :=
  match s.lowestMailbox w with
  | some n => finishCommand none n .malformed s
  | none => s

/-- The mailboxes' examination of a write (R163): a command, a MALFORMED result, or nothing. -/
def examineMailboxes (w : WriteReq) (s : State) : State :=
  match s.mailboxOf w with
  | some n => runCommand n (writeData w) s
  | none => examineMalformed w s

/-- The writable words of the status window (R169). -/
inductive StatusWord where | flagClear | flagEnables | counterClear | consumeIndex
deriving DecidableEq, Repr

/-- The offset of a writable word (R169). -/
def wordOffset : StatusWord → Nat
  | .flagClear => 0x100
  | .flagEnables => 0x108
  | .counterClear => 0x110
  | .consumeIndex => 0x118

/-- Every counter of the splicer at 0 (R169): the cue counters, the as-run lost counter, each ring's and each channel's. -/
def clearCounters (s : State) : State :=
  { s with
    cueCounters := {},
    asRun := { s.asRun with lost := 0 },
    rings := s.rings.map fun r => { r with syncLoss := 0, order := 0 },
    channels := s.channels.map fun ch => { ch with late := 0, underrun := 0, lostFeed := 0 } }

/-- The consume index after a write of `c'` (R158). -/
def AsRun.consumeTo (q : AsRun) (c' : BitVec 8) : AsRun :=
  if (c' - q.consume).toNat ≤ q.held then { q with consume := c' } else { q with consume := q.producer }

/-- A writable word is taken (R169): `bytes` are its eight bytes. -/
def takeWord (x : StatusWord) (bytes : List Byte) (s : State) : State :=
  match x with
  | .flagClear => { s with flags := s.flags &&& ~~~ (BitVec.ofNat 9 (fieldNat bytes 0 2)) }
  | .flagEnables => { s with enables := BitVec.ofNat 9 (fieldNat bytes 0 2) }
  | .counterClear => clearCounters s
  | .consumeIndex => { s with asRun := s.asRun.consumeTo (byteAt bytes 0) }

/-- The address of a writable word (R169). -/
def State.wordBase (s : State) (x : StatusWord) : Nat := s.regionBase + wordOffset x

/-- A write touches a writable word (R169). -/
def State.touchesWord (s : State) (w : WriteReq) (x : StatusWord) : Bool := rangesMeet w.addr.toNat w.bytes.length (s.wordBase x) 8

/-- The part of a write from a writable word's address on, at most the word's eight bytes. -/
def State.wordPart (s : State) (w : WriteReq) (x : StatusWord) : List (Byte × Bool) := (w.bytes.drop (s.wordBase x - w.addr.toNat)).take 8

/-- A write covers the eight bytes of a writable word with their enables set (R169). -/
def State.coversWord (s : State) (w : WriteReq) (x : StatusWord) : Bool :=
  decide (w.addr.toNat ≤ s.wordBase x) && (s.wordPart w x).length == 8 && (s.wordPart w x).all (·.2)

/-- One writable word's examination of a write (R169): taken when the write covers its eight bytes with their enables set, refused PARTIAL when
it covers part of it or a byte not enabled, nothing when it does not touch it. -/
def examineWord (w : WriteReq) (x : StatusWord) (s : State) : State :=
  if s.touchesWord w x then
    if s.coversWord w x then takeWord x ((s.wordPart w x).map (·.1)) s else refuse w.addr .partialWrite s
  else s

/-- A write that touches the control region is given to Control Intake (R160, R169): each area it touches, in ascending address order. -/
def intake (w : WriteReq) (s : State) : State :=
  let s := forEach [.flagClear, .flagEnables, .counterClear, .consumeIndex] (examineWord w) s
  examineRecords w (examineMailboxes w s)

end Sys2Proof.Machine
end

