-- ==== Sys2Proof/Machine/Parse.lean ====
section
/-! DEFINITION. The cell parse (R19 to R22), the fields of a cell that the splicer writes (R40 to R42, R107, R110, R112) and the null cell (R108). -/

namespace Sys2Proof.Machine

/-- The findings of the cell parse (table of R19). With sync lost, every finding but the stamp is absent. -/
structure Findings where
  stamp      : Stamp
  sync       : Bool := false
  unitStart  : Bool := false
  pid        : Option Pid := none
  scrambling : BitVec 2 := 0
  control    : BitVec 2 := 0
  cc         : CC := 0
  /-- The adaptation field's length, when a field is present (R20). -/
  field      : Option Nat := none
  /-- A well-formed adaptation field of length 1 or more is present: there is a flags byte (R20). -/
  room       : Bool := false
  disc       : Option Bool := none
  /-- The PCR flag of a well-formed adaptation field with a flags byte (R20). -/
  pcrFlag    : Bool := false
  pcr        : Option (Ticks × Nat) := none
  /-- The cell byte at which the payload begins, when payload is present (R20). -/
  payload    : Option Nat := none
  pesStart   : Bool := false
  pts        : Option Ticks := none
  dts        : Option Ticks := none
deriving DecidableEq, Repr

/-- The 33 value bits of a PTS or DTS field at `off`; marker bits and the four leading bits are not examined (R22, 11.8). -/
def pesTime (cell : List Byte) (off : Nat) : Ticks :=
  let v := BitVec.ofNat 40 (fieldNat cell off 5)
  (v.extractLsb' 33 3 ++ v.extractLsb' 17 15 ++ v.extractLsb' 1 15).setWidth 33

/-- The five bytes of a PTS or DTS field with new value bits, the other bits as they were (R41). -/
def withPesTime (cell : List Byte) (off : Nat) (t : Ticks) : List Byte :=
  let v := BitVec.ofNat 40 (fieldNat cell off 5)
  let w : BitVec 40 := v.extractLsb' 36 4 ++ t.extractLsb' 30 3 ++ v.extractLsb' 32 1 ++ t.extractLsb' 15 15 ++
    v.extractLsb' 16 1 ++ t.extractLsb' 0 15 ++ v.extractLsb' 0 1
  overwrite cell off (toBytes 5 w.toNat)

/-- The PCR field of a cell: a 33-bit base and a 9-bit extension around six reserved bits (11.8, cell bytes 10 to 15). -/
def pcrField (cell : List Byte) : Ticks × Nat :=
  let v := fieldNat cell 10 6
  (BitVec.ofNat 33 (v / 2 ^ 15), v % 2 ^ 9)

/-- The cell with a new PCR base; reserved bits and extension stay (R42). -/
def withPcrBase (cell : List Byte) (b : Ticks) : List Byte :=
  overwrite cell 10 (toBytes 6 (b.toNat * 2 ^ 15 + fieldNat cell 10 6 % 2 ^ 15))

/-- The adaptation field of a cell, by its control bits: absent, or its length and whether it is well formed (R20). -/
def adaptation (control : BitVec 2) (cell : List Byte) : Option (Nat × Bool) :=
  let len := (byteAt cell 8).toNat
  if control = 2 then some (len, decide (len ≤ 183))
  else if control = 3 then some (len, decide (len ≤ 182))
  else none

/-- Where the payload begins, when it is present (R20). -/
def payloadStart (control : BitVec 2) (cell : List Byte) : Option Nat :=
  if control = 1 then some 8
  else if control = 3 then
    let len := (byteAt cell 8).toNat
    if len ≤ 182 then some (9 + len) else none
  else none

/-- A cell is a PES start (R22): `p` is where its payload begins. -/
def isPesStart (unitStart : Bool) (scrambling : BitVec 2) (p : Nat) (cell : List Byte) : Bool :=
  unitStart && scrambling == 0 && decide (p + 9 ≤ Config.cellSize) && field cell p 3 == [0x00, 0x00, 0x01]

/-- PTS and DTS of a PES header that begins at `p`, by its PTS and DTS flags (table of R22). -/
def pesTimes (p : Nat) (cell : List Byte) : Option Ticks × Option Ticks :=
  let pdFlags := (byteAt cell (p + 7)).extractLsb' 6 2
  let headerLen := (byteAt cell (p + 8)).toNat
  let count := Config.cellSize - p
  if pdFlags = 2 ∧ 5 ≤ headerLen ∧ 14 ≤ count then (some (pesTime cell (p + 9)), none)
  else if pdFlags = 3 ∧ 10 ≤ headerLen ∧ 19 ≤ count then (some (pesTime cell (p + 9)), some (pesTime cell (p + 14)))
  else (none, none)

/-- The cell parse (R19 to R22). -/
def parseCell (cell : List Byte) : Findings :=
  let stamp : Stamp := BitVec.ofNat 32 (fieldNat cell 0 4)
  if byteAt cell 4 = 0x47 then
    let unitStart := bitAt cell 5 6
    let scrambling := (byteAt cell 7).extractLsb' 6 2
    let control := (byteAt cell 7).extractLsb' 4 2
    let af := adaptation control cell
    let room := match af with
      | some (len, ok) => ok && decide (1 ≤ len)
      | none => false
    let pcrFlag := room && bitAt cell 9 4
    let pcr := match af with
      | some (len, _) => if pcrFlag ∧ 7 ≤ len ∧ (pcrField cell).2 ≤ 299 then some (pcrField cell) else none
      | none => none
    let payload := payloadStart control cell
    let pes := match payload with
      | some p => isPesStart unitStart scrambling p cell
      | none => false
    let times := match payload with
      | some p => if pes then pesTimes p cell else (none, none)
      | none => (none, none)
    { stamp := stamp, sync := true, unitStart := unitStart,
      pid := some (BitVec.ofNat 13 (fieldNat cell 5 2)), scrambling := scrambling, control := control,
      cc := (byteAt cell 7).extractLsb' 0 4, field := af.map (·.1), room := room,
      disc := if room then some (bitAt cell 9 7) else none, pcrFlag := pcrFlag, pcr := pcr, payload := payload,
      pesStart := pes, pts := times.1, dts := times.2 }
  else { stamp := stamp }

/-- The cell with a new arrival stamp (R40). -/
def withStamp (cell : List Byte) (t : Stamp) : List Byte := overwrite cell 0 (toBytes 4 t.toNat)

/-- The cell with a new PID in its PID field; the three bits above it stay (R107). -/
def withPid (cell : List Byte) (p : Pid) : List Byte :=
  overwrite cell 5 (toBytes 2 (fieldNat cell 5 2 / 2 ^ 13 * 2 ^ 13 + p.toNat))

/-- The cell with a new continuity counter (R110). -/
def withCC (cell : List Byte) (c : CC) : List Byte :=
  overwrite cell 7 [(byteAt cell 7).extractLsb' 4 4 ++ c]

/-- The cell with its discontinuity indicator set (R112). -/
def withDiscontinuity (cell : List Byte) : List Byte := overwrite cell 9 [byteAt cell 9 ||| 0x80]

/-- The cell with its PCR flag cleared (R21). -/
def withoutPcrFlag (cell : List Byte) : List Byte := overwrite cell 9 [byteAt cell 9 &&& 0xEF]

/-- The null cell with a given stamp (R108). -/
def nullCell (t : Stamp) : List Byte :=
  toBytes 4 t.toNat ++ [0x47, 0x1F, 0xFF, 0x10] ++ List.replicate 184 0xFF

end Sys2Proof.Machine
end

