-- ==== Sys2Proof/Machine/Tracker.lean ====
section
/-! DEFINITION. The Ring Tracker: first, ahead and late writes (R9 to R11), inspection and hand-on (R12, R23 to R26), partial writes (R13)
and the sequence numbers of window reads (R15). -/

namespace Sys2Proof.Machine

/-- A cell's PID is one that a record holds, and is present there. -/
def Findings.isOn (f : Findings) (pid : Option Pid) : Bool := f.sync && pid.isSome && f.pid == pid

/-- The class of a written cell (table of R23). -/
def classify (r : RingShadow) (f : Findings) : SlotClass :=
  if !f.sync then .other
  else if f.pid == some 0 || f.isOn r.pmt then .psi
  else if f.isOn r.comps.video && f.pesStart && f.pts.isSome then .vstart
  else .other

/-- Slot `k` is classed by the written cell, a lost sync counted (R23). -/
def classSlot (k : Nat) (f : Findings) (r : Ring) : Ring :=
  let r := r.setClass k (classify r.shadow f)
  if f.sync then r else { r with syncLoss := counterAdd r.syncLoss 1 }

/-- How a full-cell write to slot `k` is taken (R9, R10, R11). -/
inductive WriteKind where
  | first
  | ahead (d : Nat)
  | late
deriving DecidableEq, Repr

/-- A full-cell write to slot `k`: first when the ring has no last written slot; ahead when the distance d forward from it is at least
1 and twice d at most N; late otherwise (R9, R10, R11). -/
def writeKind (r : Ring) (k : Nat) : WriteKind :=
  match r.lastSlot with
  | none => .first
  | some l =>
    let n := r.shadow.slotCount.toNat
    let d := (k + n - l) % n
    if 1 ≤ d ∧ 2 * d ≤ n then .ahead d else .late

/-- The slots passed over by an ahead write of distance `d` are classed OTHER (R10 step 1). -/
def skipSlots (l d : Nat) (r : Ring) : Ring :=
  (List.range (d - 1)).foldl (fun r i => r.setClass ((l + 1 + i) % r.shadow.slotCount.toNat) .other) r

/-- The count of a ring carried forward by a first or ahead write (R9, R10 steps 1 and 2). -/
def advance (k : Nat) (kind : WriteKind) (r : Ring) : Ring :=
  match kind with
  | .first => { r with writeCount := 1, lastSlot := some k }
  | .ahead d =>
    { skipSlots (r.lastSlot.getD 0) d r with writeCount := r.writeCount + BitVec.ofNat 32 d, lastSlot := some k }
  | .late => r

/-- The payload given to the Cue Unit: absent when the cell is scrambled or carries none (R26). -/
def cuePayload (f : Findings) (cell : List Byte) : Option (List Byte) :=
  if f.scrambling = 0 then f.payload.map cell.drop else none

/-- A video start: the last start mark (R24), the Cue Unit's expiry (R61), then the resolution of the watch list (R88), as R12 step 3 orders. -/
def reportStart (at_ : Arrival) (pts : Ticks) (s : State) : State × List WatchEntry :=
  let s := s.modRing at_.ring fun r => { r with mark := some { seq := at_.seq, pts := pts, stamp := at_.stamp } }
  resolveAtStart at_ pts (expireEntries (fun e => e.expiresAt at_.ring at_.seq pts) s)

/-- A PCR arrival: the latest PCR base (R25), then the watch list (R89), as R12 step 4 orders. -/
def reportPcr (at_ : Arrival) (base : Ticks) (old gone : List WatchEntry) (s : State) : State :=
  resolveAtPcr at_ base old gone (s.modRing at_.ring fun r => { r with pcrBase := some base })

/-- A cell on the CUE PID is given to the Cue Unit (R26, R12 step 2). -/
def inspectCue (r : RingNo) (arrival : SeqNo) (f : Findings) (cell : List Byte) (s : State) : State :=
  if f.isOn (s.ring r).shadow.cue then cueCell r arrival f.unitStart f.cc (cuePayload f cell) s else s

/-- A cell classed VSTART is reported as a video start (R24, R12 step 3). Answers the watch entries that it resolved. -/
def inspectStart (at_ : Arrival) (f : Findings) (s : State) : State × List WatchEntry :=
  match classify (s.ring at_.ring).shadow f, f.pts with
  | .vstart, some pts => reportStart at_ pts s
  | _, _ => (s, [])

/-- A PCR on the ring's PCR PID is reported (R25, R12 step 4). -/
def inspectPcr (at_ : Arrival) (f : Findings) (old gone : List WatchEntry) (s : State) : State :=
  match f.isOn (s.ring at_.ring).shadow.comps.pcr, f.pcr with
  | true, some (base, _) => reportPcr at_ base old gone s
  | _, _ => s

/-- The inspection of a cell taken as a first or ahead write, handed on in the order of R12: the class was set before. -/
def inspect (r : RingNo) (f : Findings) (cell : List Byte) (s : State) : State :=
  let at_ : Arrival := { ring := r, seq := (s.ring r).writeCount - 1, stamp := f.stamp }
  let u := inspectCue r at_.seq f cell s
  let t := inspectStart at_ f u
  inspectPcr at_ f (u.watchList r) t.2 t.1

/-- A full-cell write of slot `k` of ring `r` (R9 to R12). -/
def trackCell (r : RingNo) (k : Nat) (cell : List Byte) (s : State) : State :=
  let f := parseCell cell
  let kind := writeKind (s.ring r) k
  let s := s.modRing r fun x => classSlot k f (advance k kind x)
  match kind with
  | .first => inspect r f cell s
  | .ahead d => inspect r f cell (if 1 < d then countOrder r s else s)
  | .late => countOrder r s

/-- The slots of a ring that a write touches with an enabled byte (R13). -/
def touchedSlots (r : RingShadow) (w : WriteReq) : List Nat :=
  ((List.range w.bytes.length).filter fun i =>
      match w.bytes[i]? with
      | some (_, en) => en && r.meets (w.addr.toNat + i) 1
      | none => false).map fun i => (w.addr.toNat + i - r.base.toNat) / Config.cellSize

/-- A ring write that is not a full-cell write: the touched slots are classed OTHER and the order event counted; with no enabled byte in
the ring nothing changes (R13; log 18). -/
def trackPartial (r : RingNo) (w : WriteReq) (s : State) : State :=
  let slots := touchedSlots (s.ring r).shadow w
  if slots.isEmpty then s
  else countOrder r (s.modRing r fun x => slots.foldl (fun x k => x.setClass k .other) x)

/-- The slot of a full-cell write into ring `r` (R1). -/
def fullCellSlot (r : RingShadow) (w : WriteReq) : Option Nat :=
  if w.bytes.length = Config.cellSize ∧ w.bytes.all (·.2) then slotAt r.base.toNat r.slotCount.toNat w.addr.toNat else none

/-- A write is given to the Ring Tracker for ring `r`, whose slot range it touches (R2). -/
def trackWrite (w : WriteReq) (r : RingNo) (s : State) : State :=
  match fullCellSlot (s.ring r).shadow w with
  | some k => trackCell r k (w.bytes.map (·.1)) s
  | none => trackPartial r w s

/-- The sequence number of slot `k` of a ring; absent when nothing has been written or the slot is UNWRITTEN (R15, R16). -/
def Ring.seqOf (r : Ring) (k : Nat) : Option SeqNo :=
  match r.lastSlot with
  | none => none
  | some l =>
    let n := r.shadow.slotCount.toNat
    if r.classOf k = .unwritten then none else some (r.writeCount - 1 - BitVec.ofNat 32 ((l + n - k) % n))

end Sys2Proof.Machine
end

