-- ==== Sys2Proof/Machine/Splice.lean ====
section
/-! DEFINITION. The Splice Engine at the acceptance of a full-cell window read (R99): marks (R146, R148, R151), due points (R100 to R104, R124,
R129, R130, R149, R150) and serving (R105, R106, R113, R114, R125 to R128, R147). -/

namespace Sys2Proof.Machine

/-- What a read gathers while it is taken: the mark requests attached to it (R111) and the pod whose resume is judged at its return (R151).
`startMark` is the request of an OUT or SLOT_RESUME that took the output off the network at this read; it falls away when the pod ends at
the same read with no cell delivered (R103; log 12). -/
structure ReadCtx where
  markReq   : Bool := false
  startMark : Bool := false
  resume    : Option PodNo := none
deriving DecidableEq, Repr

/-- A switch-in is made pending, in place of one not yet attached (R37). -/
def Channel.withSwitchIn (ch : Channel) (sw : SwitchIn) : Channel := { ch with pendingIn := some sw, wrapDue := false }

/-- A channel enters NETWORK: playing pod and position absent, the pending switch-in discarded (R36, R103, R129). -/
def Channel.toNetwork (ch : Channel) : Channel :=
  { ch with state := .network, playing := none, pos := none, wrapDue := false, pendingIn := none }

/-! ### Pods starting and ending -/

/-- The switch-in onto spot `k` of a pod, or onto its filler for `k` equal to the spot count: anchor the slot start, reference the clip's
first video PTS, target stamp `t`, which becomes the spot target stamp (R45). -/
def switchToSpot (c : ChanNo) (p : PodNo) (n : ClipNo) (k : Nat) (t : Stamp) (s : State) : State :=
  let sw : SwitchIn := { place := some (s.slotStart p k, t), ref := (s.clip n).firstPts, origin := none }
  s.modChan c fun ch => { ch.withSwitchIn sw with spotTarget := some t }

/-- A pod begins or resumes at its anchor spot `k` by an OUT or SLOT_RESUME point (R102, R104). -/
def startPod (c : ChanNo) (p : PodNo) (k : SpotNo) (pt : SwitchPoint) (late : Bool) (s : State) : State :=
  let s := s.modPod p fun pod => { pod with state := .airing, anchor := some (pt.anchor, k) }
  let s := modSpot p k (fun i => { i with late := late, unaligned := !pt.aligned }) s
  let s := s.modChan c fun ch => { ch with state := .insert, playing := some p, pos := some (.spot k 0) }
  switchToSpot c p ((s.pod p).record.clipOf k.val) k.val pt.stamp s

/-- The record of a pod's last spot, made when FILLER or EXHAUSTED ends (R115). -/
def lastSpotRecord (p : PodNo) (filling : Bool) (ends : EndFlags) (s : State) : State :=
  let pod := s.pod p
  let k : SpotNo := Fin.ofNat 8 (pod.record.spots.length - 1)
  let r := s.playedRecord p k .spotAired (s.clip (pod.record.clipOf k.val)).cellCount.toNat ends
  let r := if filling then { r with filled := true, fillerCells := some pod.fillerTotal } else { r with underfill := true }
  markRecorded p k (asRunPush r s)

/-- The record of a pod's spot in progress (R103 step 1, R146 step 2): of this kind in phase SPOT when its fate is PLAYING, the last spot's
SPOT_AIRED in FILLER and EXHAUSTED (R115). -/
def recordInProgress (p : PodNo) (pos : Option Position) (kind : RecordKind) (ends : EndFlags) (s : State) : State :=
  match pos with
  | none => s
  | some (.spot k cell) =>
    if ((s.pod p).spotInfo.get k).fate = .playing then
      markRecorded p k (asRunPush (s.playedRecord p k kind cell ends) s)
    else s
  | some (.filler _) => lastSpotRecord p true ends s
  | some (.exhausted _) => lastSpotRecord p false ends s

/-- The channel has output at least one cell of the pod since it began: its anchor spot has started (R103 step 4). -/
def State.hasDelivered (s : State) (p : PodNo) : Bool :=
  match (s.pod p).anchor with
  | some (_, k) => ((s.pod p).spotInfo.get k).fate != .unstarted
  | none => false

/-- The playing pod of a channel in INSERT is ended with reason TRUNCATED (R103 steps 1 and 2). -/
def endPlaying (c : ChanNo) (p : PodNo) (ends : EndFlags) (s : State) : State :=
  closePod p .truncated ends (recordInProgress p (s.chan c).pos .spotTruncated ends s)

/-! ### Feed runs -/

/-- The feed state a FEED_IN point begins at a read with sequence `seq` (R124 steps 1 and 2); absent when the point captured no mark, which
R88 rules out. -/
def feedStart (f : RingNo) (pt : SwitchPoint) (seq : SeqNo) (late : Bool) : Option FeedState :=
  pt.mark.map fun m =>
    { ring := f, fs := m.seq,
      run := { startSeq := seq, startStamp := pt.stamp, startPts := pt.anchor, delivered := 0, underrun := 0,
               late := late, unaligned := !pt.aligned } }

/-- The switch-in of a FEED_IN point (R47). -/
def feedSwitchIn (pt : SwitchPoint) (m : StartMark) : SwitchIn :=
  { place := some (pt.anchor, pt.stamp), ref := m.pts, origin := some m.stamp }

/-- The channel enters FEED by a FEED_IN point (R124). -/
def enterFeed (c : ChanNo) (f : RingNo) (pt : SwitchPoint) (seq : SeqNo) (late : Bool) (s : State) : State :=
  match pt.mark, feedStart f pt seq late with
  | some m, some fd => s.modChan c fun ch => { ch.toNetwork.withSwitchIn (feedSwitchIn pt m) with state := .feed, feed := some fd }
  | _, _ => s

/-- The FEED_ENDED record of a run (R129 step 1). -/
def feedEnded (c : ChanNo) (run : FeedRun) (ends : EndFlags) : State → State :=
  asRunPush
    { kind := .feedEnded, chan := some c, startSeq := some run.startSeq, startStamp := some run.startStamp,
      startPts := some run.startPts, delivered := some run.delivered, underrunCells := some run.underrun,
      late := run.late || ends.late, unaligned := run.unaligned || ends.unaligned }

/-! ### Points by channel state -/

/-- A point taken from a queue at a read: the channel, the point, the read's sequence and whether the point is late (R100). -/
structure Due where
  chan : ChanNo
  pt   : SwitchPoint
  seq  : SeqNo
  late : Bool
deriving DecidableEq, Repr

/-- The flags of the records made at a point's application (R155). -/
def Due.ends (d : Due) : EndFlags := { late := d.late, unaligned := !d.pt.aligned }

/-- A FEED_OUT that meets a channel which still holds a FEED_IN abandons the feed start (R129, R150). -/
def feedOutElsewhere (c : ChanNo) (s : State) : State :=
  if s.hasEntry c PointKind.isFeedIn || s.hasPoint c PointKind.isFeedIn then abandonFeed c s else s

/-- A point applied in NETWORK (R101, R102, R124, R129). -/
def applyInNetwork (d : Due) (x : ReadCtx) (s : State) : State × ReadCtx :=
  match d.pt.kind with
  | .out p => if (s.pod p).state = .pending then (startPod d.chan p 0 d.pt d.late s, { x with startMark := true }) else (s, x)
  | .ret _ | .slotResume _ _ => (s, x)
  | .feedIn f => (enterFeed d.chan f d.pt d.seq d.late s, { x with markReq := true })
  | .feedOut _ => (feedOutElsewhere d.chan s, x)

/-- A point applied in INSERT with playing pod `q` (R101 to R103, R124, R129). The request of an OUT that takes over from a pod which had delivered a cell
stands although its own RETURN ends it at the same read (log 12). -/
def applyInInsert (d : Due) (q : PodNo) (x : ReadCtx) (s : State) : State × ReadCtx :=
  let c := d.chan
  match d.pt.kind with
  | .out p =>
    if (s.pod p).state = .pending then
      let x := if s.hasDelivered q then { x with markReq := true } else { x with startMark := true }
      (startPod c p 0 d.pt d.late (endPlaying c q d.ends s), x)
    else (s, x)
  | .ret p =>
    if p = q then
      let x := if s.hasDelivered q then { x with markReq := true } else { x with startMark := false }
      ((endPlaying c q d.ends s).modChan c Channel.toNetwork, x)
    else (s, x)
  | .slotResume _ _ => (s, x)
  | .feedIn f => (enterFeed c f d.pt d.seq d.late (endPlaying c q d.ends s), { x with markReq := true })
  | .feedOut _ => (feedOutElsewhere c s, x)

/-- A point applied in RESUME_WAIT with suspended pod `q` (R101, R104, R124, R129). -/
def applyInResumeWait (d : Due) (q : PodNo) (x : ReadCtx) (s : State) : State × ReadCtx :=
  let c := d.chan
  match d.pt.kind with
  | .out p =>
    if (s.pod p).state = .pending then
      (startPod c p 0 d.pt d.late (closePod q .truncated d.ends s), { x with startMark := true })
    else (s, x)
  | .ret p => if p = q then ((closePod q .truncated d.ends s).modChan c Channel.toNetwork, x) else (s, x)
  | .slotResume p k => if p = q then (startPod c p k d.pt d.late s, { x with startMark := true }) else (s, x)
  | .feedIn f => (enterFeed c f d.pt d.seq d.late (closePod q .truncated d.ends s), { x with markReq := true })
  | .feedOut _ => (feedOutElsewhere c s, x)

/-- A point applied in FEED with run `fd` (R101, R124, R129, R130). -/
def applyInFeed (d : Due) (fd : FeedState) (x : ReadCtx) (s : State) : State × ReadCtx :=
  let c := d.chan
  match d.pt.kind with
  | .out p => if (s.pod p).state = .pending then (closePod p .truncated d.ends s, x) else (s, x)
  | .ret _ | .slotResume _ _ | .feedIn _ => (s, x)
  | .feedOut _ =>
    ((feedEnded c fd.run d.ends s).modChan c fun ch => { ch.toNetwork with feed := none }, { x with markReq := true })

/-- The saved context of a channel in ALERT is replaced, with the playing pod it names (R146, R149). -/
def setSaved (c : ChanNo) (sv : Saved) (playing : Option PodNo) (s : State) : State :=
  s.modChan c fun ch => { ch with saved := some sv, playing := playing }

/-- The pod that a saved context names (R98, R149). -/
def savedPod : Saved → Option PodNo
  | .insert p _ | .resumeWait p => some p
  | .network | .feed _ => none

/-- The saved pod, if any, is closed with reason PREEMPTED (R149, R150). -/
def closeSaved (sv : Saved) (ends : EndFlags) (s : State) : State :=
  match savedPod sv with
  | some q => closePod q .preempted ends s
  | none => s

/-- A point applied in ALERT acts on the saved context (R149, R150). -/
def applyInAlert (d : Due) (sv : Saved) (s : State) : State :=
  let c := d.chan
  match d.pt.kind, sv with
  | .out p, .feed _ => if (s.pod p).state = .pending then closePod p .truncated d.ends s else s
  | .out p, _ =>
    if (s.pod p).state = .pending then
      let s := closeSaved sv d.ends s
      if (s.pod p).record.resume then
        let s := s.modPod p fun pod => { pod with state := .suspended, anchor := some (d.pt.anchor, 0) }
        setSaved c (.insert p (.spot 0 0)) (some p) s
      else setSaved c .network none (closePod p .preempted d.ends s)
    else s
  | .ret p, _ => if savedPod sv = some p then setSaved c .network none (closePod p .preempted d.ends s) else s
  | .slotResume _ _, _ => s
  | .feedIn _, .feed _ => s
  | .feedIn f, _ =>
    match feedStart f d.pt d.seq d.late with
    | some fd => setSaved c (.feed fd) none (closeSaved sv d.ends s)
    | none => s
  | .feedOut _, .feed fd => setSaved c .network none (feedEnded c fd.run d.ends s)
  | .feedOut _, _ => feedOutElsewhere c s

/-- A point is applied by the channel's state (table of R101). A channel whose playing pod, feed run or saved context is missing, which no
reachable state is, takes no effect of it (log 26). -/
def applyPoint (d : Due) (x : ReadCtx) (s : State) : State × ReadCtx :=
  let ch := s.chan d.chan
  match ch.state with
  | .off => (s, x)
  | .network => applyInNetwork d x s
  | .insert => match ch.playing with
    | some q => applyInInsert d q x s
    | none => (s, x)
  | .resumeWait => match ch.playing with
    | some q => applyInResumeWait d q x s
    | none => (s, x)
  | .feed => match ch.feed with
    | some fd => applyInFeed d fd x s
    | none => (s, x)
  | .alert => match ch.saved with
    | some sv => (applyInAlert d sv s, x)
    | none => (s, x)

/-- A late point sets LATE and counts in the channel (R100). -/
def countLate (c : ChanNo) (s : State) : State :=
  setFlag .late (s.modChan c fun ch => { ch with late := counterAdd ch.late 1 })

/-- The due points of channel `c` at a read with sequence `seq`, in queue order, each whole before the next (R100). The fuel is the number of
points held: each turn takes one from the queue and none is added at a read. -/
def takeDue (c : ChanNo) (seq : SeqNo) : (fuel : Nat) → State × ReadCtx → State × ReadCtx
  | 0, t => t
  | fuel + 1, t =>
    match (t.1.chan c).queue with
    | [] => t
    | pt :: rest =>
      if seqAtOrAfter seq pt.seq then
        let s := t.1.modChan c fun ch => { ch with queue := rest }
        let late := seq != pt.seq
        let s := if late then countLate c s else s
        takeDue c seq fuel (applyPoint { chan := c, pt := pt, seq := seq, late := late } t.2 s)
      else t

/-! ### Marks -/

/-- The switch-in by estimate onto a clip (R44). -/
def State.estimateSwitchIn (s : State) (n : ClipNo) : SwitchIn := { place := none, ref := (s.clip n).firstPts, origin := none }

/-- The channel plays the device's playing source from its clip's first cell, with a switch-in by estimate (R146 step 4, R148). -/
def playSource (c : ChanNo) (x : Source) (n : ClipNo) (s : State) : State :=
  let sw := s.estimateSwitchIn n
  s.modChan c fun ch => { ch.withSwitchIn sw with state := .alert, alert := some (x, n), alertCell := 0 }

/-- The playing source and its clip in the alert record; both present while a mark can be pending (log 26). -/
def State.playingClip (s : State) : Option (Source × ClipNo) :=
  s.alert.playing.bind fun x => (s.alert.record.clipOf x).map fun n => (x, n)

/-- The context that an engagement saves (R146 step 1). -/
def Channel.context (ch : Channel) : Option Saved :=
  match ch.state, ch.playing, ch.pos, ch.feed with
  | .network, _, _, _ => some .network
  | .insert, some p, some pos, _ => some (.insert p pos)
  | .resumeWait, some p, _, _ => some (.resumeWait p)
  | .feed, _, _, some f => some (.feed f)
  | _, _, _, _ => none

/-- A pod in AIRING becomes SUSPENDED (R146 step 3). -/
def suspend (p : PodNo) : State → State := fun s =>
  s.modPod p fun pod => if pod.state = .airing then { pod with state := .suspended } else pod

/-- An ENGAGE mark is taken (R146). -/
def takeEngage (c : ChanNo) (x : ReadCtx) (s : State) : State × ReadCtx :=
  match (s.chan c).context, s.playingClip with
  | some sv, some (src, n) =>
    let s := match sv with
      | .insert p pos => suspend p (recordInProgress p (some pos) .spotPreempted {} s)
      | _ => s
    let s := s.modChan c fun ch => { ch with saved := some sv, pos := none, feed := none }
    (playSource c src n s, { x with markReq := true })
  | _, _ => (s, x)

/-- A SOURCE mark is taken (R148). -/
def takeSource (c : ChanNo) (x : ReadCtx) (s : State) : State × ReadCtx :=
  match s.playingClip with
  | some (src, n) =>
    if (s.chan c).alert.map (·.1) = some src then (s, x) else (playSource c src n s, { x with markReq := true })
  | none => (s, x)

/-- The channel leaves ALERT: the switch-in onto the alert clip is discarded, alert source and clip and saved context absent (R151). -/
def Channel.leaveAlert (ch : Channel) (st : ChanState) : Channel :=
  { ch with state := st, pendingIn := none, wrapDue := false, alert := none, saved := none }

/-- The channel comes back to its feed (R151, R47): fs is the sequence of the feed ring's current start mark. -/
def restoreFeed (c : ChanNo) (f : FeedState) (s : State) : State :=
  match (s.ring f.ring).mark with
  | some m =>
    s.modChan c fun ch =>
      { (ch.leaveAlert .feed).withSwitchIn { place := none, ref := m.pts, origin := some m.stamp } with
        feed := some { f with fs := m.seq } }
  | none => s.modChan c fun ch => { ch.leaveAlert .feed with feed := some f }

/-- Every SLOT_RESUME entry and point of a pod is removed (R151), as is one that a new judgement supersedes (R84, R87; log 35). -/
def dropResume (c : ChanNo) (p : PodNo) (s : State) : State :=
  dropPoints c (fun pt => pt.kind.isResumeOf p) (dropEntries (fun e => e.kind.isResumeOf p) s)

/-- An interrupted pod comes back (R151): it waits to resume when it may, or is closed. -/
def restorePod (c : ChanNo) (p : PodNo) (x : ReadCtx) (s : State) : State × ReadCtx :=
  if (s.pod p).state = .suspended ∧ (s.pod p).record.resume ∧ !s.hasPoint c (fun k => k == .ret p) then
    ((dropResume c p s).modChan c fun ch => { ch.leaveAlert .resumeWait with playing := some p }, { x with resume := some p })
  else ((closePod p .preempted {} s).modChan c fun ch => { ch.leaveAlert .network with playing := none }, x)

/-- A RESTORE mark is taken (R151). -/
def takeRestore (c : ChanNo) (x : ReadCtx) (s : State) : State × ReadCtx :=
  let x := { x with markReq := true }
  match (s.chan c).saved with
  | some .network | none => (s.modChan c fun ch => { ch.leaveAlert .network with playing := none }, x)
  | some (.feed f) => (restoreFeed c f s, x)
  | some (.insert p _) | some (.resumeWait p) => restorePod c p x s

/-- The channel's pending alert mark is taken and becomes none (R99 step 1, R145). -/
def takeMark (c : ChanNo) (s : State) : State × ReadCtx :=
  let ch := s.chan c
  let s := s.modChan c fun ch => { ch with mark := .none }
  match ch.mark, ch.state with
  | .none, _ => (s, {})
  | .engage, .alert => (s, {})
  | .engage, _ => takeEngage c {} s
  | .source, .alert => takeSource c {} s
  | .restore, .alert => takeRestore c {} s
  | .source, _ | .restore, _ => (s, {})

/-! ### Serving -/

/-- How a read is served: its downstream address and serving, and whether it is redirected to an insertion source. -/
structure Served where
  addr    : Addr
  serving : Serving
  markReq : Bool := false
deriving DecidableEq, Repr

/-- A redirected read takes what the channel holds for it: the pending switch-in (R37), the held mark request (R111) and the start of a new
pass (R46). -/
def Channel.detach (ch : Channel) : Channel := { ch with pendingIn := none, markReq := false, wrapDue := false }

/-- A spot begins when its first cell is delivered: PLAYING, with the start sequence and the target stamp of its switch-in kept (R113 step 1). -/
def beginSpot (c : ChanNo) (p : PodNo) (k : SpotNo) (seq : Option SeqNo) (s : State) : State :=
  modSpot p k (fun i => { i with fate := .playing, startSeq := seq, startStamp := (s.chan c).spotTarget }) s

/-- The target stamp of the next spot or the filler: the spot target stamp plus a clip's duration in counts (R45). -/
def State.nextTarget (s : State) (c : ChanNo) (n : ClipNo) : Stamp :=
  (s.chan c).spotTarget.getD 0 + inCounts (s.clip n).duration

/-- A spot has delivered its last cell (R113 step 3, R114). -/
def endSpot (c : ChanNo) (p : PodNo) (k : SpotNo) (s : State) : State :=
  let record := (s.pod p).record
  let n := record.clipOf k.val
  let t := s.nextTarget c n
  if k.val + 1 < record.spots.length then
    let r := s.playedRecord p k .spotAired (s.clip n).cellCount.toNat {}
    let s := markRecorded p k (asRunPush r s)
    let s := s.modChan c fun ch => { ch with pos := some (.spot (k + 1) 0), markReq := true }
    switchToSpot c p (record.clipOf (k.val + 1)) (k.val + 1) t s
  else match record.filler with
    | some f =>
      let s := s.modChan c fun ch => { ch with pos := some (.filler 0), markReq := true }
      switchToSpot c p f record.spots.length t s
    | none => s.modChan c fun ch => { ch with pos := some (.exhausted (s.clip n).cellCount.toNat) }

/-- A read redirected to a spot of the playing pod (R113). -/
def serveSpot (c : ChanNo) (p : PodNo) (k : SpotNo) (cell : Nat) (seq : Option SeqNo) (s : State) : State × Served :=
  let n := (s.pod p).record.clipOf k.val
  let cl := s.clip n
  let ch := s.chan c
  let sv : Served :=
    { addr := cl.cellAddr cell, serving := .source cl.comps false ch.pendingIn none, markReq := ch.markReq }
  let s := s.modChan c Channel.detach
  let s := if cell = 0 ∧ ((s.pod p).spotInfo.get k).fate = .unstarted then beginSpot c p k seq s else s
  let s := s.modChan c fun ch => { ch with pos := some (.spot k (cell + 1)) }
  (if cell + 1 = cl.cellCount.toNat then endSpot c p k s else s, sv)

/-- The clip duration by which the first read of a new pass advances the offsets (R46). -/
def Channel.wrapOf (ch : Channel) (cl : ClipShadow) : Option Dur := if ch.wrapDue then some cl.duration else none

/-- A read redirected to the filler clip (R114). The mark request of a new pass is raised at the pass's first read, not held from the wrap on (R111;
log 37). -/
def serveFiller (c : ChanNo) (p : PodNo) (n : ClipNo) (cell : Nat) (s : State) : State × Served :=
  let cl := s.clip n
  let ch := s.chan c
  let sv : Served :=
    { addr := cl.cellAddr cell, serving := .source cl.comps false ch.pendingIn (ch.wrapOf cl), markReq := ch.markReq || ch.wrapDue }
  let s := (s.modChan c Channel.detach).modPod p fun pod => { pod with fillerTotal := heldInc pod.fillerTotal }
  let wraps := cell + 1 == cl.cellCount.toNat
  (s.modChan c fun ch => { ch with pos := some (.filler (if wraps then 0 else cell + 1)), wrapDue := wraps }, sv)

/-- A read redirected to the alert clip (R147). The mark request of a new pass is raised at the pass's first read, not held from the wrap on (R111;
log 37). -/
def serveAlert (c : ChanNo) (n : ClipNo) (s : State) : State × Served :=
  let cl := s.clip n
  let ch := s.chan c
  let sv : Served :=
    { addr := cl.cellAddr ch.alertCell, serving := .source cl.comps false ch.pendingIn (ch.wrapOf cl),
      markReq := ch.markReq || ch.wrapDue }
  let wraps := ch.alertCell + 1 == cl.cellCount.toNat
  (s.modChan c fun ch => { ch.detach with alertCell := if wraps then 0 else ch.alertCell + 1, wrapDue := wraps }, sv)

/-- The slot of sequence `q` in a feed ring (R125). -/
def Ring.slotOfSeq (r : Ring) (q : SeqNo) : Nat :=
  (((r.lastSlot.getD 0 : Nat) : Int) - ((r.writeCount - 1 - q).toNat : Int)).emod (r.shadow.slotCount.toNat : Int) |>.toNat

/-- Where an overrun feed read jumps to (R127 step 1). -/
def Ring.jumpTo (r : Ring) : SeqNo :=
  match r.mark with
  | some m => if (r.writeCount - m.seq).toNat < r.shadow.slotCount.toNat then m.seq else r.writeCount - 1
  | none => r.writeCount - 1

/-- A feed read redirected to the cell of `fs` (R128). -/
def serveFeedCell (c : ChanNo) (fd : FeedState) (jumped : Bool) (s : State) : State × Served :=
  let r := s.ring fd.ring
  let k := r.slotOfSeq fd.fs
  let sv : Served :=
    { addr := r.shadow.slotAddr k,
      serving := .source r.shadow.comps (r.classOf k == .psi) (s.chan c).pendingIn none,
      markReq := (s.chan c).markReq || jumped }
  let run := { fd.run with delivered := heldInc fd.run.delivered }
  (s.modChan c fun ch => { ch.detach with feed := some { fd with fs := fd.fs + 1, run := run } }, sv)

/-- A read of a channel in FEED whose network slot is neither PSI nor UNWRITTEN: underrun, overrun or the cell of fs (R126 to R128). -/
def serveFeed (c : ChanNo) (fd : FeedState) (slot : Addr) (s : State) : State × Served :=
  let r := s.ring fd.ring
  if !seqBefore fd.fs r.writeCount then
    let run := { fd.run with underrun := heldInc fd.run.underrun }
    (setFlag .feed (s.modChan c fun ch => { ch with feed := some { fd with run := run }, underrun := counterAdd ch.underrun 1 }),
     { addr := slot, serving := .nullSlot })
  else if r.shadow.slotCount.toNat ≤ (r.writeCount - fd.fs).toNat then
    let fs := r.jumpTo
    let s := setFlag .feed (s.modChan c fun ch => { ch with lostFeed := counterAdd ch.lostFeed (fs - fd.fs).toNat })
    serveFeedCell c { fd with fs := fs } true s
  else serveFeedCell c fd false s

/-- A read served from an insertion source (table of R106): network PSI cells pass, unwritten slots and EXHAUSTED give null cells, the rest
is redirected. `seq` is absent for an unwritten-slot read. -/
def serveInsertion (c : ChanNo) (cls : SlotClass) (seq : Option SeqNo) (slot : Addr) (s : State) : State × Served :=
  let ch := s.chan c
  if cls = .psi then (s, { addr := slot, serving := .network })
  else if seq = none then (s, { addr := slot, serving := .nullSlot })
  else match ch.state, ch.playing, ch.pos, ch.feed, ch.alert with
    | .insert, some p, some (.spot k cell), _, _ => serveSpot c p k cell seq s
    | .insert, some p, some (.filler cell), _, _ =>
      match (s.pod p).record.filler with
      | some n => serveFiller c p n cell s
      | none => (s, { addr := slot, serving := .nullSlot })
    | .feed, _, _, some fd, _ => serveFeed c fd slot s
    | .alert, _, _, _, some (_, n) => serveAlert c n s
    | _, _, _, _, _ => (s, { addr := slot, serving := .nullSlot })

/-- A read is served by the channel's state (R99 step 3). In NETWORK and RESUME_WAIT any read takes a held mark request (R111). -/
def serveRead (c : ChanNo) (cls : SlotClass) (seq : Option SeqNo) (slot : Addr) (s : State) : State × Served :=
  match (s.chan c).state with
  | .off | .network | .resumeWait =>
    (s.modChan c fun ch => { ch with markReq := false },
     { addr := slot, serving := if seq.isNone then .untouched else .network, markReq := (s.chan c).markReq })
  | .insert | .feed | .alert => serveInsertion c cls seq slot s

/-- The due points of a read (R99 step 2): an unwritten-slot read has no sequence and takes none (R16). -/
def takePoints (c : ChanNo) (seq : Option SeqNo) (t : State × ReadCtx) : State × ReadCtx :=
  match seq with
  | some q => takeDue c q (t.1.chan c).queue.length t
  | none => t

/-- A read becomes outstanding, its request sent downstream (R3, R99). -/
def sendRead (w : WindowRead) (addr : Addr) (s : State) : State :=
  { s with outstanding := s.outstanding ++ [.forwarded (.read addr Config.cellSize) (.window w)],
           downOut := s.downOut ++ [.read addr Config.cellSize] }

/-- A full-cell window read of slot `k` of channel `c` is taken (R99, steps 1 to 3): marks, due points, serving. It becomes outstanding
with the request sent downstream. -/
def spliceRead (c : ChanNo) (k : Nat) (s : State) : State :=
  let r := s.ring (s.netRing c)
  let seq := r.seqOf k
  let t := takePoints c seq (takeMark c s)
  let u := serveRead c (r.classOf k) seq (r.shadow.slotAddr k) t.1
  sendRead { chan := c, serving := u.2.serving, markReq := t.2.markReq || t.2.startMark || u.2.markReq, resume := t.2.resume } u.2.addr u.1

end Sys2Proof.Machine
end

