-- ==== Sys2Proof/Machine/Rewriter.lean ====
section
/-! DEFINITION. The Cell Rewriter at the return of a window read's data: switch-ins and loop wraps (R37, R43, R44, R46, R47), rewrites (R40 to
R42), PID remap (R107), continuity (R110), marks (R112), the last-output record (R30, R31) and the resume judgement (R152). -/

namespace Sys2Proof.Machine

/-! ### Offsets -/

/-- Anchor and target of a switch-in, and whether D90 is fixed from the anchor or put to 0 (R37, table of R44). -/
def SwitchIn.resolve (sw : SwitchIn) (o : LastOutput) : Ticks × Stamp :=
  match sw.place with
  | some (ps, t) => (ps - sw.ref, t)
  | none =>
    match estimate o with
    | some p => (p - sw.ref, o.tL.getD 0)
    | none => (0, o.tL.getD 0)

/-- The offsets are fixed at the switch-in read's data return (R37, R44, R47): `t0` is the stamp of the returned cell. -/
def Channel.fixOffsets (ch : Channel) (sw : SwitchIn) (t0 : Stamp) : Channel :=
  let (d, t) := sw.resolve ch.lastOut
  { ch with d90 := d, s := t - sw.origin.getD t0, runTarget := some t }

/-- The offsets advance at a loop wrap (R46). -/
def Channel.wrapOffsets (ch : Channel) (d : Dur) : Channel :=
  { ch with d90 := ch.d90 + asTicks d, s := ch.s + inCounts d, runTarget := ch.runTarget.map (· + inCounts d) }

/-- Step 2 of R38. -/
def Channel.takeSwitch (ch : Channel) (sw : Option SwitchIn) (wrap : Option Dur) (t0 : Stamp) : Channel :=
  let ch := match sw with
    | some x => ch.fixOffsets x t0
    | none => ch
  match wrap with
  | some d => ch.wrapOffsets d
  | none => ch

/-! ### Component continuity and marks -/

/-- A mark request sets the mark pending flag of every entry (R112). -/
def Channel.setMarks (ch : Channel) : Channel := { ch with cc := ch.cc.map fun e => { e with mark := true } }

/-- The entry of the component CC table for a PID (R109). -/
def Channel.ccEntry (ch : Channel) (p : Pid) : Option CcEntry := ch.cc.find? (·.pid == p)

/-- The entry for a PID changed. -/
def Channel.modCc (ch : Channel) (p : Pid) (f : CcEntry → CcEntry) : Channel :=
  { ch with cc := ch.cc.map fun e => if e.pid = p then f e else e }

/-- A pending mark is applied to a cell that goes upstream with its PID and has room for it (R112). -/
def applyMark (p : Pid) (room : Bool) (cell : List Byte) (ch : Channel) : List Byte × Channel :=
  match ch.ccEntry p with
  | some e => if e.mark && room then (withDiscontinuity cell, ch.modCc p fun e => { e with mark := false }) else (cell, ch)
  | none => (cell, ch)

/-! ### The last-output record -/

/-- t_L becomes the stamp of a cell as output (R30), and V with t_V its PTS when it goes out on the network VIDEO PID as a PES start (R31). -/
def LastOutput.update (o : LastOutput) (video : Option Pid) (pid : Option Pid) (pts : Option Ticks) (stamp : Stamp) : LastOutput :=
  match pts with
  | some v => if video.isSome ∧ video = pid then { video := some (v, stamp), tL := some stamp } else { o with tL := some stamp }
  | none => { o with tL := some stamp }

/-- The last-output record of a channel updated. -/
def Channel.output (ch : Channel) (video : Option Pid) (pid : Option Pid) (pts : Option Ticks) (stamp : Stamp) : Channel :=
  { ch with lastOut := ch.lastOut.update video pid pts stamp }

/-! ### Network cells and null cells -/

/-- A network cell is passed upstream (R28, R105): a pending mark is applied, its continuity counter followed (R110) and the last-output
record updated. A cell with sync lost is untouched but for t_L (R27). -/
def passNetwork (video : Option Pid) (cell : List Byte) (ch : Channel) : List Byte × Channel :=
  let f := parseCell cell
  match f.pid with
  | none => (cell, ch.output video none none f.stamp)
  | some p =>
    let m := applyMark p f.room cell ch
    (m.1, (m.2.modCc p fun e => { e with cc := some f.cc }).output video (some p) f.pts f.stamp)

/-- A null cell in place of a network slot carries the slot's stamp unrewritten (R108). -/
def passNullSlot (cell : List Byte) (ch : Channel) : List Byte × Channel :=
  let t := (parseCell cell).stamp
  (nullCell t, ch.output none none none t)

/-! ### Source cells -/

/-- The output PID that a source's map gives a cell: the first slot, in the order VIDEO, AUDIO1, AUDIO2, AUX, PCR, whose source PID is present
and equals the cell's decides; absent when none does or that slot's network PID is absent (R107). -/
def remap (source net : Components) (pid : Option Pid) : Option Pid :=
  ([(source.video, net.video), (source.audio1, net.audio1), (source.audio2, net.audio2), (source.aux, net.aux),
    (source.pcr, net.pcr)].find? fun x => x.1.isSome && x.1 == pid).bind (·.2)

/-- PTS, DTS and PCR rewritten by an offset, or the flag of a rejected PCR cleared (R41, R42, R21). -/
def rewriteTimes (f : Findings) (d90 : Ticks) (cell : List Byte) : List Byte :=
  let cell := match f.payload, f.pts with
    | some p, some t => withPesTime cell (p + 9) (t + d90)
    | _, _ => cell
  let cell := match f.payload, f.dts with
    | some p, some t => withPesTime cell (p + 14) (t + d90)
    | _, _ => cell
  match f.pcr with
  | some (b, _) => withPcrBase cell (b + d90)
  | none => if f.pcrFlag then withoutPcrFlag cell else cell

/-- The counter an inserted cell goes upstream with (R110). -/
def insertedCC (last : Option CC) (f : Findings) : CC :=
  match last with
  | some c => if f.payload.isSome then c + 1 else c
  | none => f.cc

/-- The data of a redirected read (R38): offsets, stamp, times, PID, continuity, marks and the last-output record, or a null cell with the
rewritten stamp (R107, R108, R128). -/
def passSource (net : Components) (map : Components) (feedPsi : Bool) (sw : Option SwitchIn) (wrap : Option Dur) (cell : List Byte)
    (ch : Channel) : List Byte × Channel :=
  let f := parseCell cell
  let ch := ch.takeSwitch sw wrap f.stamp
  let stamp := f.stamp + ch.s
  match (if feedPsi then none else remap map net f.pid) with
  | none => (nullCell stamp, ch.output net.video none none stamp)
  | some p =>
    let cell := withPid (rewriteTimes f ch.d90 (withStamp cell stamp)) p
    let cc := insertedCC ((ch.ccEntry p).bind (·.cc)) f
    let ch := ch.modCc p fun e => { e with cc := some cc }
    let m := applyMark p f.room (withCC cell cc) ch
    (m.1, m.2.output net.video (some p) (f.pts.map (· + ch.d90)) stamp)

/-! ### The resume judgement -/

/-- The break end of a pod: the target of its unresolved RETURN entry. Outer none when the entry is immediate, so that no candidate
qualifies; inner none when there is no entry (R152 step 1). -/
def State.breakEnd (s : State) (r : RingNo) (p : PodNo) : Option (Option Ticks) :=
  match s.returnEntry r p with
  | none => some none
  | some e =>
    match e.target with
    | .atTick t => some (some t)
    | .immediate => none

/-- The spots of a pod that are UNSTARTED (R152 step 1). -/
def State.unstarted (s : State) (p : PodNo) : List SpotNo :=
  allSpots.filter fun k => decide (k.val < (s.pod p).record.spots.length) && ((s.pod p).spotInfo.get k).fate == .unstarted

/-- The spot at which a pod is to resume (R152 step 2). -/
def State.resumeSpot (s : State) (c : ChanNo) (p : PodNo) : Option SpotNo :=
  match estimate (s.chan c).lastOut, s.breakEnd (s.netRing c) p with
  | some now, some stop =>
    (s.unstarted p).find? fun k =>
      ticksAtOrAfter (s.slotStart p k.val) now &&
        match stop with
        | some e => ticksBefore (s.slotStart p k.val) e
        | none => true
  | _, _ => none

/-- A pod whose resume fails is closed and its channel enters NETWORK (R152 steps 4 and 5). -/
def giveUpResume (c : ChanNo) (p : PodNo) (s : State) : State :=
  (closePod p .preempted {} s).modChan c Channel.toNetwork

/-- The resume of a pod is judged at the return of the read that restored its channel (R152). -/
def judgeResume (c : ChanNo) (p : PodNo) (s : State) : State :=
  if (s.chan c).state = .resumeWait ∧ (s.chan c).playing = some p ∧ (s.pod p).state = .suspended then
    match s.resumeSpot c p with
    | none => giveUpResume c p s
    | some k =>
      let s := dropResume c p s
      if s.watchHasRoom (s.netRing c) then
        let t := s.slotStart p k.val
        let s := forEach ((s.unstarted p).filter (· < k)) (recordNotAired p .preempted {}) s
        arm (s.netRing c) (.slotResume p k) c (.atTick t) none s
      else giveUpResume c p (setFlag .alert s)
  else s

/-- The resume that a read carries is judged at its return (R151, R152). -/
def judgeCarried (w : WindowRead) (s : State) : State :=
  match w.resume with
  | some p => judgeResume w.chan p s
  | none => s

/-- A read's cell is passed as its serving chose (R99): `net` holds the PIDs of the channel's network ring. -/
def passCell (net : Components) (serving : Serving) (cell : List Byte) (ch : Channel) : List Byte × Channel :=
  match serving with
  | .network => passNetwork net.video cell ch
  | .untouched => (cell, ch)
  | .nullSlot => passNullSlot cell ch
  | .source map feedPsi sw wrap => passSource net map feedPsi sw wrap cell ch

/-- The channel with a read's mark request taken (R112). -/
def Channel.takeMarkReq (markReq : Bool) (ch : Channel) : Channel := if markReq then ch.setMarks else ch

/-- A read's cell through the Cell Rewriter of its channel (R99, R112). Answers the cell as it goes upstream. -/
def rewriteCell (w : WindowRead) (cell : List Byte) (s : State) : State × List Byte :=
  let t := passCell (s.ring (s.netRing w.chan)).shadow.comps w.serving cell ((s.chan w.chan).takeMarkReq w.markReq)
  (s.setChan w.chan t.2, t.1)

/-- The data of a window read reaches the Cell Rewriter: the resume it carries is judged, its mark request taken, and its cell passed as its
serving chose (R99, R112, R152). Answers the cell as it goes upstream. -/
def windowReturn (w : WindowRead) (cell : List Byte) (s : State) : State × List Byte := rewriteCell w cell (judgeCarried w s)

end Sys2Proof.Machine
end

