-- ==== Sys2Proof/Machine/Status.lean ====
section
/-! DEFINITION. The contents of the status window, byte by byte (R168, 11.8). `fr off` is the free byte at an offset of the window, for the
fields that are absent (log 9). -/

namespace Sys2Proof.Machine

/-- The codes of the alert state (device block 0x003). -/
def alertStateCode : AlertState → Nat
  | .idle => 0 | .active => 1 | .hold => 2

/-- The code of an alert source, 0 for absent (device block 0x005). -/
def sourceCode : Option Source → Nat
  | none => 0 | some .line0 => 1 | some .line1 => 2 | some .command => 3

/-- The codes of a command result (device block 0x01D). -/
def resultCode : Result → Nat
  | .accepted => 1 | .state => 2 | .range => 3 | .isProtected => 4 | .malformed => 5

/-- The codes of a refusal (device block 0x025). -/
def refuseCode : RefuseReason → Nat
  | .invalid => 1 | .inUse => 2 | .isProtected => 3 | .partialWrite => 4

/-- The codes of a ring kind (ring status byte 0). -/
def ringKindCode : RingKind → Nat
  | .unused => 0 | .network => 1 | .feed => 2

/-- The codes of a channel state (channel status byte 0). -/
def chanStateCode : ChanState → Nat
  | .off => 0 | .network => 1 | .insert => 2 | .resumeWait => 3 | .feed => 4 | .alert => 5

/-- The code of a saved state, 0 for absent (channel status byte 1). -/
def savedCode : Option Saved → Nat
  | none => 0 | some .network => 1 | some (.insert _ _) => 2 | some (.resumeWait _) => 3 | some (.feed _) => 4

/-- The codes of a pending alert mark (channel status byte 8). -/
def alertMarkCode : AlertMark → Nat
  | .none => 0 | .engage => 1 | .source => 2 | .restore => 3

/-- The codes of a point's kind (channel status, points). -/
def pointKindCode : PointKind → Nat
  | .out _ => 1 | .ret _ => 2 | .slotResume _ _ => 3 | .feedIn _ => 4 | .feedOut _ => 5

/-- The codes of a record's kind (as-run record byte 0). -/
def recordKindCode : RecordKind → Nat
  | .spotAired => 1 | .spotTruncated => 2 | .spotPreempted => 3 | .spotNotAired => 4 | .availMissed => 5 | .feedEnded => 6
  | .alertStart => 7 | .alertEnd => 8

/-- The codes of a record's reason (as-run record byte 1). -/
def reasonCode : Reason → Nat
  | .truncated => 1 | .preempted => 2 | .revoked => 3 | .noPod => 4 | .queueFull => 5 | .watchFull => 6 | .released => 7 | .limit => 8
  | .switchFull => 9

/-- Bits as a number, the first the least significant. A bit of the byte above those listed has no field and reads as zero: R168 says so of bytes only, and
for bits it is the model's reading (DEDUCED, unsafe, log 21). -/
def bitsNat (bs : List Bool) : Nat := bs.foldr (fun b acc => b.toNat + 2 * acc) 0

/-- `n` free bytes from an offset. -/
def freeBytes (fr : Nat → Byte) (off n : Nat) : List Byte := (List.range n).map fun i => fr (off + i)

/-- An `n`-byte field at an offset of the window: its value, or free bytes when it is absent. Bits of the bytes above the value, as the upper seven of a
five-byte time, read as zero (log 21). -/
def optField (fr : Nat → Byte) (off n : Nat) (v : Option Nat) : List Byte :=
  match v with
  | some x => toBytes n x
  | none => freeBytes fr off n

/-- The device block, offsets 0x000 to 0x03A. -/
def deviceHead (fr : Nat → Byte) (s : State) : List Byte :=
  let a := s.alert
  let k := s.cueCounters
  toBytes 2 0x4832 ++ toBytes 1 1 ++ toBytes 1 (alertStateCode a.state) ++ toBytes 1 a.engaged.toNat ++
  toBytes 1 (sourceCode a.playing) ++ toBytes 1 a.episode.toNat ++
  toBytes 1 (bitsNat [a.protHigh, a.isProtected, a.filter0.active, a.filter1.active]) ++
  toBytes 4 a.timer.toNat ++ toBytes 4 a.lockdown.toNat ++ toBytes 4 a.effective.toNat ++
  toBytes 2 s.flags.toNat ++ toBytes 2 s.enables.toNat ++
  optField fr 0x018 4 ((s.lastCommand.bind (·.tag)).map (·.toNat)) ++
  toBytes 1 ((s.lastCommand.map (·.mailbox)).getD 0) ++ toBytes 1 ((s.lastCommand.map (resultCode ·.result)).getD 0) ++
  toBytes 1 (s.lastCommand.bind (·.tag)).isSome.toNat ++ toBytes 1 0 ++
  optField fr 0x020 5 (s.lastRefused.map (·.1.toNat)) ++ toBytes 1 ((s.lastRefused.map (refuseCode ·.2)).getD 0) ++ toBytes 2 0 ++
  toBytes 2 k.crcError.toNat ++ toBytes 2 k.formatError.toNat ++ toBytes 2 k.repeated.toNat ++ toBytes 2 k.lateRepeat.toNat ++
  toBytes 2 k.lost.toNat ++ toBytes 2 k.other.toNat ++
  toBytes 2 s.asRun.lost.toNat ++ toBytes 1 s.asRun.producer.toNat ++ toBytes 1 s.asRun.consume.toNat ++
  toBytes 1 s.cueQueue.length ++ toBytes 1 a.filter0.run ++ toBytes 1 a.filter1.run

/-- The four writable words as they read, offsets 0x100 to 0x11F (R169). -/
def deviceWords (s : State) : List Byte :=
  toBytes 2 s.flags.toNat ++ toBytes 6 0 ++ toBytes 2 s.enables.toNat ++ toBytes 6 0 ++ toBytes 8 0 ++
  toBytes 1 s.asRun.consume.toNat ++ toBytes 7 0

/-- A ring status record at an offset of the window (32 bytes). -/
def ringStatus (fr : Nat → Byte) (off : Nat) (r : Ring) : List Byte :=
  let buf := match r.assembler with
    | .idle => 0
    | .collecting b _ _ => b.length
  let collecting := match r.assembler with
    | .idle => false
    | .collecting _ _ _ => true
  toBytes 1 (ringKindCode r.shadow.kind) ++
  toBytes 1 (bitsNat [r.lastSlot.isSome, r.mark.isSome, r.pcrBase.isSome, collecting]) ++
  optField fr (off + 2) 2 r.lastSlot ++ toBytes 4 r.writeCount.toNat ++
  optField fr (off + 8) 4 (r.mark.map (·.seq.toNat)) ++ optField fr (off + 12) 5 (r.mark.map (·.pts.toNat)) ++
  optField fr (off + 17) 4 (r.mark.map (·.stamp.toNat)) ++ optField fr (off + 21) 5 (r.pcrBase.map (·.toNat)) ++
  toBytes 2 buf ++ toBytes 2 r.syncLoss.toNat ++ toBytes 2 r.order.toNat

/-- The tick value of a target, when it has one. -/
def Target.tick? : Target → Option Ticks
  | .atTick t => some t
  | .immediate => none

/-- A cue queue entry at an offset of the window (32 bytes). -/
def cueStatus (fr : Nat → Byte) (off : Nat) (e : CueEntry) : List Byte :=
  toBytes 1 e.ring.val ++
  toBytes 1 (bitsNat [e.cue.target.tick?.isNone, e.cue.duration.isSome, e.cue.autoReturn, e.cue.markSeq.isSome]) ++
  toBytes 1 e.zones.toNat ++ toBytes 1 e.cue.avail.toNat ++ toBytes 4 e.event.toNat ++
  optField fr (off + 8) 5 (e.cue.target.tick?.map (·.toNat)) ++ optField fr (off + 13) 5 (e.cue.duration.map (·.toNat)) ++
  toBytes 1 e.cue.expected.toNat ++ toBytes 1 0 ++ toBytes 4 e.arrivalSeq.toNat ++
  optField fr (off + 24) 4 (e.cue.markSeq.map (·.toNat)) ++ toBytes 4 e.waiting.toNat

/-- The phase code of a position, 0 for absent (channel status byte 2). -/
def phaseCode : Option Position → Nat
  | none => 0
  | some (.spot _ _) => 1
  | some (.filler _) => 2
  | some (.exhausted _) => 3

/-- The spot index shown: the pod's spot count in FILLER, one more in EXHAUSTED (R97). -/
def spotShown (count : Nat) : Position → Nat
  | .spot k _ => k.val
  | .filler _ => count
  | .exhausted _ => count + 1

/-- The cell index of a position (R97). -/
def Position.cell : Position → Nat
  | .spot _ i => i
  | .filler i => i
  | .exhausted i => i

/-- The spot of a SLOT_RESUME point. -/
def PointKind.spot? : PointKind → Option SpotNo
  | .slotResume _ k => some k
  | _ => none

/-- A queued point at an offset of the window (8 bytes). -/
def pointStatus (fr : Nat → Byte) (off : Nat) (pt : SwitchPoint) : List Byte :=
  toBytes 1 (pointKindCode pt.kind) ++ toBytes 1 (!pt.aligned).toNat ++
  toBytes 1 (((pt.kind.pod?.map (·.val)).orElse fun _ => pt.kind.feed?.map (·.val)).getD 0) ++
  optField fr (off + 3) 1 (pt.kind.spot?.map (·.val)) ++ toBytes 4 pt.seq.toNat

/-- A component CC entry at an offset of the window (3 bytes): an absent entry reads its present bit clear. The bits with no
field, 14 and 13 of the PID and 7 and 6 of the last byte, read as zero (log 21). -/
def ccStatus (fr : Nat → Byte) (off : Nat) (e : Option CcEntry) : List Byte :=
  match e with
  | none => [fr off &&& 0x1F, fr (off + 1), fr (off + 2) &&& 0x3F]
  | some e =>
    toBytes 2 (0x8000 + e.pid.toNat) ++
    [(match e.cc with
      | some c => BitVec.ofNat 8 (c.toNat + 0x10)
      | none => fr (off + 2) &&& 0x0F) ||| BitVec.ofNat 8 (e.mark.toNat * 0x20)]

/-- The bytes 0 to 31 of a channel status record (`count` is the playing pod's spot count). -/
def chanHead (fr : Nat → Byte) (off : Nat) (count : Nat) (ch : Channel) : List Byte :=
  let r := ch.inForce
  toBytes 1 (chanStateCode ch.state) ++ toBytes 1 (savedCode ch.saved) ++ toBytes 1 (phaseCode ch.pos) ++
  optField fr (off + 3) 1 (ch.pos.map (spotShown count)) ++ optField fr (off + 4) 1 (ch.playing.map (·.val)) ++
  toBytes 1 (bitsNat [ch.playing.isSome, ch.staged.isSome, ch.markReq, ch.lastOut.video.isSome, ch.lastOut.tL.isSome, ch.feed.isSome,
    ch.alert.isSome]) ++
  optField fr (off + 6) 2 (ch.pos.map (·.cell)) ++
  toBytes 1 (alertMarkCode ch.mark) ++ toBytes 1 (sourceCode (ch.alert.map (·.1))) ++
  optField fr (off + 10) 1 (ch.alert.map (·.2.val)) ++ toBytes 1 0 ++ toBytes 2 ch.alertCell ++
  toBytes 1 r.flags.toNat ++ toBytes 1 r.ring.toNat ++ toBytes 1 r.zone.toNat ++ toBytes 1 0 ++ toBytes 5 r.base.toNat ++
  toBytes 1 0 ++ toBytes 4 r.window.toNat ++ toBytes 1 ch.queue.length ++ toBytes 3 0

/-- The four places of the switch queue, bytes 32 to 63 of a channel status record. -/
def chanPoints (fr : Nat → Byte) (off : Nat) (ch : Channel) : List Byte :=
  (List.range Config.switchQueueSize).flatMap fun i =>
    match ch.queue[i]? with
    | some pt => pointStatus fr (off + 32 + 8 * i) pt
    | none => freeBytes fr (off + 32 + 8 * i) 8

/-- The bytes 64 to 127 of a channel status record. The component CC entries stand in the table's order from the first place on, which 11.8 leaves open
(R168; log 36). -/
def chanTail (fr : Nat → Byte) (off : Nat) (ch : Channel) : List Byte :=
  optField fr (off + 64) 5 (ch.lastOut.video.map (·.1.toNat)) ++ optField fr (off + 69) 4 (ch.lastOut.video.map (·.2.toNat)) ++
  optField fr (off + 73) 4 (ch.lastOut.tL.map (·.toNat)) ++ toBytes 5 ch.d90.toNat ++ toBytes 4 ch.s.toNat ++
  toBytes 2 ch.late.toNat ++ toBytes 2 ch.underrun.toNat ++ toBytes 2 ch.lostFeed.toNat ++
  ((List.range 5).flatMap fun i => ccStatus fr (off + 92 + 3 * i) ch.cc[i]?) ++
  optField fr (off + 107) 1 (ch.feed.map (·.ring.val)) ++ optField fr (off + 108) 4 (ch.feed.map (·.fs.toNat)) ++
  optField fr (off + 112) 4 (ch.feed.map (·.run.delivered.toNat)) ++ optField fr (off + 116) 4 (ch.feed.map (·.run.underrun.toNat)) ++
  toBytes 8 0

/-- A channel status record at an offset of the window (128 bytes). -/
def chanStatus (fr : Nat → Byte) (off : Nat) (s : State) (c : ChanNo) : List Byte :=
  let ch := s.chan c
  let count := (ch.playing.map fun p => (s.pod p).record.spots.length).getD 0
  chanHead fr off count ch ++ chanPoints fr off ch ++ chanTail fr off ch

/-- The count field of an as-run record: filler cells, underrun cells or episode ms (as-run record bytes 36 to 39). -/
def AsRunRecord.count (r : AsRunRecord) : Option (BitVec 32) := (r.fillerCells.orElse fun _ => r.underrunCells).orElse fun _ => r.episodeMs

/-- An as-run record at an offset of the window (40 bytes). -/
def asRunStatus (fr : Nat → Byte) (off : Nat) (r : AsRunRecord) : List Byte :=
  let present := bitsNat [r.chan.isSome, r.pod.isSome, r.spot.isSome, r.clip.isSome, r.event.isSome, r.avail.isSome, r.startSeq.isSome,
    r.startStamp.isSome, r.startPts.isSome, r.delivered.isSome, r.cellsExpected.isSome, r.count.isSome, r.sources.isSome]
  toBytes 1 (recordKindCode r.kind) ++ optField fr (off + 1) 1 (r.reason.map reasonCode) ++
  toBytes 1 (bitsNat [r.late, r.unaligned, r.underfill, r.filled]) ++ optField fr (off + 3) 1 (r.sources.map (·.toNat)) ++
  toBytes 2 present ++
  optField fr (off + 6) 1 (r.chan.map (·.val)) ++ optField fr (off + 7) 1 (r.pod.map (·.val)) ++
  optField fr (off + 8) 1 (r.spot.map (·.val)) ++ optField fr (off + 9) 1 (r.clip.map (·.val)) ++
  optField fr (off + 10) 1 (r.avail.map (·.1.toNat)) ++ optField fr (off + 11) 1 (r.avail.map (·.2.toNat)) ++
  optField fr (off + 12) 4 (r.event.map (·.toNat)) ++ optField fr (off + 16) 4 (r.startSeq.map (·.toNat)) ++
  optField fr (off + 20) 4 (r.startStamp.map (·.toNat)) ++ optField fr (off + 24) 5 (r.startPts.map (·.toNat)) ++ toBytes 1 0 ++
  optField fr (off + 30) 2 (r.cellsExpected.map (·.toNat)) ++ optField fr (off + 32) 4 (r.delivered.map (·.toNat)) ++
  optField fr (off + 36) 4 (r.count.map (·.toNat))

/-- The byte at an offset of the status window (R168): unassigned bytes, queue entries beyond the count and as-run slots that hold none read
as zero. Unassigned bits of a byte that has a field read as zero too, which R168 does not say (log 21). -/
def statusByte (fr : Nat → Byte) (s : State) (off : Nat) : Byte :=
  if off < 0x100 then byteAt (deviceHead fr s) off
  else if off < 0x200 then byteAt (deviceWords s) (off - 0x100)
  else if off < 0x800 then
    let k := (off - 0x200) / 32
    byteAt (ringStatus fr (0x200 + 32 * k) (s.ring (Fin.ofNat 48 k))) ((off - 0x200) % 32)
  else if off < 0xC00 then
    let i := (off - 0x800) / 32
    match s.cueQueue[i]? with
    | some e => byteAt (cueStatus fr (0x800 + 32 * i) e) ((off - 0x800) % 32)
    | none => 0
  else if off < 0x1C00 then
    let c := (off - 0xC00) / 128
    byteAt (chanStatus fr (0xC00 + 128 * c) s (Fin.ofNat 32 c)) ((off - 0xC00) % 128)
  else
    let j := (off - 0x1C00) / 40
    match s.asRun.slots[j]? with
    | some (some r) => byteAt (asRunStatus fr (0x1C00 + 40 * j) r) ((off - 0x1C00) % 40)
    | _ => 0

/-- The answer to a status window read at an offset (R168), with the free bytes of this read (log 9). -/
def statusAnswer (s : State) (off len : Nat) : List Byte :=
  (List.range len).map fun i => statusByte (fun o => Config.absentByte o s.freeCount) s (off + i)

end Sys2Proof.Machine
end

