-- ==== Sys2Proof/WellFormed.lean ====
section
/-! DEFINITION. Which commands a bus request or response can be: the lengths of 00_scope.md 3.4 and the sizes of the structures (R161, R163, R169). -/

namespace Sys2Proof

/-- A request's length: 8 to 256 bytes in steps of 8 (00_scope.md 3.4). -/
def lengthOk (n : Nat) : Bool := 8 ≤ n && n ≤ 256 && n % 8 == 0

/-- A request's length is one the bus carries. -/
def Request.wf : Request → Bool
  | .read _ len => lengthOk len
  | .write w => lengthOk w.bytes.length

/-- A command is one that a bus request, a response or an event can be. -/
def Instr.wf : Instr → Bool
  | .powerOnReset _ | .rstNAssert | .rstNRelease _ => true
  | .otherTraffic r => r.wf
  | .forwardedReadResponse data => lengthOk data.length
  | .writeAcknowledgement => true
  | .statusWindowRead _ len => lengthOk len
  | .ringFullCellWrite _ cell => cell.length == 192
  | .ringPartialWrite w => lengthOk w.bytes.length
  | .windowFullCellRead _ => true
  | .windowPartialRead _ len => lengthOk len
  | .windowWrite w => lengthOk w.bytes.length
  | .sourceCellReturn data => data.length == 192
  | .networkCellReturn data => data.length == 192
  | .ringRecordWrite _ record => record.length == 32
  | .channelRecordWrite _ record => record.length == 32
  | .alertRecordWrite record => record.length == 64
  | .podRecordWrite _ record => record.length == 64
  | .clipRecordWrite _ record => record.length == 32
  | .recordWritePartial w => lengthOk w.bytes.length
  | .mailboxMalformedWrite w => lengthOk w.bytes.length
  | .spliceNow mb | .returnNow mb | .cancelEvent mb | .podRevoke mb | .feedStart mb
  | .feedStop mb | .alertEngage mb | .alertEnd mb | .lockdown mb | .softReset mb => mb.length == 16
  | .flagClear word | .flagEnables word | .counterClear word | .consumeIndex word => word.length == 8
  | .statusWordPartialWrite w => lengthOk w.bytes.length
  | .controlRegionOtherWrite w => lengthOk w.bytes.length
  | .lineSample _ _ _ | .episodeTimerAdvance => true
  | .networkSlotNullReturn data => data.length == 192

end Sys2Proof
end

