-- ==== Sys2Proof/Machine/Path.lean ====
section
/-! DEFINITION. The Path Unit: classification and acceptance of requests (R2, R3, R17, R18), and responses in acceptance order (R3, R8). -/

namespace Sys2Proof.Machine

/-! ### Requests -/

/-- A request is sent downstream and becomes outstanding (R3). -/
def forward (r : Request) (s : State) : State :=
  { s with outstanding := s.outstanding ++ [.forwarded r .plain], downOut := s.downOut ++ [r] }

/-- Status window reads at the head of the outstanding requests are answered: nothing accepted before them still waits (R3). -/
def releaseHead : List Outstanding → List UpResponse × List Outstanding
  | .status a :: rest => ((.readData a :: (releaseHead rest).1), (releaseHead rest).2)
  | l => ([], l)

/-- Every status window read that waits for nothing is answered (R3). -/
def releaseStatus (s : State) : State :=
  let t := releaseHead s.outstanding
  { s with upOut := s.upOut ++ t.1, outstanding := t.2 }

/-- A write that touches the control region is given to Control Intake (R4, R160). -/
def intakeIf (touches : Bool) (w : WriteReq) (s : State) : State := if touches then intake w s else s

/-- A write that touches a window sets ORDER (R18). -/
def orderIf (touches : Bool) (s : State) : State := if touches then setFlag .order s else s

/-- A write is accepted (R2, R3, R4, R18): it is forwarded unchanged and given to Control Intake, to the Ring Tracker for each ring and to the
Splice Engine for each window it touches; the areas are those that stood at its acceptance. Staged copies are applied last (R120), after all of the write:
that the write, not a CANCEL in its cell, is R120's event is the model's choice (DESIGN CHOICE, unsafe, log 39). -/
def acceptWrite (w : WriteReq) (s : State) : State :=
  let rings := allRings.filter fun r => (s.ring r).shadow.meets w.addr.toNat w.bytes.length
  let inWindow := allChans.any fun c => s.windowMeets c w.addr.toNat w.bytes.length
  applyAllStaged (orderIf inWindow (forEach rings (trackWrite w) (intakeIf (s.regionMeets w.addr.toNat w.bytes.length) w (forward (.write w) s))))

/-- The channel in whose window a read lies wholly (R15, R17). -/
def State.windowHolding (s : State) (a n : Nat) : Option ChanNo :=
  allChans.find? fun c => s.windowMeets c a n && rangeWithin a n (s.windowBase c) (s.windowBytes c)

/-- A window read that is not a full-cell read (R17): it advances nothing, and ORDER is set. Wholly within the window it is translated to the
channel's network ring, otherwise forwarded at its own address. -/
def partialRead (inside : Option ChanNo) (addr : Addr) (len : Nat) (s : State) : State :=
  let to_ := match inside with
    | some c => BitVec.ofNat 36 ((s.ring (s.netRing c)).shadow.base.toNat + (addr.toNat - s.windowBase c))
    | none => addr
  forward (.read to_ len) (setFlag .order s)

/-- A read of a channel's window (R15, R17). -/
def windowRead (inside : Option ChanNo) (addr : Addr) (len : Nat) (s : State) : State :=
  match inside with
  | some c =>
    match slotAt (s.windowBase c) (s.ring (s.netRing c)).shadow.slotCount.toNat addr.toNat with
    | some k => if len = Config.cellSize then applyAllStaged (spliceRead c k s) else partialRead inside addr len s
    | none => partialRead inside addr len s
  | none => partialRead none addr len s

/-- A read is accepted, classed by the first row of the table of R2 that it meets. -/
def acceptRead (addr : Addr) (len : Nat) (s : State) : State :=
  let a := addr.toNat
  if rangeWithin a len s.regionBase Config.statusWindowSize then
    let answer := statusAnswer s (a - s.regionBase) len
    releaseStatus { s with outstanding := s.outstanding ++ [.status answer], freeCount := s.freeCount + 1 }
  else if s.regionMeets a len then forward (.read addr len) s
  else if allChans.any fun c => s.windowMeets c a len then windowRead (s.windowHolding a len) addr len s
  else forward (.read addr len) s

/-- A request is offered on the upstream port: while RST_N is low it is not accepted (R8). -/
def accept (r : Request) (s : State) : State :=
  if s.rstLow then s
  else match r with
    | .read addr len => acceptRead addr len s
    | .write w => acceptWrite w s

/-- A request command: the bus must be able to carry it (log 8); then it is offered. -/
def offer (r : Request) (s : State) : Host.Outcome State Fault Refusal :=
  if r.wf then .next (accept r s.quiet) else .refused .illFormed

/-- A whole write of the bytes of a structure: every enable set (00_scope.md 3.4). -/
def wholeWrite (a : Addr) (bytes : List Byte) : Request := .write { addr := a, bytes := bytes.map fun b => (b, true) }

/-- A whole write of a structure at an offset of the control region, whose size is `size`. -/
def offerWhole (off size : Nat) (bytes : List Byte) (s : State) : Host.Outcome State Fault Refusal :=
  if bytes.length = size then offer (wholeWrite (s.regionAddr off) bytes) s else .refused .illFormed

/-! ### Responses -/

/-- The data of a read is handled as its acceptance chose. Answers the bytes as they go upstream (R3, R99). -/
def handleData (how : Handling) (data : List Byte) (s : State) : State × List Byte :=
  match how with
  | .plain => (s, data)
  | .window w => windowReturn w data s

/-- A read's data goes upstream; status reads that waited for it follow, and staged copies are applied last (R3, R120). That a copy waits for
the cell's own rewriting after a judgement of R152 is the model's choice (DESIGN CHOICE, unsafe, log 39). -/
def answerRead (t : State × List Byte) : State :=
  applyAllStaged (releaseStatus { t.1 with upOut := t.1.upOut ++ [.readData t.2] })

/-- The downstream port returns the bytes of a read (R3, R8): discarded for an abandoned request, otherwise taken as the request that waits
first was handled, and passed upstream. -/
def takeReadData (data : List Byte) (s : State) : Host.Outcome State Fault Refusal :=
  match s.abandoned with
  | false :: rest => .next { s with abandoned := rest }
  | true :: _ => .fault .responseOutOfOrder
  | [] =>
    match s.outstanding with
    | .forwarded (.read _ len) how :: rest =>
      if data.length = len then
        .next (answerRead (handleData how data { s with outstanding := rest }))
      else .fault .responseLength
    | _ => .fault .responseOutOfOrder

/-- The downstream port acknowledges a write (R3, R8). -/
def takeWriteAck (s : State) : Host.Outcome State Fault Refusal :=
  match s.abandoned with
  | true :: rest => .next { s with abandoned := rest }
  | false :: _ => .fault .responseOutOfOrder
  | [] =>
    match s.outstanding with
    | .forwarded (.write _) _ :: rest =>
      .next (releaseStatus { s with outstanding := rest, upOut := s.upOut ++ [.writeAck] })
    | _ => .fault .responseOutOfOrder

/-- The data of a read response command: the bus must be able to carry it (log 8). -/
def offerData (data : List Byte) (s : State) : Host.Outcome State Fault Refusal :=
  if lengthOk data.length then takeReadData data s.quiet else .refused .illFormed

/-- The data of a full-cell window read: 192 bytes (log 8). -/
def offerCell (data : List Byte) (s : State) : Host.Outcome State Fault Refusal :=
  if data.length = Config.cellSize then takeReadData data s.quiet else .refused .illFormed

end Sys2Proof.Machine
end

