-- ==== Sys2Proof/Machine/Clock.lean ====
section
/-! DEFINITION. The meanings of the two events of the reference clock (R135, R137). They are not taken while RST_N is low (log 6). -/

namespace Sys2Proof.Machine

/-- LINE_SAMPLE (R135, R136, R142): the levels of ALRQ0, ALRQ1 and PROT_N at a sample. -/
def execLineSample (alrq0 alrq1 protN : Bool) (s : State) : Host.Outcome State Fault Refusal :=
  if s.rstLow then .next s.quiet else .next (sampleLines alrq0 alrq1 protN s.quiet)

/-- EPISODE_TIMER_ADVANCE (R137, R140, R141): 1 ms has passed. -/
def execEpisodeTimerAdvance (s : State) : Host.Outcome State Fault Refusal :=
  if s.rstLow then .next s.quiet else .next (advanceTimer s.quiet)

end Sys2Proof.Machine
end

