-- ==== Sys2Proof/Machine/Commands.lean ====
section
/-! DEFINITION. The meanings of the mailbox writes (R163): mailbox n lies at offset 0x3000 + 16 × (n − 1) of the control region (R160). -/

namespace Sys2Proof.Machine

/-- A whole write of mailbox `n`, 1 to 10 (R160, R163). -/
def offerMailbox (n : Nat) (mb : List Byte) (s : State) : Host.Outcome State Fault Refusal := offerWhole (0x3000 + 16 * (n - 1)) 16 mb s

/-- SPLICE_NOW (R164, R80): a whole write of mailbox 1. -/
def execSpliceNow (mb : List Byte) (s : State) : Host.Outcome State Fault Refusal := offerMailbox 1 mb s

/-- RETURN_NOW (R165): a whole write of mailbox 2. -/
def execReturnNow (mb : List Byte) (s : State) : Host.Outcome State Fault Refusal := offerMailbox 2 mb s

/-- CANCEL_EVENT (R165, R63): a whole write of mailbox 3. -/
def execCancelEvent (mb : List Byte) (s : State) : Host.Outcome State Fault Refusal := offerMailbox 3 mb s

/-- POD_REVOKE (R83): a whole write of mailbox 4. -/
def execPodRevoke (mb : List Byte) (s : State) : Host.Outcome State Fault Refusal := offerMailbox 4 mb s

/-- FEED_START (R122): a whole write of mailbox 5. -/
def execFeedStart (mb : List Byte) (s : State) : Host.Outcome State Fault Refusal := offerMailbox 5 mb s

/-- FEED_STOP (R123): a whole write of mailbox 6. -/
def execFeedStop (mb : List Byte) (s : State) : Host.Outcome State Fault Refusal := offerMailbox 6 mb s

/-- ALERT_ENGAGE (R143): a whole write of mailbox 7. -/
def execAlertEngage (mb : List Byte) (s : State) : Host.Outcome State Fault Refusal := offerMailbox 7 mb s

/-- ALERT_END (R143): a whole write of mailbox 8. -/
def execAlertEnd (mb : List Byte) (s : State) : Host.Outcome State Fault Refusal := offerMailbox 8 mb s

/-- LOCKDOWN (R153): a whole write of mailbox 9. -/
def execLockdown (mb : List Byte) (s : State) : Host.Outcome State Fault Refusal := offerMailbox 9 mb s

/-- SOFT_RESET (R166): a whole write of mailbox 10. -/
def execSoftReset (mb : List Byte) (s : State) : Host.Outcome State Fault Refusal := offerMailbox 10 mb s

/-- MAILBOX_MALFORMED_WRITE (R163). -/
def execMailboxMalformedWrite (w : WriteReq) (s : State) : Host.Outcome State Fault Refusal := offer (.write w) s

end Sys2Proof.Machine
end

