-- ==== Sys2Proof/Machine/RecordWrites.lean ====
section
/-! DEFINITION. The meanings of the record writes (R161, R162) and of a write to the rest of the control region (R160). -/

namespace Sys2Proof.Machine

/-- RING_RECORD_WRITE (R5 to R7, R82): a whole write of ring record `k`. -/
def execRingRecordWrite (k : RingNo) (record : List Byte) (s : State) : Host.Outcome State Fault Refusal := offerWhole (0x4000 + 32 * k.val) 32 record s

/-- CHANNEL_RECORD_WRITE (R117 to R120): a whole write of channel record `c`. -/
def execChannelRecordWrite (c : ChanNo) (record : List Byte) (s : State) : Host.Outcome State Fault Refusal := offerWhole (0x5000 + 32 * c.val) 32 record s

/-- ALERT_RECORD_WRITE (R133, R134): a whole write of the alert record. -/
def execAlertRecordWrite (record : List Byte) (s : State) : Host.Outcome State Fault Refusal := offerWhole 0x6000 64 record s

/-- POD_RECORD_WRITE (R70 to R73): a whole write of pod record `p`. -/
def execPodRecordWrite (p : PodNo) (record : List Byte) (s : State) : Host.Outcome State Fault Refusal := offerWhole (0x7000 + 64 * p.val) 64 record s

/-- CLIP_RECORD_WRITE (R66, R67): a whole write of clip record `n`. -/
def execClipRecordWrite (n : ClipNo) (record : List Byte) (s : State) : Host.Outcome State Fault Refusal := offerWhole (0x8000 + 32 * n.val) 32 record s

/-- RECORD_WRITE_PARTIAL (R161). -/
def execRecordWritePartial (w : WriteReq) (s : State) : Host.Outcome State Fault Refusal := offer (.write w) s

/-- CONTROL_REGION_OTHER_WRITE (R160). -/
def execControlRegionOtherWrite (w : WriteReq) (s : State) : Host.Outcome State Fault Refusal := offer (.write w) s

end Sys2Proof.Machine
end

