-- ==== Sys2Proof/Machine/Returns.lean ====
section
/-! DEFINITION. The meanings of the responses of the downstream port (R3, R38, R105, R108): how the data is taken was fixed at the acceptance of the read it answers. -/

namespace Sys2Proof.Machine

/-- FORWARDED_READ_RESPONSE (R3). -/
def execForwardedReadResponse (data : List Byte) (s : State) : Host.Outcome State Fault Refusal := offerData data s

/-- WRITE_ACKNOWLEDGEMENT (R3). -/
def execWriteAcknowledgement (s : State) : Host.Outcome State Fault Refusal := takeWriteAck s.quiet

/-- SOURCE_CELL_RETURN (R38). -/
def execSourceCellReturn (data : List Byte) (s : State) : Host.Outcome State Fault Refusal := offerCell data s

/-- NETWORK_CELL_RETURN (R105, R152). -/
def execNetworkCellReturn (data : List Byte) (s : State) : Host.Outcome State Fault Refusal := offerCell data s

/-- NETWORK_SLOT_NULL_RETURN (R108). -/
def execNetworkSlotNullReturn (data : List Byte) (s : State) : Host.Outcome State Fault Refusal := offerCell data s

end Sys2Proof.Machine
end

