-- ==== Sys2Proof/Machine/StatusWords.lean ====
section
/-! DEFINITION. The meanings of the writes of the four writable words of the status window (R169, R170, R158). -/

namespace Sys2Proof.Machine

/-- FLAG_CLEAR (R170): a whole write of the word. -/
def execFlagClear (word : List Byte) (s : State) : Host.Outcome State Fault Refusal := offerWhole (wordOffset .flagClear) 8 word s

/-- FLAG_ENABLES (R169): a whole write of the word. -/
def execFlagEnables (word : List Byte) (s : State) : Host.Outcome State Fault Refusal := offerWhole (wordOffset .flagEnables) 8 word s

/-- COUNTER_CLEAR (R169): a whole write of the word. -/
def execCounterClear (word : List Byte) (s : State) : Host.Outcome State Fault Refusal := offerWhole (wordOffset .counterClear) 8 word s

/-- CONSUME_INDEX (R158): a whole write of the word. -/
def execConsumeIndex (word : List Byte) (s : State) : Host.Outcome State Fault Refusal := offerWhole (wordOffset .consumeIndex) 8 word s

/-- STATUS_WORD_PARTIAL_WRITE (R169). -/
def execStatusWordPartialWrite (w : WriteReq) (s : State) : Host.Outcome State Fault Refusal := offer (.write w) s

end Sys2Proof.Machine
end

