-- ==== Sys2Proof/Machine/Traffic.lean ====
section
/-! DEFINITION. The meanings of the commands that offer a request outside the control region's structures: other traffic, status reads, rings and windows (R2, R3, R9 to R18, R99, R168). -/

namespace Sys2Proof.Machine

/-- OTHER_TRAFFIC (R2, R3): a request is offered. -/
def execOtherTraffic (r : Request) (s : State) : Host.Outcome State Fault Refusal := offer r s

/-- STATUS_WINDOW_READ (R168): a read is offered, answered from the state when it lies wholly within the status window. -/
def execStatusWindowRead (addr : Addr) (len : Nat) (s : State) : Host.Outcome State Fault Refusal := offer (.read addr len) s

/-- RING_FULL_CELL_WRITE (R1, R9 to R12): a write of 192 enabled bytes. -/
def execRingFullCellWrite (addr : Addr) (cell : List Byte) (s : State) : Host.Outcome State Fault Refusal :=
  if cell.length = Config.cellSize then offer (wholeWrite addr cell) s else .refused .illFormed

/-- RING_PARTIAL_WRITE (R13). -/
def execRingPartialWrite (w : WriteReq) (s : State) : Host.Outcome State Fault Refusal := offer (.write w) s

/-- WINDOW_FULL_CELL_READ (R99): a read of 192 bytes. -/
def execWindowFullCellRead (addr : Addr) (s : State) : Host.Outcome State Fault Refusal := offer (.read addr Config.cellSize) s

/-- WINDOW_PARTIAL_READ (R17). -/
def execWindowPartialRead (addr : Addr) (len : Nat) (s : State) : Host.Outcome State Fault Refusal := offer (.read addr len) s

/-- WINDOW_WRITE (R18). -/
def execWindowWrite (w : WriteReq) (s : State) : Host.Outcome State Fault Refusal := offer (.write w) s

end Sys2Proof.Machine
end

