-- ==== Sys2Proof/Machine/Dispatch.lean ====
section
/-! DEFINITION. The meaning of every command: one call for each. -/

namespace Sys2Proof.Machine

def exec (i : Instr) (s : State) : Host.Outcome State Fault Refusal :=
  match i with
  | .powerOnReset straps => Sys2Proof.Machine.execPowerOnReset straps s
  | .rstNAssert => Sys2Proof.Machine.execRstNAssert s
  | .rstNRelease straps => Sys2Proof.Machine.execRstNRelease straps s
  | .otherTraffic r => Sys2Proof.Machine.execOtherTraffic r s
  | .forwardedReadResponse data => Sys2Proof.Machine.execForwardedReadResponse data s
  | .writeAcknowledgement => Sys2Proof.Machine.execWriteAcknowledgement s
  | .statusWindowRead addr len => Sys2Proof.Machine.execStatusWindowRead addr len s
  | .ringFullCellWrite addr cell => Sys2Proof.Machine.execRingFullCellWrite addr cell s
  | .ringPartialWrite w => Sys2Proof.Machine.execRingPartialWrite w s
  | .windowFullCellRead addr => Sys2Proof.Machine.execWindowFullCellRead addr s
  | .windowPartialRead addr len => Sys2Proof.Machine.execWindowPartialRead addr len s
  | .windowWrite w => Sys2Proof.Machine.execWindowWrite w s
  | .sourceCellReturn data => Sys2Proof.Machine.execSourceCellReturn data s
  | .networkCellReturn data => Sys2Proof.Machine.execNetworkCellReturn data s
  | .ringRecordWrite k record => Sys2Proof.Machine.execRingRecordWrite k record s
  | .channelRecordWrite c record => Sys2Proof.Machine.execChannelRecordWrite c record s
  | .alertRecordWrite record => Sys2Proof.Machine.execAlertRecordWrite record s
  | .podRecordWrite p record => Sys2Proof.Machine.execPodRecordWrite p record s
  | .clipRecordWrite n record => Sys2Proof.Machine.execClipRecordWrite n record s
  | .recordWritePartial w => Sys2Proof.Machine.execRecordWritePartial w s
  | .mailboxMalformedWrite w => Sys2Proof.Machine.execMailboxMalformedWrite w s
  | .spliceNow mb => Sys2Proof.Machine.execSpliceNow mb s
  | .returnNow mb => Sys2Proof.Machine.execReturnNow mb s
  | .cancelEvent mb => Sys2Proof.Machine.execCancelEvent mb s
  | .podRevoke mb => Sys2Proof.Machine.execPodRevoke mb s
  | .feedStart mb => Sys2Proof.Machine.execFeedStart mb s
  | .feedStop mb => Sys2Proof.Machine.execFeedStop mb s
  | .alertEngage mb => Sys2Proof.Machine.execAlertEngage mb s
  | .alertEnd mb => Sys2Proof.Machine.execAlertEnd mb s
  | .lockdown mb => Sys2Proof.Machine.execLockdown mb s
  | .softReset mb => Sys2Proof.Machine.execSoftReset mb s
  | .flagClear word => Sys2Proof.Machine.execFlagClear word s
  | .flagEnables word => Sys2Proof.Machine.execFlagEnables word s
  | .counterClear word => Sys2Proof.Machine.execCounterClear word s
  | .consumeIndex word => Sys2Proof.Machine.execConsumeIndex word s
  | .statusWordPartialWrite w => Sys2Proof.Machine.execStatusWordPartialWrite w s
  | .controlRegionOtherWrite w => Sys2Proof.Machine.execControlRegionOtherWrite w s
  | .lineSample alrq0 alrq1 protN => Sys2Proof.Machine.execLineSample alrq0 alrq1 protN s
  | .episodeTimerAdvance => Sys2Proof.Machine.execEpisodeTimerAdvance s
  | .networkSlotNullReturn data => Sys2Proof.Machine.execNetworkSlotNullReturn data s

end Sys2Proof.Machine
end

