-- ==== Sys2Proof/Safety.lean ====
section
/-! DEFINITION. What counts as a safe run, and the conditions in which claims about the splicer are stated. -/

namespace Sys2Proof.Machine

/-- A command is safe in a state when it neither faults nor is refused. -/
def Completes (o : Host.Outcome State Fault Refusal) : Prop := ∃ t, o = .next t

/-- No queue holds more than its capacity: the as-run queue (R157), the watch lists (R84), the switch queues (R92) and the cue queue (R55). -/
structure Capacity (s : State) : Prop where
  asRun : s.asRun.held ≤ Config.asRunSize
  watch : ∀ r, (s.watchList r).length ≤ Config.watchListSize
  queue : ∀ c, (s.chan c).queue.length ≤ Config.switchQueueSize
  cues  : s.cueQueue.length ≤ Config.cueQueueSize

/-- No channel holds a staged copy of its record (R118). -/
def State.NoStaged (s : State) : Prop := ∀ c, (s.chan c).staged = none

/-- A byte range touches no ring's slot range and no window (R2). -/
structure State.OffRings (s : State) (a n : Nat) : Prop where
  ring   : ∀ r, (s.ring r).shadow.meets a n = false
  window : ∀ c, s.windowMeets c a n = false

/-- The state after a request was accepted and did nothing but go downstream (R3). -/
def State.carry (s : State) (r : Request) : State :=
  { s with upOut := [], downOut := [r], outstanding := s.outstanding ++ [.forwarded r .plain] }

/-- RST_N is high, no staged copy is held, and the `n` bytes at offset `off` of the control region belong to no ring and no window: what
1.2 says the placement rules keep, and what lets a write there do its own work only. -/
structure ControlClear (s : State) (off n : Nat) : Prop where
  high     : s.rstLow = false
  noStaged : s.NoStaged
  off      : s.OffRings (s.regionBase + off) n

/-- The whole write of a structure at an offset of the control region, as it goes downstream (R3). -/
def State.regionWrite (s : State) (off : Nat) (bytes : List Byte) : Request := wholeWrite (s.regionAddr off) bytes

/-- The state after a whole write at an offset of the control region went downstream, before Control Intake acts on it. -/
def State.carried (s : State) (off : Nat) (bytes : List Byte) : State := s.carry (s.regionWrite off bytes)

/-- The state after a command of mailbox `n` whose work left state `u`: the last command shows its tag and result (R163). -/
def answered (n : Nat) (mb : List Byte) (result : Result) (u : State) : State := finishCommand (some (mailboxTag mb)) n result u

/-- `addr` is slot `k` of tracked ring `r`, and the 192 bytes there belong to no other ring, no window and not to the control region (R1, R2). -/
structure State.AtSlot (s : State) (r : RingNo) (k : Nat) (addr : Addr) : Prop where
  tracked : (s.ring r).shadow.kind ≠ .unused
  slot    : k < (s.ring r).shadow.slotCount.toNat
  lies    : addr.toNat = (s.ring r).shadow.base.toNat + 192 * k
  rings   : ∀ j, j ≠ r → (s.ring j).shadow.meets addr.toNat 192 = false
  windows : ∀ c, s.windowMeets c addr.toNat 192 = false
  region  : s.regionMeets addr.toNat 192 = false

/-- `addr` is slot `k` of the window of enabled channel `c`, and the 192 bytes there belong to no other window and not to the control region
(R14, R15). -/
structure State.AtWindow (s : State) (c : ChanNo) (k : Nat) (addr : Addr) : Prop where
  enabled : (s.chan c).state ≠ .off
  slot    : k < (s.ring (s.netRing c)).shadow.slotCount.toNat
  lies    : addr.toNat = s.windowBase c + 192 * k
  windows : ∀ d, d ≠ c → s.windowMeets d addr.toNat 192 = false
  region  : s.regionMeets addr.toNat 192 = false

/-- No point at the head of channel `c`'s switch queue is due at a read of slot `k` (R100); an unwritten-slot read has no sequence (R16). -/
def State.NoDue (s : State) (c : ChanNo) (k : Nat) : Prop :=
  ∀ q pt, (s.ring (s.netRing c)).seqOf k = some q → (s.chan c).queue.head? = some pt → seqAtOrAfter q pt.seq = false

/-- A full-cell read of slot `k` of channel `c`'s window, with RST_N high, no staged copy and no point due. -/
structure ReadAt (s : State) (c : ChanNo) (k : Nat) (addr : Addr) : Prop where
  high     : s.rstLow = false
  noStaged : s.NoStaged
  at_      : s.AtWindow c k addr
  noDue    : s.NoDue c k

/-- The request that waits first for its response, with those behind it; no status read stands next behind it, and no response of an abandoned
request is still to come (R3, R8). -/
structure Awaiting (s : State) (r : Request) (how : Handling) (rest : List Outstanding) : Prop where
  settled : s.abandoned = []
  first   : s.outstanding = .forwarded r how :: rest
  behind  : ∀ a l, rest ≠ .status a :: l

/-- What the inspection of a cell written to ring `r` leaves alone: every other ring, the ports' part of the state, the clips, the alert state, the
control words, and of each channel and pod all but what the Break Scheduler and the Cue Unit hold (R12, R26). -/
structure InspectionFrame (s t : State) (r : RingNo) : Prop where
  rings       : ∀ j, j ≠ r → t.ring j = s.ring j
  straps      : t.straps = s.straps
  rstLow      : t.rstLow = s.rstLow
  outstanding : t.outstanding = s.outstanding
  abandoned   : t.abandoned = s.abandoned
  upOut       : t.upOut = s.upOut
  downOut     : t.downOut = s.downOut
  clips       : t.clips = s.clips
  alert       : t.alert = s.alert
  enables     : t.enables = s.enables
  lastCommand : t.lastCommand = s.lastCommand
  lastRefused : t.lastRefused = s.lastRefused
  channels    : ∀ c, t.chan c = { s.chan c with queue := (t.chan c).queue }
  pods        : ∀ p, (t.pod p).record = (s.pod p).record

/-! ### Cells on the CUE PID -/

/-- A cell on the CUE PID of ring `r` is written to slot `k` as a first or ahead write, and is neither a video start nor a PCR arrival of the ring
(R12, R26). RST_N is high and no staged copy is held. -/
structure CueWrite (s : State) (r : RingNo) (k : Nat) (addr : Addr) (cell : List Byte) : Prop where
  high     : s.rstLow = false
  noStaged : s.NoStaged
  at_      : s.AtSlot r k addr
  length   : cell.length = 192
  kind     : writeKind (s.ring r) k ≠ .late
  onCue    : (parseCell cell).isOn (s.ring r).shadow.cue = true
  noStart  : classify (s.ring r).shadow (parseCell cell) ≠ .vstart
  noPcr    : (parseCell cell).isOn (s.ring r).shadow.comps.pcr = false ∨ (parseCell cell).pcr = none

/-- State `u` is `s` once a first or ahead write of slot `k` has gone downstream and been counted in ring `r`, whose section assembler is `a`, and
before anything its cell reports (R3, R9, R10). What the slots' classes and the order counter become is FirstWrite's and AheadWrite's to say. -/
structure CellCounted (s u : State) (r : RingNo) (k : Nat) (addr : Addr) (cell : List Byte) (a : Assembler) : Prop where
  rest   : u = { s.carry (wholeWrite addr cell) with rings := u.rings, flags := u.flags }
  flags  : u.flags = s.flags ∨ u.flags = s.flags ||| flagMask .order
  others : ∀ j, j ≠ r → u.ring j = s.ring j
  ring   : u.ring r =
    { s.ring r with
      writeCount := (u.ring r).writeCount, lastSlot := some k, classes := (u.ring r).classes, order := (u.ring r).order, assembler := a }
  count  : (u.ring r).writeCount =
    match (s.ring r).lastSlot with
    | none => 1
    | some l =>
      (s.ring r).writeCount + BitVec.ofNat 32 ((k + (s.ring r).shadow.slotCount.toNat - l) % (s.ring r).shadow.slotCount.toNat)

/-- The state with a format error counted (R53). -/
def State.formatErrorCounted (s : State) : State :=
  { s with flags := s.flags ||| flagMask .cue
           cueCounters := { s.cueCounters with formatError := counterAdd s.cueCounters.formatError 1 } }

/-- The state with another table counted (R53). -/
def State.otherCounted (s : State) : State :=
  { s with cueCounters := { s.cueCounters with other := counterAdd s.cueCounters.other 1 } }

/-- An OUT cue of ring `r` with this event, zone set and avail number is new, its pending set is `set`, which is not empty, no channel of the set has
an eligible pod, and the cue queue has room (R56, R58, R59, R76). -/
structure NewOut (s : State) (r : RingNo) (event : BitVec 32) (zones : BitVec 8) (avail : Byte) (set : ChanSet) : Prop where
  noEntry  : s.cueEntry r event = none
  noHolder : ∀ p, s.bindingIs p r event = false
  members  : ∀ ch, setHas set ch = true ↔ (s.chan ch).state ≠ .off ∧ (s.chan ch).state ≠ .feed ∧ (s.chan ch).inForce.names r = true ∧
    zones.getLsbD (s.chan ch).inForce.zone.toNat = true ∧ (s.chan ch).inForce.ignoresCues = false
  noPod    : ∀ ch p, setHas set ch = true → p ∈ s.readyList ch → s.eligible avail p = false
  nonempty : set ≠ 0
  room     : s.cueQueue.length < 32

/-! ### Watch entries that fall due -/

/-- An entry is due at a video start of this PTS and sequence, whatever its feed ring holds (R88). -/
def WatchEntry.DueAt (e : WatchEntry) (pts : Ticks) (seq : SeqNo) : Prop :=
  (∃ t, e.target = .atTick t ∧ ticksAtOrAfter pts t = true) ∨
  e.target = .immediate ∧ ∀ p m, e.kind = .out p → e.markSeq = some m → seqBefore m seq = true

/-- An entry is forced at a PCR base that has passed its target by the alignment window, and takes this anchor (R89). -/
def WatchEntry.ForcedAt (e : WatchEntry) (window : BitVec 32) (base anchor : Ticks) : Prop :=
  (∃ t, e.target = .atTick t ∧ ticksAtOrAfter base (t + window.setWidth 33) = true ∧ anchor = t) ∨
  (∃ q, e.target = .immediate ∧ e.pcrBase = some q ∧ ticksAtOrAfter base (q + window.setWidth 33) = true ∧ anchor = base)

/-- The entry is a FEED_IN whose feed ring has no start mark (R88, R89). -/
def State.NoFeedMark (s : State) (e : WatchEntry) : Prop := ∃ f, e.kind = .feedIn f ∧ (s.ring f).mark = none

/-- A switch queue has a place for a point of this sequence (R93). -/
def HasPlace (queue : List SwitchPoint) (seq : SeqNo) : Prop :=
  queue.length < 4 ∧ ∀ tail, queue.getLast? = some tail → seqAfter seq tail.seq = true

/-- The RETURN entry that a resolved OUT arms (R94). -/
def returnArmed (p : PodNo) (c : ChanNo) (t : Ticks) : WatchEntry :=
  { kind := .ret p, chan := c, target := .atTick t, pcrBase := none, markSeq := none }

/-- Entry `e` of ring `r`, between `pre` and `post` in its list, has become point `pt` at the tail of its channel's queue (R87, R93), and an OUT has made
its pod PENDING and armed the RETURN (R94). -/
structure EntryPlaced (s t : State) (r : RingNo) (pre post : List WatchEntry) (e : WatchEntry) (pt : SwitchPoint) : Prop where
  queue : t.chan e.chan = { s.chan e.chan with queue := (s.chan e.chan).queue ++ [pt] }
  chans : ∀ c, c ≠ e.chan → t.chan c = s.chan c
  lists : ∀ j, j ≠ r → t.watchList j = s.watchList j
  other : (∀ p, e.kind ≠ .out p) → t.watchList r = pre ++ post ∧ t.pods = s.pods
  out   : ∀ p b, e.kind = .out p → (s.pod p).binding = some b →
    t.pod p = { s.pod p with state := .pending, anchor := some (pt.anchor, 0) } ∧ (∀ q, q ≠ p → t.pod q = s.pod q) ∧
    (∀ d, b.cue.autoReturn = true → (b.cue.duration = some d ∨ b.cue.duration = none ∧ (s.pod p).record.breakDur = some d) →
      t.watchList r = pre ++ post ++ [returnArmed p e.chan (pt.anchor + d.setWidth 33)]) ∧
    (b.cue.autoReturn = false ∨ b.cue.duration = none ∧ (s.pod p).record.breakDur = none →
      (∀ l, (s.pod p).record.breakLimit = some l → t.watchList r = pre ++ post ++ [returnArmed p e.chan (pt.anchor + l.setWidth 33)]) ∧
      ((s.pod p).record.breakLimit = none → t.watchList r = pre ++ post))

/-- The point of entry `e` found no place and was dropped (R93): LATE is set, and a RETURN, SLOT_RESUME or FEED_OUT is armed again in its place, a FEED_IN
is abandoned with the channel's feed targets (R131), and an OUT, for a cue queue with no entry, makes its pod READY again (R81) and is recorded. -/
structure EntryDropped (s t : State) (r : RingNo) (pre post : List WatchEntry) (e : WatchEntry) : Prop where
  late   : hasFlag .late t = true
  again  : (∀ p, e.kind ≠ .out p) → (∀ f, e.kind ≠ .feedIn f) →
    t.channels = s.channels ∧ t.pods = s.pods ∧ (∀ j, j ≠ r → t.watchList j = s.watchList j) ∧
    t.watchList r = pre ++ { e with target := .immediate, pcrBase := (t.ring r).pcrBase, markSeq := none } :: post
  feedIn : ∀ f, e.kind = .feedIn f →
    hasFlag .feed t = true ∧ t.pods = s.pods ∧
    (∀ j, t.watchList j = (s.watchList j).filter fun x => !(x.chan == e.chan && x.kind.feed?.isSome)) ∧
    ∀ c, t.chan c =
      if c = e.chan then { s.chan c with queue := (s.chan c).queue.filter fun pt => pt.kind.feed?.isNone } else s.chan c
  out    : ∀ p b, e.kind = .out p → (s.pod p).binding = some b → s.cueQueue = [] →
    t.pod p = { record := (s.pod p).record, state := .ready, binding := none, anchor := none, spotInfo := Vector.replicate 8 {}, fillerTotal := 0 } ∧
    (∀ q, q ≠ p → t.pod q = s.pod q) ∧
    (∀ c, t.readyList c = if c = (s.pod p).record.chan then s.readyList c ++ [p] else s.readyList c) ∧
    (∀ j, t.watchList j = (s.watchList j).filter fun x => !(x.kind.pod? == some p)) ∧
    (∀ c, t.chan c =
      if c = (s.pod p).record.chan then { s.chan c with queue := (s.chan c).queue.filter fun pt => !(pt.kind.pod? == some p) } else s.chan c) ∧
    t.asRun = s.asRun.push { kind := .availMissed, reason := some .switchFull, chan := some e.chan, event := b.event,
                             avail := some (b.cue.avail, b.cue.expected) }

/-- Entry `e` has resolved to point `pt` (R93): placed where the queue has a place for it, dropped otherwise. -/
structure EntryResolved (s t : State) (r : RingNo) (pre post : List WatchEntry) (e : WatchEntry) (pt : SwitchPoint) : Prop where
  placed  : HasPlace (s.chan e.chan).queue pt.seq → EntryPlaced s t r pre post e pt
  dropped : ¬ HasPlace (s.chan e.chan).queue pt.seq → EntryDropped s t r pre post e

/-! ### Staged copies and lines -/

/-- A record of channel `c` is staged, not applied at once: `c` is in a state other than OFF and NETWORK, or in NETWORK with a pod that is PENDING,
AIRING or SUSPENDED (R118). -/
def State.Stages (s : State) (c : ChanNo) : Prop :=
  (s.chan c).state ≠ .off ∧ ((s.chan c).state ≠ .network ∨
    ∃ p, ((s.pod p).state = .pending ∨ (s.pod p).state = .airing ∨ (s.pod p).state = .suspended) ∧ (s.pod p).record.chan = c)

/-- As ControlClear, but copies may be held: every channel that holds one still stages (R118, R120). -/
structure ControlStaged (s : State) (off n : Nat) : Prop where
  high  : s.rstLow = false
  waits : ∀ d, (s.chan d).staged ≠ none → s.Stages d
  off   : s.OffRings (s.regionBase + off) n

/-- With the filters taken as `f0` and `f1`, the filtered level of line `x` alone has changed, to ACTIVE when `after` is true (R135, R136); `set` holds that
line's source alone, and `mode` is the line's mode. -/
def State.LineTurns (s : State) (f0 f1 : LineFilter) (x : Source) (set : SourceSet) (mode : LineMode) (after : Bool) : Prop :=
  (x = .line0 ∧ set = 1 ∧ mode = s.alert.record.line0.mode ∧
    s.alert.filter0.active = !after ∧ f0.active = after ∧ f1.active = s.alert.filter1.active) ∨
  (x = .line1 ∧ set = 2 ∧ mode = s.alert.record.line1.mode ∧
    f0.active = s.alert.filter0.active ∧ s.alert.filter1.active = !after ∧ f1.active = after)

/-- ALERT_END releases source `x` when it is engaged: COMMAND, and unless the splicer is protected a line source whose line's mode is LATCH (R143). -/
def State.EndReleases (s : State) (x : Source) : Prop :=
  x = .command ∨ s.alert.isProtected = false ∧
    (x = .line0 ∧ s.alert.record.line0.mode = .latch ∨ x = .line1 ∧ s.alert.record.line1.mode = .latch)

/-- State `t` is `s` with its highest engaged source playing; where that changes the playing source, each channel in ALERT is given a source-change mark,
which leaves a RESTORE in place (R138 step 6, R139 step 2, R145). -/
def State.PlaysHighest (s t : State) : Prop :=
  t = { s with alert := { s.alert with playing := highest s.alert.engaged }, channels := t.channels } ∧
  ∀ c, t.chan c =
    if highest s.alert.engaged ≠ s.alert.playing ∧ (s.chan c).state = .alert ∧ (s.chan c).mark ≠ .restore then
      { s.chan c with mark := .source }
    else s.chan c

/-! ### Requests -/

/-- The command offers a request on the upstream port: it is not a reset of the pins, a response or an event of the reference clock. -/
def offersRequest : Instr → Bool
  | .powerOnReset _ | .rstNAssert | .rstNRelease _ => false
  | .forwardedReadResponse _ | .writeAcknowledgement | .sourceCellReturn _ | .networkCellReturn _ | .networkSlotNullReturn _ => false
  | .lineSample _ _ _ | .episodeTimerAdvance => false
  | .otherTraffic _ | .statusWindowRead _ _ | .ringFullCellWrite _ _ | .ringPartialWrite _ | .windowFullCellRead _ | .windowPartialRead _ _
  | .windowWrite _ | .ringRecordWrite _ _ | .channelRecordWrite _ _ | .alertRecordWrite _ | .podRecordWrite _ _ | .clipRecordWrite _ _
  | .recordWritePartial _ | .mailboxMalformedWrite _ | .spliceNow _ | .returnNow _ | .cancelEvent _ | .podRevoke _ | .feedStart _
  | .feedStop _ | .alertEngage _ | .alertEnd _ | .lockdown _ | .softReset _ | .flagClear _ | .flagEnables _ | .counterClear _
  | .consumeIndex _ | .statusWordPartialWrite _ | .controlRegionOtherWrite _ => true

end Sys2Proof.Machine
end

