-- ==== Sys2Proof/Certificates/Slice0/Obligations.lean ====
section
/-! DEFINITION. The statements about the splicer. -/

open Sys2Proof Sys2Proof.Machine

/-! ### The step, the resets and the pins -/

/-- The command at the front of the queue is run with the queue's rest; with none waiting nothing changes (log 2). -/
def Obligations.StepRunsFront : Prop :=
  (∀ s : State, s.pending = [] → step s = .next s) ∧
  ∀ (s : State) (c : Instr) (rest : List Instr), s.pending = c :: rest → step s = exec c { s with pending := rest }

/-- What reset leaves, for the values the spec gives (R8): of each ring (1.4, R48, R84) with every slot UNWRITTEN, each channel (R29, R36, R74, R97, R109,
R121, R145), each pod (R69; not its spot fates, which are log 10), each clip (R65), the Cue Unit (R53, R55), the Alert Controller (R133, R135, R137), the
as-run queue (R157) and the control words (R167). -/
def Obligations.ResetLeaves : Prop :=
  (∀ r, (State.reset.ring r).shadow.kind = .unused ∧ (State.reset.ring r).writeCount = 0 ∧ (State.reset.ring r).lastSlot = none ∧
    (∀ k, (State.reset.ring r).classOf k = .unwritten) ∧ (State.reset.ring r).mark = none ∧ (State.reset.ring r).pcrBase = none ∧
    (State.reset.ring r).assembler = .idle ∧ (State.reset.ring r).syncLoss = 0 ∧ (State.reset.ring r).order = 0 ∧
    State.reset.watchList r = []) ∧
  (∀ c, (State.reset.chan c).state = .off ∧ (State.reset.chan c).inForce.enable = false ∧ (State.reset.chan c).staged = none ∧
    (State.reset.chan c).queue = [] ∧ (State.reset.chan c).playing = none ∧ (State.reset.chan c).pos = none ∧
    (State.reset.chan c).markReq = false ∧ (State.reset.chan c).late = 0 ∧ State.reset.readyList c = []) ∧
  (∀ c, (State.reset.chan c).d90 = 0 ∧ (State.reset.chan c).s = 0 ∧ (State.reset.chan c).pendingIn = none ∧
    (State.reset.chan c).runTarget = none ∧ (State.reset.chan c).spotTarget = none ∧ (State.reset.chan c).lastOut.video = none ∧
    (State.reset.chan c).lastOut.tL = none ∧ (State.reset.chan c).cc = []) ∧
  (∀ c, (State.reset.chan c).feed = none ∧ (State.reset.chan c).underrun = 0 ∧ (State.reset.chan c).lostFeed = 0 ∧
    (State.reset.chan c).mark = .none ∧ (State.reset.chan c).alert = none ∧ (State.reset.chan c).alertCell = 0 ∧
    (State.reset.chan c).saved = none) ∧
  (∀ p, (State.reset.pod p).state = .empty ∧ (State.reset.pod p).binding = none ∧ (State.reset.pod p).anchor = none ∧
    (State.reset.pod p).fillerTotal = 0 ∧ ∀ k, ((State.reset.pod p).spotInfo.get k).startSeq = none ∧
      ((State.reset.pod p).spotInfo.get k).late = false ∧ ((State.reset.pod p).spotInfo.get k).unaligned = false) ∧
  (∀ n, (State.reset.clip n).valid = false) ∧
  State.reset.cueQueue = [] ∧
  State.reset.cueCounters = { crcError := 0, formatError := 0, repeated := 0, lateRepeat := 0, lost := 0, other := 0 } ∧
  State.reset.alert =
    { record :=
        { participation := 0, line0 := { clip := none, polarity := .activeHigh, mode := .follow, filter := 1 },
          line1 := { clip := none, polarity := .activeHigh, mode := .follow, filter := 1 }, commandClip := none, hold := 0, limit := 0,
          protect := false }
      filter0 := { active := false, run := 0 }, filter1 := { active := false, run := 0 }, state := .idle, engaged := 0, playing := none,
      timer := 0, episode := 0, lockdown := 0, protHigh := true } ∧
  State.reset.asRun.producer = 0 ∧ State.reset.asRun.consume = 0 ∧ State.reset.asRun.lost = 0 ∧
  (∀ j, State.reset.asRun.slots.get j = none) ∧ State.reset.flags = 0 ∧ State.reset.enables = 0 ∧
  State.reset.lastCommand = none ∧ State.reset.lastRefused = none ∧ State.reset.outstanding = []

/-- Power-on reset (R8, R160, R167): everything at its reset value, the straps sampled, and the requests without a response abandoned. The
pin's level is not the reset's to change (log 6), the record fields no chapter gives a value are the model's choice (log 10), and the queue of
commands and the count of status reads are the model's own (log 24). -/
def Obligations.PowerOnReset : Prop :=
  ∀ (s : State) (straps : Byte),
    exec (.powerOnReset straps) s =
      .next { State.reset with
        straps := straps, rstLow := s.rstLow, abandoned := s.abandoned ++ s.outstanding.filterMap Outstanding.awaits,
        pending := s.pending, freeCount := s.freeCount }

/-- RST_N (R8, R137, R160): going low it resets as power-on does, but the lock-down set is kept and the straps are not sampled; at its release the
straps are sampled and requests are accepted again, and nothing else changes. The model's own are the ports' activity (log 4), the record fields no
chapter gives a value (log 10), the queue and the count of status reads (log 24). -/
def Obligations.RstPin : Prop :=
  (∀ s : State,
    exec .rstNAssert s =
      .next { State.reset with
        straps := s.straps, rstLow := true, abandoned := s.abandoned ++ s.outstanding.filterMap Outstanding.awaits,
        alert := { State.reset.alert with lockdown := s.alert.lockdown }, pending := s.pending, freeCount := s.freeCount }) ∧
  ∀ (s : State) (straps : Byte), s.rstLow = true →
    exec (.rstNRelease straps) s = .next { s with rstLow := false, straps := straps, upOut := [], downOut := [] }

/-- While RST_N is low no request is accepted (R8): a command that offers one changes nothing (the model's reading, log 6). -/
def Obligations.LowAcceptsNothing : Prop :=
  ∀ (s : State) (i : Instr), s.rstLow = true → offersRequest i = true → i.wf = true →
    exec i s = .next { s with upOut := [], downOut := [] }

/-! ### Requests and responses in order -/

/-- Other traffic is forwarded unchanged and waits for its response (R2, R3). -/
def Obligations.OtherTrafficForwarded : Prop :=
  (∀ (s : State) (w : WriteReq), s.rstLow = false → s.NoStaged → lengthOk w.bytes.length = true →
    s.OffRings w.addr.toNat w.bytes.length → s.regionMeets w.addr.toNat w.bytes.length = false →
    exec (.otherTraffic (.write w)) s = .next (s.carry (.write w))) ∧
  ∀ (s : State) (addr : Addr) (len : Nat), s.rstLow = false → lengthOk len = true →
    (∀ c, s.windowMeets c addr.toNat len = false) → s.regionMeets addr.toNat len = false →
    exec (.otherTraffic (.read addr len)) s = .next (s.carry (.read addr len))

/-- Responses go upstream in the order the requests were accepted: a read's data or a write's acknowledgement, then at once the status reads
accepted behind it and before the next forwarded request (R3). -/
def Obligations.ResponsesInOrder : Prop :=
  ∀ (s : State) (answers : List (List Byte)) (rest : List Outstanding), s.abandoned = [] → s.NoStaged → (∀ a l, rest ≠ .status a :: l) →
    (∀ addr len data, s.outstanding = .forwarded (.read addr len) .plain :: (answers.map .status ++ rest) → lengthOk len = true →
      data.length = len →
      exec (.forwardedReadResponse data) s =
        .next { s with outstanding := rest, downOut := [], upOut := .readData data :: answers.map .readData }) ∧
    ∀ w how, s.outstanding = .forwarded (.write w) how :: (answers.map .status ++ rest) →
      exec .writeAcknowledgement s =
        .next { s with outstanding := rest, downOut := [], upOut := .writeAck :: answers.map .readData }

/-- The downstream response of an abandoned request is discarded (R8). -/
def Obligations.AbandonedDiscarded : Prop :=
  ∀ (s : State) (rest : List Bool),
    (∀ data, s.abandoned = false :: rest → lengthOk data.length = true →
      exec (.forwardedReadResponse data) s = .next { s with abandoned := rest, upOut := [], downOut := [] }) ∧
    (s.abandoned = true :: rest →
      exec .writeAcknowledgement s = .next { s with abandoned := rest, upOut := [], downOut := [] })

/-- A read within the status window is answered from the state as it stands and is not forwarded: at once when nothing waits before it,
otherwise in its turn (R2, R3, R168). The free bytes within the answer and the count of status reads are the
model's own (log 9), and so are the zeros of bits with no field (log 21). -/
def Obligations.StatusReadAnswered : Prop :=
  ∀ (s : State) (addr : Addr) (len : Nat), s.rstLow = false → lengthOk len = true → s.regionBase ≤ addr.toNat →
    addr.toNat + len ≤ s.regionBase + 0x3000 →
    (s.outstanding = [] →
      exec (.statusWindowRead addr len) s =
        .next { s with upOut := [.readData (statusAnswer s (addr.toNat - s.regionBase) len)], downOut := [],
                       freeCount := s.freeCount + 1 }) ∧
    ∀ r how rest, s.outstanding = .forwarded r how :: rest →
      exec (.statusWindowRead addr len) s =
        .next { s with outstanding := s.outstanding ++ [.status (statusAnswer s (addr.toNat - s.regionBase) len)], upOut := [], downOut := [],
                       freeCount := s.freeCount + 1 }

/-- What some bytes of the status window show, in every state and for every value of the free bytes (11.8, R159, R168, R169; log 9). That the bits with no
field read as zero, bits 3 to 7 of 0x004 and bits 9 to 15 of the flags at 0x014 and 0x100 and of the enables at 0x016, is the model's own reading, not a rule:
R168 says so of bytes only (log 21). -/
def Obligations.StatusShows : Prop :=
  ∀ (s : State) (free : Nat → Byte),
    statusByte free s 0x000 = 0x48 ∧ statusByte free s 0x001 = 0x32 ∧ statusByte free s 0x002 = 0x01 ∧
    statusByte free s 0x004 = s.alert.engaged.setWidth 8 ∧
    statusByte free s 0x014 ++ statusByte free s 0x015 = s.flags.setWidth 16 ∧
    statusByte free s 0x016 ++ statusByte free s 0x017 = s.enables.setWidth 16 ∧
    statusByte free s 0x034 ++ statusByte free s 0x035 = s.asRun.lost ∧
    statusByte free s 0x036 = s.asRun.producer ∧ statusByte free s 0x037 = s.asRun.consume ∧
    statusByte free s 0x038 = BitVec.ofNat 8 s.cueQueue.length ∧
    statusByte free s 0x100 ++ statusByte free s 0x101 = s.flags.setWidth 16 ∧ statusByte free s 0x118 = s.asRun.consume ∧
    (∀ r : RingNo, statusByte free s (0x200 + 32 * r.val) = BitVec.ofNat 8 (ringKindCode (s.ring r).shadow.kind)) ∧
    (∀ c : ChanNo, statusByte free s (0xC00 + 128 * c.val) = BitVec.ofNat 8 (chanStateCode (s.chan c).state)) ∧
    ∀ (j : Fin 128) (i : Nat), i < 40 → s.asRun.slots.get j = none → statusByte free s (0x1C00 + 40 * j.val + i) = 0

/-! ### Rings -/

/-- A first write (R9): W becomes 1, L becomes k, slot k is classed by its cell, and every other slot and ring stays as it was. -/
def Obligations.FirstWrite : Prop :=
  ∀ (s : State) (r : RingNo) (k : Nat) (addr : Addr) (cell : List Byte), s.rstLow = false → s.NoStaged → s.AtSlot r k addr →
    cell.length = 192 → (s.ring r).lastSlot = none →
    ∃ t, exec (.ringFullCellWrite addr cell) s = .next t ∧
      InspectionFrame (s.carry (wholeWrite addr cell)) t r ∧
      (t.ring r).writeCount = 1 ∧ (t.ring r).lastSlot = some k ∧ (t.ring r).shadow = (s.ring r).shadow ∧
      (t.ring r).classes = (s.ring r).classes.set k (classify (s.ring r).shadow (parseCell cell)) ∧
      (t.ring r).order = (s.ring r).order ∧
      (t.ring r).syncLoss = if (parseCell cell).sync then (s.ring r).syncLoss else counterAdd (s.ring r).syncLoss 1

/-- An ahead write (R10): the slots passed over are classed OTHER, W advances by d, L becomes k, slot k is classed by its cell, and a skip
sets ORDER and counts in the ring. -/
def Obligations.AheadWrite : Prop :=
  ∀ (s : State) (r : RingNo) (k l d : Nat) (addr : Addr) (cell : List Byte), s.rstLow = false → s.NoStaged → s.AtSlot r k addr →
    cell.length = 192 → (s.ring r).lastSlot = some l → l < (s.ring r).shadow.slotCount.toNat →
    (s.ring r).classes.length = (s.ring r).shadow.slotCount.toNat →
    d = (k + (s.ring r).shadow.slotCount.toNat - l) % (s.ring r).shadow.slotCount.toNat → 1 ≤ d →
    2 * d ≤ (s.ring r).shadow.slotCount.toNat →
    ∃ t, exec (.ringFullCellWrite addr cell) s = .next t ∧
      InspectionFrame (s.carry (wholeWrite addr cell)) t r ∧
      (t.ring r).writeCount = (s.ring r).writeCount + BitVec.ofNat 32 d ∧ (t.ring r).lastSlot = some k ∧
      (t.ring r).shadow = (s.ring r).shadow ∧
      (∀ j, j < (s.ring r).shadow.slotCount.toNat →
        (t.ring r).classOf j =
          if j = k then classify (s.ring r).shadow (parseCell cell)
          else if ∃ i, i < d - 1 ∧ j = (l + 1 + i) % (s.ring r).shadow.slotCount.toNat then .other
          else (s.ring r).classOf j) ∧
      (t.ring r).order = (if 1 < d then counterAdd (s.ring r).order 1 else (s.ring r).order) ∧
      (t.ring r).syncLoss = (if (parseCell cell).sync then (s.ring r).syncLoss else counterAdd (s.ring r).syncLoss 1) ∧
      (1 < d → hasFlag .order t = true)

/-- A late write (R11): slot k is classed by its cell, a lost sync is counted, ORDER is set and counted, and nothing else changes. -/
def Obligations.LateWrite : Prop :=
  ∀ (s : State) (r : RingNo) (k l d : Nat) (addr : Addr) (cell : List Byte), s.rstLow = false → s.NoStaged → s.AtSlot r k addr →
    cell.length = 192 → (s.ring r).lastSlot = some l →
    d = (k + (s.ring r).shadow.slotCount.toNat - l) % (s.ring r).shadow.slotCount.toNat →
    (d = 0 ∨ (s.ring r).shadow.slotCount.toNat < 2 * d) →
    exec (.ringFullCellWrite addr cell) s =
      .next (setFlag .order ((s.carry (wholeWrite addr cell)).setRing r
        { s.ring r with
          classes := (s.ring r).classes.set k (classify (s.ring r).shadow (parseCell cell))
          syncLoss := if (parseCell cell).sync then (s.ring r).syncLoss else counterAdd (s.ring r).syncLoss 1
          order := counterAdd (s.ring r).order 1 }))

/-- A ring write that is not a full-cell write (R13): in each ring, every slot touched by an enabled byte is classed OTHER and the order event
counted. That a ring whose slot range the write touches with no enabled byte stays as it was is the model's reading (log 18). -/
def Obligations.PartialRingWrite : Prop :=
  ∀ (s : State) (w : WriteReq) (touched : RingNo → Nat → Prop), s.rstLow = false → s.NoStaged → lengthOk w.bytes.length = true →
    (∀ c, s.windowMeets c w.addr.toNat w.bytes.length = false) → s.regionMeets w.addr.toNat w.bytes.length = false →
    (∀ r, fullCellSlot (s.ring r).shadow w = none) →
    (∀ r, (s.ring r).classes.length = (s.ring r).shadow.slotCount.toNat) →
    (∀ r j, touched r j ↔ (s.ring r).shadow.kind ≠ .unused ∧ j < (s.ring r).shadow.slotCount.toNat ∧
      ∃ i b, w.bytes[i]? = some (b, true) ∧ (s.ring r).shadow.base.toNat + 192 * j ≤ w.addr.toNat + i ∧
        w.addr.toNat + i < (s.ring r).shadow.base.toNat + 192 * (j + 1)) →
    ∃ t, exec (.ringPartialWrite w) s = .next t ∧
      t = { s.carry (.write w) with rings := t.rings, flags := t.flags } ∧
      (∀ r, (∃ j, touched r j) →
        t.ring r = { s.ring r with order := counterAdd (s.ring r).order 1, classes := (t.ring r).classes } ∧
        (t.ring r).classes.length = (s.ring r).classes.length ∧
        ∀ j, j < (s.ring r).classes.length →
          (touched r j → (t.ring r).classOf j = .other) ∧ (¬ touched r j → (t.ring r).classOf j = (s.ring r).classOf j)) ∧
      (∀ r, (¬ ∃ j, touched r j) → t.ring r = s.ring r) ∧
      ((∃ r j, touched r j) → t.flags = s.flags ||| flagMask .order) ∧
      ((¬ ∃ r j, touched r j) → t.flags = s.flags)

/-- What a first or ahead write reports. A VSTART cell becomes the last start mark, a PCR on the PCR PID the latest PCR base, and any other cell leaves both
(R24, R25). A cell that is not on the CUE PID resolves the one entry of the ring's watch list that falls due, at a video start that carries no PCR (R88) or forced by
a PCR that is no video start (R89), into its point (R91), which is placed or dropped (R93) with what follows for an OUT (R94). An entry that does not fall due, or
whose feed ring has no start mark, stays, and an immediate one takes the base that it lacked (R90). -/
def Obligations.CellReports : Prop :=
  ∀ (s : State) (r : RingNo) (k : Nat) (addr : Addr) (cell : List Byte) (f : Findings), s.rstLow = false → s.NoStaged → s.AtSlot r k addr →
    cell.length = 192 → writeKind (s.ring r) k ≠ .late → f = parseCell cell →
    ∃ t, exec (.ringFullCellWrite addr cell) s = .next t ∧
      (∀ pts, classify (s.ring r).shadow f = .vstart → f.pts = some pts →
        (t.ring r).mark = some { seq := (t.ring r).writeCount - 1, pts := pts, stamp := f.stamp }) ∧
      (classify (s.ring r).shadow f ≠ .vstart → (t.ring r).mark = (s.ring r).mark) ∧
      (∀ base ext, f.isOn (s.ring r).shadow.comps.pcr = true → f.pcr = some (base, ext) → (t.ring r).pcrBase = some base) ∧
      (f.isOn (s.ring r).shadow.comps.pcr = false ∨ f.pcr = none → (t.ring r).pcrBase = (s.ring r).pcrBase) ∧
      ∀ (pre post : List WatchEntry) (e : WatchEntry) (seq : SeqNo) (mark : Option StartMark),
        f.isOn (s.ring r).shadow.cue = false → s.watchList r = pre ++ e :: post → pre.length + post.length < 16 →
        (∀ x, x ∈ pre ++ post → x.kind ≠ e.kind ∨ x.chan ≠ e.chan) → seq = (t.ring r).writeCount - 1 →
        mark = (match e.kind with
          | .feedIn g => (t.ring g).mark
          | _ => none) →
        (∀ pts, classify (s.ring r).shadow f = .vstart → f.pts = some pts →
          (f.isOn (s.ring r).shadow.comps.pcr = false ∨ f.pcr = none) → (∀ x, x ∈ pre ++ post → ¬ x.DueAt pts seq) →
          (e.DueAt pts seq → ¬ t.NoFeedMark e →
            EntryResolved s t r pre post e { kind := e.kind, seq := seq, anchor := pts, stamp := f.stamp, mark := mark, aligned := true }) ∧
          (¬ e.DueAt pts seq ∨ t.NoFeedMark e → t.watch = s.watch ∧ t.channels = s.channels ∧ t.pods = s.pods)) ∧
        ∀ base ext e', f.isOn (s.ring r).shadow.comps.pcr = true → f.pcr = some (base, ext) → classify (s.ring r).shadow f ≠ .vstart →
          (∀ x, x ∈ pre ++ post → (x.target = .immediate → x.pcrBase ≠ none) ∧ ∀ a, ¬ x.ForcedAt (s.chan x.chan).inForce.window base a) →
          e' = (if e.target = .immediate ∧ e.pcrBase = none then { e with pcrBase := some base } else e) →
          (∀ anchor, e'.ForcedAt (s.chan e.chan).inForce.window base anchor → ¬ t.NoFeedMark e →
            EntryResolved s t r pre post e
              { kind := e.kind, seq := seq, anchor := anchor, stamp := f.stamp, mark := mark, aligned := false }) ∧
          ((∀ anchor, ¬ e'.ForcedAt (s.chan e.chan).inForce.window base anchor) ∨ t.NoFeedMark e →
            t.watchList r = pre ++ e' :: post ∧ (∀ j, j ≠ r → t.watchList j = s.watchList j) ∧ t.channels = s.channels ∧ t.pods = s.pods)

/-! ### Cues -/

/-- A cell on the CUE PID (R26, R49 to R51): it is counted in its ring and given to the section assembler, which passes over it, collects its bytes, counts a
format error or another table, or hands on a complete section. A section that fails its CRC, or is of unknown version or kind, is counted with CUE set (R52,
R53), any other is taken as the cue of its fields (R54), and an OUT cue whose values its only holder, a queue entry, already has is a repeat (R56). -/
def Obligations.CuesCounted : Prop :=
  (∀ (s : State) (r : RingNo) (k : Nat) (addr : Addr) (cell : List Byte) (f : Findings), CueWrite s r k addr cell → f = parseCell cell →
    (f.payload = none ∨ f.scrambling ≠ 0 →
      ∃ u, CellCounted s u r k addr cell (s.ring r).assembler ∧ exec (.ringFullCellWrite addr cell) s = .next u) ∧
    ∀ p, f.payload = some p → f.scrambling = 0 →
      ∃ u v, CellCounted s u r k addr cell .idle ∧ v = (if (s.ring r).assembler = .idle then u else u.formatErrorCounted) ∧
        (∀ first len, f.unitStart = true → first = p + 1 + (byteAt cell p).toNat → len = fieldNat cell (first + 1) 2 % 4096 →
          (192 ≤ first → exec (.ringFullCellWrite addr cell) s = .next v.formatErrorCounted) ∧
          (first < 192 → byteAt cell first ≠ 0xC7 → exec (.ringFullCellWrite addr cell) s = .next v.otherCounted) ∧
          (first < 192 → byteAt cell first = 0xC7 →
            (192 < first + 3 →
              exec (.ringFullCellWrite addr cell) s =
                .next (v.setRing r { u.ring r with assembler := .collecting (cell.drop first) none f.cc })) ∧
            (first + 3 ≤ 192 →
              (len < 24 ∨ 361 < len → exec (.ringFullCellWrite addr cell) s = .next v.formatErrorCounted) ∧
              (24 ≤ len → len ≤ 361 → 192 < first + 3 + len →
                exec (.ringFullCellWrite addr cell) s =
                  .next (v.setRing r { u.ring r with assembler := .collecting (cell.drop first) (some (3 + len)) f.cc })) ∧
              (24 ≤ len → first + 3 + len ≤ 192 →
                exec (.ringFullCellWrite addr cell) s =
                  .next (takeSectionEvent r ((u.ring r).writeCount - 1) (.complete (field cell first (3 + len))) v))))) ∧
        (f.unitStart = false → (s.ring r).assembler = .idle → exec (.ringFullCellWrite addr cell) s = .next u) ∧
        ∀ buffer want last sec len, f.unitStart = false → (s.ring r).assembler = .collecting buffer want last → sec = buffer ++ cell.drop p →
          len = fieldNat sec 1 2 % 4096 →
          (f.cc ≠ last + 1 → exec (.ringFullCellWrite addr cell) s = .next u.formatErrorCounted) ∧
          (f.cc = last + 1 → byteAt sec 0 ≠ 0xC7 → exec (.ringFullCellWrite addr cell) s = .next u.otherCounted) ∧
          (f.cc = last + 1 → byteAt sec 0 = 0xC7 →
            (sec.length < 3 ∨ len < 24 ∨ 361 < len ∨ sec.length < 3 + len →
              exec (.ringFullCellWrite addr cell) s = .next u.formatErrorCounted) ∧
            (24 ≤ len → len ≤ 361 → 3 + len ≤ sec.length →
              exec (.ringFullCellWrite addr cell) s =
                .next (takeSectionEvent r ((u.ring r).writeCount - 1) (.complete (sec.take (3 + len))) u)))) ∧
  (∀ (s : State) (r : RingNo) (arrival : SeqNo) (sec : List Byte),
    (crc32 sec ≠ 0 →
      takeSectionEvent r arrival (.complete sec) s =
        { s with flags := s.flags ||| flagMask .cue
                 cueCounters := { s.cueCounters with crcError := counterAdd s.cueCounters.crcError 1 } }) ∧
    (crc32 sec = 0 → (byteAt sec 3 ≠ 0 ∨ (byteAt sec 4 ≠ 1 ∧ byteAt sec 4 ≠ 2 ∧ byteAt sec 4 ≠ 3)) →
      takeSectionEvent r arrival (.complete sec) s = s.formatErrorCounted) ∧
    ∀ kind v, crc32 sec = 0 → byteAt sec 3 = 0 →
      (byteAt sec 4 = 1 ∧ kind = .out ∨ byteAt sec 4 = 2 ∧ kind = .back ∨ byteAt sec 4 = 3 ∧ kind = .cancel) →
      v = fieldNat sec 16 5 % 2 ^ 33 →
      takeSectionEvent r arrival (.complete sec) s =
        takeCue r arrival
          { kind := kind, event := BitVec.ofNat 32 (fieldNat sec 5 4), zones := byteAt sec 9,
            target := if (byteAt sec 10).getLsbD 0 then .immediate else .atTick (BitVec.ofNat 33 (fieldNat sec 11 5)),
            duration := if (byteAt sec 10).getLsbD 1 ∧ 1 ≤ v ∧ v < 2 ^ 32 then some (BitVec.ofNat 32 v) else none,
            autoReturn := (byteAt sec 10).getLsbD 2, avail := byteAt sec 21, expected := byteAt sec 22 } s) ∧
  ∀ (s : State) (r : RingNo) (arrival : SeqNo) (c : Cue) (e : CueEntry), c.kind = .out → s.cueEntry r c.event = some e →
    (∀ p, s.bindingIs p r c.event = false) → e.cue.target = c.target → e.cue.duration = c.duration →
    takeCue r arrival c s = { s with cueCounters := { s.cueCounters with repeated := counterAdd s.cueCounters.repeated 1 } }

/-- A new OUT cue for which no channel has an eligible pod is queued with the channels of its pending set (R55, R58, R59): whatever brought the cue, and so
when a cell on the CUE PID brings its whole good section (R50, R52, R54), the arrival sequence being the cell's own. -/
def Obligations.NewCueQueued : Prop :=
  (∀ (s : State) (r : RingNo) (arrival : SeqNo) (c : Cue) (set : ChanSet), c.kind = .out → NewOut s r c.event c.zones c.avail set →
    takeCue r arrival c s =
      { s with cueQueue := s.cueQueue ++
        [{ ring := r, event := c.event, zones := c.zones, arrivalSeq := arrival, waiting := set,
           cue := { target := c.target, duration := c.duration, autoReturn := c.autoReturn, avail := c.avail, expected := c.expected,
                    markSeq := if c.target = .immediate then (s.ring r).mark.map (·.seq) else none } }] }) ∧
  ∀ (s : State) (r : RingNo) (k : Nat) (addr : Addr) (cell sec : List Byte) (f : Findings) (p first len v : Nat) (set : ChanSet),
    CueWrite s r k addr cell → f = parseCell cell → f.payload = some p → f.scrambling = 0 → f.unitStart = true →
    (s.ring r).assembler = .idle → first = p + 1 + (byteAt cell p).toNat → len = fieldNat cell (first + 1) 2 % 4096 → 24 ≤ len →
    first + 3 + len ≤ 192 → sec = field cell first (3 + len) → byteAt sec 0 = 0xC7 → crc32 sec = 0 → byteAt sec 3 = 0 → byteAt sec 4 = 1 →
    NewOut s r (BitVec.ofNat 32 (fieldNat sec 5 4)) (byteAt sec 9) (byteAt sec 21) set → v = fieldNat sec 16 5 % 2 ^ 33 →
    ∃ u, CellCounted s u r k addr cell .idle ∧
      exec (.ringFullCellWrite addr cell) s =
        .next { u with cueQueue := s.cueQueue ++
          [{ ring := r, event := BitVec.ofNat 32 (fieldNat sec 5 4), zones := byteAt sec 9, arrivalSeq := (u.ring r).writeCount - 1,
             waiting := set,
             cue := { target := if (byteAt sec 10).getLsbD 0 then .immediate else .atTick (BitVec.ofNat 33 (fieldNat sec 11 5)),
                      duration := if (byteAt sec 10).getLsbD 1 ∧ 1 ≤ v ∧ v < 2 ^ 32 then some (BitVec.ofNat 32 v) else none,
                      autoReturn := (byteAt sec 10).getLsbD 2, avail := byteAt sec 21, expected := byteAt sec 22,
                      markSeq := if (byteAt sec 10).getLsbD 0 then (s.ring r).mark.map (·.seq) else none } }] }

/-! ### Mailbox commands -/

/-- SPLICE_NOW accepted (R80, R164): the named READY pod, or for 0xFF the oldest with all clips VALID, is bound with an immediate OUT target on
the channel's network ring, and nothing else changes. -/
def Obligations.SpliceNowBinds : Prop :=
  ∀ (s : State) (mb : List Byte) (c : ChanNo) (p : PodNo), ControlClear s 0x3000 16 → mb.length = 16 → (byteAt mb 4).toNat = c.val →
    (s.chan c).state = .network → (s.chan c).queue = [] →
    ((byteAt mb 5).toNat = p.val ∧ (s.pod p).state = .ready ∧ (s.pod p).record.chan = c ∧ s.clipsValid (s.pod p).record = true ∨
      byteAt mb 5 = 0xFF ∧ (s.readyList c).find? (fun q => s.clipsValid (s.pod q).record) = some p) →
    (s.watchList (s.netRing c)).length < 16 →
    exec (.spliceNow mb) s =
      .next (answered 1 mb .accepted
        ((((s.carried 0x3000 mb).setReady c ((s.readyList c).filter (· != p))).setPod p
          { s.pod p with
            state := .bound
            binding := some { ring := s.netRing c, event := none, cue := s.spliceValues (s.netRing c) } }).setWatch (s.netRing c)
          (s.watchList (s.netRing c) ++
            [{ kind := .out p, chan := c, target := .immediate, pcrBase := (s.ring (s.netRing c)).pcrBase,
               markSeq := (s.ring (s.netRing c)).mark.map (·.seq) }])))

/-- RETURN_NOW (R165): an immediate RETURN target is armed for the playing pod, in place of its entry or in a free place; a channel not in INSERT
is answered STATE and a channel number above 31 RANGE. -/
def Obligations.ReturnNowArms : Prop :=
  ∀ (s : State) (mb : List Byte), ControlClear s 0x3010 16 → mb.length = 16 →
    (31 < (byteAt mb 4).toNat → exec (.returnNow mb) s = .next (answered 2 mb .range (s.carried 0x3010 mb))) ∧
    ∀ c : ChanNo, (byteAt mb 4).toNat = c.val →
      ((s.chan c).state ≠ .insert → exec (.returnNow mb) s = .next (answered 2 mb .state (s.carried 0x3010 mb))) ∧
      ∀ p new, (s.chan c).state = .insert → (s.chan c).playing = some p →
        (∀ pt, pt ∈ (s.chan c).queue → pt.kind ≠ .ret p) →
        new = { kind := .ret p, chan := (s.pod p).record.chan, target := .immediate, pcrBase := (s.ring (s.netRing c)).pcrBase,
                markSeq := none } →
        ((∃ e, e ∈ s.watchList (s.netRing c) ∧ e.kind = .ret p) →
          exec (.returnNow mb) s =
            .next (answered 2 mb .accepted ((s.carried 0x3010 mb).setWatch (s.netRing c)
              ((s.watchList (s.netRing c)).map fun e => if e.kind = new.kind ∧ e.chan = new.chan then new else e)))) ∧
        ((∀ e, e ∈ s.watchList (s.netRing c) → e.kind ≠ .ret p) → (s.watchList (s.netRing c)).length < 16 →
          exec (.returnNow mb) s =
            .next (answered 2 mb .accepted ((s.carried 0x3010 mb).setWatch (s.netRing c) (s.watchList (s.netRing c) ++ [new])))) ∧
        ((∀ e, e ∈ s.watchList (s.netRing c) → e.kind ≠ .ret p) → 16 ≤ (s.watchList (s.netRing c)).length →
          exec (.returnNow mb) s = .next (answered 2 mb .state (s.carried 0x3010 mb)))

/-- CANCEL_EVENT (R63, R165): the queue entries of the ring and event go; with no BOUND or PENDING pod of theirs nothing else changes. A ring
number above 47 is answered RANGE. -/
def Obligations.CancelEventRemoves : Prop :=
  ∀ (s : State) (mb : List Byte), ControlClear s 0x3020 16 → mb.length = 16 →
    (47 < (byteAt mb 4).toNat → exec (.cancelEvent mb) s = .next (answered 3 mb .range (s.carried 0x3020 mb))) ∧
    ∀ (r : RingNo) (e : BitVec 32), (byteAt mb 4).toNat = r.val → e = BitVec.ofNat 32 (fieldNat mb 8 4) →
      (∀ p, s.bindingIs p r e = true → (s.pod p).state ≠ .bound ∧ (s.pod p).state ≠ .pending) →
      exec (.cancelEvent mb) s =
        .next (answered 3 mb .accepted
          { s.carried 0x3020 mb with cueQueue := s.cueQueue.filter fun x => !decide (x.ring = r ∧ x.event = e) })

/-- A BOUND pod of a cancelled event (R63, R81): it becomes READY again at the tail of its channel's ready list, with no binding and no watch
entry left. -/
def Obligations.CancelEventUnbinds : Prop :=
  ∀ (s : State) (mb : List Byte) (r : RingNo) (e : BitVec 32) (p : PodNo), ControlClear s 0x3020 16 → mb.length = 16 →
    (byteAt mb 4).toNat = r.val → e = BitVec.ofNat 32 (fieldNat mb 8 4) → s.bindingIs p r e = true → (s.pod p).state = .bound →
    (∀ q, q ≠ p → s.bindingIs q r e = false) → (∀ x, x ∈ s.cueQueue → x.ring = r ∧ x.event = e) →
    ∃ t, exec (.cancelEvent mb) s = .next t ∧ (t.pod p).state = .ready ∧ (t.pod p).binding = none ∧
      (t.pod p).record = (s.pod p).record ∧ t.readyList (s.pod p).record.chan = s.readyList (s.pod p).record.chan ++ [p] ∧
      (∀ k, t.watchList k = (s.watchList k).filter fun w => !(w.kind.pod? == some p)) ∧ t.cueQueue = [] ∧
      t.lastCommand = some { tag := some (mailboxTag mb), mailbox := 3, result := .accepted }

/-- POD_REVOKE by the state of the pod it names (R83). -/
def Obligations.PodRevoked : Prop :=
  ∀ (s : State) (mb : List Byte), ControlClear s 0x3030 16 → mb.length = 16 →
    (63 < (byteAt mb 4).toNat → exec (.podRevoke mb) s = .next (answered 4 mb .range (s.carried 0x3030 mb))) ∧
    ∀ p : PodNo, (byteAt mb 4).toNat = p.val →
      ((s.pod p).state = .empty ∨ (s.pod p).state = .airing ∨ (s.pod p).state = .suspended →
        exec (.podRevoke mb) s = .next (answered 4 mb .state (s.carried 0x3030 mb))) ∧
      ((s.pod p).state = .ready →
        exec (.podRevoke mb) s =
          .next (answered 4 mb .accepted
            (((s.carried 0x3030 mb).setReady (s.pod p).record.chan ((s.readyList (s.pod p).record.chan).filter (· != p))).setPod p
              { s.pod p with state := .empty }))) ∧
      ((s.pod p).state = .bound ∨ (s.pod p).state = .pending →
        ∃ t, exec (.podRevoke mb) s = .next t ∧ t = answered 4 mb .accepted (closePod p .revoked {} (s.carried 0x3030 mb)) ∧
          (t.pod p).state = .empty ∧ (t.pod p).binding = none ∧ (t.pod p).anchor = none ∧
          (∀ r, t.watchList r = (s.watchList r).filter fun e => !(e.kind.pod? == some p)) ∧
          (t.chan (s.pod p).record.chan).queue = (s.chan (s.pod p).record.chan).queue.filter fun pt => !(pt.kind.pod? == some p))

/-- FEED_START accepted (R122): the FEED_IN target is armed on the channel's network ring, then the FEED_OUT when an end PTS is present, and
nothing else changes. -/
def Obligations.FeedStartArms : Prop :=
  ∀ (s : State) (mb : List Byte) (c : ChanNo) (f : RingNo), ControlClear s 0x3040 16 → mb.length = 16 →
    (byteAt mb 4).toNat % 64 = c.val → (byteAt mb 5).toNat = f.val → (s.chan c).state = .network →
    (∀ p, (s.pod p).state = .pending → (s.pod p).record.chan ≠ c) →
    (∀ r e, e ∈ s.watchList r → e.chan = c → e.kind.feed? = none) → (∀ pt, pt ∈ (s.chan c).queue → pt.kind.feed? = none) →
    (s.ring f).shadow.kind = .feed →
    ((byteAt mb 4).getLsbD 7 = false → (s.watchList (s.netRing c)).length < 16 →
      exec (.feedStart mb) s =
        .next (answered 5 mb .accepted ((s.carried 0x3040 mb).setWatch (s.netRing c)
          (s.watchList (s.netRing c) ++
            [if (byteAt mb 4).getLsbD 6 then
              { kind := .feedIn f, chan := c, target := .atTick (timeField mb 6), pcrBase := none, markSeq := none }
             else { kind := .feedIn f, chan := c, target := .immediate, pcrBase := (s.ring (s.netRing c)).pcrBase, markSeq := none }])))) ∧
    ((byteAt mb 4).getLsbD 7 = true → (byteAt mb 4).getLsbD 6 = true → ticksAfter (timeField mb 11) (timeField mb 6) = true →
      (s.watchList (s.netRing c)).length < 15 →
      exec (.feedStart mb) s =
        .next (answered 5 mb .accepted ((s.carried 0x3040 mb).setWatch (s.netRing c)
          (s.watchList (s.netRing c) ++
            [{ kind := .feedIn f, chan := c, target := .atTick (timeField mb 6), pcrBase := none, markSeq := none },
             { kind := .feedOut f, chan := c, target := .atTick (timeField mb 11), pcrBase := none, markSeq := none }]))))

/-- FEED_STOP (R123): before the FEED_IN is applied it withdraws the feed targets; in FEED it arms an immediate FEED_OUT; with neither it is
answered STATE. -/
def Obligations.FeedStopActs : Prop :=
  ∀ (s : State) (mb : List Byte) (c : ChanNo), ControlClear s 0x3050 16 → mb.length = 16 → (byteAt mb 4).toNat = c.val →
    ((∃ r e f, e ∈ s.watchList r ∧ e.chan = c ∧ e.kind = .feedIn f) →
      exec (.feedStop mb) s = .next (answered 6 mb .accepted (dropFeedTargets c (s.carried 0x3050 mb)))) ∧
    ((∀ r e, e ∈ s.watchList r → e.chan = c → e.kind.feed? = none) → (∀ pt, pt ∈ (s.chan c).queue → pt.kind.feed? = none) →
      (∀ fd, (s.chan c).state = .feed → (s.chan c).feed = some fd → (s.watchList (s.netRing c)).length < 16 →
        exec (.feedStop mb) s =
          .next (answered 6 mb .accepted ((s.carried 0x3050 mb).setWatch (s.netRing c)
            (s.watchList (s.netRing c) ++
              [{ kind := .feedOut fd.ring, chan := c, target := .immediate, pcrBase := (s.ring (s.netRing c)).pcrBase,
                 markSeq := none }])))) ∧
      ((s.chan c).state = .network → exec (.feedStop mb) s = .next (answered 6 mb .state (s.carried 0x3050 mb))))

/-- ALERT_ENGAGE (R138, R143): with COMMAND engaged nothing happens; with its clip absent or INVALID it is answered STATE and sets ALERT; in IDLE
it starts an episode: COMMAND is engaged and plays, the timer starts at 0, ALERT_START is recorded, ALERT is set, and each enabled channel
that participates is given an engage mark. -/
def Obligations.AlertEngaged : Prop :=
  ∀ (s : State) (mb : List Byte), ControlClear s 0x3060 16 → mb.length = 16 →
    (hasSource s.alert.engaged .command = true → exec (.alertEngage mb) s = .next (answered 7 mb .accepted (s.carried 0x3060 mb))) ∧
    (hasSource s.alert.engaged .command = false → s.sourceClip .command = none →
      exec (.alertEngage mb) s = .next (answered 7 mb .state (setFlag .alert (s.carried 0x3060 mb)))) ∧
    ∀ n, s.alert.engaged = 0 → s.alert.state = .idle → s.sourceClip .command = some n →
      ∃ t, exec (.alertEngage mb) s = .next t ∧
        t.alert = { s.alert with state := .active, engaged := 4, episode := 4, playing := some .command, timer := 0 } ∧
        t.asRun = s.asRun.push { kind := .alertStart, sources := some 4 } ∧ hasFlag .alert t = true ∧
        t.lastCommand = some { tag := some (mailboxTag mb), mailbox := 7, result := .accepted } ∧
        (∀ c, t.chan c =
          if (s.chan c).state ≠ .off ∧ setHas s.alert.effective c = true then
            { s.chan c with mark := if (s.chan c).state = .alert then .source else .engage }
          else s.chan c) ∧
        t.rings = s.rings ∧ t.pods = s.pods ∧ t.clips = s.clips ∧ t.watch = s.watch ∧ t.cueQueue = s.cueQueue

/-- ALERT_END (R139, R140, R143): in IDLE it is answered STATE; during an episode with nothing to release (HOLD among these) it changes nothing else. Where it
releases one source, COMMAND or unless protected a LATCH line's: with others still engaged the highest of them plays; with none and the timer below the
minimum hold the state becomes HOLD; at or above it the episode ends: the state is IDLE, ALERT_END is recorded with reason RELEASED, and each channel in ALERT or
with an engage mark is given a restore mark. The minimum hold is the one the shadow holds at the release, also between a taken record that
changes it and the next advance, of which R134 speaks otherwise: that is the model's reading (log 38). The release of several sources by one ALERT_END is left out. -/
def Obligations.AlertEnded : Prop :=
  ∀ (s : State) (mb : List Byte), ControlClear s 0x3070 16 → mb.length = 16 →
    (s.alert.state = .idle → exec (.alertEnd mb) s = .next (answered 8 mb .state (s.carried 0x3070 mb))) ∧
    (s.alert.state ≠ .idle → (∀ x, hasSource s.alert.engaged x = true → ¬ s.EndReleases x) →
      exec (.alertEnd mb) s = .next (answered 8 mb .accepted (s.carried 0x3070 mb))) ∧
    ∀ x, s.alert.state ≠ .idle → hasSource s.alert.engaged x = true → s.EndReleases x →
      (∀ y, y ≠ x → hasSource s.alert.engaged y = true → ¬ s.EndReleases y) →
      (dropSource s.alert.engaged x ≠ 0 →
        ∃ t, exec (.alertEnd mb) s = .next (answered 8 mb .accepted t) ∧
          ({ s.carried 0x3070 mb with alert := { s.alert with engaged := dropSource s.alert.engaged x } } : State).PlaysHighest t) ∧
      (dropSource s.alert.engaged x = 0 → s.alert.timer.toNat < s.alert.record.hold →
        exec (.alertEnd mb) s =
          .next (answered 8 mb .accepted { s.carried 0x3070 mb with alert := { s.alert with state := .hold, engaged := 0 } })) ∧
      (dropSource s.alert.engaged x = 0 → s.alert.record.hold ≤ s.alert.timer.toNat →
        ∃ t, exec (.alertEnd mb) s = .next t ∧
          t.alert = { s.alert with state := .idle, engaged := 0, playing := none } ∧
          t.asRun = s.asRun.push { kind := .alertEnd, reason := some .released, episodeMs := some s.alert.timer,
                                   sources := some s.alert.episode } ∧
          t.lastCommand = some { tag := some (mailboxTag mb), mailbox := 8, result := .accepted } ∧
          (∀ c, t.chan c =
            if (s.chan c).state = .alert then { s.chan c with mark := .restore }
            else if (s.chan c).mark = .engage then { s.chan c with mark := .none }
            else s.chan c) ∧
          t.rings = s.rings ∧ t.pods = s.pods ∧ t.clips = s.clips ∧ t.watch = s.watch ∧ t.cueQueue = s.cueQueue)

/-- LOCKDOWN (R144, R153): every channel of its set joins the lock-down set, those in it stay, and during an episode each enabled channel that joins
the effective participation is given an engage mark. -/
def Obligations.LockdownAdds : Prop :=
  ∀ (s : State) (mb : List Byte) (set : ChanSet), ControlClear s 0x3080 16 → mb.length = 16 → set = BitVec.ofNat 32 (fieldNat mb 4 4) →
    ∃ t, exec (.lockdown mb) s = .next t ∧
      t = { s.carried 0x3080 mb with
            alert := { s.alert with lockdown := s.alert.lockdown ||| set }, channels := t.channels,
            lastCommand := some { tag := some (mailboxTag mb), mailbox := 9, result := .accepted } } ∧
      ∀ c, t.chan c =
        if s.alert.state ≠ .idle ∧ (s.chan c).state ≠ .off ∧ setHas set c = true ∧ setHas s.alert.effective c = false then
          { s.chan c with mark := if (s.chan c).state = .alert then .source else .engage }
        else s.chan c

/-- SOFT_RESET (R8, R166, R167): refused PROTECTED while the splicer is protected in an episode; otherwise everything takes its reset value but the
lock-down set, the sampled PROT_N level and the base, requests on the bus complete without rewriting, and the last command shows it. The record fields
no chapter gives a value are the model's choice (log 10); the queue and the count of status reads are the model's own (log 24). -/
def Obligations.SoftReset : Prop :=
  ∀ (s : State) (mb : List Byte), ControlClear s 0x3090 16 → mb.length = 16 →
    (s.alert.isProtected = true ∧ s.alert.state ≠ .idle →
      exec (.softReset mb) s = .next (answered 10 mb .isProtected (s.carried 0x3090 mb))) ∧
    (s.alert.isProtected = false ∨ s.alert.state = .idle →
      exec (.softReset mb) s =
        .next { State.reset with
          straps := s.straps, abandoned := s.abandoned, upOut := [], downOut := [s.regionWrite 0x3090 mb],
          outstanding := (s.outstanding ++ [Outstanding.forwarded (s.regionWrite 0x3090 mb) .plain]).map fun o =>
            match o with
            | Outstanding.forwarded r _ => Outstanding.forwarded r .plain
            | Outstanding.status a => Outstanding.status a
          alert := { State.reset.alert with lockdown := s.alert.lockdown, protHigh := s.alert.protHigh },
          lastCommand := some { tag := some (mailboxTag mb), mailbox := 10, result := .accepted },
          pending := s.pending, freeCount := s.freeCount })

/-! ### The writable words -/

/-- The words for flags, enables and counters (R169, R170): FLAG_CLEAR clears the flags whose bits are 1, FLAG_ENABLES replaces the enables, COUNTER_CLEAR
puts every counter of the splicer at 0, and nothing else changes. Bits 9 to 15 of the first two have no storage (log 21). -/
def Obligations.WordWrites : Prop :=
  ∀ (s : State) (word : List Byte), word.length = 8 →
    (ControlClear s 0x100 8 →
      exec (.flagClear word) s =
        .next { s.carried 0x100 word with flags := s.flags &&& ~~~ (BitVec.ofNat 9 (fieldNat word 0 2)) }) ∧
    (ControlClear s 0x108 8 →
      exec (.flagEnables word) s = .next { s.carried 0x108 word with enables := BitVec.ofNat 9 (fieldNat word 0 2) }) ∧
    (ControlClear s 0x110 8 →
      ∃ t, exec (.counterClear word) s = .next t ∧
        t = { s.carried 0x110 word with cueCounters := {}, asRun := { s.asRun with lost := 0 }, rings := t.rings, channels := t.channels } ∧
        (∀ r, t.ring r = { s.ring r with syncLoss := 0, order := 0 }) ∧
        ∀ c, t.chan c = { s.chan c with late := 0, underrun := 0, lostFeed := 0 })

/-- The consume index (R158): an advance of at most the number held moves it, a greater one gives back every record held. -/
def Obligations.ConsumeIndexMoves : Prop :=
  ∀ (s : State) (word : List Byte), ControlClear s 0x118 8 → word.length = 8 →
    ((byteAt word 0 - s.asRun.consume).toNat ≤ s.asRun.held →
      exec (.consumeIndex word) s = .next { s.carried 0x118 word with asRun := { s.asRun with consume := byteAt word 0 } }) ∧
    (s.asRun.held < (byteAt word 0 - s.asRun.consume).toNat →
      exec (.consumeIndex word) s = .next { s.carried 0x118 word with asRun := { s.asRun with consume := s.asRun.producer } })

/-! ### Records -/

/-- A ring record (R5, R6, R7): refused INVALID or IN_USE with nothing else changed; taken with a change of kind, base or slot count it restarts the ring,
every slot UNWRITTEN and the two counters kept, and no queue entry of the ring remains. -/
def Obligations.RingRecordWritten : Prop :=
  ∀ (s : State) (k : RingNo) (record : List Byte), ControlClear s (0x4000 + 32 * k.val) 32 → record.length = 32 →
    (parseRing record = none →
      exec (.ringRecordWrite k record) s =
        .next (refuse (s.regionAddr (0x4000 + 32 * k.val)) .invalid (s.carried (0x4000 + 32 * k.val) record))) ∧
    ∀ new, parseRing record = some new →
      (s.ringOk k new = false →
        exec (.ringRecordWrite k record) s =
          .next (refuse (s.regionAddr (0x4000 + 32 * k.val)) .invalid (s.carried (0x4000 + 32 * k.val) record))) ∧
      (s.ringOk k new = true → s.ringInUse k new = true →
        exec (.ringRecordWrite k record) s =
          .next (refuse (s.regionAddr (0x4000 + 32 * k.val)) .inUse (s.carried (0x4000 + 32 * k.val) record))) ∧
      (s.ringOk k new = true → s.ringInUse k new = false → (s.ring k).shadow.moved new = true →
        ∃ t, exec (.ringRecordWrite k record) s = .next t ∧
          t.ring k =
            { shadow := new, writeCount := 0, lastSlot := none, mark := none, pcrBase := none, assembler := .idle,
              classes := if new.kind = .unused then [] else List.replicate new.slotCount.toNat .unwritten,
              syncLoss := (s.ring k).syncLoss, order := (s.ring k).order } ∧
          (∀ j, j ≠ k → t.ring j = s.ring j) ∧ t.cueQueue = s.cueQueue.filter (fun e => e.ring != k) ∧
          t.pods = s.pods ∧ t.clips = s.clips ∧ t.watch = s.watch ∧ t.alert = s.alert)

/-- A channel record that enables a channel in OFF outside an episode (R14, R119): the record is in force, the channel is in NETWORK with a fresh time state and a CC
table keyed by its network ring's component PIDs, and rings, clips, the alert state and the other channels but for their queues stay. The bit of a new pass is
log 14, the order of the table log 36. -/
def Obligations.ChannelEnabled : Prop :=
  ∀ (s : State) (c : ChanNo) (record : List Byte) (rec : ChannelRecord), ControlClear s (0x5000 + 32 * c.val) 32 → record.length = 32 →
    rec = parseChannel record → (s.chan c).state = .off → rec.enable = true → s.windowOk c rec = true → s.alert.state = .idle →
    ∃ t, exec (.channelRecordWrite c record) s = .next t ∧
      t.chan c =
        { s.chan c with
          state := .network, inForce := rec, queue := [], playing := none, pos := none, wrapDue := false, markReq := false, d90 := 0,
          s := 0, pendingIn := none, runTarget := none, spotTarget := none, lastOut := {},
          cc := (s.ring rec.netRing).shadow.comps.keys.map fun p => { pid := p, cc := none, mark := false } } ∧
      (∀ d, d ≠ c → t.chan d = { s.chan d with queue := (t.chan d).queue }) ∧
      t.rings = s.rings ∧ t.clips = s.clips ∧ t.alert = s.alert

/-- A channel record whose condition does not hold is staged, in place of a copy held before (R118); one that would disable a locked-down channel is
refused PROTECTED (R153). Nothing else changes. A staged copy is applied at the end of the event that makes its condition hold (R119, R120): here the POD_REVOKE of
the channel's one started pod, after which the copy is in force, or is refused INVALID or PROTECTED and discarded, or takes the channel to OFF. The bit of
a new pass is log 14. -/
def Obligations.ChannelStagedOrRefused : Prop :=
  (∀ (s : State) (c : ChanNo) (record : List Byte), ControlStaged s (0x5000 + 32 * c.val) 32 → record.length = 32 →
    (s.Stages c →
      exec (.channelRecordWrite c record) s =
        .next ((s.carried (0x5000 + 32 * c.val) record).setChan c { s.chan c with staged := some (parseChannel record) })) ∧
    ((s.chan c).state = .network → s.hasStartedPod c = false → setHas s.alert.lockdown c = true → (parseChannel record).enable = false →
      exec (.channelRecordWrite c record) s =
        .next (refuse (s.regionAddr (0x5000 + 32 * c.val)) .isProtected (s.carried (0x5000 + 32 * c.val) record)))) ∧
  ∀ (s w : State) (mb : List Byte) (c : ChanNo) (p : PodNo) (new : ChannelRecord), s.rstLow = false →
    s.OffRings (s.regionBase + 0x3030) 16 → mb.length = 16 → (byteAt mb 4).toNat = p.val → (s.pod p).state = .pending →
    (s.pod p).record.chan = c → (s.chan c).state = .network → (s.chan c).staged = some new → (∀ d, d ≠ c → (s.chan d).staged = none) →
    (∀ q, q ≠ p → (s.pod q).record.chan = c → (s.pod q).state = .empty ∨ (s.pod q).state = .ready) → s.cueQueue = [] →
    w = answered 4 mb .accepted (closePod p .revoked {} (s.carried 0x3030 mb)) →
    (new.enable = true → s.windowOk c new = true → new.ring = (s.chan c).inForce.ring →
      exec (.podRevoke mb) s = .next (w.setChan c { w.chan c with staged := none, inForce := new })) ∧
    (new.enable = true → s.windowOk c new = false →
      exec (.podRevoke mb) s =
        .next (refuse (s.regionAddr (0x5000 + 32 * c.val)) .invalid (w.setChan c { w.chan c with staged := none }))) ∧
    (new.enable = false → setHas s.alert.lockdown c = true →
      exec (.podRevoke mb) s =
        .next (refuse (s.regionAddr (0x5000 + 32 * c.val)) .isProtected (w.setChan c { w.chan c with staged := none }))) ∧
    (new.enable = false → setHas s.alert.lockdown c = false →
      ∃ t, exec (.podRevoke mb) s = .next t ∧
        t.chan c =
          { s.chan c with
            state := .off, inForce := new, staged := none, queue := [], playing := none, pos := none, wrapDue := false, markReq := false,
            pendingIn := none, cc := [], mark := .none } ∧
        (∀ d, d ≠ c → t.chan d = s.chan d) ∧ t.pods = w.pods ∧ t.asRun = w.asRun ∧ t.lastCommand = w.lastCommand ∧
        ∀ r, t.watchList r = (s.watchList r).filter fun x => !(x.chan == c) && !(x.kind.pod? == some p))

/-- An alert record (R134): refused PROTECTED while the splicer is protected; taken whole in IDLE with no source engaged. -/
def Obligations.AlertRecordWritten : Prop :=
  ∀ (s : State) (record : List Byte), ControlClear s 0x6000 64 → record.length = 64 →
    (s.alert.isProtected = true →
      exec (.alertRecordWrite record) s = .next (refuse (s.regionAddr 0x6000) .isProtected (s.carried 0x6000 record))) ∧
    (s.alert.isProtected = false → s.alert.state = .idle → s.alert.engaged = 0 →
      exec (.alertRecordWrite record) s =
        .next { s.carried 0x6000 record with alert := { s.alert with record := parseAlert record } })

/-- A pod record write for a pod in EMPTY, by its load flag (R71), and for a pod in BOUND, PENDING, AIRING or SUSPENDED (R73). -/
def Obligations.PodRecordWritten : Prop :=
  ∀ (s : State) (p : PodNo) (record : List Byte), ControlClear s (0x7000 + 64 * p.val) 64 → record.length = 64 →
    ((s.pod p).state ≠ .empty → (s.pod p).state ≠ .ready →
      exec (.podRecordWrite p record) s =
        .next (refuse (s.regionAddr (0x7000 + 64 * p.val)) .inUse (s.carried (0x7000 + 64 * p.val) record))) ∧
    ((s.pod p).state = .empty → bitAt record 0 0 = false →
      exec (.podRecordWrite p record) s = .next (s.carried (0x7000 + 64 * p.val) record)) ∧
    ((s.pod p).state = .empty → bitAt record 0 0 = true →
      (∀ rec, parsePod record = some rec → s.clipsValid rec = false) →
      exec (.podRecordWrite p record) s =
        .next (refuse (s.regionAddr (0x7000 + 64 * p.val)) .invalid (s.carried (0x7000 + 64 * p.val) record))) ∧
    ∀ rec, (s.pod p).state = .empty → bitAt record 0 0 = true → parsePod record = some rec → s.clipsValid rec = true →
      exec (.podRecordWrite p record) s =
        .next (tryQueue p (((s.carried (0x7000 + 64 * p.val) record).setPod p
          { record := rec, state := .ready, binding := none, anchor := none, spotInfo := Vector.replicate 8 {}, fillerTotal := 0 }).setReady
            rec.chan (s.readyList rec.chan ++ [p])))

/-- A clip record (R66, R67): refused IN_USE for a clip in use; otherwise the shadow takes it, and a record that is not valid is refused INVALID besides. -/
def Obligations.ClipRecordWritten : Prop :=
  ∀ (s : State) (n : ClipNo) (record : List Byte), ControlClear s (0x8000 + 32 * n.val) 32 → record.length = 32 →
    (s.clipInUse n = true →
      exec (.clipRecordWrite n record) s =
        .next (refuse (s.regionAddr (0x8000 + 32 * n.val)) .inUse (s.carried (0x8000 + 32 * n.val) record))) ∧
    (s.clipInUse n = false → (parseClip record).valid = false →
      exec (.clipRecordWrite n record) s =
        .next (refuse (s.regionAddr (0x8000 + 32 * n.val)) .invalid
          ((s.carried (0x8000 + 32 * n.val) record).setClip n (parseClip record)))) ∧
    (s.clipInUse n = false → (parseClip record).valid = true →
      (∀ p, (s.pod p).state = .ready → (s.pod p).record.lists n = false) →
      exec (.clipRecordWrite n record) s = .next ((s.carried (0x8000 + 32 * n.val) record).setClip n (parseClip record)))

/-- Writes that are not whole (R161, R163, R169): one that touches a record area is refused PARTIAL with its own address; one that touches the mailbox area
leaves MALFORMED for the lowest mailbox touched, with no tag; one that touches writable words and covers none of them enabled is refused PARTIAL. That a write
touches an area is judged by its address range, and no enabled byte is asked for: that is the model's reading (log 18). Left out are a write that touches
two of the three kinds of area, or covers one writable word and touches another. -/
def Obligations.PartialWritesRefused : Prop :=
  ∀ (s : State) (w : WriteReq) (off : Nat), ControlClear s off w.bytes.length → w.addr.toNat = s.regionBase + off → off < 0x10000 →
    lengthOk w.bytes.length = true →
    (0x30A0 ≤ off → s.recordAreaMeets w = true → (writeFull w = false ∨ recordAt off w.bytes.length = none) →
      exec (.recordWritePartial w) s = .next (refuse w.addr .partialWrite (s.carry (.write w)))) ∧
    (∀ n, 1 ≤ n → n ≤ 10 → 0x120 ≤ off → off + w.bytes.length ≤ 0x4000 →
      off < 0x3000 + 16 * n → 0x3000 + 16 * (n - 1) < off + w.bytes.length → (n = 1 ∨ 0x3000 + 16 * (n - 1) ≤ off) →
      (writeFull w = false ∨ w.bytes.length ≠ 16 ∨ off % 16 ≠ 0) →
      exec (.mailboxMalformedWrite w) s =
        .next { s.carry (.write w) with
          lastCommand := some { tag := none, mailbox := n, result := .malformed }, flags := s.flags ||| flagMask .command }) ∧
    (∀ x, off + w.bytes.length ≤ 0x3000 → off < wordOffset x + 8 → wordOffset x < off + w.bytes.length →
      (∀ y, off ≤ wordOffset y → wordOffset y + 8 ≤ off + w.bytes.length →
        ((w.bytes.drop (wordOffset y - off)).take 8).all (·.2) = false) →
      exec (.statusWordPartialWrite w) s = .next (refuse w.addr .partialWrite (s.carry (.write w))))

/-- A write to the rest of the control region reaches memory and is not taken (R160, R169). -/
def Obligations.ControlRegionOther : Prop :=
  ∀ (s : State) (w : WriteReq) (off : Nat), ControlClear s off w.bytes.length → w.addr.toNat = s.regionBase + off → off < 0x10000 →
    lengthOk w.bytes.length = true →
    (off + w.bytes.length ≤ 0x100 ∨ 0x120 ≤ off) → (off + w.bytes.length ≤ 0x3000 ∨ 0x30A0 ≤ off) → s.recordAreaMeets w = false →
    exec (.controlRegionOtherWrite w) s = .next (s.carry (.write w))

/-! ### Window reads -/

/-- A read in NETWORK or RESUME_WAIT with no mark and no point due (R15, R16, R99, R105, R111): it goes to the slot of the network ring, takes a held mark
request, and nothing else changes. -/
def Obligations.NetworkRead : Prop :=
  ∀ (s : State) (c : ChanNo) (k : Nat) (addr : Addr), ReadAt s c k addr → (s.chan c).mark = .none →
    (s.chan c).state = .network ∨ (s.chan c).state = .resumeWait →
    exec (.windowFullCellRead addr) s =
      .next (sendRead
        { chan := c, serving := if ((s.ring (s.netRing c)).seqOf k).isNone then .untouched else .network,
          markReq := (s.chan c).markReq, resume := none }
        ((s.ring (s.netRing c)).shadow.slotAddr k) (s.quiet.setChan c { s.chan c with markReq := false }))

/-- A read in INSERT within a spot, its slot neither PSI nor unwritten (R106, R113): it is redirected to the clip's next cell and the position
advances; the first cell of a spot begins it, with its start stamp kept (log 15). Nothing else changes; the bit of a new pass is log 14. -/
def Obligations.InsertRead : Prop :=
  ∀ (s : State) (c : ChanNo) (k : Nat) (addr : Addr) (p : PodNo) (i : SpotNo) (cell : Nat) (n : ClipNo) (q : SeqNo),
    ReadAt s c k addr → (s.chan c).mark = .none → (s.chan c).state = .insert → (s.chan c).playing = some p →
    (s.chan c).pos = some (.spot i cell) → n = (s.pod p).record.clipOf i.val → (s.ring (s.netRing c)).seqOf k = some q →
    (s.ring (s.netRing c)).classOf k ≠ .psi → cell + 1 < (s.clip n).cellCount.toNat →
    exec (.windowFullCellRead addr) s =
      .next (sendRead
        { chan := c, serving := .source (s.clip n).comps false (s.chan c).pendingIn none, markReq := (s.chan c).markReq, resume := none }
        ((s.clip n).cellAddr cell)
        ((if cell = 0 ∧ ((s.pod p).spotInfo.get i).fate = .unstarted then
            s.quiet.setPod p { s.pod p with
              spotInfo := ((s.pod p).spotInfo.set i.val
                { (s.pod p).spotInfo.get i with fate := .playing, startSeq := some q, startStamp := (s.chan c).spotTarget }) }
          else s.quiet).setChan c
          { s.chan c with pendingIn := none, markReq := false, wrapDue := false, pos := some (.spot i (cell + 1)) }))

/-- The last cell of a spot. Of a spot that is not the pod's last (R45, R113, R116): SPOT_AIRED is recorded with every cell delivered, the spot's fate is
RECORDED, and the next spot's switch-in is pending, its target one clip duration after the spot's. Of the pod's last spot (R114): no record is made and the fate
stays, and with a filler its switch-in is pending in the same way from its first cell, with none the phase is EXHAUSTED (its cell index is log 28). A clip of one cell
begins and ends its spot at one read, with its start stamp kept (log 15). Nothing else changes; the bit of a new pass is log 14. -/
def Obligations.SpotEnds : Prop :=
  ∀ (s u : State) (c : ChanNo) (k : Nat) (addr : Addr) (p : PodNo) (i : SpotNo) (cell : Nat) (n : ClipNo) (q : SeqNo) (target : Stamp),
    ReadAt s c k addr → (s.chan c).mark = .none → (s.chan c).state = .insert → (s.chan c).playing = some p →
    (s.chan c).pos = some (.spot i cell) → n = (s.pod p).record.clipOf i.val → (s.ring (s.netRing c)).seqOf k = some q →
    (s.ring (s.netRing c)).classOf k ≠ .psi → cell + 1 = (s.clip n).cellCount.toNat → (s.chan c).spotTarget = some target →
    u = (if cell = 0 ∧ ((s.pod p).spotInfo.get i).fate = .unstarted then
        s.quiet.setPod p { s.pod p with
          spotInfo := ((s.pod p).spotInfo.set i.val
            { (s.pod p).spotInfo.get i with fate := .playing, startSeq := some q, startStamp := some target }) }
      else s.quiet) →
    (∀ j m, j.val = i.val + 1 → j.val < (s.pod p).record.spots.length → m = (s.pod p).record.clipOf j.val →
      exec (.windowFullCellRead addr) s =
        .next (sendRead
          { chan := c, serving := .source (s.clip n).comps false (s.chan c).pendingIn none, markReq := (s.chan c).markReq, resume := none }
          ((s.clip n).cellAddr cell)
          (setFlag .asrun { (u.setPod p { u.pod p with
              spotInfo := ((u.pod p).spotInfo.set i.val { (u.pod p).spotInfo.get i with fate := .recorded }) }).setChan c
              { s.chan c with
                pos := some (.spot j 0), wrapDue := false, markReq := true, spotTarget := some (target + inCounts (s.clip n).duration),
                pendingIn := some { place := some (s.slotStart p j.val, target + inCounts (s.clip n).duration), ref := (s.clip m).firstPts,
                                    origin := none } } with
            asRun := s.asRun.push (u.playedRecord p i .spotAired (s.clip n).cellCount.toNat {}) }))) ∧
    ((s.pod p).record.spots.length = i.val + 1 →
      (∀ m, (s.pod p).record.filler = some m →
        exec (.windowFullCellRead addr) s =
          .next (sendRead
            { chan := c, serving := .source (s.clip n).comps false (s.chan c).pendingIn none, markReq := (s.chan c).markReq, resume := none }
            ((s.clip n).cellAddr cell)
            (u.setChan c
              { s.chan c with
                pos := some (.filler 0), wrapDue := false, markReq := true, spotTarget := some (target + inCounts (s.clip n).duration),
                pendingIn := some { place := some (s.slotStart p (i.val + 1), target + inCounts (s.clip n).duration),
                                    ref := (s.clip m).firstPts, origin := none } }))) ∧
      ((s.pod p).record.filler = none →
        exec (.windowFullCellRead addr) s =
          .next (sendRead
            { chan := c, serving := .source (s.clip n).comps false (s.chan c).pendingIn none, markReq := (s.chan c).markReq, resume := none }
            ((s.clip n).cellAddr cell)
            (u.setChan c
              { s.chan c with
                pos := some (.exhausted (s.clip n).cellCount.toNat), wrapDue := false, markReq := false, pendingIn := none }))))

/-- An OUT point that falls due in NETWORK for a PENDING pod (R100, R102, R113, R116): the channel is in INSERT on the pod's first spot, the read is redirected
to that spot's first cell with the point's switch-in and a mark request, and the spot begins, with its start stamp kept (log 15). -/
def Obligations.OutPointApplied : Prop :=
  ∀ (s : State) (c : ChanNo) (k : Nat) (addr : Addr) (p : PodNo) (pt : SwitchPoint) (n : ClipNo) (q : SeqNo),
    s.rstLow = false → s.NoStaged → s.AtWindow c k addr → (s.chan c).mark = .none → (s.chan c).state = .network →
    (s.chan c).queue = [pt] → pt.kind = .out p → (s.pod p).state = .pending → ((s.pod p).spotInfo.get 0).fate = .unstarted →
    (s.ring (s.netRing c)).seqOf k = some q → seqAtOrAfter q pt.seq = true → (s.ring (s.netRing c)).classOf k ≠ .psi →
    n = (s.pod p).record.clipOf 0 → 1 < (s.clip n).cellCount.toNat →
    ∃ t, exec (.windowFullCellRead addr) s = .next t ∧ t.downOut = [.read ((s.clip n).cellAddr 0) 192] ∧
      t.outstanding = s.outstanding ++
        [.forwarded (.read ((s.clip n).cellAddr 0) 192)
          (.window { chan := c, markReq := true, resume := none
                     serving := .source (s.clip n).comps false
                       (some { place := some (pt.anchor, pt.stamp), ref := (s.clip n).firstPts, origin := none }) none })] ∧
      (t.chan c).state = .insert ∧ (t.chan c).playing = some p ∧ (t.chan c).pos = some (.spot 0 1) ∧ (t.chan c).queue = [] ∧
      (t.pod p).state = .airing ∧ (t.pod p).anchor = some (pt.anchor, 0) ∧
      (t.pod p).spotInfo.get 0 =
        { fate := .playing, startSeq := some q, startStamp := some pt.stamp, late := q != pt.seq, unaligned := !pt.aligned } ∧
      (t.chan c).late = (if q = pt.seq then (s.chan c).late else counterAdd (s.chan c).late 1) ∧
      t.flags = (if q = pt.seq then s.flags else s.flags ||| flagMask .late) ∧
      t.asRun = s.asRun ∧ t.rings = s.rings ∧ t.watch = s.watch ∧ ∀ d, d ≠ c → t.chan d = s.chan d

/-- A RETURN point of the playing pod, whose one spot is in progress (R100, R103, R155): the spot is recorded SPOT_TRUNCATED, the pod is closed, the channel is
in NETWORK, and the read is a network read with a mark request. -/
def Obligations.ReturnPointApplied : Prop :=
  ∀ (s : State) (c : ChanNo) (k : Nat) (addr : Addr) (p : PodNo) (pt : SwitchPoint) (a : Ticks) (cell : Nat) (q : SeqNo),
    s.rstLow = false → s.NoStaged → s.AtWindow c k addr → (s.chan c).mark = .none → (s.chan c).state = .insert →
    (s.chan c).playing = some p → (s.chan c).pos = some (.spot 0 cell) → (s.pod p).record.spots.length = 1 →
    ((s.pod p).spotInfo.get 0).fate = .playing → (s.pod p).anchor = some (a, 0) → (s.pod p).record.chan = c →
    (s.chan c).queue = [pt] → pt.kind = .ret p → (s.ring (s.netRing c)).seqOf k = some q → seqAtOrAfter q pt.seq = true →
    ∃ t, exec (.windowFullCellRead addr) s = .next t ∧
      t.downOut = [.read ((s.ring (s.netRing c)).shadow.slotAddr k) 192] ∧
      t.outstanding = s.outstanding ++
        [.forwarded (.read ((s.ring (s.netRing c)).shadow.slotAddr k) 192)
          (.window { chan := c, serving := .network, markReq := true, resume := none })] ∧
      (t.chan c).state = .network ∧ (t.chan c).playing = none ∧ (t.chan c).pos = none ∧ (t.chan c).pendingIn = none ∧
      (t.chan c).queue = [] ∧ (t.pod p).state = .empty ∧ (t.pod p).binding = none ∧
      t.asRun = s.asRun.push (s.playedRecord p 0 .spotTruncated cell { late := q != pt.seq, unaligned := !pt.aligned }) ∧
      t.rings = s.rings ∧ ∀ d, d ≠ c → t.chan d = s.chan d

/-- A read in FEED, its slot neither PSI nor unwritten (R126 to R128): the cell of fs is read and fs advances. With fs not yet written a null cell is served and the
underrun counted. With fs overrun it first jumps to the feed's start mark, or to its newest cell, the jump counted as lost, FEED set and a mark request
attached. The bit of a new pass is log 14. -/
def Obligations.FeedRead : Prop :=
  ∀ (s : State) (c : ChanNo) (k : Nat) (addr : Addr) (fd : FeedState) (f : Ring) (q : SeqNo),
    ReadAt s c k addr → (s.chan c).mark = .none → (s.chan c).state = .feed → (s.chan c).feed = some fd → f = s.ring fd.ring →
    (s.ring (s.netRing c)).seqOf k = some q → (s.ring (s.netRing c)).classOf k ≠ .psi →
    (seqBefore fd.fs f.writeCount = true → (f.writeCount - fd.fs).toNat < f.shadow.slotCount.toNat →
      exec (.windowFullCellRead addr) s =
        .next (sendRead
          { chan := c, serving := .source f.shadow.comps (f.classOf (f.slotOfSeq fd.fs) == .psi) (s.chan c).pendingIn none,
            markReq := (s.chan c).markReq, resume := none }
          (f.shadow.slotAddr (f.slotOfSeq fd.fs))
          (s.quiet.setChan c
            { s.chan c with
              pendingIn := none, markReq := false, wrapDue := false
              feed := some { fd with fs := fd.fs + 1, run := { fd.run with delivered := heldInc fd.run.delivered } } }))) ∧
    (∀ fs, seqBefore fd.fs f.writeCount = true → f.shadow.slotCount.toNat ≤ (f.writeCount - fd.fs).toNat →
      ((∃ m, f.mark = some m ∧ (f.writeCount - m.seq).toNat < f.shadow.slotCount.toNat ∧ fs = m.seq) ∨
        (∀ m, f.mark = some m → f.shadow.slotCount.toNat ≤ (f.writeCount - m.seq).toNat) ∧ fs = f.writeCount - 1) →
      exec (.windowFullCellRead addr) s =
        .next (sendRead
          { chan := c, serving := .source f.shadow.comps (f.classOf (f.slotOfSeq fs) == .psi) (s.chan c).pendingIn none,
            markReq := true, resume := none }
          (f.shadow.slotAddr (f.slotOfSeq fs))
          (setFlag .feed (s.quiet.setChan c
            { s.chan c with
              pendingIn := none, markReq := false, wrapDue := false
              lostFeed := counterAdd (s.chan c).lostFeed (fs - fd.fs).toNat
              feed := some { fd with fs := fs + 1, run := { fd.run with delivered := heldInc fd.run.delivered } } })))) ∧
    (seqBefore fd.fs f.writeCount = false →
      exec (.windowFullCellRead addr) s =
        .next (sendRead { chan := c, serving := .nullSlot, markReq := false, resume := none }
          ((s.ring (s.netRing c)).shadow.slotAddr k)
          (setFlag .feed (s.quiet.setChan c
            { s.chan c with
              feed := some { fd with run := { fd.run with underrun := heldInc fd.run.underrun } }
              underrun := counterAdd (s.chan c).underrun 1 }))))

/-- An ENGAGE mark taken in NETWORK (R146, R147): NETWORK is saved, the channel plays the playing source's clip from its first cell with a switch-in by
estimate and a mark request, and nothing else changes. That the position is absent in ALERT is log 13, the bit of a new pass log 14. -/
def Obligations.EngageMarkTaken : Prop :=
  ∀ (s : State) (c : ChanNo) (k : Nat) (addr : Addr) (x : Source) (n : ClipNo) (q : SeqNo),
    ReadAt s c k addr → (s.chan c).mark = .engage → (s.chan c).state = .network → s.alert.playing = some x →
    s.alert.record.clipOf x = some n → (s.ring (s.netRing c)).seqOf k = some q → (s.ring (s.netRing c)).classOf k ≠ .psi →
    1 < (s.clip n).cellCount.toNat →
    exec (.windowFullCellRead addr) s =
      .next (sendRead
        { chan := c, markReq := true, resume := none
          serving := .source (s.clip n).comps false (some { place := none, ref := (s.clip n).firstPts, origin := none }) none }
        ((s.clip n).cellAddr 0)
        (s.quiet.setChan c
          { s.chan c with
            mark := .none, state := .alert, saved := some .network, alert := some (x, n), alertCell := 1, pos := none, feed := none,
            pendingIn := none, markReq := false, wrapDue := false }))

/-- A SOURCE mark taken in ALERT (R147, R148): when the playing source differs, its clip is played from its first cell with a switch-in by estimate and a mark
request; when it is the same, the clip plays on. The saved context does not change. The bit of a new pass is log 14. -/
def Obligations.SourceMarkTaken : Prop :=
  ∀ (s : State) (c : ChanNo) (k : Nat) (addr : Addr) (x y : Source) (n m : ClipNo) (q : SeqNo),
    ReadAt s c k addr → (s.chan c).mark = .source → (s.chan c).state = .alert → (s.chan c).alert = some (y, m) →
    s.alert.playing = some x → s.alert.record.clipOf x = some n → (s.ring (s.netRing c)).seqOf k = some q →
    (s.ring (s.netRing c)).classOf k ≠ .psi →
    (x ≠ y → 1 < (s.clip n).cellCount.toNat →
      exec (.windowFullCellRead addr) s =
        .next (sendRead
          { chan := c, markReq := true, resume := none
            serving := .source (s.clip n).comps false (some { place := none, ref := (s.clip n).firstPts, origin := none }) none }
          ((s.clip n).cellAddr 0)
          (s.quiet.setChan c
            { s.chan c with
              mark := .none, alert := some (x, n), alertCell := 1, pendingIn := none, markReq := false, wrapDue := false }))) ∧
    (x = y → (s.chan c).alertCell + 1 < (s.clip m).cellCount.toNat → (s.chan c).wrapDue = false →
      exec (.windowFullCellRead addr) s =
        .next (sendRead
          { chan := c, markReq := (s.chan c).markReq, resume := none
            serving := .source (s.clip m).comps false (s.chan c).pendingIn none }
          ((s.clip m).cellAddr (s.chan c).alertCell)
          (s.quiet.setChan c
            { s.chan c with mark := .none, alertCell := (s.chan c).alertCell + 1, pendingIn := none, markReq := false })))

/-- A RESTORE mark taken with NETWORK saved (R151): the channel is in NETWORK, its alert source, alert clip and saved context absent and the switch-in discarded, and
the read is a network read with a mark request. The bit of a new pass is log 14. -/
def Obligations.RestoreMarkTaken : Prop :=
  ∀ (s : State) (c : ChanNo) (k : Nat) (addr : Addr) (q : SeqNo),
    ReadAt s c k addr → (s.chan c).mark = .restore → (s.chan c).state = .alert → (s.chan c).saved = some .network →
    (s.ring (s.netRing c)).seqOf k = some q →
    exec (.windowFullCellRead addr) s =
      .next (sendRead { chan := c, serving := .network, markReq := true, resume := none } ((s.ring (s.netRing c)).shadow.slotAddr k)
        (s.quiet.setChan c
          { s.chan c with
            mark := .none, state := .network, playing := none, pendingIn := none, wrapDue := false, alert := none, saved := none,
            markReq := false }))

/-- A read of a channel in INSERT, FEED or ALERT that does not advance the source (R16, R106): a PSI slot gives the network cell, an unwritten slot a null cell
in its place; nothing else changes. -/
def Obligations.InsertionPassOrNull : Prop :=
  ∀ (s : State) (c : ChanNo) (k : Nat) (addr : Addr), ReadAt s c k addr → (s.chan c).mark = .none →
    ((s.chan c).state = .insert ∨ (s.chan c).state = .feed ∨ (s.chan c).state = .alert) →
    ((s.ring (s.netRing c)).classOf k = .psi →
      exec (.windowFullCellRead addr) s =
        .next (sendRead { chan := c, serving := .network, markReq := false, resume := none }
          ((s.ring (s.netRing c)).shadow.slotAddr k) s.quiet)) ∧
    ((s.ring (s.netRing c)).classOf k = .unwritten →
      exec (.windowFullCellRead addr) s =
        .next (sendRead { chan := c, serving := .nullSlot, markReq := false, resume := none }
          ((s.ring (s.netRing c)).shadow.slotAddr k) s.quiet))

/-- A window read that is not a full-cell read (R17): ORDER is set, and the read is forwarded at the same offset of the network ring when it lies wholly
within the window, at its own address otherwise. Nothing else changes. -/
def Obligations.WindowPartialRead : Prop :=
  ∀ (s : State) (c : ChanNo) (addr : Addr) (len : Nat), s.rstLow = false → lengthOk len = true → s.windowMeets c addr.toNat len = true →
    (∀ d, d ≠ c → s.windowMeets d addr.toNat len = false) → s.regionMeets addr.toNat len = false →
    (s.windowBase c ≤ addr.toNat → addr.toNat + len ≤ s.windowBase c + s.windowBytes c →
      (len ≠ 192 ∨ (addr.toNat - s.windowBase c) % 192 ≠ 0) →
      exec (.windowPartialRead addr len) s =
        .next (setFlag .order (s.carry (.read (BitVec.ofNat 36
          ((s.ring (s.netRing c)).shadow.base.toNat + (addr.toNat - s.windowBase c))) len)))) ∧
    (addr.toNat < s.windowBase c ∨ s.windowBase c + s.windowBytes c < addr.toNat + len →
      exec (.windowPartialRead addr len) s = .next (setFlag .order (s.carry (.read addr len))))

/-- A write that touches the window of an enabled channel (R18): it is forwarded at its own address and ORDER is set; where it touches no ring and not the
control region nothing else changes. That it touches the window is judged by its address range, a write with no enabled byte included: that is the
model's reading (log 18). -/
def Obligations.WindowWrite : Prop :=
  ∀ (s : State) (c : ChanNo) (w : WriteReq), s.rstLow = false → s.NoStaged → lengthOk w.bytes.length = true →
    s.windowMeets c w.addr.toNat w.bytes.length = true → (∀ r, (s.ring r).shadow.meets w.addr.toNat w.bytes.length = false) →
    s.regionMeets w.addr.toNat w.bytes.length = false →
    exec (.windowWrite w) s = .next (setFlag .order (s.carry (.write w)))

/-! ### The data of window reads -/

/-- A network cell returned for a read with no mark request (R27, R28, R30, R105, R110, R112): it goes upstream as memory gave it, but for the discontinuity
indicator where a mark is pending and there is room; its CC is followed and t_L takes its stamp. -/
def Obligations.NetworkCellReturned : Prop :=
  ∀ (s : State) (c : ChanNo) (addr : Addr) (rest : List Outstanding) (cell : List Byte) (f : Findings), s.NoStaged →
    Awaiting s (.read addr 192) (.window { chan := c, serving := .network, markReq := false, resume := none }) rest →
    cell.length = 192 → f = parseCell cell →
    (f.pid = none →
      exec (.networkCellReturn cell) s =
        .next (({ s with outstanding := rest, downOut := [], upOut := [.readData cell] } : State).setChan c
          { s.chan c with lastOut := { (s.chan c).lastOut with tL := some f.stamp } })) ∧
    ∀ p, f.pid = some p →
      (f.pts = none ∨ (s.ring (s.netRing c)).shadow.comps.video ≠ some p) →
      ((∀ e, (s.chan c).ccEntry p = some e → e.mark = false ∨ f.room = false) →
        exec (.networkCellReturn cell) s =
          .next (({ s with outstanding := rest, downOut := [], upOut := [.readData cell] } : State).setChan c
            { s.chan c with
              lastOut := { (s.chan c).lastOut with tL := some f.stamp }
              cc := (s.chan c).cc.map fun e => if e.pid = p then { e with cc := some f.cc } else e })) ∧
      (∀ e, (s.chan c).ccEntry p = some e → e.mark = true → f.room = true →
        exec (.networkCellReturn cell) s =
          .next (({ s with outstanding := rest, downOut := [],
                           upOut := [.readData (cell.take 9 ++ [byteAt cell 9 ||| 0x80] ++ cell.drop 10)] } : State).setChan c
            { s.chan c with
              lastOut := { (s.chan c).lastOut with tL := some f.stamp }
              cc := (s.chan c).cc.map fun e => if e.pid = p then { e with cc := some f.cc, mark := false } else e }))

/-- A source cell returned with no switch-in and no wrap, on a PID its map names (R40 to R42, R107, R110): it goes upstream with its stamp moved by S, its PTS, DTS
and PCR base moved by D90 and the PCR's extension kept, the network PID of its slot and the continued counter, and the channel's offsets stay. -/
def Obligations.SourceCellReturned : Prop :=
  ∀ (s : State) (c : ChanNo) (addr : Addr) (rest : List Outstanding) (map : Components) (cell : List Byte) (f : Findings) (p : Pid), s.NoStaged →
    Awaiting s (.read addr 192) (.window { chan := c, serving := .source map false none none, markReq := false, resume := none }) rest →
    cell.length = 192 → f = parseCell cell → f.pid ≠ none → remap map (s.ring (s.netRing c)).shadow.comps f.pid = some p →
    ∃ t out, exec (.sourceCellReturn cell) s = .next t ∧ t.upOut = [.readData out] ∧ out.length = 192 ∧
      (parseCell out).stamp = f.stamp + (s.chan c).s ∧ (parseCell out).pid = some p ∧
      (parseCell out).cc =
        (match ((s.chan c).ccEntry p).bind (·.cc) with
          | some last => if f.payload.isSome then last + 1 else last
          | none => f.cc) ∧
      (parseCell out).pts = f.pts.map (· + (s.chan c).d90) ∧ (parseCell out).dts = f.dts.map (· + (s.chan c).d90) ∧
      (parseCell out).pcr = f.pcr.map (fun x => (x.1 + (s.chan c).d90, x.2)) ∧
      (t.chan c).d90 = (s.chan c).d90 ∧ (t.chan c).s = (s.chan c).s ∧ (t.chan c).lastOut.tL = some (f.stamp + (s.chan c).s) ∧
      t.outstanding = rest ∧ t.rings = s.rings ∧ t.pods = s.pods ∧ t.asRun = s.asRun ∧ ∀ d, d ≠ c → t.chan d = s.chan d

/-- The first cell of a switch-in at a point (R37, R40): D90 becomes the anchor less the reference, S the target stamp less the cell's own, and the cell goes upstream
with the target stamp. -/
def Obligations.SwitchInFixesOffsets : Prop :=
  ∀ (s : State) (c : ChanNo) (addr : Addr) (rest : List Outstanding) (map : Components) (cell : List Byte) (anchor ref : Ticks) (target : Stamp)
    (markReq : Bool), s.NoStaged →
    Awaiting s (.read addr 192)
      (.window { chan := c, markReq := markReq, resume := none
                 serving := .source map false (some { place := some (anchor, target), ref := ref, origin := none }) none }) rest →
    cell.length = 192 →
    ∃ t out, exec (.sourceCellReturn cell) s = .next t ∧ t.upOut = [.readData out] ∧ out.length = 192 ∧ (parseCell out).stamp = target ∧
      (t.chan c).d90 = anchor - ref ∧ (t.chan c).s = target - (parseCell cell).stamp ∧ (t.chan c).runTarget = some target ∧
      (t.chan c).lastOut.tL = some target

/-- A null cell made in place of a network slot (R108): it carries the stamp the slot's data came with, the network cell's packet goes, and t_L takes the stamp.
Nothing else changes. -/
def Obligations.NullSlotReturned : Prop :=
  ∀ (s : State) (c : ChanNo) (addr : Addr) (rest : List Outstanding) (cell : List Byte), s.NoStaged →
    Awaiting s (.read addr 192) (.window { chan := c, serving := .nullSlot, markReq := false, resume := none }) rest → cell.length = 192 →
    exec (.networkSlotNullReturn cell) s =
      .next (({ s with
          outstanding := rest, downOut := [],
          upOut := [.readData (cell.take 4 ++ [0x47, 0x1F, 0xFF, 0x10] ++ List.replicate 184 0xFF)] } : State).setChan c
        { s.chan c with lastOut := { (s.chan c).lastOut with tL := some (BitVec.ofNat 32 (fieldNat cell 0 4)) } })

/-- The times of an inserted cell (R41, R42): a PTS, a DTS and a PCR base that the parse found are moved by the offset, modulo 2^33, the PCR's extension stays, and
stamp, PID and continuity counter are not touched. -/
def Obligations.TimesRewritten : Prop :=
  ∀ (cell : List Byte) (d90 : Ticks), cell.length = 192 →
    (rewriteTimes (parseCell cell) d90 cell).length = 192 ∧
    (parseCell (rewriteTimes (parseCell cell) d90 cell)).pts = (parseCell cell).pts.map (· + d90) ∧
    (parseCell (rewriteTimes (parseCell cell) d90 cell)).dts = (parseCell cell).dts.map (· + d90) ∧
    (parseCell (rewriteTimes (parseCell cell) d90 cell)).pcr = (parseCell cell).pcr.map (fun x => (x.1 + d90, x.2)) ∧
    (parseCell (rewriteTimes (parseCell cell) d90 cell)).stamp = (parseCell cell).stamp ∧
    (parseCell (rewriteTimes (parseCell cell) d90 cell)).pid = (parseCell cell).pid ∧
    (parseCell (rewriteTimes (parseCell cell) d90 cell)).cc = (parseCell cell).cc

/-! ### The reference clock -/

/-- A sample of the lines (R135, R136, R139, R142): the PROT_N level takes it, and so does each line's filter, by the line's polarity, run count and filter
length. With no change of a filtered level nothing else changes. A line that becomes ACTIVE in IDLE engages its source, or sets ALERT when the source's clip is absent
or INVALID (R138); in ACTIVE or HOLD the source joins the episode and the highest engaged source plays. A FOLLOW line that becomes INACTIVE releases its
source: with others engaged the highest of them plays; alone engaged, it ends the episode once the minimum hold has run out and leaves HOLD before. A LATCH
line that becomes INACTIVE, or one whose source is not engaged, does nothing. The minimum hold is the one the shadow holds at the release, also between a taken
record that changes it and the next advance, of which R134 speaks otherwise: that is the model's reading (log 38). The instant of the sample is the
sender's (log 23). Of a sample at which both filtered levels change, only the filters and the PROT_N level are stated. -/
def Obligations.LineSampled : Prop :=
  ∀ (s u : State) (l0 l1 prot level0 level1 : Bool) (f0 f1 : LineFilter), s.rstLow = false →
    level0 = (match s.alert.record.line0.polarity with
      | .activeHigh => l0
      | .activeLow => !l0) →
    level1 = (match s.alert.record.line1.polarity with
      | .activeHigh => l1
      | .activeLow => !l1) →
    f0 = (if level0 = s.alert.filter0.active then { active := level0, run := 0 }
      else if s.alert.record.line0.filter ≤ s.alert.filter0.run + 1 then { active := level0, run := 0 }
      else { active := s.alert.filter0.active, run := s.alert.filter0.run + 1 }) →
    f1 = (if level1 = s.alert.filter1.active then { active := level1, run := 0 }
      else if s.alert.record.line1.filter ≤ s.alert.filter1.run + 1 then { active := level1, run := 0 }
      else { active := s.alert.filter1.active, run := s.alert.filter1.run + 1 }) →
    u = { s with upOut := [], downOut := [], alert := { s.alert with filter0 := f0, filter1 := f1, protHigh := prot } } →
    (∃ t, exec (.lineSample l0 l1 prot) s = .next t ∧ t.alert.filter0 = f0 ∧ t.alert.filter1 = f1 ∧ t.alert.protHigh = prot) ∧
    (f0.active = s.alert.filter0.active → f1.active = s.alert.filter1.active → exec (.lineSample l0 l1 prot) s = .next u) ∧
    ∀ x set mode,
      (s.LineTurns f0 f1 x set mode true →
        (hasSource s.alert.engaged x = true → exec (.lineSample l0 l1 prot) s = .next u) ∧
        (hasSource s.alert.engaged x = false → s.sourceClip x = none → exec (.lineSample l0 l1 prot) s = .next (setFlag .alert u)) ∧
        (∀ n, s.alert.state ≠ .idle → hasSource s.alert.engaged x = false → s.sourceClip x = some n →
          ∃ t, exec (.lineSample l0 l1 prot) s = .next t ∧
            ({ u with alert := { u.alert with state := .active, engaged := s.alert.engaged ||| set,
                                              episode := s.alert.episode ||| set } } : State).PlaysHighest t) ∧
        ∀ n, s.alert.state = .idle → s.alert.engaged = 0 → s.sourceClip x = some n →
          ∃ t, exec (.lineSample l0 l1 prot) s = .next t ∧
            t.alert = { u.alert with state := .active, engaged := set, episode := set, playing := some x, timer := 0 } ∧
            t.asRun = s.asRun.push { kind := .alertStart, sources := some set } ∧ hasFlag .alert t = true ∧
            ∀ c, t.chan c =
              if (s.chan c).state ≠ .off ∧ setHas s.alert.effective c = true then
                { s.chan c with mark := if (s.chan c).state = .alert then .source else .engage }
              else s.chan c) ∧
      (s.LineTurns f0 f1 x set mode false →
        (mode = .latch ∨ hasSource s.alert.engaged x = false → exec (.lineSample l0 l1 prot) s = .next u) ∧
        (mode = .follow → hasSource s.alert.engaged x = true → s.alert.engaged ≠ set →
          ∃ t, exec (.lineSample l0 l1 prot) s = .next t ∧
            ({ u with alert := { u.alert with engaged := s.alert.engaged &&& ~~~set } } : State).PlaysHighest t) ∧
        (mode = .follow → s.alert.engaged = set → s.alert.timer.toNat < s.alert.record.hold →
          exec (.lineSample l0 l1 prot) s = .next { u with alert := { u.alert with state := .hold, engaged := 0 } }) ∧
        (mode = .follow → s.alert.engaged = set → s.alert.record.hold ≤ s.alert.timer.toNat →
          ∃ t, exec (.lineSample l0 l1 prot) s = .next t ∧
            t.alert = { u.alert with state := .idle, engaged := 0, playing := none } ∧
            t.asRun = s.asRun.push { kind := .alertEnd, reason := some .released, episodeMs := some s.alert.timer,
                                     sources := some s.alert.episode } ∧
            ∀ c, t.chan c =
              if (s.chan c).state = .alert then { s.chan c with mark := .restore }
              else if (s.chan c).mark = .engage then { s.chan c with mark := .none }
              else s.chan c))

/-- The episode timer (R137, R140, R141): it advances in ACTIVE and HOLD and stands in IDLE. At the time limit the episode ends with LIMIT. Below it, HOLD ends with
RELEASED when the timer reaches the minimum hold, and nothing but the timer changes before, nor in ACTIVE. The instant of the advance is the sender's (log 23). -/
def Obligations.EpisodeTimerAdvances : Prop :=
  ∀ (s : State) (now : BitVec 32), s.rstLow = false → now = heldInc s.alert.timer →
    (s.alert.state = .idle → exec .episodeTimerAdvance s = .next { s with upOut := [], downOut := [] }) ∧
    (s.alert.record.limit = 0 ∨ now.toNat < s.alert.record.limit * 60000 →
      (s.alert.state = .active ∨ s.alert.state = .hold ∧ now.toNat < s.alert.record.hold →
        exec .episodeTimerAdvance s = .next { s with upOut := [], downOut := [], alert := { s.alert with timer := now } }) ∧
      (s.alert.state = .hold → s.alert.record.hold ≤ now.toNat →
        ∃ t, exec .episodeTimerAdvance s = .next t ∧
          t.alert = { s.alert with timer := now, state := .idle, engaged := 0, playing := none } ∧
          t.flags = s.flags ||| flagMask .asrun ∧
          t.asRun = s.asRun.push { kind := .alertEnd, reason := some .released, episodeMs := some now, sources := some s.alert.episode } ∧
          ∀ c, t.chan c =
            if (s.chan c).state = .alert then { s.chan c with mark := .restore }
            else if (s.chan c).mark = .engage then { s.chan c with mark := .none }
            else s.chan c)) ∧
    (s.alert.state ≠ .idle → s.alert.record.limit ≠ 0 → s.alert.record.limit * 60000 ≤ now.toNat →
      ∃ t, exec .episodeTimerAdvance s = .next t ∧
        t.alert = { s.alert with timer := now, state := .idle, engaged := 0, playing := none } ∧
        hasFlag .limit t = true ∧
        t.asRun = s.asRun.push { kind := .alertEnd, reason := some .limit, episodeMs := some now, sources := some s.alert.episode } ∧
        ∀ c, t.chan c =
          if (s.chan c).state = .alert then { s.chan c with mark := .restore }
          else if (s.chan c).mark = .engage then { s.chan c with mark := .none }
          else s.chan c)

/-! ### Rules of the whole machine -/

/-- No step overfills a queue: 128 as-run records held, 16 watch entries a ring, 4 switch points a channel, 32 cue queue entries (R55, R84, R92, R157). -/
def Obligations.CapacityKept : Prop := ∀ s t : State, Capacity s → step s = .next t → Capacity t

/-- The capacities hold at reset. -/
def Obligations.CapacityAtReset : Prop := Capacity State.reset

/-- What only the resets of the pins change (R137, R153, R160, R166): no command but power-on reset takes a channel out of the lock-down set, and the
control region's base changes only at power-on reset and at the release of RST_N. -/
def Obligations.LockdownAndBaseKept : Prop :=
  ∀ (i : Instr) (s t : State), (∀ straps, i ≠ .powerOnReset straps) → exec i s = .next t →
    (∀ c, setHas s.alert.lockdown c = true → setHas t.alert.lockdown c = true) ∧
    ((∀ straps, i ≠ .rstNRelease straps) → t.regionBase = s.regionBase)
end

