-- ==== Sys2Proof/Laws/State.lean ====
section
/-! SUPPORT. The small lemmas of the state: what each update leaves as it was, one lemma per field per update, and what a bank holds after a write to it. -/

namespace Sys2Proof.Machine

/-! ### setRing -/

@[simp] theorem setRing_rstLow (s : State) (i : RingNo) (x : Ring) : (s.setRing i x).rstLow = s.rstLow := rfl
@[simp] theorem setRing_straps (s : State) (i : RingNo) (x : Ring) : (s.setRing i x).straps = s.straps := rfl
@[simp] theorem setRing_outstanding (s : State) (i : RingNo) (x : Ring) : (s.setRing i x).outstanding = s.outstanding := rfl
@[simp] theorem setRing_abandoned (s : State) (i : RingNo) (x : Ring) : (s.setRing i x).abandoned = s.abandoned := rfl
@[simp] theorem setRing_upOut (s : State) (i : RingNo) (x : Ring) : (s.setRing i x).upOut = s.upOut := rfl
@[simp] theorem setRing_downOut (s : State) (i : RingNo) (x : Ring) : (s.setRing i x).downOut = s.downOut := rfl
@[simp] theorem setRing_cueQueue (s : State) (i : RingNo) (x : Ring) : (s.setRing i x).cueQueue = s.cueQueue := rfl
@[simp] theorem setRing_cueCounters (s : State) (i : RingNo) (x : Ring) : (s.setRing i x).cueCounters = s.cueCounters := rfl
@[simp] theorem setRing_clips (s : State) (i : RingNo) (x : Ring) : (s.setRing i x).clips = s.clips := rfl
@[simp] theorem setRing_pods (s : State) (i : RingNo) (x : Ring) : (s.setRing i x).pods = s.pods := rfl
@[simp] theorem setRing_ready (s : State) (i : RingNo) (x : Ring) : (s.setRing i x).ready = s.ready := rfl
@[simp] theorem setRing_watch (s : State) (i : RingNo) (x : Ring) : (s.setRing i x).watch = s.watch := rfl
@[simp] theorem setRing_channels (s : State) (i : RingNo) (x : Ring) : (s.setRing i x).channels = s.channels := rfl
@[simp] theorem setRing_alert (s : State) (i : RingNo) (x : Ring) : (s.setRing i x).alert = s.alert := rfl
@[simp] theorem setRing_asRun (s : State) (i : RingNo) (x : Ring) : (s.setRing i x).asRun = s.asRun := rfl
@[simp] theorem setRing_flags (s : State) (i : RingNo) (x : Ring) : (s.setRing i x).flags = s.flags := rfl
@[simp] theorem setRing_enables (s : State) (i : RingNo) (x : Ring) : (s.setRing i x).enables = s.enables := rfl
@[simp] theorem setRing_lastCommand (s : State) (i : RingNo) (x : Ring) : (s.setRing i x).lastCommand = s.lastCommand := rfl
@[simp] theorem setRing_lastRefused (s : State) (i : RingNo) (x : Ring) : (s.setRing i x).lastRefused = s.lastRefused := rfl
@[simp] theorem setRing_freeCount (s : State) (i : RingNo) (x : Ring) : (s.setRing i x).freeCount = s.freeCount := rfl
@[simp] theorem setRing_pending (s : State) (i : RingNo) (x : Ring) : (s.setRing i x).pending = s.pending := rfl
@[simp] theorem setRing_clip (s : State) (i : RingNo) (x : Ring) (n : ClipNo) : (s.setRing i x).clip n = s.clip n := rfl
@[simp] theorem setRing_pod (s : State) (i : RingNo) (x : Ring) (p : PodNo) : (s.setRing i x).pod p = s.pod p := rfl
@[simp] theorem setRing_readyList (s : State) (i : RingNo) (x : Ring) (c : ChanNo) : (s.setRing i x).readyList c = s.readyList c := rfl
@[simp] theorem setRing_watchList (s : State) (i : RingNo) (x : Ring) (r : RingNo) : (s.setRing i x).watchList r = s.watchList r := rfl
@[simp] theorem setRing_chan (s : State) (i : RingNo) (x : Ring) (c : ChanNo) : (s.setRing i x).chan c = s.chan c := rfl

/-! ### setClip -/

@[simp] theorem setClip_rstLow (s : State) (i : ClipNo) (x : ClipShadow) : (s.setClip i x).rstLow = s.rstLow := rfl
@[simp] theorem setClip_straps (s : State) (i : ClipNo) (x : ClipShadow) : (s.setClip i x).straps = s.straps := rfl
@[simp] theorem setClip_outstanding (s : State) (i : ClipNo) (x : ClipShadow) : (s.setClip i x).outstanding = s.outstanding := rfl
@[simp] theorem setClip_abandoned (s : State) (i : ClipNo) (x : ClipShadow) : (s.setClip i x).abandoned = s.abandoned := rfl
@[simp] theorem setClip_upOut (s : State) (i : ClipNo) (x : ClipShadow) : (s.setClip i x).upOut = s.upOut := rfl
@[simp] theorem setClip_downOut (s : State) (i : ClipNo) (x : ClipShadow) : (s.setClip i x).downOut = s.downOut := rfl
@[simp] theorem setClip_rings (s : State) (i : ClipNo) (x : ClipShadow) : (s.setClip i x).rings = s.rings := rfl
@[simp] theorem setClip_cueQueue (s : State) (i : ClipNo) (x : ClipShadow) : (s.setClip i x).cueQueue = s.cueQueue := rfl
@[simp] theorem setClip_cueCounters (s : State) (i : ClipNo) (x : ClipShadow) : (s.setClip i x).cueCounters = s.cueCounters := rfl
@[simp] theorem setClip_pods (s : State) (i : ClipNo) (x : ClipShadow) : (s.setClip i x).pods = s.pods := rfl
@[simp] theorem setClip_ready (s : State) (i : ClipNo) (x : ClipShadow) : (s.setClip i x).ready = s.ready := rfl
@[simp] theorem setClip_watch (s : State) (i : ClipNo) (x : ClipShadow) : (s.setClip i x).watch = s.watch := rfl
@[simp] theorem setClip_channels (s : State) (i : ClipNo) (x : ClipShadow) : (s.setClip i x).channels = s.channels := rfl
@[simp] theorem setClip_alert (s : State) (i : ClipNo) (x : ClipShadow) : (s.setClip i x).alert = s.alert := rfl
@[simp] theorem setClip_asRun (s : State) (i : ClipNo) (x : ClipShadow) : (s.setClip i x).asRun = s.asRun := rfl
@[simp] theorem setClip_flags (s : State) (i : ClipNo) (x : ClipShadow) : (s.setClip i x).flags = s.flags := rfl
@[simp] theorem setClip_enables (s : State) (i : ClipNo) (x : ClipShadow) : (s.setClip i x).enables = s.enables := rfl
@[simp] theorem setClip_lastCommand (s : State) (i : ClipNo) (x : ClipShadow) : (s.setClip i x).lastCommand = s.lastCommand := rfl
@[simp] theorem setClip_lastRefused (s : State) (i : ClipNo) (x : ClipShadow) : (s.setClip i x).lastRefused = s.lastRefused := rfl
@[simp] theorem setClip_freeCount (s : State) (i : ClipNo) (x : ClipShadow) : (s.setClip i x).freeCount = s.freeCount := rfl
@[simp] theorem setClip_pending (s : State) (i : ClipNo) (x : ClipShadow) : (s.setClip i x).pending = s.pending := rfl
@[simp] theorem setClip_ring (s : State) (i : ClipNo) (x : ClipShadow) (r : RingNo) : (s.setClip i x).ring r = s.ring r := rfl
@[simp] theorem setClip_pod (s : State) (i : ClipNo) (x : ClipShadow) (p : PodNo) : (s.setClip i x).pod p = s.pod p := rfl
@[simp] theorem setClip_readyList (s : State) (i : ClipNo) (x : ClipShadow) (c : ChanNo) : (s.setClip i x).readyList c = s.readyList c := rfl
@[simp] theorem setClip_watchList (s : State) (i : ClipNo) (x : ClipShadow) (r : RingNo) : (s.setClip i x).watchList r = s.watchList r := rfl
@[simp] theorem setClip_chan (s : State) (i : ClipNo) (x : ClipShadow) (c : ChanNo) : (s.setClip i x).chan c = s.chan c := rfl

/-! ### setPod -/

@[simp] theorem setPod_rstLow (s : State) (i : PodNo) (x : Pod) : (s.setPod i x).rstLow = s.rstLow := rfl
@[simp] theorem setPod_straps (s : State) (i : PodNo) (x : Pod) : (s.setPod i x).straps = s.straps := rfl
@[simp] theorem setPod_outstanding (s : State) (i : PodNo) (x : Pod) : (s.setPod i x).outstanding = s.outstanding := rfl
@[simp] theorem setPod_abandoned (s : State) (i : PodNo) (x : Pod) : (s.setPod i x).abandoned = s.abandoned := rfl
@[simp] theorem setPod_upOut (s : State) (i : PodNo) (x : Pod) : (s.setPod i x).upOut = s.upOut := rfl
@[simp] theorem setPod_downOut (s : State) (i : PodNo) (x : Pod) : (s.setPod i x).downOut = s.downOut := rfl
@[simp] theorem setPod_rings (s : State) (i : PodNo) (x : Pod) : (s.setPod i x).rings = s.rings := rfl
@[simp] theorem setPod_cueQueue (s : State) (i : PodNo) (x : Pod) : (s.setPod i x).cueQueue = s.cueQueue := rfl
@[simp] theorem setPod_cueCounters (s : State) (i : PodNo) (x : Pod) : (s.setPod i x).cueCounters = s.cueCounters := rfl
@[simp] theorem setPod_clips (s : State) (i : PodNo) (x : Pod) : (s.setPod i x).clips = s.clips := rfl
@[simp] theorem setPod_ready (s : State) (i : PodNo) (x : Pod) : (s.setPod i x).ready = s.ready := rfl
@[simp] theorem setPod_watch (s : State) (i : PodNo) (x : Pod) : (s.setPod i x).watch = s.watch := rfl
@[simp] theorem setPod_channels (s : State) (i : PodNo) (x : Pod) : (s.setPod i x).channels = s.channels := rfl
@[simp] theorem setPod_alert (s : State) (i : PodNo) (x : Pod) : (s.setPod i x).alert = s.alert := rfl
@[simp] theorem setPod_asRun (s : State) (i : PodNo) (x : Pod) : (s.setPod i x).asRun = s.asRun := rfl
@[simp] theorem setPod_flags (s : State) (i : PodNo) (x : Pod) : (s.setPod i x).flags = s.flags := rfl
@[simp] theorem setPod_enables (s : State) (i : PodNo) (x : Pod) : (s.setPod i x).enables = s.enables := rfl
@[simp] theorem setPod_lastCommand (s : State) (i : PodNo) (x : Pod) : (s.setPod i x).lastCommand = s.lastCommand := rfl
@[simp] theorem setPod_lastRefused (s : State) (i : PodNo) (x : Pod) : (s.setPod i x).lastRefused = s.lastRefused := rfl
@[simp] theorem setPod_freeCount (s : State) (i : PodNo) (x : Pod) : (s.setPod i x).freeCount = s.freeCount := rfl
@[simp] theorem setPod_pending (s : State) (i : PodNo) (x : Pod) : (s.setPod i x).pending = s.pending := rfl
@[simp] theorem setPod_ring (s : State) (i : PodNo) (x : Pod) (r : RingNo) : (s.setPod i x).ring r = s.ring r := rfl
@[simp] theorem setPod_clip (s : State) (i : PodNo) (x : Pod) (n : ClipNo) : (s.setPod i x).clip n = s.clip n := rfl
@[simp] theorem setPod_readyList (s : State) (i : PodNo) (x : Pod) (c : ChanNo) : (s.setPod i x).readyList c = s.readyList c := rfl
@[simp] theorem setPod_watchList (s : State) (i : PodNo) (x : Pod) (r : RingNo) : (s.setPod i x).watchList r = s.watchList r := rfl
@[simp] theorem setPod_chan (s : State) (i : PodNo) (x : Pod) (c : ChanNo) : (s.setPod i x).chan c = s.chan c := rfl

/-! ### setReady -/

@[simp] theorem setReady_rstLow (s : State) (i : ChanNo) (x : List PodNo) : (s.setReady i x).rstLow = s.rstLow := rfl
@[simp] theorem setReady_straps (s : State) (i : ChanNo) (x : List PodNo) : (s.setReady i x).straps = s.straps := rfl
@[simp] theorem setReady_outstanding (s : State) (i : ChanNo) (x : List PodNo) : (s.setReady i x).outstanding = s.outstanding := rfl
@[simp] theorem setReady_abandoned (s : State) (i : ChanNo) (x : List PodNo) : (s.setReady i x).abandoned = s.abandoned := rfl
@[simp] theorem setReady_upOut (s : State) (i : ChanNo) (x : List PodNo) : (s.setReady i x).upOut = s.upOut := rfl
@[simp] theorem setReady_downOut (s : State) (i : ChanNo) (x : List PodNo) : (s.setReady i x).downOut = s.downOut := rfl
@[simp] theorem setReady_rings (s : State) (i : ChanNo) (x : List PodNo) : (s.setReady i x).rings = s.rings := rfl
@[simp] theorem setReady_cueQueue (s : State) (i : ChanNo) (x : List PodNo) : (s.setReady i x).cueQueue = s.cueQueue := rfl
@[simp] theorem setReady_cueCounters (s : State) (i : ChanNo) (x : List PodNo) : (s.setReady i x).cueCounters = s.cueCounters := rfl
@[simp] theorem setReady_clips (s : State) (i : ChanNo) (x : List PodNo) : (s.setReady i x).clips = s.clips := rfl
@[simp] theorem setReady_pods (s : State) (i : ChanNo) (x : List PodNo) : (s.setReady i x).pods = s.pods := rfl
@[simp] theorem setReady_watch (s : State) (i : ChanNo) (x : List PodNo) : (s.setReady i x).watch = s.watch := rfl
@[simp] theorem setReady_channels (s : State) (i : ChanNo) (x : List PodNo) : (s.setReady i x).channels = s.channels := rfl
@[simp] theorem setReady_alert (s : State) (i : ChanNo) (x : List PodNo) : (s.setReady i x).alert = s.alert := rfl
@[simp] theorem setReady_asRun (s : State) (i : ChanNo) (x : List PodNo) : (s.setReady i x).asRun = s.asRun := rfl
@[simp] theorem setReady_flags (s : State) (i : ChanNo) (x : List PodNo) : (s.setReady i x).flags = s.flags := rfl
@[simp] theorem setReady_enables (s : State) (i : ChanNo) (x : List PodNo) : (s.setReady i x).enables = s.enables := rfl
@[simp] theorem setReady_lastCommand (s : State) (i : ChanNo) (x : List PodNo) : (s.setReady i x).lastCommand = s.lastCommand := rfl
@[simp] theorem setReady_lastRefused (s : State) (i : ChanNo) (x : List PodNo) : (s.setReady i x).lastRefused = s.lastRefused := rfl
@[simp] theorem setReady_freeCount (s : State) (i : ChanNo) (x : List PodNo) : (s.setReady i x).freeCount = s.freeCount := rfl
@[simp] theorem setReady_pending (s : State) (i : ChanNo) (x : List PodNo) : (s.setReady i x).pending = s.pending := rfl
@[simp] theorem setReady_ring (s : State) (i : ChanNo) (x : List PodNo) (r : RingNo) : (s.setReady i x).ring r = s.ring r := rfl
@[simp] theorem setReady_clip (s : State) (i : ChanNo) (x : List PodNo) (n : ClipNo) : (s.setReady i x).clip n = s.clip n := rfl
@[simp] theorem setReady_pod (s : State) (i : ChanNo) (x : List PodNo) (p : PodNo) : (s.setReady i x).pod p = s.pod p := rfl
@[simp] theorem setReady_watchList (s : State) (i : ChanNo) (x : List PodNo) (r : RingNo) : (s.setReady i x).watchList r = s.watchList r := rfl
@[simp] theorem setReady_chan (s : State) (i : ChanNo) (x : List PodNo) (c : ChanNo) : (s.setReady i x).chan c = s.chan c := rfl

/-! ### setWatch -/

@[simp] theorem setWatch_rstLow (s : State) (i : RingNo) (x : List WatchEntry) : (s.setWatch i x).rstLow = s.rstLow := rfl
@[simp] theorem setWatch_straps (s : State) (i : RingNo) (x : List WatchEntry) : (s.setWatch i x).straps = s.straps := rfl
@[simp] theorem setWatch_outstanding (s : State) (i : RingNo) (x : List WatchEntry) : (s.setWatch i x).outstanding = s.outstanding := rfl
@[simp] theorem setWatch_abandoned (s : State) (i : RingNo) (x : List WatchEntry) : (s.setWatch i x).abandoned = s.abandoned := rfl
@[simp] theorem setWatch_upOut (s : State) (i : RingNo) (x : List WatchEntry) : (s.setWatch i x).upOut = s.upOut := rfl
@[simp] theorem setWatch_downOut (s : State) (i : RingNo) (x : List WatchEntry) : (s.setWatch i x).downOut = s.downOut := rfl
@[simp] theorem setWatch_rings (s : State) (i : RingNo) (x : List WatchEntry) : (s.setWatch i x).rings = s.rings := rfl
@[simp] theorem setWatch_cueQueue (s : State) (i : RingNo) (x : List WatchEntry) : (s.setWatch i x).cueQueue = s.cueQueue := rfl
@[simp] theorem setWatch_cueCounters (s : State) (i : RingNo) (x : List WatchEntry) : (s.setWatch i x).cueCounters = s.cueCounters := rfl
@[simp] theorem setWatch_clips (s : State) (i : RingNo) (x : List WatchEntry) : (s.setWatch i x).clips = s.clips := rfl
@[simp] theorem setWatch_pods (s : State) (i : RingNo) (x : List WatchEntry) : (s.setWatch i x).pods = s.pods := rfl
@[simp] theorem setWatch_ready (s : State) (i : RingNo) (x : List WatchEntry) : (s.setWatch i x).ready = s.ready := rfl
@[simp] theorem setWatch_channels (s : State) (i : RingNo) (x : List WatchEntry) : (s.setWatch i x).channels = s.channels := rfl
@[simp] theorem setWatch_alert (s : State) (i : RingNo) (x : List WatchEntry) : (s.setWatch i x).alert = s.alert := rfl
@[simp] theorem setWatch_asRun (s : State) (i : RingNo) (x : List WatchEntry) : (s.setWatch i x).asRun = s.asRun := rfl
@[simp] theorem setWatch_flags (s : State) (i : RingNo) (x : List WatchEntry) : (s.setWatch i x).flags = s.flags := rfl
@[simp] theorem setWatch_enables (s : State) (i : RingNo) (x : List WatchEntry) : (s.setWatch i x).enables = s.enables := rfl
@[simp] theorem setWatch_lastCommand (s : State) (i : RingNo) (x : List WatchEntry) : (s.setWatch i x).lastCommand = s.lastCommand := rfl
@[simp] theorem setWatch_lastRefused (s : State) (i : RingNo) (x : List WatchEntry) : (s.setWatch i x).lastRefused = s.lastRefused := rfl
@[simp] theorem setWatch_freeCount (s : State) (i : RingNo) (x : List WatchEntry) : (s.setWatch i x).freeCount = s.freeCount := rfl
@[simp] theorem setWatch_pending (s : State) (i : RingNo) (x : List WatchEntry) : (s.setWatch i x).pending = s.pending := rfl
@[simp] theorem setWatch_ring (s : State) (i : RingNo) (x : List WatchEntry) (r : RingNo) : (s.setWatch i x).ring r = s.ring r := rfl
@[simp] theorem setWatch_clip (s : State) (i : RingNo) (x : List WatchEntry) (n : ClipNo) : (s.setWatch i x).clip n = s.clip n := rfl
@[simp] theorem setWatch_pod (s : State) (i : RingNo) (x : List WatchEntry) (p : PodNo) : (s.setWatch i x).pod p = s.pod p := rfl
@[simp] theorem setWatch_readyList (s : State) (i : RingNo) (x : List WatchEntry) (c : ChanNo) : (s.setWatch i x).readyList c = s.readyList c := rfl
@[simp] theorem setWatch_chan (s : State) (i : RingNo) (x : List WatchEntry) (c : ChanNo) : (s.setWatch i x).chan c = s.chan c := rfl

/-! ### setChan -/

@[simp] theorem setChan_rstLow (s : State) (i : ChanNo) (x : Channel) : (s.setChan i x).rstLow = s.rstLow := rfl
@[simp] theorem setChan_straps (s : State) (i : ChanNo) (x : Channel) : (s.setChan i x).straps = s.straps := rfl
@[simp] theorem setChan_outstanding (s : State) (i : ChanNo) (x : Channel) : (s.setChan i x).outstanding = s.outstanding := rfl
@[simp] theorem setChan_abandoned (s : State) (i : ChanNo) (x : Channel) : (s.setChan i x).abandoned = s.abandoned := rfl
@[simp] theorem setChan_upOut (s : State) (i : ChanNo) (x : Channel) : (s.setChan i x).upOut = s.upOut := rfl
@[simp] theorem setChan_downOut (s : State) (i : ChanNo) (x : Channel) : (s.setChan i x).downOut = s.downOut := rfl
@[simp] theorem setChan_rings (s : State) (i : ChanNo) (x : Channel) : (s.setChan i x).rings = s.rings := rfl
@[simp] theorem setChan_cueQueue (s : State) (i : ChanNo) (x : Channel) : (s.setChan i x).cueQueue = s.cueQueue := rfl
@[simp] theorem setChan_cueCounters (s : State) (i : ChanNo) (x : Channel) : (s.setChan i x).cueCounters = s.cueCounters := rfl
@[simp] theorem setChan_clips (s : State) (i : ChanNo) (x : Channel) : (s.setChan i x).clips = s.clips := rfl
@[simp] theorem setChan_pods (s : State) (i : ChanNo) (x : Channel) : (s.setChan i x).pods = s.pods := rfl
@[simp] theorem setChan_ready (s : State) (i : ChanNo) (x : Channel) : (s.setChan i x).ready = s.ready := rfl
@[simp] theorem setChan_watch (s : State) (i : ChanNo) (x : Channel) : (s.setChan i x).watch = s.watch := rfl
@[simp] theorem setChan_alert (s : State) (i : ChanNo) (x : Channel) : (s.setChan i x).alert = s.alert := rfl
@[simp] theorem setChan_asRun (s : State) (i : ChanNo) (x : Channel) : (s.setChan i x).asRun = s.asRun := rfl
@[simp] theorem setChan_flags (s : State) (i : ChanNo) (x : Channel) : (s.setChan i x).flags = s.flags := rfl
@[simp] theorem setChan_enables (s : State) (i : ChanNo) (x : Channel) : (s.setChan i x).enables = s.enables := rfl
@[simp] theorem setChan_lastCommand (s : State) (i : ChanNo) (x : Channel) : (s.setChan i x).lastCommand = s.lastCommand := rfl
@[simp] theorem setChan_lastRefused (s : State) (i : ChanNo) (x : Channel) : (s.setChan i x).lastRefused = s.lastRefused := rfl
@[simp] theorem setChan_freeCount (s : State) (i : ChanNo) (x : Channel) : (s.setChan i x).freeCount = s.freeCount := rfl
@[simp] theorem setChan_pending (s : State) (i : ChanNo) (x : Channel) : (s.setChan i x).pending = s.pending := rfl
@[simp] theorem setChan_ring (s : State) (i : ChanNo) (x : Channel) (r : RingNo) : (s.setChan i x).ring r = s.ring r := rfl
@[simp] theorem setChan_clip (s : State) (i : ChanNo) (x : Channel) (n : ClipNo) : (s.setChan i x).clip n = s.clip n := rfl
@[simp] theorem setChan_pod (s : State) (i : ChanNo) (x : Channel) (p : PodNo) : (s.setChan i x).pod p = s.pod p := rfl
@[simp] theorem setChan_readyList (s : State) (i : ChanNo) (x : Channel) (c : ChanNo) : (s.setChan i x).readyList c = s.readyList c := rfl
@[simp] theorem setChan_watchList (s : State) (i : ChanNo) (x : Channel) (r : RingNo) : (s.setChan i x).watchList r = s.watchList r := rfl

/-! ### modRing -/

@[simp] theorem modRing_rstLow (s : State) (i : RingNo) (f : Ring → Ring) : (s.modRing i f).rstLow = s.rstLow := rfl
@[simp] theorem modRing_straps (s : State) (i : RingNo) (f : Ring → Ring) : (s.modRing i f).straps = s.straps := rfl
@[simp] theorem modRing_outstanding (s : State) (i : RingNo) (f : Ring → Ring) : (s.modRing i f).outstanding = s.outstanding := rfl
@[simp] theorem modRing_abandoned (s : State) (i : RingNo) (f : Ring → Ring) : (s.modRing i f).abandoned = s.abandoned := rfl
@[simp] theorem modRing_upOut (s : State) (i : RingNo) (f : Ring → Ring) : (s.modRing i f).upOut = s.upOut := rfl
@[simp] theorem modRing_downOut (s : State) (i : RingNo) (f : Ring → Ring) : (s.modRing i f).downOut = s.downOut := rfl
@[simp] theorem modRing_cueQueue (s : State) (i : RingNo) (f : Ring → Ring) : (s.modRing i f).cueQueue = s.cueQueue := rfl
@[simp] theorem modRing_cueCounters (s : State) (i : RingNo) (f : Ring → Ring) : (s.modRing i f).cueCounters = s.cueCounters := rfl
@[simp] theorem modRing_clips (s : State) (i : RingNo) (f : Ring → Ring) : (s.modRing i f).clips = s.clips := rfl
@[simp] theorem modRing_pods (s : State) (i : RingNo) (f : Ring → Ring) : (s.modRing i f).pods = s.pods := rfl
@[simp] theorem modRing_ready (s : State) (i : RingNo) (f : Ring → Ring) : (s.modRing i f).ready = s.ready := rfl
@[simp] theorem modRing_watch (s : State) (i : RingNo) (f : Ring → Ring) : (s.modRing i f).watch = s.watch := rfl
@[simp] theorem modRing_channels (s : State) (i : RingNo) (f : Ring → Ring) : (s.modRing i f).channels = s.channels := rfl
@[simp] theorem modRing_alert (s : State) (i : RingNo) (f : Ring → Ring) : (s.modRing i f).alert = s.alert := rfl
@[simp] theorem modRing_asRun (s : State) (i : RingNo) (f : Ring → Ring) : (s.modRing i f).asRun = s.asRun := rfl
@[simp] theorem modRing_flags (s : State) (i : RingNo) (f : Ring → Ring) : (s.modRing i f).flags = s.flags := rfl
@[simp] theorem modRing_enables (s : State) (i : RingNo) (f : Ring → Ring) : (s.modRing i f).enables = s.enables := rfl
@[simp] theorem modRing_lastCommand (s : State) (i : RingNo) (f : Ring → Ring) : (s.modRing i f).lastCommand = s.lastCommand := rfl
@[simp] theorem modRing_lastRefused (s : State) (i : RingNo) (f : Ring → Ring) : (s.modRing i f).lastRefused = s.lastRefused := rfl
@[simp] theorem modRing_freeCount (s : State) (i : RingNo) (f : Ring → Ring) : (s.modRing i f).freeCount = s.freeCount := rfl
@[simp] theorem modRing_pending (s : State) (i : RingNo) (f : Ring → Ring) : (s.modRing i f).pending = s.pending := rfl
@[simp] theorem modRing_clip (s : State) (i : RingNo) (f : Ring → Ring) (n : ClipNo) : (s.modRing i f).clip n = s.clip n := rfl
@[simp] theorem modRing_pod (s : State) (i : RingNo) (f : Ring → Ring) (p : PodNo) : (s.modRing i f).pod p = s.pod p := rfl
@[simp] theorem modRing_readyList (s : State) (i : RingNo) (f : Ring → Ring) (c : ChanNo) : (s.modRing i f).readyList c = s.readyList c := rfl
@[simp] theorem modRing_watchList (s : State) (i : RingNo) (f : Ring → Ring) (r : RingNo) : (s.modRing i f).watchList r = s.watchList r := rfl
@[simp] theorem modRing_chan (s : State) (i : RingNo) (f : Ring → Ring) (c : ChanNo) : (s.modRing i f).chan c = s.chan c := rfl

/-! ### modPod -/

@[simp] theorem modPod_rstLow (s : State) (i : PodNo) (f : Pod → Pod) : (s.modPod i f).rstLow = s.rstLow := rfl
@[simp] theorem modPod_straps (s : State) (i : PodNo) (f : Pod → Pod) : (s.modPod i f).straps = s.straps := rfl
@[simp] theorem modPod_outstanding (s : State) (i : PodNo) (f : Pod → Pod) : (s.modPod i f).outstanding = s.outstanding := rfl
@[simp] theorem modPod_abandoned (s : State) (i : PodNo) (f : Pod → Pod) : (s.modPod i f).abandoned = s.abandoned := rfl
@[simp] theorem modPod_upOut (s : State) (i : PodNo) (f : Pod → Pod) : (s.modPod i f).upOut = s.upOut := rfl
@[simp] theorem modPod_downOut (s : State) (i : PodNo) (f : Pod → Pod) : (s.modPod i f).downOut = s.downOut := rfl
@[simp] theorem modPod_rings (s : State) (i : PodNo) (f : Pod → Pod) : (s.modPod i f).rings = s.rings := rfl
@[simp] theorem modPod_cueQueue (s : State) (i : PodNo) (f : Pod → Pod) : (s.modPod i f).cueQueue = s.cueQueue := rfl
@[simp] theorem modPod_cueCounters (s : State) (i : PodNo) (f : Pod → Pod) : (s.modPod i f).cueCounters = s.cueCounters := rfl
@[simp] theorem modPod_clips (s : State) (i : PodNo) (f : Pod → Pod) : (s.modPod i f).clips = s.clips := rfl
@[simp] theorem modPod_ready (s : State) (i : PodNo) (f : Pod → Pod) : (s.modPod i f).ready = s.ready := rfl
@[simp] theorem modPod_watch (s : State) (i : PodNo) (f : Pod → Pod) : (s.modPod i f).watch = s.watch := rfl
@[simp] theorem modPod_channels (s : State) (i : PodNo) (f : Pod → Pod) : (s.modPod i f).channels = s.channels := rfl
@[simp] theorem modPod_alert (s : State) (i : PodNo) (f : Pod → Pod) : (s.modPod i f).alert = s.alert := rfl
@[simp] theorem modPod_asRun (s : State) (i : PodNo) (f : Pod → Pod) : (s.modPod i f).asRun = s.asRun := rfl
@[simp] theorem modPod_flags (s : State) (i : PodNo) (f : Pod → Pod) : (s.modPod i f).flags = s.flags := rfl
@[simp] theorem modPod_enables (s : State) (i : PodNo) (f : Pod → Pod) : (s.modPod i f).enables = s.enables := rfl
@[simp] theorem modPod_lastCommand (s : State) (i : PodNo) (f : Pod → Pod) : (s.modPod i f).lastCommand = s.lastCommand := rfl
@[simp] theorem modPod_lastRefused (s : State) (i : PodNo) (f : Pod → Pod) : (s.modPod i f).lastRefused = s.lastRefused := rfl
@[simp] theorem modPod_freeCount (s : State) (i : PodNo) (f : Pod → Pod) : (s.modPod i f).freeCount = s.freeCount := rfl
@[simp] theorem modPod_pending (s : State) (i : PodNo) (f : Pod → Pod) : (s.modPod i f).pending = s.pending := rfl
@[simp] theorem modPod_ring (s : State) (i : PodNo) (f : Pod → Pod) (r : RingNo) : (s.modPod i f).ring r = s.ring r := rfl
@[simp] theorem modPod_clip (s : State) (i : PodNo) (f : Pod → Pod) (n : ClipNo) : (s.modPod i f).clip n = s.clip n := rfl
@[simp] theorem modPod_readyList (s : State) (i : PodNo) (f : Pod → Pod) (c : ChanNo) : (s.modPod i f).readyList c = s.readyList c := rfl
@[simp] theorem modPod_watchList (s : State) (i : PodNo) (f : Pod → Pod) (r : RingNo) : (s.modPod i f).watchList r = s.watchList r := rfl
@[simp] theorem modPod_chan (s : State) (i : PodNo) (f : Pod → Pod) (c : ChanNo) : (s.modPod i f).chan c = s.chan c := rfl

/-! ### modChan -/

@[simp] theorem modChan_rstLow (s : State) (i : ChanNo) (f : Channel → Channel) : (s.modChan i f).rstLow = s.rstLow := rfl
@[simp] theorem modChan_straps (s : State) (i : ChanNo) (f : Channel → Channel) : (s.modChan i f).straps = s.straps := rfl
@[simp] theorem modChan_outstanding (s : State) (i : ChanNo) (f : Channel → Channel) : (s.modChan i f).outstanding = s.outstanding := rfl
@[simp] theorem modChan_abandoned (s : State) (i : ChanNo) (f : Channel → Channel) : (s.modChan i f).abandoned = s.abandoned := rfl
@[simp] theorem modChan_upOut (s : State) (i : ChanNo) (f : Channel → Channel) : (s.modChan i f).upOut = s.upOut := rfl
@[simp] theorem modChan_downOut (s : State) (i : ChanNo) (f : Channel → Channel) : (s.modChan i f).downOut = s.downOut := rfl
@[simp] theorem modChan_rings (s : State) (i : ChanNo) (f : Channel → Channel) : (s.modChan i f).rings = s.rings := rfl
@[simp] theorem modChan_cueQueue (s : State) (i : ChanNo) (f : Channel → Channel) : (s.modChan i f).cueQueue = s.cueQueue := rfl
@[simp] theorem modChan_cueCounters (s : State) (i : ChanNo) (f : Channel → Channel) : (s.modChan i f).cueCounters = s.cueCounters := rfl
@[simp] theorem modChan_clips (s : State) (i : ChanNo) (f : Channel → Channel) : (s.modChan i f).clips = s.clips := rfl
@[simp] theorem modChan_pods (s : State) (i : ChanNo) (f : Channel → Channel) : (s.modChan i f).pods = s.pods := rfl
@[simp] theorem modChan_ready (s : State) (i : ChanNo) (f : Channel → Channel) : (s.modChan i f).ready = s.ready := rfl
@[simp] theorem modChan_watch (s : State) (i : ChanNo) (f : Channel → Channel) : (s.modChan i f).watch = s.watch := rfl
@[simp] theorem modChan_alert (s : State) (i : ChanNo) (f : Channel → Channel) : (s.modChan i f).alert = s.alert := rfl
@[simp] theorem modChan_asRun (s : State) (i : ChanNo) (f : Channel → Channel) : (s.modChan i f).asRun = s.asRun := rfl
@[simp] theorem modChan_flags (s : State) (i : ChanNo) (f : Channel → Channel) : (s.modChan i f).flags = s.flags := rfl
@[simp] theorem modChan_enables (s : State) (i : ChanNo) (f : Channel → Channel) : (s.modChan i f).enables = s.enables := rfl
@[simp] theorem modChan_lastCommand (s : State) (i : ChanNo) (f : Channel → Channel) : (s.modChan i f).lastCommand = s.lastCommand := rfl
@[simp] theorem modChan_lastRefused (s : State) (i : ChanNo) (f : Channel → Channel) : (s.modChan i f).lastRefused = s.lastRefused := rfl
@[simp] theorem modChan_freeCount (s : State) (i : ChanNo) (f : Channel → Channel) : (s.modChan i f).freeCount = s.freeCount := rfl
@[simp] theorem modChan_pending (s : State) (i : ChanNo) (f : Channel → Channel) : (s.modChan i f).pending = s.pending := rfl
@[simp] theorem modChan_ring (s : State) (i : ChanNo) (f : Channel → Channel) (r : RingNo) : (s.modChan i f).ring r = s.ring r := rfl
@[simp] theorem modChan_clip (s : State) (i : ChanNo) (f : Channel → Channel) (n : ClipNo) : (s.modChan i f).clip n = s.clip n := rfl
@[simp] theorem modChan_pod (s : State) (i : ChanNo) (f : Channel → Channel) (p : PodNo) : (s.modChan i f).pod p = s.pod p := rfl
@[simp] theorem modChan_readyList (s : State) (i : ChanNo) (f : Channel → Channel) (c : ChanNo) : (s.modChan i f).readyList c = s.readyList c := rfl
@[simp] theorem modChan_watchList (s : State) (i : ChanNo) (f : Channel → Channel) (r : RingNo) : (s.modChan i f).watchList r = s.watchList r := rfl

/-! ### setFlag -/

@[simp] theorem setFlag_rstLow (g : Flag) (s : State) : (setFlag g s).rstLow = s.rstLow := rfl
@[simp] theorem setFlag_straps (g : Flag) (s : State) : (setFlag g s).straps = s.straps := rfl
@[simp] theorem setFlag_outstanding (g : Flag) (s : State) : (setFlag g s).outstanding = s.outstanding := rfl
@[simp] theorem setFlag_abandoned (g : Flag) (s : State) : (setFlag g s).abandoned = s.abandoned := rfl
@[simp] theorem setFlag_upOut (g : Flag) (s : State) : (setFlag g s).upOut = s.upOut := rfl
@[simp] theorem setFlag_downOut (g : Flag) (s : State) : (setFlag g s).downOut = s.downOut := rfl
@[simp] theorem setFlag_rings (g : Flag) (s : State) : (setFlag g s).rings = s.rings := rfl
@[simp] theorem setFlag_cueQueue (g : Flag) (s : State) : (setFlag g s).cueQueue = s.cueQueue := rfl
@[simp] theorem setFlag_cueCounters (g : Flag) (s : State) : (setFlag g s).cueCounters = s.cueCounters := rfl
@[simp] theorem setFlag_clips (g : Flag) (s : State) : (setFlag g s).clips = s.clips := rfl
@[simp] theorem setFlag_pods (g : Flag) (s : State) : (setFlag g s).pods = s.pods := rfl
@[simp] theorem setFlag_ready (g : Flag) (s : State) : (setFlag g s).ready = s.ready := rfl
@[simp] theorem setFlag_watch (g : Flag) (s : State) : (setFlag g s).watch = s.watch := rfl
@[simp] theorem setFlag_channels (g : Flag) (s : State) : (setFlag g s).channels = s.channels := rfl
@[simp] theorem setFlag_alert (g : Flag) (s : State) : (setFlag g s).alert = s.alert := rfl
@[simp] theorem setFlag_asRun (g : Flag) (s : State) : (setFlag g s).asRun = s.asRun := rfl
@[simp] theorem setFlag_enables (g : Flag) (s : State) : (setFlag g s).enables = s.enables := rfl
@[simp] theorem setFlag_lastCommand (g : Flag) (s : State) : (setFlag g s).lastCommand = s.lastCommand := rfl
@[simp] theorem setFlag_lastRefused (g : Flag) (s : State) : (setFlag g s).lastRefused = s.lastRefused := rfl
@[simp] theorem setFlag_freeCount (g : Flag) (s : State) : (setFlag g s).freeCount = s.freeCount := rfl
@[simp] theorem setFlag_pending (g : Flag) (s : State) : (setFlag g s).pending = s.pending := rfl
@[simp] theorem setFlag_ring (g : Flag) (s : State) (r : RingNo) : (setFlag g s).ring r = s.ring r := rfl
@[simp] theorem setFlag_clip (g : Flag) (s : State) (n : ClipNo) : (setFlag g s).clip n = s.clip n := rfl
@[simp] theorem setFlag_pod (g : Flag) (s : State) (p : PodNo) : (setFlag g s).pod p = s.pod p := rfl
@[simp] theorem setFlag_readyList (g : Flag) (s : State) (c : ChanNo) : (setFlag g s).readyList c = s.readyList c := rfl
@[simp] theorem setFlag_watchList (g : Flag) (s : State) (r : RingNo) : (setFlag g s).watchList r = s.watchList r := rfl
@[simp] theorem setFlag_chan (g : Flag) (s : State) (c : ChanNo) : (setFlag g s).chan c = s.chan c := rfl

/-! ### asRunPush -/

@[simp] theorem asRunPush_rstLow (a : AsRunRecord) (s : State) : (asRunPush a s).rstLow = s.rstLow := rfl
@[simp] theorem asRunPush_straps (a : AsRunRecord) (s : State) : (asRunPush a s).straps = s.straps := rfl
@[simp] theorem asRunPush_outstanding (a : AsRunRecord) (s : State) : (asRunPush a s).outstanding = s.outstanding := rfl
@[simp] theorem asRunPush_abandoned (a : AsRunRecord) (s : State) : (asRunPush a s).abandoned = s.abandoned := rfl
@[simp] theorem asRunPush_upOut (a : AsRunRecord) (s : State) : (asRunPush a s).upOut = s.upOut := rfl
@[simp] theorem asRunPush_downOut (a : AsRunRecord) (s : State) : (asRunPush a s).downOut = s.downOut := rfl
@[simp] theorem asRunPush_rings (a : AsRunRecord) (s : State) : (asRunPush a s).rings = s.rings := rfl
@[simp] theorem asRunPush_cueQueue (a : AsRunRecord) (s : State) : (asRunPush a s).cueQueue = s.cueQueue := rfl
@[simp] theorem asRunPush_cueCounters (a : AsRunRecord) (s : State) : (asRunPush a s).cueCounters = s.cueCounters := rfl
@[simp] theorem asRunPush_clips (a : AsRunRecord) (s : State) : (asRunPush a s).clips = s.clips := rfl
@[simp] theorem asRunPush_pods (a : AsRunRecord) (s : State) : (asRunPush a s).pods = s.pods := rfl
@[simp] theorem asRunPush_ready (a : AsRunRecord) (s : State) : (asRunPush a s).ready = s.ready := rfl
@[simp] theorem asRunPush_watch (a : AsRunRecord) (s : State) : (asRunPush a s).watch = s.watch := rfl
@[simp] theorem asRunPush_channels (a : AsRunRecord) (s : State) : (asRunPush a s).channels = s.channels := rfl
@[simp] theorem asRunPush_alert (a : AsRunRecord) (s : State) : (asRunPush a s).alert = s.alert := rfl
@[simp] theorem asRunPush_enables (a : AsRunRecord) (s : State) : (asRunPush a s).enables = s.enables := rfl
@[simp] theorem asRunPush_lastCommand (a : AsRunRecord) (s : State) : (asRunPush a s).lastCommand = s.lastCommand := rfl
@[simp] theorem asRunPush_lastRefused (a : AsRunRecord) (s : State) : (asRunPush a s).lastRefused = s.lastRefused := rfl
@[simp] theorem asRunPush_freeCount (a : AsRunRecord) (s : State) : (asRunPush a s).freeCount = s.freeCount := rfl
@[simp] theorem asRunPush_pending (a : AsRunRecord) (s : State) : (asRunPush a s).pending = s.pending := rfl
@[simp] theorem asRunPush_ring (a : AsRunRecord) (s : State) (r : RingNo) : (asRunPush a s).ring r = s.ring r := rfl
@[simp] theorem asRunPush_clip (a : AsRunRecord) (s : State) (n : ClipNo) : (asRunPush a s).clip n = s.clip n := rfl
@[simp] theorem asRunPush_pod (a : AsRunRecord) (s : State) (p : PodNo) : (asRunPush a s).pod p = s.pod p := rfl
@[simp] theorem asRunPush_readyList (a : AsRunRecord) (s : State) (c : ChanNo) : (asRunPush a s).readyList c = s.readyList c := rfl
@[simp] theorem asRunPush_watchList (a : AsRunRecord) (s : State) (r : RingNo) : (asRunPush a s).watchList r = s.watchList r := rfl
@[simp] theorem asRunPush_chan (a : AsRunRecord) (s : State) (c : ChanNo) : (asRunPush a s).chan c = s.chan c := rfl

/-! ### refuse -/

@[simp] theorem refuse_rstLow (a : Addr) (why : RefuseReason) (s : State) : (refuse a why s).rstLow = s.rstLow := rfl
@[simp] theorem refuse_straps (a : Addr) (why : RefuseReason) (s : State) : (refuse a why s).straps = s.straps := rfl
@[simp] theorem refuse_outstanding (a : Addr) (why : RefuseReason) (s : State) : (refuse a why s).outstanding = s.outstanding := rfl
@[simp] theorem refuse_abandoned (a : Addr) (why : RefuseReason) (s : State) : (refuse a why s).abandoned = s.abandoned := rfl
@[simp] theorem refuse_upOut (a : Addr) (why : RefuseReason) (s : State) : (refuse a why s).upOut = s.upOut := rfl
@[simp] theorem refuse_downOut (a : Addr) (why : RefuseReason) (s : State) : (refuse a why s).downOut = s.downOut := rfl
@[simp] theorem refuse_rings (a : Addr) (why : RefuseReason) (s : State) : (refuse a why s).rings = s.rings := rfl
@[simp] theorem refuse_cueQueue (a : Addr) (why : RefuseReason) (s : State) : (refuse a why s).cueQueue = s.cueQueue := rfl
@[simp] theorem refuse_cueCounters (a : Addr) (why : RefuseReason) (s : State) : (refuse a why s).cueCounters = s.cueCounters := rfl
@[simp] theorem refuse_clips (a : Addr) (why : RefuseReason) (s : State) : (refuse a why s).clips = s.clips := rfl
@[simp] theorem refuse_pods (a : Addr) (why : RefuseReason) (s : State) : (refuse a why s).pods = s.pods := rfl
@[simp] theorem refuse_ready (a : Addr) (why : RefuseReason) (s : State) : (refuse a why s).ready = s.ready := rfl
@[simp] theorem refuse_watch (a : Addr) (why : RefuseReason) (s : State) : (refuse a why s).watch = s.watch := rfl
@[simp] theorem refuse_channels (a : Addr) (why : RefuseReason) (s : State) : (refuse a why s).channels = s.channels := rfl
@[simp] theorem refuse_alert (a : Addr) (why : RefuseReason) (s : State) : (refuse a why s).alert = s.alert := rfl
@[simp] theorem refuse_asRun (a : Addr) (why : RefuseReason) (s : State) : (refuse a why s).asRun = s.asRun := rfl
@[simp] theorem refuse_enables (a : Addr) (why : RefuseReason) (s : State) : (refuse a why s).enables = s.enables := rfl
@[simp] theorem refuse_lastCommand (a : Addr) (why : RefuseReason) (s : State) : (refuse a why s).lastCommand = s.lastCommand := rfl
@[simp] theorem refuse_freeCount (a : Addr) (why : RefuseReason) (s : State) : (refuse a why s).freeCount = s.freeCount := rfl
@[simp] theorem refuse_pending (a : Addr) (why : RefuseReason) (s : State) : (refuse a why s).pending = s.pending := rfl
@[simp] theorem refuse_ring (a : Addr) (why : RefuseReason) (s : State) (r : RingNo) : (refuse a why s).ring r = s.ring r := rfl
@[simp] theorem refuse_clip (a : Addr) (why : RefuseReason) (s : State) (n : ClipNo) : (refuse a why s).clip n = s.clip n := rfl
@[simp] theorem refuse_pod (a : Addr) (why : RefuseReason) (s : State) (p : PodNo) : (refuse a why s).pod p = s.pod p := rfl
@[simp] theorem refuse_readyList (a : Addr) (why : RefuseReason) (s : State) (c : ChanNo) : (refuse a why s).readyList c = s.readyList c := rfl
@[simp] theorem refuse_watchList (a : Addr) (why : RefuseReason) (s : State) (r : RingNo) : (refuse a why s).watchList r = s.watchList r := rfl
@[simp] theorem refuse_chan (a : Addr) (why : RefuseReason) (s : State) (c : ChanNo) : (refuse a why s).chan c = s.chan c := rfl

/-! ### countOrder -/

@[simp] theorem countOrder_rstLow (i : RingNo) (s : State) : (countOrder i s).rstLow = s.rstLow := rfl
@[simp] theorem countOrder_straps (i : RingNo) (s : State) : (countOrder i s).straps = s.straps := rfl
@[simp] theorem countOrder_outstanding (i : RingNo) (s : State) : (countOrder i s).outstanding = s.outstanding := rfl
@[simp] theorem countOrder_abandoned (i : RingNo) (s : State) : (countOrder i s).abandoned = s.abandoned := rfl
@[simp] theorem countOrder_upOut (i : RingNo) (s : State) : (countOrder i s).upOut = s.upOut := rfl
@[simp] theorem countOrder_downOut (i : RingNo) (s : State) : (countOrder i s).downOut = s.downOut := rfl
@[simp] theorem countOrder_cueQueue (i : RingNo) (s : State) : (countOrder i s).cueQueue = s.cueQueue := rfl
@[simp] theorem countOrder_cueCounters (i : RingNo) (s : State) : (countOrder i s).cueCounters = s.cueCounters := rfl
@[simp] theorem countOrder_clips (i : RingNo) (s : State) : (countOrder i s).clips = s.clips := rfl
@[simp] theorem countOrder_pods (i : RingNo) (s : State) : (countOrder i s).pods = s.pods := rfl
@[simp] theorem countOrder_ready (i : RingNo) (s : State) : (countOrder i s).ready = s.ready := rfl
@[simp] theorem countOrder_watch (i : RingNo) (s : State) : (countOrder i s).watch = s.watch := rfl
@[simp] theorem countOrder_channels (i : RingNo) (s : State) : (countOrder i s).channels = s.channels := rfl
@[simp] theorem countOrder_alert (i : RingNo) (s : State) : (countOrder i s).alert = s.alert := rfl
@[simp] theorem countOrder_asRun (i : RingNo) (s : State) : (countOrder i s).asRun = s.asRun := rfl
@[simp] theorem countOrder_enables (i : RingNo) (s : State) : (countOrder i s).enables = s.enables := rfl
@[simp] theorem countOrder_lastCommand (i : RingNo) (s : State) : (countOrder i s).lastCommand = s.lastCommand := rfl
@[simp] theorem countOrder_lastRefused (i : RingNo) (s : State) : (countOrder i s).lastRefused = s.lastRefused := rfl
@[simp] theorem countOrder_freeCount (i : RingNo) (s : State) : (countOrder i s).freeCount = s.freeCount := rfl
@[simp] theorem countOrder_pending (i : RingNo) (s : State) : (countOrder i s).pending = s.pending := rfl
@[simp] theorem countOrder_clip (i : RingNo) (s : State) (n : ClipNo) : (countOrder i s).clip n = s.clip n := rfl
@[simp] theorem countOrder_pod (i : RingNo) (s : State) (p : PodNo) : (countOrder i s).pod p = s.pod p := rfl
@[simp] theorem countOrder_readyList (i : RingNo) (s : State) (c : ChanNo) : (countOrder i s).readyList c = s.readyList c := rfl
@[simp] theorem countOrder_watchList (i : RingNo) (s : State) (r : RingNo) : (countOrder i s).watchList r = s.watchList r := rfl
@[simp] theorem countOrder_chan (i : RingNo) (s : State) (c : ChanNo) : (countOrder i s).chan c = s.chan c := rfl

/-! ### dropEntries -/

@[simp] theorem dropEntries_rstLow (g : WatchEntry → Bool) (s : State) : (dropEntries g s).rstLow = s.rstLow := rfl
@[simp] theorem dropEntries_straps (g : WatchEntry → Bool) (s : State) : (dropEntries g s).straps = s.straps := rfl
@[simp] theorem dropEntries_outstanding (g : WatchEntry → Bool) (s : State) : (dropEntries g s).outstanding = s.outstanding := rfl
@[simp] theorem dropEntries_abandoned (g : WatchEntry → Bool) (s : State) : (dropEntries g s).abandoned = s.abandoned := rfl
@[simp] theorem dropEntries_upOut (g : WatchEntry → Bool) (s : State) : (dropEntries g s).upOut = s.upOut := rfl
@[simp] theorem dropEntries_downOut (g : WatchEntry → Bool) (s : State) : (dropEntries g s).downOut = s.downOut := rfl
@[simp] theorem dropEntries_rings (g : WatchEntry → Bool) (s : State) : (dropEntries g s).rings = s.rings := rfl
@[simp] theorem dropEntries_cueQueue (g : WatchEntry → Bool) (s : State) : (dropEntries g s).cueQueue = s.cueQueue := rfl
@[simp] theorem dropEntries_cueCounters (g : WatchEntry → Bool) (s : State) : (dropEntries g s).cueCounters = s.cueCounters := rfl
@[simp] theorem dropEntries_clips (g : WatchEntry → Bool) (s : State) : (dropEntries g s).clips = s.clips := rfl
@[simp] theorem dropEntries_pods (g : WatchEntry → Bool) (s : State) : (dropEntries g s).pods = s.pods := rfl
@[simp] theorem dropEntries_ready (g : WatchEntry → Bool) (s : State) : (dropEntries g s).ready = s.ready := rfl
@[simp] theorem dropEntries_channels (g : WatchEntry → Bool) (s : State) : (dropEntries g s).channels = s.channels := rfl
@[simp] theorem dropEntries_alert (g : WatchEntry → Bool) (s : State) : (dropEntries g s).alert = s.alert := rfl
@[simp] theorem dropEntries_asRun (g : WatchEntry → Bool) (s : State) : (dropEntries g s).asRun = s.asRun := rfl
@[simp] theorem dropEntries_flags (g : WatchEntry → Bool) (s : State) : (dropEntries g s).flags = s.flags := rfl
@[simp] theorem dropEntries_enables (g : WatchEntry → Bool) (s : State) : (dropEntries g s).enables = s.enables := rfl
@[simp] theorem dropEntries_lastCommand (g : WatchEntry → Bool) (s : State) : (dropEntries g s).lastCommand = s.lastCommand := rfl
@[simp] theorem dropEntries_lastRefused (g : WatchEntry → Bool) (s : State) : (dropEntries g s).lastRefused = s.lastRefused := rfl
@[simp] theorem dropEntries_freeCount (g : WatchEntry → Bool) (s : State) : (dropEntries g s).freeCount = s.freeCount := rfl
@[simp] theorem dropEntries_pending (g : WatchEntry → Bool) (s : State) : (dropEntries g s).pending = s.pending := rfl
@[simp] theorem dropEntries_ring (g : WatchEntry → Bool) (s : State) (r : RingNo) : (dropEntries g s).ring r = s.ring r := rfl
@[simp] theorem dropEntries_clip (g : WatchEntry → Bool) (s : State) (n : ClipNo) : (dropEntries g s).clip n = s.clip n := rfl
@[simp] theorem dropEntries_pod (g : WatchEntry → Bool) (s : State) (p : PodNo) : (dropEntries g s).pod p = s.pod p := rfl
@[simp] theorem dropEntries_readyList (g : WatchEntry → Bool) (s : State) (c : ChanNo) : (dropEntries g s).readyList c = s.readyList c := rfl
@[simp] theorem dropEntries_chan (g : WatchEntry → Bool) (s : State) (c : ChanNo) : (dropEntries g s).chan c = s.chan c := rfl

/-! ### dropPoints -/

@[simp] theorem dropPoints_rstLow (i : ChanNo) (g : SwitchPoint → Bool) (s : State) : (dropPoints i g s).rstLow = s.rstLow := rfl
@[simp] theorem dropPoints_straps (i : ChanNo) (g : SwitchPoint → Bool) (s : State) : (dropPoints i g s).straps = s.straps := rfl
@[simp] theorem dropPoints_outstanding (i : ChanNo) (g : SwitchPoint → Bool) (s : State) : (dropPoints i g s).outstanding = s.outstanding := rfl
@[simp] theorem dropPoints_abandoned (i : ChanNo) (g : SwitchPoint → Bool) (s : State) : (dropPoints i g s).abandoned = s.abandoned := rfl
@[simp] theorem dropPoints_upOut (i : ChanNo) (g : SwitchPoint → Bool) (s : State) : (dropPoints i g s).upOut = s.upOut := rfl
@[simp] theorem dropPoints_downOut (i : ChanNo) (g : SwitchPoint → Bool) (s : State) : (dropPoints i g s).downOut = s.downOut := rfl
@[simp] theorem dropPoints_rings (i : ChanNo) (g : SwitchPoint → Bool) (s : State) : (dropPoints i g s).rings = s.rings := rfl
@[simp] theorem dropPoints_cueQueue (i : ChanNo) (g : SwitchPoint → Bool) (s : State) : (dropPoints i g s).cueQueue = s.cueQueue := rfl
@[simp] theorem dropPoints_cueCounters (i : ChanNo) (g : SwitchPoint → Bool) (s : State) : (dropPoints i g s).cueCounters = s.cueCounters := rfl
@[simp] theorem dropPoints_clips (i : ChanNo) (g : SwitchPoint → Bool) (s : State) : (dropPoints i g s).clips = s.clips := rfl
@[simp] theorem dropPoints_pods (i : ChanNo) (g : SwitchPoint → Bool) (s : State) : (dropPoints i g s).pods = s.pods := rfl
@[simp] theorem dropPoints_ready (i : ChanNo) (g : SwitchPoint → Bool) (s : State) : (dropPoints i g s).ready = s.ready := rfl
@[simp] theorem dropPoints_watch (i : ChanNo) (g : SwitchPoint → Bool) (s : State) : (dropPoints i g s).watch = s.watch := rfl
@[simp] theorem dropPoints_alert (i : ChanNo) (g : SwitchPoint → Bool) (s : State) : (dropPoints i g s).alert = s.alert := rfl
@[simp] theorem dropPoints_asRun (i : ChanNo) (g : SwitchPoint → Bool) (s : State) : (dropPoints i g s).asRun = s.asRun := rfl
@[simp] theorem dropPoints_flags (i : ChanNo) (g : SwitchPoint → Bool) (s : State) : (dropPoints i g s).flags = s.flags := rfl
@[simp] theorem dropPoints_enables (i : ChanNo) (g : SwitchPoint → Bool) (s : State) : (dropPoints i g s).enables = s.enables := rfl
@[simp] theorem dropPoints_lastCommand (i : ChanNo) (g : SwitchPoint → Bool) (s : State) : (dropPoints i g s).lastCommand = s.lastCommand := rfl
@[simp] theorem dropPoints_lastRefused (i : ChanNo) (g : SwitchPoint → Bool) (s : State) : (dropPoints i g s).lastRefused = s.lastRefused := rfl
@[simp] theorem dropPoints_freeCount (i : ChanNo) (g : SwitchPoint → Bool) (s : State) : (dropPoints i g s).freeCount = s.freeCount := rfl
@[simp] theorem dropPoints_pending (i : ChanNo) (g : SwitchPoint → Bool) (s : State) : (dropPoints i g s).pending = s.pending := rfl
@[simp] theorem dropPoints_ring (i : ChanNo) (g : SwitchPoint → Bool) (s : State) (r : RingNo) : (dropPoints i g s).ring r = s.ring r := rfl
@[simp] theorem dropPoints_clip (i : ChanNo) (g : SwitchPoint → Bool) (s : State) (n : ClipNo) : (dropPoints i g s).clip n = s.clip n := rfl
@[simp] theorem dropPoints_pod (i : ChanNo) (g : SwitchPoint → Bool) (s : State) (p : PodNo) : (dropPoints i g s).pod p = s.pod p := rfl
@[simp] theorem dropPoints_readyList (i : ChanNo) (g : SwitchPoint → Bool) (s : State) (c : ChanNo) : (dropPoints i g s).readyList c = s.readyList c := rfl
@[simp] theorem dropPoints_watchList (i : ChanNo) (g : SwitchPoint → Bool) (s : State) (r : RingNo) : (dropPoints i g s).watchList r = s.watchList r := rfl

/-! ### modSpot -/

@[simp] theorem modSpot_rstLow (i : PodNo) (k : SpotNo) (f : SpotInfo → SpotInfo) (s : State) : (modSpot i k f s).rstLow = s.rstLow := rfl
@[simp] theorem modSpot_straps (i : PodNo) (k : SpotNo) (f : SpotInfo → SpotInfo) (s : State) : (modSpot i k f s).straps = s.straps := rfl
@[simp] theorem modSpot_outstanding (i : PodNo) (k : SpotNo) (f : SpotInfo → SpotInfo) (s : State) : (modSpot i k f s).outstanding = s.outstanding := rfl
@[simp] theorem modSpot_abandoned (i : PodNo) (k : SpotNo) (f : SpotInfo → SpotInfo) (s : State) : (modSpot i k f s).abandoned = s.abandoned := rfl
@[simp] theorem modSpot_upOut (i : PodNo) (k : SpotNo) (f : SpotInfo → SpotInfo) (s : State) : (modSpot i k f s).upOut = s.upOut := rfl
@[simp] theorem modSpot_downOut (i : PodNo) (k : SpotNo) (f : SpotInfo → SpotInfo) (s : State) : (modSpot i k f s).downOut = s.downOut := rfl
@[simp] theorem modSpot_rings (i : PodNo) (k : SpotNo) (f : SpotInfo → SpotInfo) (s : State) : (modSpot i k f s).rings = s.rings := rfl
@[simp] theorem modSpot_cueQueue (i : PodNo) (k : SpotNo) (f : SpotInfo → SpotInfo) (s : State) : (modSpot i k f s).cueQueue = s.cueQueue := rfl
@[simp] theorem modSpot_cueCounters (i : PodNo) (k : SpotNo) (f : SpotInfo → SpotInfo) (s : State) : (modSpot i k f s).cueCounters = s.cueCounters := rfl
@[simp] theorem modSpot_clips (i : PodNo) (k : SpotNo) (f : SpotInfo → SpotInfo) (s : State) : (modSpot i k f s).clips = s.clips := rfl
@[simp] theorem modSpot_ready (i : PodNo) (k : SpotNo) (f : SpotInfo → SpotInfo) (s : State) : (modSpot i k f s).ready = s.ready := rfl
@[simp] theorem modSpot_watch (i : PodNo) (k : SpotNo) (f : SpotInfo → SpotInfo) (s : State) : (modSpot i k f s).watch = s.watch := rfl
@[simp] theorem modSpot_channels (i : PodNo) (k : SpotNo) (f : SpotInfo → SpotInfo) (s : State) : (modSpot i k f s).channels = s.channels := rfl
@[simp] theorem modSpot_alert (i : PodNo) (k : SpotNo) (f : SpotInfo → SpotInfo) (s : State) : (modSpot i k f s).alert = s.alert := rfl
@[simp] theorem modSpot_asRun (i : PodNo) (k : SpotNo) (f : SpotInfo → SpotInfo) (s : State) : (modSpot i k f s).asRun = s.asRun := rfl
@[simp] theorem modSpot_flags (i : PodNo) (k : SpotNo) (f : SpotInfo → SpotInfo) (s : State) : (modSpot i k f s).flags = s.flags := rfl
@[simp] theorem modSpot_enables (i : PodNo) (k : SpotNo) (f : SpotInfo → SpotInfo) (s : State) : (modSpot i k f s).enables = s.enables := rfl
@[simp] theorem modSpot_lastCommand (i : PodNo) (k : SpotNo) (f : SpotInfo → SpotInfo) (s : State) : (modSpot i k f s).lastCommand = s.lastCommand := rfl
@[simp] theorem modSpot_lastRefused (i : PodNo) (k : SpotNo) (f : SpotInfo → SpotInfo) (s : State) : (modSpot i k f s).lastRefused = s.lastRefused := rfl
@[simp] theorem modSpot_freeCount (i : PodNo) (k : SpotNo) (f : SpotInfo → SpotInfo) (s : State) : (modSpot i k f s).freeCount = s.freeCount := rfl
@[simp] theorem modSpot_pending (i : PodNo) (k : SpotNo) (f : SpotInfo → SpotInfo) (s : State) : (modSpot i k f s).pending = s.pending := rfl
@[simp] theorem modSpot_ring (i : PodNo) (k : SpotNo) (f : SpotInfo → SpotInfo) (s : State) (r : RingNo) : (modSpot i k f s).ring r = s.ring r := rfl
@[simp] theorem modSpot_clip (i : PodNo) (k : SpotNo) (f : SpotInfo → SpotInfo) (s : State) (n : ClipNo) : (modSpot i k f s).clip n = s.clip n := rfl
@[simp] theorem modSpot_readyList (i : PodNo) (k : SpotNo) (f : SpotInfo → SpotInfo) (s : State) (c : ChanNo) : (modSpot i k f s).readyList c = s.readyList c := rfl
@[simp] theorem modSpot_watchList (i : PodNo) (k : SpotNo) (f : SpotInfo → SpotInfo) (s : State) (r : RingNo) : (modSpot i k f s).watchList r = s.watchList r := rfl
@[simp] theorem modSpot_chan (i : PodNo) (k : SpotNo) (f : SpotInfo → SpotInfo) (s : State) (c : ChanNo) : (modSpot i k f s).chan c = s.chan c := rfl

/-! ### modCue -/

@[simp] theorem modCue_rstLow (f : CueCounters → CueCounters) (s : State) : (modCue f s).rstLow = s.rstLow := rfl
@[simp] theorem modCue_straps (f : CueCounters → CueCounters) (s : State) : (modCue f s).straps = s.straps := rfl
@[simp] theorem modCue_outstanding (f : CueCounters → CueCounters) (s : State) : (modCue f s).outstanding = s.outstanding := rfl
@[simp] theorem modCue_abandoned (f : CueCounters → CueCounters) (s : State) : (modCue f s).abandoned = s.abandoned := rfl
@[simp] theorem modCue_upOut (f : CueCounters → CueCounters) (s : State) : (modCue f s).upOut = s.upOut := rfl
@[simp] theorem modCue_downOut (f : CueCounters → CueCounters) (s : State) : (modCue f s).downOut = s.downOut := rfl
@[simp] theorem modCue_rings (f : CueCounters → CueCounters) (s : State) : (modCue f s).rings = s.rings := rfl
@[simp] theorem modCue_cueQueue (f : CueCounters → CueCounters) (s : State) : (modCue f s).cueQueue = s.cueQueue := rfl
@[simp] theorem modCue_clips (f : CueCounters → CueCounters) (s : State) : (modCue f s).clips = s.clips := rfl
@[simp] theorem modCue_pods (f : CueCounters → CueCounters) (s : State) : (modCue f s).pods = s.pods := rfl
@[simp] theorem modCue_ready (f : CueCounters → CueCounters) (s : State) : (modCue f s).ready = s.ready := rfl
@[simp] theorem modCue_watch (f : CueCounters → CueCounters) (s : State) : (modCue f s).watch = s.watch := rfl
@[simp] theorem modCue_channels (f : CueCounters → CueCounters) (s : State) : (modCue f s).channels = s.channels := rfl
@[simp] theorem modCue_alert (f : CueCounters → CueCounters) (s : State) : (modCue f s).alert = s.alert := rfl
@[simp] theorem modCue_asRun (f : CueCounters → CueCounters) (s : State) : (modCue f s).asRun = s.asRun := rfl
@[simp] theorem modCue_flags (f : CueCounters → CueCounters) (s : State) : (modCue f s).flags = s.flags := rfl
@[simp] theorem modCue_enables (f : CueCounters → CueCounters) (s : State) : (modCue f s).enables = s.enables := rfl
@[simp] theorem modCue_lastCommand (f : CueCounters → CueCounters) (s : State) : (modCue f s).lastCommand = s.lastCommand := rfl
@[simp] theorem modCue_lastRefused (f : CueCounters → CueCounters) (s : State) : (modCue f s).lastRefused = s.lastRefused := rfl
@[simp] theorem modCue_freeCount (f : CueCounters → CueCounters) (s : State) : (modCue f s).freeCount = s.freeCount := rfl
@[simp] theorem modCue_pending (f : CueCounters → CueCounters) (s : State) : (modCue f s).pending = s.pending := rfl
@[simp] theorem modCue_ring (f : CueCounters → CueCounters) (s : State) (r : RingNo) : (modCue f s).ring r = s.ring r := rfl
@[simp] theorem modCue_clip (f : CueCounters → CueCounters) (s : State) (n : ClipNo) : (modCue f s).clip n = s.clip n := rfl
@[simp] theorem modCue_pod (f : CueCounters → CueCounters) (s : State) (p : PodNo) : (modCue f s).pod p = s.pod p := rfl
@[simp] theorem modCue_readyList (f : CueCounters → CueCounters) (s : State) (c : ChanNo) : (modCue f s).readyList c = s.readyList c := rfl
@[simp] theorem modCue_watchList (f : CueCounters → CueCounters) (s : State) (r : RingNo) : (modCue f s).watchList r = s.watchList r := rfl
@[simp] theorem modCue_chan (f : CueCounters → CueCounters) (s : State) (c : ChanNo) : (modCue f s).chan c = s.chan c := rfl

/-! ### modAlert -/

@[simp] theorem modAlert_rstLow (f : AlertCtl → AlertCtl) (s : State) : (modAlert f s).rstLow = s.rstLow := rfl
@[simp] theorem modAlert_straps (f : AlertCtl → AlertCtl) (s : State) : (modAlert f s).straps = s.straps := rfl
@[simp] theorem modAlert_outstanding (f : AlertCtl → AlertCtl) (s : State) : (modAlert f s).outstanding = s.outstanding := rfl
@[simp] theorem modAlert_abandoned (f : AlertCtl → AlertCtl) (s : State) : (modAlert f s).abandoned = s.abandoned := rfl
@[simp] theorem modAlert_upOut (f : AlertCtl → AlertCtl) (s : State) : (modAlert f s).upOut = s.upOut := rfl
@[simp] theorem modAlert_downOut (f : AlertCtl → AlertCtl) (s : State) : (modAlert f s).downOut = s.downOut := rfl
@[simp] theorem modAlert_rings (f : AlertCtl → AlertCtl) (s : State) : (modAlert f s).rings = s.rings := rfl
@[simp] theorem modAlert_cueQueue (f : AlertCtl → AlertCtl) (s : State) : (modAlert f s).cueQueue = s.cueQueue := rfl
@[simp] theorem modAlert_cueCounters (f : AlertCtl → AlertCtl) (s : State) : (modAlert f s).cueCounters = s.cueCounters := rfl
@[simp] theorem modAlert_clips (f : AlertCtl → AlertCtl) (s : State) : (modAlert f s).clips = s.clips := rfl
@[simp] theorem modAlert_pods (f : AlertCtl → AlertCtl) (s : State) : (modAlert f s).pods = s.pods := rfl
@[simp] theorem modAlert_ready (f : AlertCtl → AlertCtl) (s : State) : (modAlert f s).ready = s.ready := rfl
@[simp] theorem modAlert_watch (f : AlertCtl → AlertCtl) (s : State) : (modAlert f s).watch = s.watch := rfl
@[simp] theorem modAlert_channels (f : AlertCtl → AlertCtl) (s : State) : (modAlert f s).channels = s.channels := rfl
@[simp] theorem modAlert_asRun (f : AlertCtl → AlertCtl) (s : State) : (modAlert f s).asRun = s.asRun := rfl
@[simp] theorem modAlert_flags (f : AlertCtl → AlertCtl) (s : State) : (modAlert f s).flags = s.flags := rfl
@[simp] theorem modAlert_enables (f : AlertCtl → AlertCtl) (s : State) : (modAlert f s).enables = s.enables := rfl
@[simp] theorem modAlert_lastCommand (f : AlertCtl → AlertCtl) (s : State) : (modAlert f s).lastCommand = s.lastCommand := rfl
@[simp] theorem modAlert_lastRefused (f : AlertCtl → AlertCtl) (s : State) : (modAlert f s).lastRefused = s.lastRefused := rfl
@[simp] theorem modAlert_freeCount (f : AlertCtl → AlertCtl) (s : State) : (modAlert f s).freeCount = s.freeCount := rfl
@[simp] theorem modAlert_pending (f : AlertCtl → AlertCtl) (s : State) : (modAlert f s).pending = s.pending := rfl
@[simp] theorem modAlert_ring (f : AlertCtl → AlertCtl) (s : State) (r : RingNo) : (modAlert f s).ring r = s.ring r := rfl
@[simp] theorem modAlert_clip (f : AlertCtl → AlertCtl) (s : State) (n : ClipNo) : (modAlert f s).clip n = s.clip n := rfl
@[simp] theorem modAlert_pod (f : AlertCtl → AlertCtl) (s : State) (p : PodNo) : (modAlert f s).pod p = s.pod p := rfl
@[simp] theorem modAlert_readyList (f : AlertCtl → AlertCtl) (s : State) (c : ChanNo) : (modAlert f s).readyList c = s.readyList c := rfl
@[simp] theorem modAlert_watchList (f : AlertCtl → AlertCtl) (s : State) (r : RingNo) : (modAlert f s).watchList r = s.watchList r := rfl
@[simp] theorem modAlert_chan (f : AlertCtl → AlertCtl) (s : State) (c : ChanNo) : (modAlert f s).chan c = s.chan c := rfl

/-! ### quiet -/

@[simp] theorem quiet_rstLow (s : State) : (s.quiet).rstLow = s.rstLow := rfl
@[simp] theorem quiet_straps (s : State) : (s.quiet).straps = s.straps := rfl
@[simp] theorem quiet_outstanding (s : State) : (s.quiet).outstanding = s.outstanding := rfl
@[simp] theorem quiet_abandoned (s : State) : (s.quiet).abandoned = s.abandoned := rfl
@[simp] theorem quiet_rings (s : State) : (s.quiet).rings = s.rings := rfl
@[simp] theorem quiet_cueQueue (s : State) : (s.quiet).cueQueue = s.cueQueue := rfl
@[simp] theorem quiet_cueCounters (s : State) : (s.quiet).cueCounters = s.cueCounters := rfl
@[simp] theorem quiet_clips (s : State) : (s.quiet).clips = s.clips := rfl
@[simp] theorem quiet_pods (s : State) : (s.quiet).pods = s.pods := rfl
@[simp] theorem quiet_ready (s : State) : (s.quiet).ready = s.ready := rfl
@[simp] theorem quiet_watch (s : State) : (s.quiet).watch = s.watch := rfl
@[simp] theorem quiet_channels (s : State) : (s.quiet).channels = s.channels := rfl
@[simp] theorem quiet_alert (s : State) : (s.quiet).alert = s.alert := rfl
@[simp] theorem quiet_asRun (s : State) : (s.quiet).asRun = s.asRun := rfl
@[simp] theorem quiet_flags (s : State) : (s.quiet).flags = s.flags := rfl
@[simp] theorem quiet_enables (s : State) : (s.quiet).enables = s.enables := rfl
@[simp] theorem quiet_lastCommand (s : State) : (s.quiet).lastCommand = s.lastCommand := rfl
@[simp] theorem quiet_lastRefused (s : State) : (s.quiet).lastRefused = s.lastRefused := rfl
@[simp] theorem quiet_freeCount (s : State) : (s.quiet).freeCount = s.freeCount := rfl
@[simp] theorem quiet_pending (s : State) : (s.quiet).pending = s.pending := rfl
@[simp] theorem quiet_ring (s : State) (r : RingNo) : (s.quiet).ring r = s.ring r := rfl
@[simp] theorem quiet_clip (s : State) (n : ClipNo) : (s.quiet).clip n = s.clip n := rfl
@[simp] theorem quiet_pod (s : State) (p : PodNo) : (s.quiet).pod p = s.pod p := rfl
@[simp] theorem quiet_readyList (s : State) (c : ChanNo) : (s.quiet).readyList c = s.readyList c := rfl
@[simp] theorem quiet_watchList (s : State) (r : RingNo) : (s.quiet).watchList r = s.watchList r := rfl
@[simp] theorem quiet_chan (s : State) (c : ChanNo) : (s.quiet).chan c = s.chan c := rfl

/-! ### forward -/

@[simp] theorem forward_rstLow (q : Request) (s : State) : (forward q s).rstLow = s.rstLow := rfl
@[simp] theorem forward_straps (q : Request) (s : State) : (forward q s).straps = s.straps := rfl
@[simp] theorem forward_abandoned (q : Request) (s : State) : (forward q s).abandoned = s.abandoned := rfl
@[simp] theorem forward_upOut (q : Request) (s : State) : (forward q s).upOut = s.upOut := rfl
@[simp] theorem forward_rings (q : Request) (s : State) : (forward q s).rings = s.rings := rfl
@[simp] theorem forward_cueQueue (q : Request) (s : State) : (forward q s).cueQueue = s.cueQueue := rfl
@[simp] theorem forward_cueCounters (q : Request) (s : State) : (forward q s).cueCounters = s.cueCounters := rfl
@[simp] theorem forward_clips (q : Request) (s : State) : (forward q s).clips = s.clips := rfl
@[simp] theorem forward_pods (q : Request) (s : State) : (forward q s).pods = s.pods := rfl
@[simp] theorem forward_ready (q : Request) (s : State) : (forward q s).ready = s.ready := rfl
@[simp] theorem forward_watch (q : Request) (s : State) : (forward q s).watch = s.watch := rfl
@[simp] theorem forward_channels (q : Request) (s : State) : (forward q s).channels = s.channels := rfl
@[simp] theorem forward_alert (q : Request) (s : State) : (forward q s).alert = s.alert := rfl
@[simp] theorem forward_asRun (q : Request) (s : State) : (forward q s).asRun = s.asRun := rfl
@[simp] theorem forward_flags (q : Request) (s : State) : (forward q s).flags = s.flags := rfl
@[simp] theorem forward_enables (q : Request) (s : State) : (forward q s).enables = s.enables := rfl
@[simp] theorem forward_lastCommand (q : Request) (s : State) : (forward q s).lastCommand = s.lastCommand := rfl
@[simp] theorem forward_lastRefused (q : Request) (s : State) : (forward q s).lastRefused = s.lastRefused := rfl
@[simp] theorem forward_freeCount (q : Request) (s : State) : (forward q s).freeCount = s.freeCount := rfl
@[simp] theorem forward_pending (q : Request) (s : State) : (forward q s).pending = s.pending := rfl
@[simp] theorem forward_ring (q : Request) (s : State) (r : RingNo) : (forward q s).ring r = s.ring r := rfl
@[simp] theorem forward_clip (q : Request) (s : State) (n : ClipNo) : (forward q s).clip n = s.clip n := rfl
@[simp] theorem forward_pod (q : Request) (s : State) (p : PodNo) : (forward q s).pod p = s.pod p := rfl
@[simp] theorem forward_readyList (q : Request) (s : State) (c : ChanNo) : (forward q s).readyList c = s.readyList c := rfl
@[simp] theorem forward_watchList (q : Request) (s : State) (r : RingNo) : (forward q s).watchList r = s.watchList r := rfl
@[simp] theorem forward_chan (q : Request) (s : State) (c : ChanNo) : (forward q s).chan c = s.chan c := rfl

/-! ### What a bank holds after a write to it -/

/-- One element of a vector after one element was set. -/
theorem vector_get_set {α : Type} {n : Nat} (v : Vector α n) (i j : Fin n) (x : α) :
    (v.set i x).get j = if i = j then x else v.get j := by
  simp only [Vector.get_eq_getElem, Vector.getElem_set, Fin.val_inj]

theorem setRing_get (s : State) (i j : RingNo) (x : Ring) : (s.setRing i x).ring j = if i = j then x else s.ring j :=
  vector_get_set _ i j x

@[simp] theorem setRing_get_self (s : State) (i : RingNo) (x : Ring) : (s.setRing i x).ring i = x := by simp [setRing_get]

theorem setRing_get_ne (s : State) {i j : RingNo} (x : Ring) (h : i ≠ j) : (s.setRing i x).ring j = s.ring j := by simp [setRing_get, h]

theorem setClip_get (s : State) (i j : ClipNo) (x : ClipShadow) : (s.setClip i x).clip j = if i = j then x else s.clip j :=
  vector_get_set _ i j x

@[simp] theorem setClip_get_self (s : State) (i : ClipNo) (x : ClipShadow) : (s.setClip i x).clip i = x := by simp [setClip_get]

theorem setClip_get_ne (s : State) {i j : ClipNo} (x : ClipShadow) (h : i ≠ j) : (s.setClip i x).clip j = s.clip j := by simp [setClip_get, h]

theorem setPod_get (s : State) (i j : PodNo) (x : Pod) : (s.setPod i x).pod j = if i = j then x else s.pod j :=
  vector_get_set _ i j x

@[simp] theorem setPod_get_self (s : State) (i : PodNo) (x : Pod) : (s.setPod i x).pod i = x := by simp [setPod_get]

theorem setPod_get_ne (s : State) {i j : PodNo} (x : Pod) (h : i ≠ j) : (s.setPod i x).pod j = s.pod j := by simp [setPod_get, h]

theorem setReady_get (s : State) (i j : ChanNo) (x : List PodNo) : (s.setReady i x).readyList j = if i = j then x else s.readyList j :=
  vector_get_set _ i j x

@[simp] theorem setReady_get_self (s : State) (i : ChanNo) (x : List PodNo) : (s.setReady i x).readyList i = x := by simp [setReady_get]

theorem setReady_get_ne (s : State) {i j : ChanNo} (x : List PodNo) (h : i ≠ j) : (s.setReady i x).readyList j = s.readyList j := by simp [setReady_get, h]

theorem setWatch_get (s : State) (i j : RingNo) (x : List WatchEntry) : (s.setWatch i x).watchList j = if i = j then x else s.watchList j :=
  vector_get_set _ i j x

@[simp] theorem setWatch_get_self (s : State) (i : RingNo) (x : List WatchEntry) : (s.setWatch i x).watchList i = x := by simp [setWatch_get]

theorem setWatch_get_ne (s : State) {i j : RingNo} (x : List WatchEntry) (h : i ≠ j) : (s.setWatch i x).watchList j = s.watchList j := by simp [setWatch_get, h]

theorem setChan_get (s : State) (i j : ChanNo) (x : Channel) : (s.setChan i x).chan j = if i = j then x else s.chan j :=
  vector_get_set _ i j x

@[simp] theorem setChan_get_self (s : State) (i : ChanNo) (x : Channel) : (s.setChan i x).chan i = x := by simp [setChan_get]

theorem setChan_get_ne (s : State) {i j : ChanNo} (x : Channel) (h : i ≠ j) : (s.setChan i x).chan j = s.chan j := by simp [setChan_get, h]

theorem modRing_get (s : State) (i j : RingNo) (f : Ring → Ring) : (s.modRing i f).ring j = if i = j then f (s.ring i) else s.ring j :=
  setRing_get s i j _

@[simp] theorem modRing_get_self (s : State) (i : RingNo) (f : Ring → Ring) : (s.modRing i f).ring i = f (s.ring i) := by simp [modRing_get]

theorem modRing_get_ne (s : State) {i j : RingNo} (f : Ring → Ring) (h : i ≠ j) : (s.modRing i f).ring j = s.ring j := by simp [modRing_get, h]

theorem modPod_get (s : State) (i j : PodNo) (f : Pod → Pod) : (s.modPod i f).pod j = if i = j then f (s.pod i) else s.pod j :=
  setPod_get s i j _

@[simp] theorem modPod_get_self (s : State) (i : PodNo) (f : Pod → Pod) : (s.modPod i f).pod i = f (s.pod i) := by simp [modPod_get]

theorem modPod_get_ne (s : State) {i j : PodNo} (f : Pod → Pod) (h : i ≠ j) : (s.modPod i f).pod j = s.pod j := by simp [modPod_get, h]

theorem modChan_get (s : State) (i j : ChanNo) (f : Channel → Channel) : (s.modChan i f).chan j = if i = j then f (s.chan i) else s.chan j :=
  setChan_get s i j _

@[simp] theorem modChan_get_self (s : State) (i : ChanNo) (f : Channel → Channel) : (s.modChan i f).chan i = f (s.chan i) := by simp [modChan_get]

theorem modChan_get_ne (s : State) {i j : ChanNo} (f : Channel → Channel) (h : i ≠ j) : (s.modChan i f).chan j = s.chan j := by simp [modChan_get, h]

end Sys2Proof.Machine
end

