-- ==== Sys2Proof/Laws/Frame.lean ====
section
/-! SUPPORT. What the Break Scheduler and the Cue Unit can do to the state: one lemma for each of their operations. -/

namespace Sys2Proof.Machine

/-! ### The two relations -/

/-- What both the Break Scheduler and the Splice Engine leave as it was, with the capacities they keep. -/
structure Eng (s t : State) : Prop where
  rstLow      : t.rstLow = s.rstLow
  straps      : t.straps = s.straps
  outstanding : t.outstanding = s.outstanding
  abandoned   : t.abandoned = s.abandoned
  upOut       : t.upOut = s.upOut
  downOut     : t.downOut = s.downOut
  rings       : t.rings = s.rings
  clips       : t.clips = s.clips
  alert       : t.alert = s.alert
  enables     : t.enables = s.enables
  lastCommand : t.lastCommand = s.lastCommand
  lastRefused : t.lastRefused = s.lastRefused
  freeCount   : t.freeCount = s.freeCount
  pending     : t.pending = s.pending
  inForce     : ∀ c, (t.chan c).inForce = (s.chan c).inForce
  staged      : ∀ c, (t.chan c).staged = (s.chan c).staged
  flags       : ∀ i, s.flags.getLsbD i = true → t.flags.getLsbD i = true
  cap         : Capacity s → Capacity t

/-- What the Break Scheduler leaves as it was: besides `Eng`, of a channel everything but its switch queue, and the pod records. -/
structure Sched (s t : State) : Prop extends Eng s t where
  chans : ∀ c, t.chan c = { s.chan c with queue := (t.chan c).queue }
  recs  : ∀ p, (t.pod p).record = (s.pod p).record

theorem Eng.refl (s : State) : Eng s s := by constructor <;> intros <;> first | rfl | assumption

theorem Eng.trans {s t u : State} (h : Eng s t) (g : Eng t u) : Eng s u where
  rstLow := g.rstLow.trans h.rstLow
  straps := g.straps.trans h.straps
  outstanding := g.outstanding.trans h.outstanding
  abandoned := g.abandoned.trans h.abandoned
  upOut := g.upOut.trans h.upOut
  downOut := g.downOut.trans h.downOut
  rings := g.rings.trans h.rings
  clips := g.clips.trans h.clips
  alert := g.alert.trans h.alert
  enables := g.enables.trans h.enables
  lastCommand := g.lastCommand.trans h.lastCommand
  lastRefused := g.lastRefused.trans h.lastRefused
  freeCount := g.freeCount.trans h.freeCount
  pending := g.pending.trans h.pending
  inForce := fun c => (g.inForce c).trans (h.inForce c)
  staged := fun c => (g.staged c).trans (h.staged c)
  flags := fun i => g.flags i ∘ h.flags i
  cap := g.cap ∘ h.cap

theorem Sched.refl (s : State) : Sched s s := by
  refine { Eng.refl s with chans := fun c => ?_, recs := fun p => rfl }; rfl

theorem Sched.trans {s t u : State} (h : Sched s t) (g : Sched t u) : Sched s u where
  toEng := h.toEng.trans g.toEng
  chans := fun c => by rw [g.chans c, h.chans c]
  recs := fun p => (g.recs p).trans (h.recs p)

/-- The channel-state facts of `Eng` from the channel clause of `Sched`. -/
theorem Sched.state {s t : State} (h : Sched s t) (c : ChanNo) : (t.chan c).state = (s.chan c).state := by rw [h.chans c]

theorem forEach_sched {α : Type} {f : α → State → State} (h : ∀ x s, Sched s (f x s)) (xs : List α) (s : State) :
    Sched s (forEach xs f s) := by
  induction xs generalizing s with
  | nil => exact Sched.refl s
  | cons x xs ih => exact (h x s).trans (ih (f x s))

theorem foldl_sched {α β : Type} (proj : β → State) {f : β → α → β} (h : ∀ b x, Sched (proj b) (proj (f b x))) (xs : List α) (b : β) :
    Sched (proj b) (proj (xs.foldl f b)) := by
  induction xs generalizing b with
  | nil => exact Sched.refl _
  | cons x xs ih => exact (h b x).trans (ih (f b x))

/-! ### Updates of one part -/

/-- An update that leaves the banks, the as-run queue and the cue queue alone keeps the capacities. -/
theorem Capacity.of_eq {s t : State} (h : Capacity s) (a : t.asRun.held = s.asRun.held) (w : ∀ r, (t.watchList r).length ≤ (s.watchList r).length)
    (q : ∀ c, (t.chan c).queue.length ≤ (s.chan c).queue.length) (k : t.cueQueue.length ≤ s.cueQueue.length) : Capacity t where
  asRun := a ▸ h.asRun
  watch := fun r => (w r).trans (h.watch r)
  queue := fun c => (q c).trans (h.queue c)
  cues := k.trans h.cues

/-- A flag that is set stays set when another is (R170). -/
theorem flag_mono {f g : BitVec 9} {i : Nat} (h : f.getLsbD i = true) : (f ||| g).getLsbD i = true := by
  rw [BitVec.getLsbD_or, h, Bool.true_or]

theorem setFlag_sched (g : Flag) (s : State) : Sched s (setFlag g s) := by
  constructor <;> (try constructor) <;> intros <;> first | rfl | assumption | exact flag_mono (by assumption) | (rename_i h; exact h.of_eq rfl (fun _ => le_rfl) (fun _ => le_rfl) le_rfl)

theorem setReady_sched (s : State) (c : ChanNo) (l : List PodNo) : Sched s (s.setReady c l) := by
  constructor <;> (try constructor) <;> intros <;> first | rfl | assumption | exact flag_mono (by assumption) | (rename_i h; exact h.of_eq rfl (fun _ => le_rfl) (fun _ => le_rfl) le_rfl)

theorem modCue_sched (f : CueCounters → CueCounters) (s : State) : Sched s (modCue f s) := by
  constructor <;> (try constructor) <;> intros <;> first | rfl | assumption | exact flag_mono (by assumption) | (rename_i h; exact h.of_eq rfl (fun _ => le_rfl) (fun _ => le_rfl) le_rfl)

/-- A change of the cue queue that does not lengthen it past its capacity. -/
theorem cueQueue_sched (s : State) (l : List CueEntry) (hl : Capacity s → l.length ≤ Config.cueQueueSize) : Sched s { s with cueQueue := l } := by
  constructor <;> (try constructor) <;> intros <;>
    first | rfl | assumption | (rename_i h; exact ⟨h.asRun, h.watch, h.queue, hl h⟩)

/-- A change of a pod that keeps its record. -/
theorem modPod_sched (s : State) (p : PodNo) (f : Pod → Pod) (hf : ∀ pod, (f pod).record = pod.record) : Sched s (s.modPod p f) := by
  constructor <;> (try constructor) <;> intros <;>
    first | rfl | assumption | exact flag_mono (by assumption) | (rename_i h; exact h.of_eq rfl (fun _ => le_rfl) (fun _ => le_rfl) le_rfl) | skip
  rename_i q
  rw [modPod_get]
  split
  · next e => rw [← e, hf]
  · rfl

theorem modSpot_sched (p : PodNo) (k : SpotNo) (f : SpotInfo → SpotInfo) (s : State) : Sched s (modSpot p k f s) := modPod_sched s p _ fun _ => rfl

/-- A watch list replaced by one within the capacity. -/
theorem setWatch_sched (s : State) (r : RingNo) (l : List WatchEntry) (hl : (s.watchList r).length ≤ Config.watchListSize → l.length ≤ Config.watchListSize) :
    Sched s (s.setWatch r l) := by
  constructor <;> (try constructor) <;> intros <;> first | rfl | assumption | exact flag_mono (by assumption) | skip
  rename_i h
  refine ⟨h.asRun, fun q => ?_, h.queue, h.cues⟩
  rw [setWatch_get]
  split
  · next e => exact hl (h.watch r)
  · exact h.watch q

/-- A channel's switch queue replaced by one within the capacity. -/
theorem modQueue_sched (s : State) (c : ChanNo) (f : List SwitchPoint → List SwitchPoint)
    (hf : (s.chan c).queue.length ≤ Config.switchQueueSize → (f (s.chan c).queue).length ≤ Config.switchQueueSize) :
    Sched s (s.modChan c fun ch => { ch with queue := f ch.queue }) := by
  have key : ∀ d, (s.modChan c fun ch => { ch with queue := f ch.queue }).chan d =
      { s.chan d with queue := if c = d then f (s.chan c).queue else (s.chan d).queue } := by
    intro d
    rw [modChan_get]
    split
    · next e => subst e; simp
    · rfl
  constructor <;> (try constructor) <;> intros <;> first | rfl | assumption | exact flag_mono (by assumption) | skip
  · rename_i d; rw [key]
  · rename_i d; rw [key]
  · rename_i h
    refine ⟨h.asRun, h.watch, fun d => ?_, h.cues⟩
    rw [key]
    show (if c = d then f (s.chan c).queue else (s.chan d).queue).length ≤ _
    split
    · exact hf (h.queue c)
    · exact h.queue d
  · rename_i d; rw [key]

/-! ### The as-run queue (R157) -/

/-- A record that reaches the queue leaves at most 128 held. -/
theorem AsRun.push_held (a : AsRunRecord) (q : AsRun) (h : q.held ≤ Config.asRunSize) : (q.push a).held ≤ Config.asRunSize := by
  unfold AsRun.push
  split
  · next hlt =>
    simp only [AsRun.held, Config.asRunSize] at *
    bv_omega
  · exact h

theorem asRunPush_sched (a : AsRunRecord) (s : State) : Sched s (asRunPush a s) := by
  constructor <;> (try constructor) <;> intros <;> first | rfl | assumption | exact flag_mono (by assumption) | skip
  rename_i h
  exact ⟨AsRun.push_held a s.asRun h.asRun, h.watch, h.queue, h.cues⟩

end Sys2Proof.Machine
end

