-- ==== Sys2Proof/Laws/AlertFrame.lean ====
section
/-! SUPPORT. What the Alert Controller can change: its own state, the marks of channels, the as-run queue and the flags. -/

namespace Sys2Proof.Machine

/-- What the Alert Controller leaves as it was. -/
structure Alr (s t : State) : Prop where
  rstLow      : t.rstLow = s.rstLow
  straps      : t.straps = s.straps
  outstanding : t.outstanding = s.outstanding
  abandoned   : t.abandoned = s.abandoned
  upOut       : t.upOut = s.upOut
  downOut     : t.downOut = s.downOut
  rings       : t.rings = s.rings
  cueQueue    : t.cueQueue = s.cueQueue
  cueCounters : t.cueCounters = s.cueCounters
  clips       : t.clips = s.clips
  pods        : t.pods = s.pods
  ready       : t.ready = s.ready
  watch       : t.watch = s.watch
  enables     : t.enables = s.enables
  lastCommand : t.lastCommand = s.lastCommand
  lastRefused : t.lastRefused = s.lastRefused
  freeCount   : t.freeCount = s.freeCount
  pending     : t.pending = s.pending
  chans       : ∀ c, t.chan c = { s.chan c with mark := (t.chan c).mark }
  asRun       : s.asRun.held ≤ Config.asRunSize → t.asRun.held ≤ Config.asRunSize
  lockdown    : ∀ c, setHas s.alert.lockdown c = true → setHas t.alert.lockdown c = true

theorem Alr.refl (s : State) : Alr s s := by
  constructor <;> intros <;> first | rfl | assumption

theorem Alr.trans {s t u : State} (h : Alr s t) (g : Alr t u) : Alr s u where
  rstLow := g.rstLow.trans h.rstLow
  straps := g.straps.trans h.straps
  outstanding := g.outstanding.trans h.outstanding
  abandoned := g.abandoned.trans h.abandoned
  upOut := g.upOut.trans h.upOut
  downOut := g.downOut.trans h.downOut
  rings := g.rings.trans h.rings
  cueQueue := g.cueQueue.trans h.cueQueue
  cueCounters := g.cueCounters.trans h.cueCounters
  clips := g.clips.trans h.clips
  pods := g.pods.trans h.pods
  ready := g.ready.trans h.ready
  watch := g.watch.trans h.watch
  enables := g.enables.trans h.enables
  lastCommand := g.lastCommand.trans h.lastCommand
  lastRefused := g.lastRefused.trans h.lastRefused
  freeCount := g.freeCount.trans h.freeCount
  pending := g.pending.trans h.pending
  chans := fun c => by rw [g.chans c, h.chans c]
  asRun := g.asRun ∘ h.asRun
  lockdown := fun c => g.lockdown c ∘ h.lockdown c

/-- The capacities hold after the Alert Controller's work. -/
theorem Alr.cap {s t : State} (h : Alr s t) (k : Capacity s) : Capacity t where
  asRun := h.asRun k.asRun
  watch := fun r => by simpa [State.watchList, h.watch] using k.watch r
  queue := fun c => by rw [h.chans c]; exact k.queue c
  cues := h.cueQueue ▸ k.cues

/-- No staged copy appears. -/
theorem Alr.noStaged {s t : State} (h : Alr s t) (k : s.NoStaged) : t.NoStaged := fun c => by rw [h.chans c]; exact k c

theorem setFlag_alr (g : Flag) (s : State) : Alr s (setFlag g s) := by
  constructor <;> intros <;> first | rfl | assumption

theorem asRunPush_alr (a : AsRunRecord) (s : State) : Alr s (asRunPush a s) := by
  constructor <;> intros <;> first | rfl | skip
  · rename_i h; exact AsRun.push_held a s.asRun h
  · assumption

/-- A change of the Alert Controller that keeps the lock-down set. -/
theorem modAlert_alr (f : AlertCtl → AlertCtl) (s : State) (h : ∀ c, setHas s.alert.lockdown c = true → setHas (f s.alert).lockdown c = true) :
    Alr s (modAlert f s) := by
  constructor <;> intros <;> first | rfl | assumption | exact h _ ‹_›

theorem post_alr (m : Posting) (c : ChanNo) (s : State) : Alr s (post m c s) := by
  constructor <;> intros <;> first | rfl | assumption | skip
  · rename_i d
    unfold post
    rw [modChan_get]
    split
    · next e => subst e; rfl
    · rfl

theorem forEach_alr {α : Type} {f : α → State → State} (h : ∀ x s, Alr s (f x s)) (xs : List α) (s : State) : Alr s (forEach xs f s) := by
  induction xs generalizing s with
  | nil => exact Alr.refl s
  | cons x xs ih => exact (h x s).trans (ih (f x s))

theorem postAll_alr (m : Posting) (test : ChanNo → Bool) (s : State) : Alr s (postAll m test s) := forEach_alr (post_alr m) _ s

theorem postParticipation_alr (before : ChanSet) (s : State) : Alr s (postParticipation before s) := by
  unfold postParticipation
  split
  · exact (postAll_alr _ _ _).trans (postAll_alr _ _ _)
  · exact Alr.refl s

/-- A change of the Alert Controller that does not touch the lock-down set. -/
theorem modAlert_keep (f : AlertCtl → AlertCtl) (s : State) (h : ∀ a, (f a).lockdown = a.lockdown := by exact fun _ => rfl) :
    Alr s (modAlert f s) := modAlert_alr f s fun c => by rw [h]; exact id

theorem recomputePlaying_alr (s : State) : Alr s (recomputePlaying s) := by
  unfold recomputePlaying
  dsimp only
  split
  · exact Alr.refl s
  · exact (modAlert_keep _ s).trans (postAll_alr _ _ _)

theorem engage_alr (x : Source) (s : State) : Alr s (engage x s) := by
  unfold engage
  split
  · exact setFlag_alr _ s
  · dsimp only
    refine (modAlert_keep (fun a => { a with engaged := addSource a.engaged x }) s).trans ?_
    generalize modAlert (fun a => { a with engaged := addSource a.engaged x }) s = t
    split
    · refine Alr.trans ?_ (postAll_alr _ _ _)
      refine Alr.trans ?_ (setFlag_alr _ _)
      exact (modAlert_keep _ t).trans (asRunPush_alr _ _)
    · exact (modAlert_keep _ t).trans (recomputePlaying_alr _)
    · exact (modAlert_keep _ t).trans (recomputePlaying_alr _)

theorem enterIdle_alr (why : Reason) (s : State) : Alr s (enterIdle why s) := by
  unfold enterIdle
  dsimp only
  exact (((modAlert_keep _ s).trans (postAll_alr _ _ _)).trans (asRunPush_alr _ _)).trans (modAlert_keep _ _)

theorem release_alr (x : Source) (s : State) : Alr s (release x s) := by
  unfold release
  split
  · dsimp only
    refine (modAlert_keep (fun a => { a with engaged := dropSource a.engaged x }) s).trans ?_
    generalize modAlert (fun a => { a with engaged := dropSource a.engaged x }) s = t
    split
    · exact recomputePlaying_alr t
    · split
      · exact modAlert_keep _ t
      · exact enterIdle_alr _ _
  · exact Alr.refl s

theorem advanceTimer_alr (s : State) : Alr s (advanceTimer s) := by
  unfold advanceTimer
  split
  · dsimp only
    refine (modAlert_keep (fun a => { a with timer := heldInc a.timer }) s).trans ?_
    generalize modAlert (fun a => { a with timer := heldInc a.timer }) s = t
    split
    · exact (setFlag_alr _ _).trans (enterIdle_alr _ _)
    · split
      · exact enterIdle_alr _ _
      · exact Alr.refl t
  · exact Alr.refl s

theorem lineChanged_alr (x : Source) (mode : LineMode) (before after : Bool) (s : State) : Alr s (lineChanged x mode before after s) := by
  unfold lineChanged
  split
  · exact Alr.refl s
  · split
    · split
      · exact Alr.refl s
      · exact engage_alr _ _
    · split
      · exact release_alr _ _
      · exact Alr.refl s

theorem sampleLines_alr (alrq0 alrq1 protN : Bool) (s : State) : Alr s (sampleLines alrq0 alrq1 protN s) := by
  unfold sampleLines
  dsimp only
  exact ((modAlert_keep _ s).trans (lineChanged_alr _ _ _ _ _)).trans (lineChanged_alr _ _ _ _ _)

theorem modeReleased_alr (x : Source) (old new : LineConfig) (f : LineFilter) (s : State) : Alr s (modeReleased x old new f s) := by
  unfold modeReleased
  split
  · exact release_alr _ _
  · exact Alr.refl s

/-- An alert record that is taken (R134). -/
theorem takeAlertRecord_alr {bytes : List Byte} {s t : State} (h : takeAlertRecord bytes s = .ok t) : Alr s t := by
  unfold takeAlertRecord at h
  dsimp only at h
  split at h
  · cases h
  · split at h
    · cases h
    · cases h
      exact (((modAlert_keep _ s).trans (postParticipation_alr _ _)).trans (modeReleased_alr _ _ _ _ _)).trans (modeReleased_alr _ _ _ _ _)

theorem lockDown_alr (set : ChanSet) (s : State) : Alr s (lockDown set s) := by
  refine (modAlert_alr (fun a => { a with lockdown := a.lockdown ||| set }) s ?_).trans (postParticipation_alr _ _)
  intro c h
  simp only [setHas, BitVec.getLsbD_or, Bool.or_eq_true] at h ⊢
  exact .inl h

theorem releaseLatched_alr (x : Source) (mode : LineMode) (s : State) : Alr s (releaseLatched x mode s) := by
  unfold releaseLatched
  split
  · exact release_alr _ _
  · exact Alr.refl s

theorem alertEngage_alr (s : State) : Alr s (alertEngage s).1 := by
  unfold alertEngage
  split
  · exact Alr.refl s
  · split
    · exact setFlag_alr _ _
    · exact engage_alr _ _

theorem alertEnd_alr (s : State) : Alr s (alertEnd s).1 := by
  unfold alertEnd
  split
  · exact Alr.refl s
  · dsimp only
    split
    · exact release_alr _ _
    · exact ((release_alr _ _).trans (releaseLatched_alr _ _ _)).trans (releaseLatched_alr _ _ _)

end Sys2Proof.Machine
end

