-- ==== Sys2Proof/Laws/AlertSpec.lean ====
section
/-! SUPPORT. What each operation of the Alert Controller can do, once: marks posted, the end of an episode, the playing source, engagement and release. -/

namespace Sys2Proof.Machine

/-- Marks posted to channels one by one, no channel twice (R145). -/
theorem post_each (m : Posting) (l : List ChanNo) (hl : l.Nodup) (s : State) :
    forEach l (post m) s = { s with channels := (forEach l (post m) s).channels } ∧
    ∀ c, (forEach l (post m) s).chan c =
      if c ∈ l then { s.chan c with mark := postedMark m ((s.chan c).state == .alert) (s.chan c).mark } else s.chan c := by
  induction l generalizing s with
  | nil => exact ⟨rfl, fun c => by simp [forEach]⟩
  | cons x xs ih =>
    obtain ⟨h1, h2⟩ := ih (List.nodup_cons.mp hl).2 (post m x s)
    have e : forEach (x :: xs) (post m) s = forEach xs (post m) (post m x s) := rfl
    rw [e]
    refine ⟨h1, fun c => ?_⟩
    rw [h2 c]
    unfold post
    rw [modChan_get]
    by_cases hx : x = c
    · subst hx
      have := (List.nodup_cons.mp hl).1
      simp [this]
    · have hx' : ¬ c = x := fun e => hx e.symm
      simp [hx, hx']

/-- Marks posted to the channels that pass a test change those marks alone (R145). -/
theorem postAll_spec (m : Posting) (test : ChanNo → Bool) (s : State) :
    postAll m test s = { s with channels := (postAll m test s).channels } ∧
    ∀ c, (postAll m test s).chan c =
      if test c then { s.chan c with mark := postedMark m ((s.chan c).state == .alert) (s.chan c).mark } else s.chan c := by
  obtain ⟨h1, h2⟩ := post_each m (allChans.filter test) ((List.nodup_finRange 32).filter _) s
  refine ⟨h1, fun c => (h2 c).trans ?_⟩
  simp [allChans, List.mem_finRange]

/-- Entering IDLE (R140): what it leaves of the alert state, the as-run record it makes, and the marks; nothing else changes. -/
theorem enterIdle_spec (why : Reason) (s : State) :
    enterIdle why s = { s with
      alert := { s.alert with state := .idle, engaged := 0, playing := none }
      asRun := s.asRun.push { kind := .alertEnd, reason := some why, episodeMs := some s.alert.timer, sources := some s.alert.episode }
      flags := s.flags ||| flagMask .asrun
      channels := (enterIdle why s).channels } ∧
    ∀ c, (enterIdle why s).chan c =
      if (s.chan c).state = .alert then { s.chan c with mark := .restore }
      else if (s.chan c).mark = .engage then { s.chan c with mark := .none }
      else s.chan c := by
  have hc : ∀ c, (modAlert (fun a => { a with engaged := 0 }) s).chan c = s.chan c := fun _ => rfl
  unfold enterIdle
  dsimp only
  obtain ⟨h1, h2⟩ := postAll_spec .restore
    (fun c => ((modAlert (fun a => { a with engaged := 0 }) s).chan c).state == .alert ||
      ((modAlert (fun a => { a with engaged := 0 }) s).chan c).mark == .engage)
    (modAlert (fun a => { a with engaged := 0 }) s)
  generalize postAll _ _ _ = u at *
  rw [h1]
  refine ⟨rfl, fun c => ?_⟩
  show u.chan c = _
  rw [h2 c, hc]
  by_cases h : (s.chan c).state = .alert
  · have e : ((s.chan c).state == .alert) = true := by simp [h]
    rw [if_pos h, e]; rfl
  · have e : ((s.chan c).state == .alert) = false := by simp [h]
    rw [if_neg h, e]
    by_cases h' : (s.chan c).mark = .engage
    · have e2 : ((s.chan c).mark == .engage) = true := by simp [h']
      rw [if_pos h', e2]; rfl
    · have e2 : ((s.chan c).mark == .engage) = false := by simp [h']
      rw [if_neg h', e2]; rfl

/-- The highest engaged source plays, with the marks of a change (R138 step 6, R139 step 2). -/
theorem recomputePlaying_spec (s : State) : s.PlaysHighest (recomputePlaying s) := by
  unfold recomputePlaying State.PlaysHighest
  dsimp only
  by_cases h : highest s.alert.engaged = s.alert.playing
  · rw [if_pos h, h]
    exact ⟨rfl, fun c => by rw [if_neg (by simp)]⟩
  · rw [if_neg h]
    obtain ⟨h1, h2⟩ := postAll_spec .sourceChange
      (fun c => ((modAlert (fun a => { a with playing := highest s.alert.engaged }) s).chan c).state == .alert)
      (modAlert (fun a => { a with playing := highest s.alert.engaged }) s)
    refine ⟨h1, fun c => (h2 c).trans ?_⟩
    rw [show (modAlert (fun a => { a with playing := highest s.alert.engaged }) s).chan c = s.chan c from rfl]
    by_cases g : (s.chan c).state = .alert
    · have e : ((s.chan c).state == .alert) = true := by simp [g]
      rw [e, if_pos rfl]
      by_cases g2 : (s.chan c).mark = .restore
      · rw [if_neg (by simp [g2])]
        unfold postedMark; rw [g2]; dsimp only; rw [if_pos rfl, ← g2]
      · rw [if_pos ⟨h, g, g2⟩]
        unfold postedMark; dsimp only; rw [if_neg g2]
    · have e : ((s.chan c).state == .alert) = false := by simp [g]
      rw [e, if_neg (by simp), if_neg (by simp [g])]

/-- A source engaged in IDLE, its clip VALID (R138 steps 2 and 3): an episode starts, and nothing else changes. -/
theorem engage_idle {x : Source} {n : ClipNo} {s : State} (h1 : s.alert.state = .idle) (h2 : s.alert.engaged = 0) (h3 : s.sourceClip x = some n) :
    engage x s = { s with
      alert := { s.alert with state := .active, engaged := addSource 0 x, episode := addSource 0 x, playing := some x, timer := 0 }
      asRun := s.asRun.push { kind := .alertStart, sources := some (addSource 0 x) }
      flags := s.flags ||| flagMask .asrun ||| flagMask .alert
      channels := (engage x s).channels } ∧
    ∀ c, (engage x s).chan c =
      if (s.chan c).state ≠ .off ∧ setHas s.alert.effective c = true then
        { s.chan c with mark := if (s.chan c).state = .alert then .source else .engage }
      else s.chan c := by
  have hst : (modAlert (fun a => { a with engaged := addSource a.engaged x }) s).alert.state = .idle := h1
  unfold engage
  rw [h3, if_neg (by simp)]
  dsimp only
  rw [hst]
  dsimp only
  generalize hu : setFlag .alert _ = u
  have hw : u = { s with
      alert := { s.alert with state := .active, engaged := addSource 0 x, episode := addSource 0 x, playing := some x, timer := 0 }
      asRun := s.asRun.push { kind := .alertStart, sources := some (addSource 0 x) }
      flags := s.flags ||| flagMask .asrun ||| flagMask .alert } := by
    rw [← hu]; simp only [setFlag, asRunPush, modAlert, h2]
  obtain ⟨g1, g2⟩ := postAll_spec .engage (fun c => (u.chan c).enabled && setHas u.alert.effective c) u
  have huc : ∀ c, u.chan c = s.chan c := fun c => by rw [hw]; rfl
  have he : u.alert.effective = s.alert.effective := by rw [hw]; rfl
  refine ⟨by rw [g1]; subst hw; rfl, fun c => (g2 c).trans ?_⟩
  rw [huc, he]
  by_cases h : (s.chan c).state ≠ .off ∧ setHas s.alert.effective c = true
  · rw [if_pos h, if_pos (by simp [Channel.enabled, h.1, h.2])]
    by_cases h' : (s.chan c).state = .alert
    · have e : ((s.chan c).state == .alert) = true := by simp [h']
      rw [if_pos h', e]; rfl
    · have e : ((s.chan c).state == .alert) = false := by simp [h']
      rw [if_neg h', e]; rfl
  · rw [if_neg h, if_neg]
    simp only [Channel.enabled, Bool.and_eq_true, bne_iff_ne]
    exact h

/-- A source engaged in ACTIVE or HOLD, its clip VALID (R138 steps 2 and 4 to 6). -/
theorem engage_running {x : Source} {n : ClipNo} {s : State} (h : s.alert.state ≠ .idle) (hc : s.sourceClip x = some n) :
    ({ s with alert := { s.alert with state := .active, engaged := addSource s.alert.engaged x,
                                      episode := addSource s.alert.episode x } } : State).PlaysHighest (engage x s) := by
  have hst : (modAlert (fun a => { a with engaged := addSource a.engaged x }) s).alert.state = s.alert.state := rfl
  unfold engage
  rw [hc, if_neg (by simp)]
  dsimp only
  rw [hst]
  cases hk : s.alert.state with
  | idle => exact absurd hk h
  | hold =>
    simpa only [modAlert] using recomputePlaying_spec (modAlert (fun a => { a with state := .active, episode := addSource a.episode x })
      (modAlert (fun a => { a with engaged := addSource a.engaged x }) s))
  | active =>
    simpa only [modAlert, hk] using recomputePlaying_spec (modAlert (fun a => { a with episode := addSource a.episode x })
      (modAlert (fun a => { a with engaged := addSource a.engaged x }) s))

/-- A release of a source that is not engaged changes nothing (R139). -/
theorem release_absent {x : Source} {s : State} (h : hasSource s.alert.engaged x = false) : release x s = s := by
  unfold release
  rw [h]
  rfl

/-- A release (R139), by what then remains engaged and by the timer. -/
theorem release_spec {x : Source} {s : State} (h : hasSource s.alert.engaged x = true) :
    (dropSource s.alert.engaged x ≠ 0 →
      ({ s with alert := { s.alert with engaged := dropSource s.alert.engaged x } } : State).PlaysHighest (release x s)) ∧
    (dropSource s.alert.engaged x = 0 → s.alert.timer.toNat < s.alert.record.hold →
      release x s = { s with alert := { s.alert with state := .hold, engaged := 0 } }) ∧
    (dropSource s.alert.engaged x = 0 → s.alert.record.hold ≤ s.alert.timer.toNat →
      release x s = enterIdle .released { s with alert := { s.alert with engaged := 0 } }) := by
  unfold release
  dsimp only [modAlert]
  rw [h, if_pos rfl]
  refine ⟨fun g => ?_, fun g k => ?_, fun g k => ?_⟩
  · rw [if_pos g]; exact recomputePlaying_spec _
  · rw [g, if_neg (by simp), if_pos k]
  · rw [g, if_neg (by simp), if_neg (by omega)]

end Sys2Proof.Machine
end

