-- ==== Sys2Proof/Laws/Bytes.lean ====
section
/-! SUPPORT. Byte lists: numbers to bytes and back, and what an overwritten field and every other field read as. -/

namespace Sys2Proof.Machine

theorem toBytes_length (n v : Nat) : (toBytes n v).length = n := by
  induction n with
  | zero => rfl
  | succ n ih => simp [toBytes, ih]

theorem optField_length (fr : Nat → Byte) (off n : Nat) (v : Option Nat) : (optField fr off n v).length = n := by
  cases v <;> simp [optField, freeBytes, toBytes_length]

theorem beNat_cons (b : Byte) (bs : List Byte) : beNat (b :: bs) = b.toNat * 256 ^ bs.length + beNat bs := by
  have key : ∀ (l : List Byte) (acc : Nat), l.foldl (fun acc b => acc * 256 + b.toNat) acc = acc * 256 ^ l.length + beNat l := by
    intro l
    induction l with
    | nil => intro acc; simp [beNat]
    | cons x l ih =>
      intro acc
      simp only [beNat, List.foldl_cons, List.length_cons, Nat.zero_mul, Nat.zero_add] at ih ⊢
      rw [ih, ih x.toNat]
      ring
  show (b :: bs).foldl _ 0 = _
  rw [List.foldl_cons, key]
  simp

theorem beNat_lt (bs : List Byte) : beNat bs < 256 ^ bs.length := by
  induction bs with
  | nil => exact Nat.one_pos
  | cons b bs ih =>
    have := b.isLt
    rw [beNat_cons, List.length_cons, Nat.pow_succ]
    nlinarith

/-- Bytes made from a number read back as it, within their width. -/
theorem beNat_toBytes (n v : Nat) : beNat (toBytes n v) = v % 256 ^ n := by
  induction n with
  | zero => simp [toBytes, beNat, Nat.mod_one]
  | succ n ih =>
    have : v % (256 ^ n * 256) = v % 256 ^ n + 256 ^ n * (v / 256 ^ n % 256) := Nat.mod_mul
    rw [toBytes, beNat_cons, toBytes_length, ih, BitVec.toNat_ofNat, show 256 ^ (n + 1) = 256 ^ n * 256 from Nat.pow_succ .., this,
      Nat.mul_comm, Nat.add_comm]

theorem overwrite_length {bs new : List Byte} {off : Nat} (h : off + new.length ≤ bs.length) : (overwrite bs off new).length = bs.length := by
  simp [overwrite]
  omega

/-- A byte of an overwritten list is the new one within the new bytes and the old one elsewhere. -/
theorem byteAt_overwrite {bs new : List Byte} {off : Nat} (h : off + new.length ≤ bs.length) (i : Nat) :
    byteAt (overwrite bs off new) i = if off ≤ i ∧ i < off + new.length then byteAt new (i - off) else byteAt bs i := by
  unfold byteAt overwrite
  simp only [List.getD_eq_getElem?_getD]
  rw [List.getElem?_append, List.getElem?_append]
  simp only [List.length_append, List.length_take, Nat.min_eq_left (show off ≤ bs.length by omega)]
  by_cases h1 : i < off
  · rw [if_pos (show i < off + new.length by omega), if_pos h1, if_neg (by omega), List.getElem?_take, if_pos h1]
  · by_cases h2 : i < off + new.length
    · rw [if_pos h2, if_neg h1, if_pos ⟨by omega, h2⟩]
    · rw [if_neg h2, if_neg (by omega), List.getElem?_drop, Nat.add_sub_cancel' (by omega)]

/-- A field that lies within a list is its bytes. -/
theorem field_eq {bs : List Byte} {off n : Nat} (h : off + n ≤ bs.length) : field bs off n = (List.range n).map fun i => byteAt bs (off + i) := by
  apply List.ext_getElem?
  intro i
  simp only [field, List.getElem?_take, List.getElem?_drop, List.getElem?_map, byteAt, List.getD_eq_getElem?_getD]
  by_cases hi : i < n
  · rw [if_pos hi, List.getElem?_range hi]
    simp [List.getElem?_eq_getElem (show off + i < bs.length by omega)]
  · rw [if_neg hi, List.getElem?_eq_none (by simp; omega)]
    rfl

theorem field_length {bs : List Byte} {off n : Nat} (h : off + n ≤ bs.length) : (field bs off n).length = n := by
  simp [field]
  omega

theorem fieldNat_lt (bs : List Byte) (off n : Nat) : fieldNat bs off n < 256 ^ n :=
  (beNat_lt _).trans_le (Nat.pow_le_pow_right (by decide) (by simp [field]))

/-- A field clear of the bytes overwritten reads as before. -/
theorem field_overwrite_off {bs new : List Byte} {off a n : Nat} (h : off + new.length ≤ bs.length) (hn : a + n ≤ bs.length)
    (hd : a + n ≤ off ∨ off + new.length ≤ a) : field (overwrite bs off new) a n = field bs a n := by
  rw [field_eq (by rw [overwrite_length h]; exact hn), field_eq hn]
  apply List.map_congr_left
  intro i hi
  have := List.mem_range.mp hi
  rw [byteAt_overwrite h, if_neg (by omega)]

/-- The field overwritten reads as the new bytes. -/
theorem field_overwrite_same {bs new : List Byte} {off n : Nat} (h : off + new.length ≤ bs.length) (hn : new.length = n) :
    field (overwrite bs off new) off n = new := by
  subst hn
  unfold field overwrite
  have hl : (bs.take off).length = off := by simp; omega
  rw [List.append_assoc, List.drop_append_of_le_length (by omega), List.drop_of_length_le (by omega), List.nil_append,
    List.take_append_of_le_length (by omega), List.take_of_length_le (by omega)]

/-- A number written as bytes reads back. -/
theorem fieldNat_overwrite_same {bs : List Byte} {off n v : Nat} (h : off + n ≤ bs.length) :
    fieldNat (overwrite bs off (toBytes n v)) off n = v % 256 ^ n := by
  unfold fieldNat
  rw [field_overwrite_same (by rw [toBytes_length]; exact h) (toBytes_length n v), beNat_toBytes]

end Sys2Proof.Machine
end

