-- ==== Sys2Proof/Laws/Scheduler.lean ====
section
/-! SUPPORT. The Break Scheduler and the Cue Unit change nothing outside `Sched`: one lemma for each of their operations. -/

namespace Sys2Proof.Machine

/-! ### Watch lists and switch queues -/

theorem arm_sched {r : RingNo} {s : State} (room : s.watchHasRoom r = true) (kind : PointKind) (c : ChanNo) (t : Target) (m : Option SeqNo) :
    Sched s (arm r kind c t m s) := by
  refine setWatch_sched s r _ fun _ => ?_
  simpa [State.watchHasRoom] using room

theorem rearm_sched (r : RingNo) (kind : PointKind) (c : ChanNo) (t : Target) (m : Option SeqNo) (s : State) :
    Sched s (rearm r kind c t m s) :=
  setWatch_sched s r _ fun h => by simpa using h

theorem dropEntries_watchList (g : WatchEntry → Bool) (s : State) (r : RingNo) :
    (dropEntries g s).watchList r = (s.watchList r).filter fun e => !g e := by
  simp [dropEntries, State.watchList, Vector.get_eq_getElem]

theorem dropEntries_sched (g : WatchEntry → Bool) (s : State) : Sched s (dropEntries g s) := by
  constructor <;> (try constructor) <;> intros <;> first | rfl | assumption | skip
  rename_i h
  refine h.of_eq rfl (fun r => ?_) (fun _ => le_rfl) le_rfl
  rw [dropEntries_watchList]
  exact List.length_filter_le _ _

theorem dropPoints_sched (c : ChanNo) (g : SwitchPoint → Bool) (s : State) : Sched s (dropPoints c g s) :=
  modQueue_sched s c _ fun h => (List.length_filter_le _ _).trans h

theorem dropPodTargets_sched (p : PodNo) (s : State) : Sched s (dropPodTargets p s) :=
  (dropEntries_sched _ s).trans (dropPoints_sched _ _ _)

theorem dropFeedTargets_sched (c : ChanNo) (s : State) : Sched s (dropFeedTargets c s) :=
  (dropEntries_sched _ s).trans (dropPoints_sched _ _ _)

theorem abandonFeed_sched (c : ChanNo) (s : State) : Sched s (abandonFeed c s) :=
  (dropFeedTargets_sched c s).trans (setFlag_sched _ _)

theorem dropResume_sched (c : ChanNo) (p : PodNo) (s : State) : Sched s (dropResume c p s) :=
  (dropEntries_sched _ s).trans (dropPoints_sched _ _ _)

/-! ### Pods -/

theorem recordNotAired_sched (p : PodNo) (why : Reason) (ends : EndFlags) (k : SpotNo) (s : State) :
    Sched s (recordNotAired p why ends k s) := by
  unfold recordNotAired
  split
  · exact (asRunPush_sched _ s).trans (modSpot_sched _ _ _ _)
  · exact Sched.refl s

theorem closePod_sched (p : PodNo) (why : Reason) (ends : EndFlags) (s : State) : Sched s (closePod p why ends s) := by
  unfold closePod
  exact (forEach_sched (recordNotAired_sched p why ends) allSpots s).trans
    ((dropPodTargets_sched p _).trans (modPod_sched _ p Pod.close fun _ => rfl))

theorem availMissed_sched (c : ChanNo) (why : Reason) (event : Option (BitVec 32)) (cv : CueValues) (s : State) :
    Sched s (availMissed c why event cv s) := asRunPush_sched _ s

/-- A binding changes nothing outside `Sched`, made or not (R79). -/
theorem bindPod_sched (p : PodNo) (c : ChanNo) (r : RingNo) (event : Option (BitVec 32)) (cv : CueValues) (s : State) :
    Sched s (bindPod p c r event cv s).1 := by
  unfold bindPod
  split
  · next room =>
    refine ((setReady_sched s c _).trans (modPod_sched _ p (Pod.bind r event cv) fun _ => rfl)).trans (arm_sched ?_ _ _ _ _)
    exact room
  · exact availMissed_sched _ _ _ _ s

theorem tryChannel_sched (c : ChanNo) (r : RingNo) (event : BitVec 32) (cv : CueValues) (s : State) :
    Sched s (tryChannel c r event cv s).1 := by
  unfold tryChannel
  split
  · exact Sched.refl s
  · exact bindPod_sched _ c r _ cv s

theorem tryChannels_sched (set : ChanSet) (r : RingNo) (event : BitVec 32) (cv : CueValues) (s : State) :
    Sched s (tryChannels set r event cv s).1 := by
  refine foldl_sched Prod.fst (fun b c => ?_) allChans (s, set)
  split
  · exact tryChannel_sched c r event cv b.1
  · exact Sched.refl _

theorem setWaiting_sched (r : RingNo) (event : BitVec 32) (set : ChanSet) (s : State) : Sched s (setWaiting r event set s) :=
  cueQueue_sched s _ fun h => (List.length_filter_le _ _).trans (by simpa using h.cues)

theorem tryQueue_sched (p : PodNo) (s : State) : Sched s (tryQueue p s) := by
  unfold tryQueue
  simp only
  split
  · split
    · exact Sched.refl s
    · exact (bindPod_sched p _ _ _ _ s).trans (setWaiting_sched _ _ _ _)
  · exact Sched.refl s

theorem makeReady_sched (p : PodNo) (s : State) : Sched s (makeReady p s) :=
  (modPod_sched s p Pod.becomeReady fun _ => rfl).trans (setReady_sched _ _ _)

theorem unbind_sched (p : PodNo) (s : State) : Sched s (unbind p s) :=
  ((dropPodTargets_sched p s).trans (makeReady_sched p _)).trans (tryQueue_sched p _)

theorem cancelBreak_sched (r : RingNo) (event : BitVec 32) (s : State) : Sched s (cancelBreak r event s).1 := by
  unfold cancelBreak
  exact (cueQueue_sched s _ fun h => (List.length_filter_le _ _).trans h.cues).trans (forEach_sched unbind_sched _ _)

/-! ### Resolution (R88 to R94) -/

theorem outResolved_sched (r : RingNo) (p : PodNo) (c : ChanNo) (anchor : Ticks) (s : State) : Sched s (outResolved r p c anchor s) := by
  unfold outResolved
  simp only
  split
  · exact modPod_sched s p (Pod.makePending anchor) fun _ => rfl
  · split
    · next room => exact (modPod_sched s p (Pod.makePending anchor) fun _ => rfl).trans (arm_sched room _ _ _ _)
    · exact modPod_sched s p (Pod.makePending anchor) fun _ => rfl

theorem dropPoint_sched (r : RingNo) (e : WatchEntry) (s : State) : Sched s (dropPoint r e s) := by
  unfold dropPoint
  simp only
  refine (setFlag_sched .late s).trans ?_
  split
  · split
    · exact unbind_sched _ _
    · exact (unbind_sched _ _).trans (availMissed_sched _ _ _ _ _)
  · exact rearm_sched _ _ _ _ _ _
  · exact rearm_sched _ _ _ _ _ _
  · exact rearm_sched _ _ _ _ _ _
  · exact abandonFeed_sched _ _

theorem queueAdmits_length {queue : List SwitchPoint} {seq : SeqNo} (h : queueAdmits queue seq = true) :
    queue.length + 1 ≤ Config.switchQueueSize := by
  simp only [queueAdmits, Bool.and_eq_true, decide_eq_true_eq] at h
  exact h.1

theorem enqueuePoint_sched {c : ChanNo} {s : State} {seq : SeqNo} (room : queueAdmits (s.chan c).queue seq = true) (pt : SwitchPoint) :
    Sched s (enqueuePoint c pt s) := by
  refine modQueue_sched s c (· ++ [pt]) fun _ => ?_
  simpa using queueAdmits_length room

theorem leaveWatch_sched (r : RingNo) (e : WatchEntry) (s : State) : Sched s (leaveWatch r e s) :=
  setWatch_sched s r _ fun h => (List.length_filter_le _ _).trans h

theorem placed_sched (r : RingNo) (e : WatchEntry) (anchor : Ticks) (s : State) : Sched s (placed r e anchor s) := by
  unfold placed
  split
  · exact outResolved_sched _ _ _ _ _
  all_goals exact Sched.refl _

theorem resolveEntry_sched (e : WatchEntry) (at_ : Arrival) (anchor : Ticks) (aligned : Bool) (s : State) :
    Sched s (resolveEntry e at_ anchor aligned s) := by
  unfold resolveEntry
  split
  · next room => exact ((enqueuePoint_sched room _).trans (leaveWatch_sched _ _ _)).trans (placed_sched _ _ _ _)
  · exact dropPoint_sched _ _ _

theorem resolveAtStart_sched (at_ : Arrival) (pts : Ticks) (s : State) : Sched s (resolveAtStart at_ pts s).1 := by
  refine foldl_sched Prod.fst (fun b e => ?_) _ (s, [])
  split
  · exact resolveEntry_sched e at_ pts true b.1
  · exact Sched.refl _

theorem fillPcrBase_sched (r : RingNo) (base : Ticks) (s : State) : Sched s (fillPcrBase r base s) :=
  setWatch_sched s r _ fun h => by simpa using h

theorem resolveAtPcr_sched (at_ : Arrival) (base : Ticks) (old gone : List WatchEntry) (s : State) :
    Sched s (resolveAtPcr at_ base old gone s) := by
  refine (fillPcrBase_sched at_.ring base s).trans (foldl_sched id (fun b e => ?_) _ (fillPcrBase at_.ring base s))
  simp only [id]
  split
  · split
    · exact resolveEntry_sched _ _ _ _ _
    · exact Sched.refl _
  · exact Sched.refl _

/-! ### Cues (R56 to R63) -/

theorem countCrcError_sched (s : State) : Sched s (countCrcError s) := (modCue_sched _ s).trans (setFlag_sched _ _)
theorem countFormatError_sched (s : State) : Sched s (countFormatError s) := (modCue_sched _ s).trans (setFlag_sched _ _)
theorem countLost_sched (s : State) : Sched s (countLost s) := (modCue_sched _ s).trans (setFlag_sched _ _)
theorem countRepeat_sched (s : State) : Sched s (countRepeat s) := modCue_sched _ s
theorem countLateRepeat_sched (s : State) : Sched s (countLateRepeat s) := modCue_sched _ s
theorem countOther_sched (s : State) : Sched s (countOther s) := modCue_sched _ s

theorem queueCue_sched (r : RingNo) (arrival : SeqNo) (c : Cue) (cv : CueValues) (rest : ChanSet) (s : State) :
    Sched s (queueCue r arrival c cv rest s) := by
  unfold queueCue
  split
  · exact Sched.refl _
  · split
    · next room => exact cueQueue_sched _ _ fun _ => by simpa using room
    · exact (countLost_sched _).trans (forEach_sched (fun ch s => availMissed_sched ch _ _ _ s) _ _)

theorem newCue_sched (r : RingNo) (arrival : SeqNo) (c : Cue) (s : State) : Sched s (newCue r arrival c s) :=
  (tryChannels_sched _ r c.event _ s).trans (queueCue_sched _ _ _ _ _ _)

theorem updatePod_sched (r : RingNo) (cv : CueValues) (p : PodNo) (s : State) : Sched s (updatePod r cv p s) :=
  (modPod_sched s p (Pod.takeValues cv) fun _ => rfl).trans (rearm_sched _ _ _ _ _ _)

theorem renewEntry_sched (r : RingNo) (event : BitVec 32) (arrival : SeqNo) (cv : CueValues) (s : State) :
    Sched s (renewEntry r event arrival cv s) := cueQueue_sched s _ fun h => by simpa using h.cues

theorem retryEntry_sched (r : RingNo) (event : BitVec 32) (cv : CueValues) (s : State) : Sched s (retryEntry r event cv s) := by
  unfold retryEntry
  split
  · exact Sched.refl _
  · exact (tryChannels_sched _ _ _ _ _).trans (setWaiting_sched _ _ _ _)

theorem updateCue_sched (r : RingNo) (arrival : SeqNo) (c : Cue) (bound : List PodNo) (s : State) :
    Sched s (updateCue r arrival c bound s) :=
  ((renewEntry_sched _ _ _ _ s).trans (forEach_sched (updatePod_sched r _) bound _)).trans (retryEntry_sched _ _ _ _)

theorem outCue_sched (r : RingNo) (arrival : SeqNo) (c : Cue) (s : State) : Sched s (outCue r arrival c s) := by
  unfold outCue
  simp only
  split
  · exact newCue_sched _ _ _ _
  · split
    · exact updateCue_sched _ _ _ _ _
    · split
      · exact countRepeat_sched _
      · exact countLateRepeat_sched _

theorem missEntry_sched (e : CueEntry) (s : State) : Sched s (missEntry e s) :=
  forEach_sched (fun c s => availMissed_sched c _ _ _ s) _ s

theorem expireEntries_sched (test : CueEntry → Bool) (s : State) : Sched s (expireEntries test s) := by
  unfold expireEntries
  exact (forEach_sched missEntry_sched _ s).trans (cueQueue_sched _ _ fun h => (List.length_filter_le _ _).trans h.cues)

/-- A RETURN target that is armed changes nothing outside `Sched` (R62, R95, R165). -/
theorem armReturn_sched {r : RingNo} {p : PodNo} {target : Target} {s t : State} (h : armReturn r p target s = some t) : Sched s t := by
  unfold armReturn at h
  simp only at h
  split at h
  · cases h; exact rearm_sched _ _ _ _ _ _
  · split at h
    · next room => cases h; exact arm_sched room _ _ _ _
    · cases h

theorem returnStep_sched (r : RingNo) (target : Target) (acc : State × Bool) (p : PodNo) :
    Sched acc.1 (returnStep r target acc p).1 := by
  unfold returnStep
  split
  · next h => exact armReturn_sched h
  · exact countLost_sched _

theorem inCue_sched (r : RingNo) (c : Cue) (s : State) : Sched s (inCue r c s) := by
  unfold inCue
  simp only
  split
  · exact foldl_sched Prod.fst (returnStep_sched r c.target) _ (s, false)
  · exact (foldl_sched Prod.fst (returnStep_sched r c.target) _ (s, false)).trans (countOther_sched _)

theorem cancelCue_sched (r : RingNo) (c : Cue) (s : State) : Sched s (cancelCue r c s) := by
  unfold cancelCue
  simp only
  refine (cancelBreak_sched r c.event s).trans ?_
  split
  · exact Sched.refl _
  · exact countOther_sched _

theorem takeCue_sched (r : RingNo) (arrival : SeqNo) (c : Cue) (s : State) : Sched s (takeCue r arrival c s) := by
  unfold takeCue
  split
  · exact outCue_sched _ _ _ _
  · exact inCue_sched _ _ _
  · exact cancelCue_sched _ _ _

theorem takeSectionEvent_sched (r : RingNo) (arrival : SeqNo) (ev : SectionEvent) (s : State) :
    Sched s (takeSectionEvent r arrival ev s) := by
  unfold takeSectionEvent
  split
  · exact countFormatError_sched _
  · exact countOther_sched _
  · split
    · exact countCrcError_sched _
    · exact countFormatError_sched _
    · exact takeCue_sched _ _ _ _

end Sys2Proof.Machine
end

