-- ==== Sys2Proof/Laws/Engine.lean ====
section
/-! SUPPORT. The Splice Engine at a read and the resume judgement change nothing outside `Eng`: one lemma for each of their operations. -/

namespace Sys2Proof.Machine

/-- A change of a channel that keeps its records and does not lengthen its switch queue. -/
theorem modChan_eng (s : State) (c : ChanNo) (f : Channel → Channel) (hi : ∀ ch, (f ch).inForce = ch.inForce := by exact fun _ => rfl)
    (hs : ∀ ch, (f ch).staged = ch.staged := by exact fun _ => rfl)
    (hq : ∀ ch, (f ch).queue.length ≤ ch.queue.length := by exact fun _ => le_rfl) : Eng s (s.modChan c f) := by
  constructor <;> intros <;> first | rfl | assumption | skip
  · rename_i d; rw [modChan_get]; split
    · next e => subst e; exact hi _
    · rfl
  · rename_i d; rw [modChan_get]; split
    · next e => subst e; exact hs _
    · rfl
  · rename_i h
    refine h.of_eq rfl (fun _ => le_rfl) (fun d => ?_) le_rfl
    rw [modChan_get]; split
    · next e => subst e; exact hq _
    · rfl

theorem forEach_eng {α : Type} {f : α → State → State} (h : ∀ x s, Eng s (f x s)) (xs : List α) (s : State) :
    Eng s (forEach xs f s) := by
  induction xs generalizing s with
  | nil => exact Eng.refl s
  | cons x xs ih => exact (h x s).trans (ih (f x s))

/-! ### Pods and feeds -/

theorem switchToSpot_eng (c : ChanNo) (p : PodNo) (n : ClipNo) (k : Nat) (t : Stamp) (s : State) : Eng s (switchToSpot c p n k t s) := by
  unfold switchToSpot
  dsimp only
  exact modChan_eng _ _ _

/-- A pod that an OUT or SLOT_RESUME point starts. -/
theorem startPod_eng (c : ChanNo) (p : PodNo) (k : SpotNo) (pt : SwitchPoint) (late : Bool) (s : State) :
    Eng s (startPod c p k pt late s) := by
  unfold startPod
  exact (((modPod_sched s p (fun pod => { pod with state := .airing, anchor := some (pt.anchor, k) }) fun _ => rfl).toEng.trans
    (modSpot_sched _ _ _ _).toEng).trans
    (modChan_eng _ c (fun ch => { ch with state := .insert, playing := some p, pos := some (.spot k 0) }))).trans (switchToSpot_eng _ _ _ _ _ _)

theorem markRecorded_sched (p : PodNo) (k : SpotNo) (s : State) : Sched s (markRecorded p k s) := modSpot_sched _ _ _ _

theorem lastSpotRecord_sched (p : PodNo) (filling : Bool) (ends : EndFlags) (s : State) : Sched s (lastSpotRecord p filling ends s) := by
  unfold lastSpotRecord
  exact (asRunPush_sched _ s).trans (markRecorded_sched _ _ _)

theorem recordInProgress_sched (p : PodNo) (pos : Option Position) (kind : RecordKind) (ends : EndFlags) (s : State) :
    Sched s (recordInProgress p pos kind ends s) := by
  unfold recordInProgress
  split
  · exact Sched.refl s
  · split
    · exact (asRunPush_sched _ s).trans (markRecorded_sched _ _ _)
    · exact Sched.refl s
  · exact lastSpotRecord_sched _ _ _ _
  · exact lastSpotRecord_sched _ _ _ _

theorem endPlaying_sched (c : ChanNo) (p : PodNo) (ends : EndFlags) (s : State) : Sched s (endPlaying c p ends s) :=
  (recordInProgress_sched _ _ _ _ s).trans (closePod_sched _ _ _ _)

theorem toNetwork_eng (c : ChanNo) (s : State) : Eng s (s.modChan c Channel.toNetwork) :=
  modChan_eng s c _

theorem enterFeed_eng (c : ChanNo) (f : RingNo) (pt : SwitchPoint) (seq : SeqNo) (late : Bool) (s : State) :
    Eng s (enterFeed c f pt seq late s) := by
  unfold enterFeed
  split
  · exact modChan_eng s c _
  · exact Eng.refl s

theorem feedEnded_sched (c : ChanNo) (run : FeedRun) (ends : EndFlags) (s : State) : Sched s (feedEnded c run ends s) := asRunPush_sched _ s

theorem feedOutElsewhere_sched (c : ChanNo) (s : State) : Sched s (feedOutElsewhere c s) := by
  unfold feedOutElsewhere
  split
  · exact abandonFeed_sched _ _
  · exact Sched.refl s

/-! ### Points -/

theorem applyInNetwork_eng (d : Due) (x : ReadCtx) (s : State) : Eng s (applyInNetwork d x s).1 := by
  unfold applyInNetwork
  split
  · split
    · exact startPod_eng _ _ _ _ _ _
    · exact Eng.refl s
  · exact Eng.refl s
  · exact Eng.refl s
  · exact enterFeed_eng _ _ _ _ _ _
  · exact (feedOutElsewhere_sched _ _).toEng

theorem applyInInsert_eng (d : Due) (q : PodNo) (x : ReadCtx) (s : State) : Eng s (applyInInsert d q x s).1 := by
  unfold applyInInsert
  simp only
  split
  · split
    · exact (endPlaying_sched _ _ _ _).toEng.trans (startPod_eng _ _ _ _ _ _)
    · exact Eng.refl s
  · split
    · exact (endPlaying_sched _ _ _ _).toEng.trans (toNetwork_eng _ _)
    · exact Eng.refl s
  · exact Eng.refl s
  · exact (endPlaying_sched _ _ _ _).toEng.trans (enterFeed_eng _ _ _ _ _ _)
  · exact (feedOutElsewhere_sched _ _).toEng

theorem applyInResumeWait_eng (d : Due) (q : PodNo) (x : ReadCtx) (s : State) : Eng s (applyInResumeWait d q x s).1 := by
  unfold applyInResumeWait
  simp only
  split
  · split
    · exact (closePod_sched _ _ _ _).toEng.trans (startPod_eng _ _ _ _ _ _)
    · exact Eng.refl s
  · split
    · exact (closePod_sched _ _ _ _).toEng.trans (toNetwork_eng _ _)
    · exact Eng.refl s
  · split
    · exact startPod_eng _ _ _ _ _ _
    · exact Eng.refl s
  · exact (closePod_sched _ _ _ _).toEng.trans (enterFeed_eng _ _ _ _ _ _)
  · exact (feedOutElsewhere_sched _ _).toEng

theorem applyInFeed_eng (d : Due) (fd : FeedState) (x : ReadCtx) (s : State) : Eng s (applyInFeed d fd x s).1 := by
  unfold applyInFeed
  simp only
  split
  · split
    · exact (closePod_sched _ _ _ _).toEng
    · exact Eng.refl s
  · exact Eng.refl s
  · exact Eng.refl s
  · exact Eng.refl s
  · dsimp only
    exact (feedEnded_sched _ _ _ _).toEng.trans (modChan_eng _ _ _)

theorem setSaved_eng (c : ChanNo) (sv : Saved) (playing : Option PodNo) (s : State) : Eng s (setSaved c sv playing s) :=
  modChan_eng s c _

theorem closeSaved_sched (sv : Saved) (ends : EndFlags) (s : State) : Sched s (closeSaved sv ends s) := by
  unfold closeSaved
  split
  · exact closePod_sched _ _ _ _
  · exact Sched.refl s

theorem applyInAlert_eng (d : Due) (sv : Saved) (s : State) : Eng s (applyInAlert d sv s) := by
  unfold applyInAlert
  simp only
  split
  · split
    · exact (closePod_sched _ _ _ _).toEng
    · exact Eng.refl s
  · next p _ _ =>
    split
    · split
      · exact ((closeSaved_sched _ _ _).trans (modPod_sched _ p (fun pod => { pod with state := .suspended, anchor := some (d.pt.anchor, 0) })
          fun _ => rfl)).toEng.trans (setSaved_eng _ _ _ _)
      · exact ((closeSaved_sched _ _ _).trans (closePod_sched _ _ _ _)).toEng.trans (setSaved_eng _ _ _ _)
    · exact Eng.refl s
  · split
    · exact (closePod_sched _ _ _ _).toEng.trans (setSaved_eng _ _ _ _)
    · exact Eng.refl s
  · exact Eng.refl s
  · exact Eng.refl s
  · split
    · exact (closeSaved_sched _ _ _).toEng.trans (setSaved_eng _ _ _ _)
    · exact Eng.refl s
  · exact (feedEnded_sched _ _ _ _).toEng.trans (setSaved_eng _ _ _ _)
  · exact (feedOutElsewhere_sched _ _).toEng

theorem applyPoint_eng (d : Due) (x : ReadCtx) (s : State) : Eng s (applyPoint d x s).1 := by
  unfold applyPoint
  simp only
  split
  · exact Eng.refl s
  · exact applyInNetwork_eng _ _ _
  · split
    · exact applyInInsert_eng _ _ _ _
    · exact Eng.refl s
  · split
    · exact applyInResumeWait_eng _ _ _ _
    · exact Eng.refl s
  · split
    · exact applyInFeed_eng _ _ _ _
    · exact Eng.refl s
  · split
    · exact applyInAlert_eng _ _ _
    · exact Eng.refl s

theorem countLate_eng (c : ChanNo) (s : State) : Eng s (countLate c s) :=
  (modChan_eng s c (fun ch => { ch with late := counterAdd ch.late 1 })).trans
    (setFlag_sched _ _).toEng

/-- A point leaves its queue. -/
theorem popPoint_eng (c : ChanNo) (s : State) (pt : SwitchPoint) (rest : List SwitchPoint) (h : (s.chan c).queue = pt :: rest) :
    Eng s (s.modChan c fun ch => { ch with queue := rest }) :=
  (modQueue_sched s c (fun _ => rest) fun hq => by rw [h] at hq; simp only [List.length_cons] at hq; omega).toEng

theorem takeDue_eng (c : ChanNo) (seq : SeqNo) (fuel : Nat) (t : State × ReadCtx) : Eng t.1 (takeDue c seq fuel t).1 := by
  induction fuel generalizing t with
  | zero => exact Eng.refl _
  | succ n ih =>
    unfold takeDue
    split
    · exact Eng.refl _
    · next pt rest hq =>
      split
      · refine ((popPoint_eng c t.1 pt rest hq).trans ?_).trans (ih _)
        refine Eng.trans ?_ (applyPoint_eng _ _ _)
        split
        · exact countLate_eng _ _
        · exact Eng.refl _
      · exact Eng.refl _

/-! ### Marks -/

theorem playSource_eng (c : ChanNo) (x : Source) (n : ClipNo) (s : State) : Eng s (playSource c x n s) := by
  unfold playSource
  dsimp only
  exact modChan_eng _ _ _

theorem suspend_sched (p : PodNo) (s : State) : Sched s (suspend p s) :=
  modPod_sched s p _ fun pod => by split <;> rfl

theorem takeEngage_eng (c : ChanNo) (x : ReadCtx) (s : State) : Eng s (takeEngage c x s).1 := by
  unfold takeEngage
  split
  · next sv src n _ _ =>
    simp only
    refine Eng.trans ?_ (playSource_eng _ _ _ _)
    refine Eng.trans ?_ (modChan_eng _ c (fun ch => { ch with saved := some sv, pos := none, feed := none }))
    split
    · exact ((recordInProgress_sched _ _ _ _ s).trans (suspend_sched _ _)).toEng
    · exact Eng.refl s
  · exact Eng.refl s

theorem takeSource_eng (c : ChanNo) (x : ReadCtx) (s : State) : Eng s (takeSource c x s).1 := by
  unfold takeSource
  split
  · split
    · exact Eng.refl s
    · exact playSource_eng _ _ _ _
  · exact Eng.refl s

theorem restoreFeed_eng (c : ChanNo) (f : FeedState) (s : State) : Eng s (restoreFeed c f s) := by
  unfold restoreFeed
  split <;> exact modChan_eng s c _

theorem restorePod_eng (c : ChanNo) (p : PodNo) (x : ReadCtx) (s : State) : Eng s (restorePod c p x s).1 := by
  unfold restorePod
  split
  · dsimp only
    exact (dropResume_sched _ _ _).toEng.trans (modChan_eng _ _ _)
  · dsimp only
    exact (closePod_sched _ _ _ _).toEng.trans (modChan_eng _ _ _)

theorem takeRestore_eng (c : ChanNo) (x : ReadCtx) (s : State) : Eng s (takeRestore c x s).1 := by
  unfold takeRestore
  simp only
  split
  · dsimp only
    exact modChan_eng _ _ _
  · dsimp only
    exact modChan_eng _ _ _
  · exact restoreFeed_eng _ _ _
  · exact restorePod_eng _ _ _ _
  · exact restorePod_eng _ _ _ _

theorem takeMark_eng (c : ChanNo) (s : State) : Eng s (takeMark c s).1 := by
  have h := modChan_eng s c (fun ch => { ch with mark := .none })
  unfold takeMark
  simp only
  split
  · exact h
  · exact h
  · exact h.trans (takeEngage_eng _ _ _)
  · exact h.trans (takeSource_eng _ _ _)
  · exact h.trans (takeRestore_eng _ _ _)
  · exact h
  · exact h

/-! ### Serving -/

theorem beginSpot_sched (c : ChanNo) (p : PodNo) (k : SpotNo) (seq : Option SeqNo) (s : State) : Sched s (beginSpot c p k seq s) :=
  modSpot_sched _ _ _ _

theorem detach_eng (c : ChanNo) (s : State) : Eng s (s.modChan c Channel.detach) :=
  modChan_eng _ _ _

theorem endSpot_eng (c : ChanNo) (p : PodNo) (k : SpotNo) (s : State) : Eng s (endSpot c p k s) := by
  unfold endSpot
  simp only
  split
  · refine Eng.trans ?_ (switchToSpot_eng _ _ _ _ _ _)
    exact ((asRunPush_sched _ s).trans (markRecorded_sched _ _ _)).toEng.trans
      (modChan_eng _ c (fun ch => { ch with pos := some (.spot (k + 1) 0), markReq := true }))
  · split
    · refine Eng.trans ?_ (switchToSpot_eng _ _ _ _ _ _)
      exact modChan_eng _ c (fun ch => { ch with pos := some (.filler 0), markReq := true })
    · exact modChan_eng _ _ _

theorem serveSpot_eng (c : ChanNo) (p : PodNo) (k : SpotNo) (cell : Nat) (seq : Option SeqNo) (s : State) :
    Eng s (serveSpot c p k cell seq s).1 := by
  unfold serveSpot
  simp only
  refine (detach_eng c s).trans ?_
  have step1 : Eng (s.modChan c Channel.detach)
      (if cell = 0 ∧ (((s.modChan c Channel.detach).pod p).spotInfo.get k).fate = .unstarted then
        beginSpot c p k seq (s.modChan c Channel.detach) else s.modChan c Channel.detach) := by
    split
    · exact (beginSpot_sched _ _ _ _ _).toEng
    · exact Eng.refl _
  refine step1.trans ?_
  refine (modChan_eng _ c (fun ch => { ch with pos := some (.spot k (cell + 1)) })).trans ?_
  generalize (State.modChan _ c _) = u
  split
  · exact endSpot_eng _ _ _ _
  · exact Eng.refl _

theorem serveFiller_eng (c : ChanNo) (p : PodNo) (n : ClipNo) (cell : Nat) (s : State) : Eng s (serveFiller c p n cell s).1 := by
  unfold serveFiller
  simp only
  exact ((detach_eng c s).trans
    (modPod_sched _ p (fun pod => { pod with fillerTotal := heldInc pod.fillerTotal }) fun _ => rfl).toEng).trans
    (modChan_eng _ _ _)

theorem serveAlert_eng (c : ChanNo) (n : ClipNo) (s : State) : Eng s (serveAlert c n s).1 := by
  unfold serveAlert
  dsimp only
  exact modChan_eng _ _ _

theorem serveFeedCell_eng (c : ChanNo) (fd : FeedState) (jumped : Bool) (s : State) : Eng s (serveFeedCell c fd jumped s).1 := by
  unfold serveFeedCell
  dsimp only
  exact modChan_eng _ _ _

theorem serveFeed_eng (c : ChanNo) (fd : FeedState) (slot : Addr) (s : State) : Eng s (serveFeed c fd slot s).1 := by
  unfold serveFeed
  simp only
  split
  · refine Eng.trans ?_ (setFlag_sched _ _).toEng
    exact modChan_eng _ _ _
  · split
    · refine Eng.trans ?_ (serveFeedCell_eng _ _ _ _)
      refine Eng.trans ?_ (setFlag_sched _ _).toEng
      exact modChan_eng _ _ _
    · exact serveFeedCell_eng _ _ _ _

theorem serveInsertion_eng (c : ChanNo) (cls : SlotClass) (seq : Option SeqNo) (slot : Addr) (s : State) :
    Eng s (serveInsertion c cls seq slot s).1 := by
  unfold serveInsertion
  simp only
  split
  · exact Eng.refl s
  · split
    · exact Eng.refl s
    · split
      · exact serveSpot_eng _ _ _ _ _ _
      · split
        · exact serveFiller_eng _ _ _ _ _
        · exact Eng.refl s
      · exact serveFeed_eng _ _ _ _
      · exact serveAlert_eng _ _ _
      · exact Eng.refl s

theorem serveRead_eng (c : ChanNo) (cls : SlotClass) (seq : Option SeqNo) (slot : Addr) (s : State) :
    Eng s (serveRead c cls seq slot s).1 := by
  unfold serveRead
  split
  any_goals exact serveInsertion_eng _ _ _ _ _
  all_goals
    dsimp only
    exact modChan_eng _ _ _

/-! ### The resume judgement -/

theorem giveUpResume_eng (c : ChanNo) (p : PodNo) (s : State) : Eng s (giveUpResume c p s) :=
  (closePod_sched _ _ _ s).toEng.trans (toNetwork_eng _ _)

/-- The records of spots that never started leave the watch lists alone. -/
theorem recordsNotAired_watch (p : PodNo) (why : Reason) (ends : EndFlags) (ks : List SpotNo) (s : State) :
    (forEach ks (recordNotAired p why ends) s).watch = s.watch := by
  induction ks generalizing s with
  | nil => rfl
  | cons k ks ih =>
    refine (ih _).trans ?_
    dsimp only
    unfold recordNotAired
    split <;> rfl

theorem judgeResume_eng (c : ChanNo) (p : PodNo) (s : State) : Eng s (judgeResume c p s) := by
  unfold judgeResume
  split
  · split
    · exact giveUpResume_eng _ _ _
    · next k _ =>
      simp only
      split
      · next room =>
        refine (dropResume_sched c p s).toEng.trans ?_
        have h := forEach_sched (recordNotAired_sched p .preempted {}) ((dropResume c p s).unstarted p |>.filter (· < k)) (dropResume c p s)
        refine Eng.trans h.toEng (arm_sched ?_ _ _ _ _).toEng
        simpa [State.watchHasRoom, State.watchList, recordsNotAired_watch, State.netRing, h.inForce] using room
      · exact ((dropResume_sched c p s).trans (setFlag_sched _ _)).toEng.trans (giveUpResume_eng _ _ _)
  · exact Eng.refl s

end Sys2Proof.Machine
end

