-- ==== Sys2Proof/Laws/Tracking.lean ====
section
/-! SUPPORT. The Ring Tracker: what a write to a ring leaves in the ring, and that nothing outside it and the Break Scheduler's work changes. -/

namespace Sys2Proof.Machine

/-- A change of a ring keeps the capacities. -/
theorem Capacity.modRing {s : State} (h : Capacity s) (r : RingNo) (g : Ring → Ring) : Capacity (s.modRing r g) :=
  h.of_eq rfl (fun _ => le_rfl) (fun _ => le_rfl) le_rfl

/-- The same change of a ring on both sides. -/
theorem Eng.modRing {s t : State} (h : Eng s t) (r : RingNo) (g : Ring → Ring) : Eng (s.modRing r g) (t.modRing r g) where
  rstLow := h.rstLow
  straps := h.straps
  outstanding := h.outstanding
  abandoned := h.abandoned
  upOut := h.upOut
  downOut := h.downOut
  rings := by simp only [State.modRing, State.setRing, State.ring, h.rings]
  clips := h.clips
  alert := h.alert
  enables := h.enables
  lastCommand := h.lastCommand
  lastRefused := h.lastRefused
  freeCount := h.freeCount
  pending := h.pending
  inForce := h.inForce
  staged := h.staged
  flags := h.flags
  cap := fun k => (h.cap (k.of_eq rfl (fun _ => le_rfl) (fun _ => le_rfl) le_rfl)).modRing r g

theorem Sched.modRing {s t : State} (h : Sched s t) (r : RingNo) (g : Ring → Ring) : Sched (s.modRing r g) (t.modRing r g) where
  toEng := h.toEng.modRing r g
  chans := h.chans
  recs := h.recs

/-- A ring changed to what it is. -/
theorem modRing_self (s : State) (r : RingNo) (g : Ring → Ring) (h : g (s.ring r) = s.ring r) : s.modRing r g = s := by
  unfold State.modRing
  rw [h]
  simp [State.setRing, State.ring, Vector.get_eq_getElem]

/-- A change of a ring is known by its value there. -/
theorem modRing_congr (s : State) (r : RingNo) (g k : Ring → Ring) (h : g (s.ring r) = k (s.ring r)) : s.modRing r g = s.modRing r k := by
  unfold State.modRing
  rw [h]

/-- One ring changed twice. -/
theorem modRing_modRing (s : State) (r : RingNo) (g k : Ring → Ring) : (s.modRing r g).modRing r k = s.modRing r (k ∘ g) := by
  unfold State.modRing
  rw [setRing_get_self]
  simp [State.setRing]

/-- A section assembler's step, then what its events do (R50 to R53). -/
theorem cueCell_sched (r : RingNo) (arrival : SeqNo) (unitStart : Bool) (cc : CC) (payload : Option (List Byte)) (s : State) :
    ∃ a, Sched (s.modRing r fun x => { x with assembler := a }) (cueCell r arrival unitStart cc payload s) := by
  unfold cueCell
  split
  · refine ⟨(s.ring r).assembler, ?_⟩
    rw [modRing_self s r (fun x => { x with assembler := (s.ring r).assembler }) rfl]
    exact Sched.refl s
  · exact ⟨_, (forEach_sched (takeSectionEvent_sched r arrival) _ _)⟩

theorem inspectCue_sched (r : RingNo) (arrival : SeqNo) (f : Findings) (cell : List Byte) (s : State) :
    ∃ a, Sched (s.modRing r fun x => { x with assembler := a }) (inspectCue r arrival f cell s) := by
  unfold inspectCue
  split
  · exact cueCell_sched _ _ _ _ _ _
  · refine ⟨(s.ring r).assembler, ?_⟩
    rw [modRing_self s r (fun x => { x with assembler := (s.ring r).assembler }) rfl]
    exact Sched.refl s

theorem reportStart_sched (at_ : Arrival) (pts : Ticks) (s : State) :
    Sched (s.modRing at_.ring fun r => { r with mark := some { seq := at_.seq, pts := pts, stamp := at_.stamp } })
      (reportStart at_ pts s).1 :=
  ((expireEntries_sched _ _).trans (resolveAtStart_sched _ _ _))

theorem reportPcr_sched (at_ : Arrival) (base : Ticks) (old gone : List WatchEntry) (s : State) :
    Sched (s.modRing at_.ring fun r => { r with pcrBase := some base }) (reportPcr at_ base old gone s) :=
  (resolveAtPcr_sched _ _ _ _ _)

/-- The ring after a cell's report as a video start (R24). -/
def Ring.markStart (f : Findings) (x : Ring) : Ring :=
  { x with mark := match classify x.shadow f, f.pts with
      | .vstart, some pts => some { seq := x.writeCount - 1, pts := pts, stamp := f.stamp }
      | _, _ => x.mark }

/-- The ring after a cell's report as a PCR arrival (R25). -/
def Ring.markPcr (f : Findings) (x : Ring) : Ring :=
  { x with pcrBase := match f.isOn x.shadow.comps.pcr, f.pcr with
      | true, some (base, _) => some base
      | _, _ => x.pcrBase }

theorem inspectStart_sched (at_ : Arrival) (f : Findings) (s : State) (hseq : at_.seq = (s.ring at_.ring).writeCount - 1)
    (hst : at_.stamp = f.stamp) : Sched (s.modRing at_.ring (Ring.markStart f)) (inspectStart at_ f s).1 := by
  unfold inspectStart
  split
  · next pts hc hp =>
    refine modRing_congr s at_.ring _ _ ?_ ▸ reportStart_sched at_ pts s
    simp only [Ring.markStart, hc, hp, hseq, hst]
  · next hn =>
    refine (modRing_self s at_.ring _ ?_).symm ▸ Sched.refl s
    unfold Ring.markStart
    split
    · next pts hc hp => exact absurd hp (hn pts hc)
    · rfl

theorem inspectPcr_sched (at_ : Arrival) (f : Findings) (old gone : List WatchEntry) (s : State) :
    Sched (s.modRing at_.ring (Ring.markPcr f)) (inspectPcr at_ f old gone s) := by
  unfold inspectPcr
  split
  · next base e hc hp =>
    refine modRing_congr s at_.ring _ _ ?_ ▸ reportPcr_sched at_ base old gone s
    simp only [Ring.markPcr, hc, hp]
  · next hn =>
    refine (modRing_self s at_.ring _ ?_).symm ▸ Sched.refl s
    unfold Ring.markPcr
    split
    · next base e hc hp => exact absurd hp (hn base e hc)
    · rfl

/-- What the reports of a cell leave in its ring (R24, R25, R48). -/
def Ring.report (f : Findings) (a : Assembler) (x : Ring) : Ring := Ring.markPcr f (Ring.markStart f { x with assembler := a })

/-- The inspection of a cell: its ring takes the reports, and the rest is the Break Scheduler's and the Cue Unit's (R12). -/
theorem inspect_sched (r : RingNo) (f : Findings) (cell : List Byte) (s : State) :
    ∃ a, Sched (s.modRing r (Ring.report f a)) (inspect r f cell s) := by
  obtain ⟨a, h1⟩ := inspectCue_sched r ((s.ring r).writeCount - 1) f cell s
  refine ⟨a, ?_⟩
  unfold inspect
  dsimp only
  generalize inspectCue r ((s.ring r).writeCount - 1) f cell s = u at h1 ⊢
  have hw : (u.ring r).writeCount = (s.ring r).writeCount := by
    have : u.ring r = (s.modRing r fun x => { x with assembler := a }).ring r := by simp only [State.ring, h1.rings]
    rw [this, modRing_get]
    simp
  have h2 := inspectStart_sched { ring := r, seq := (s.ring r).writeCount - 1, stamp := f.stamp } f u (by simp only [hw]) rfl
  have h3 := inspectPcr_sched { ring := r, seq := (s.ring r).writeCount - 1, stamp := f.stamp } f (u.watchList r)
    (inspectStart { ring := r, seq := (s.ring r).writeCount - 1, stamp := f.stamp } f u).2
    (inspectStart { ring := r, seq := (s.ring r).writeCount - 1, stamp := f.stamp } f u).1
  have h12 := (h1.modRing r (Ring.markStart f)).trans h2
  have h123 := (h12.modRing r (Ring.markPcr f)).trans h3
  rw [modRing_modRing, modRing_modRing] at h123
  exact h123

end Sys2Proof.Machine
end

