-- ==== Sys2Proof/Laws/Keeps.lean ====
section
/-! SUPPORT. What no operation below a command breaks: the capacities, the lock-down set, the base of the control region and the level of
RST_N. -/

namespace Sys2Proof.Machine

/-- What every operation but a reset of the pins keeps. -/
structure Keeps (s t : State) : Prop where
  cap      : Capacity s → Capacity t
  lockdown : ∀ c, setHas s.alert.lockdown c = true → setHas t.alert.lockdown c = true
  straps   : t.straps = s.straps
  rstLow   : t.rstLow = s.rstLow

theorem Keeps.refl (s : State) : Keeps s s := ⟨id, fun _ => id, rfl, rfl⟩

theorem Keeps.trans {s t u : State} (h : Keeps s t) (g : Keeps t u) : Keeps s u :=
  ⟨g.cap ∘ h.cap, fun c => g.lockdown c ∘ h.lockdown c, g.straps.trans h.straps, g.rstLow.trans h.rstLow⟩

theorem Eng.keeps {s t : State} (h : Eng s t) : Keeps s t := ⟨h.cap, fun c => by rw [h.alert]; exact id, h.straps, h.rstLow⟩

theorem Sched.keeps {s t : State} (h : Sched s t) : Keeps s t := h.toEng.keeps

theorem Alr.keeps {s t : State} (h : Alr s t) : Keeps s t := ⟨h.cap, h.lockdown, h.straps, h.rstLow⟩

theorem forEach_keeps {α : Type} {f : α → State → State} (h : ∀ x s, Keeps s (f x s)) (xs : List α) (s : State) :
    Keeps s (forEach xs f s) := by
  induction xs generalizing s with
  | nil => exact Keeps.refl s
  | cons x xs ih => exact (h x s).trans (ih (f x s))

/-- A change of one channel that does not lengthen its switch queue. -/
theorem modChan_keeps (s : State) (c : ChanNo) (f : Channel → Channel)
    (hq : ∀ ch, (f ch).queue.length ≤ ch.queue.length := by exact fun _ => le_rfl) : Keeps s (s.modChan c f) := by
  refine ⟨fun h => h.of_eq rfl (fun _ => le_rfl) (fun d => ?_) le_rfl, fun _ => id, rfl, rfl⟩
  rw [modChan_get]; split
  · next e => subst e; exact hq _
  · rfl

/-- A change of one ring. -/
theorem modRing_keeps (s : State) (r : RingNo) (g : Ring → Ring) : Keeps s (s.modRing r g) :=
  ⟨fun h => h.modRing r g, fun _ => id, rfl, rfl⟩

/-- A change that leaves the queues, the straps, the pin and the lock-down set alone. -/
theorem Keeps.of_eq {s t : State} (a : t.asRun = s.asRun) (w : t.watch = s.watch) (c : t.channels = s.channels)
    (q : t.cueQueue = s.cueQueue) (l : t.alert = s.alert) (b : t.straps = s.straps) (p : t.rstLow = s.rstLow) : Keeps s t := by
  refine ⟨fun h => h.of_eq (by rw [a]) (fun r => ?_) (fun d => ?_) (by rw [q]), fun _ => by rw [l]; exact id, b, p⟩
  · simp only [State.watchList, w, le_refl]
  · simp only [State.chan, c, le_refl]

/-! ### Channel records -/

theorem leaveWaiting_keeps (c : ChanNo) (r : ChannelRecord) (s : State) : Keeps s (leaveWaiting c r s) :=
  (cueQueue_sched s _ fun h => (List.length_filter_le _ _).trans (by simpa using h.cues)).keeps

theorem withdrawTargets_keeps (c : ChanNo) (s : State) : Keeps s (withdrawTargets c s) := by
  unfold withdrawTargets
  exact ((forEach_sched unbind_sched _ s).trans ((dropEntries_sched _ _).trans (dropPoints_sched _ _ _))).keeps

theorem plainReads_keeps (c : ChanNo) (s : State) : Keeps s (plainReads c s) := Keeps.of_eq rfl rfl rfl rfl rfl rfl rfl

theorem enforce_keeps (c : ChanNo) (r : ChannelRecord) (s : State) : Keeps s (enforce c r s) := by
  unfold enforce
  dsimp only
  refine (modChan_keeps s c fun ch => { ch with inForce := r }).trans ?_
  generalize (s.modChan c fun ch => { ch with inForce := r }) = t
  split
  · exact (modChan_keeps t c Channel.disable).trans (plainReads_keeps _ _)
  · split
    · refine (modChan_keeps t c (fun ch => ch.enableFresh (s.ring r.netRing).shadow.comps.keys) fun _ => Nat.zero_le _).trans ?_
      split
      · exact (post_alr _ _ _).keeps
      · exact Keeps.refl _
    · split
      · exact modChan_keeps _ _ _
      · exact Keeps.refl _

theorem applyChannel_keeps {c : ChanNo} {r : ChannelRecord} {s t : State} (h : applyChannel c r s = .ok t) : Keeps s t := by
  unfold applyChannel at h
  dsimp only at h
  split at h
  · cases h
  · split at h
    · cases h
    · cases h
      refine ((leaveWaiting_keeps c r s).trans ?_).trans (enforce_keeps _ _ _)
      split
      · exact withdrawTargets_keeps _ _
      · exact Keeps.refl _

theorem takeChannelRecord_keeps {c : ChanNo} {bytes : List Byte} {s t : State} (h : takeChannelRecord c bytes s = .ok t) : Keeps s t := by
  unfold takeChannelRecord at h
  dsimp only at h
  split at h
  · exact applyChannel_keeps h
  · cases h; exact modChan_keeps _ _ _

theorem refuse_keeps (a : Addr) (why : RefuseReason) (s : State) : Keeps s (refuse a why s) := Keeps.of_eq rfl rfl rfl rfl rfl rfl rfl

theorem applyStaged_keeps (c : ChanNo) (s : State) : Keeps s (applyStaged c s) := by
  unfold applyStaged
  split
  · exact Keeps.refl s
  · split
    · dsimp only
      refine (modChan_keeps s c fun ch => { ch with staged := none }).trans ?_
      split
      · next h => exact applyChannel_keeps h
      · exact refuse_keeps _ _ _
    · exact Keeps.refl s

theorem applyAllStaged_keeps (s : State) : Keeps s (applyAllStaged s) := forEach_keeps applyStaged_keeps _ s

/-! ### The other records -/

theorem takeRing_keeps (k : RingNo) (new : RingShadow) (s : State) : Keeps s (takeRing k new s) := by
  unfold takeRing
  dsimp only
  refine Keeps.trans ?_ (forEach_keeps (fun c s => modChan_keeps s c fun ch => { ch with cc := rebuildCc new.comps.keys ch.cc }) _ _)
  split
  · exact (modRing_keeps s k _).trans (expireEntries_sched _ _).keeps
  · exact modRing_keeps s k _

theorem takeRingRecord_keeps {k : RingNo} {bytes : List Byte} {s t : State} (h : takeRingRecord k bytes s = .ok t) : Keeps s t := by
  unfold takeRingRecord at h
  split at h
  · cases h
  · split at h
    · cases h
    · split at h
      · cases h
      · cases h; exact takeRing_keeps _ _ _

theorem setClip_keeps (s : State) (n : ClipNo) (x : ClipShadow) : Keeps s (s.setClip n x) := Keeps.of_eq rfl rfl rfl rfl rfl rfl rfl

theorem takeClipRecord_keeps (n : ClipNo) (bytes : List Byte) (s : State) : Keeps s (takeClipRecord n bytes s).1 := by
  unfold takeClipRecord
  dsimp only
  split
  · exact Keeps.refl s
  · split
    · exact setClip_keeps _ _ _
    · split
      · exact setClip_keeps _ _ _
      · exact (setClip_keeps s n _).trans (forEach_sched tryQueue_sched _ _).keeps

theorem setReady_keeps (s : State) (c : ChanNo) (l : List PodNo) : Keeps s (s.setReady c l) := Keeps.of_eq rfl rfl rfl rfl rfl rfl rfl

theorem modPod_keeps (s : State) (p : PodNo) (f : Pod → Pod) : Keeps s (s.modPod p f) := Keeps.of_eq rfl rfl rfl rfl rfl rfl rfl

theorem loadPod_keeps (p : PodNo) (r : PodRecord) (s : State) : Keeps s (loadPod p r s) := by
  unfold loadPod
  dsimp only
  refine Keeps.trans ?_ (tryQueue_sched _ _).keeps
  split <;> split <;>
    first
    | exact modPod_keeps _ _ _
    | exact (setReady_keeps _ _ _).trans (modPod_keeps _ _ _)
    | exact (modPod_keeps _ _ _).trans (setReady_keeps _ _ _)
    | exact ((setReady_keeps _ _ _).trans (modPod_keeps _ _ _)).trans (setReady_keeps _ _ _)

theorem takePodRecord_keeps {p : PodNo} {bytes : List Byte} {s t : State} (h : takePodRecord p bytes s = .ok t) : Keeps s t := by
  unfold takePodRecord at h
  split at h
  · cases h
  · split at h
    · cases h; exact Keeps.refl _
    · split at h
      · cases h
      · split at h
        · cases h; exact loadPod_keeps _ _ _
        · cases h

theorem settle_keeps (a : Addr) (t : Except RefuseReason State) (s : State) (h : ∀ u, t = .ok u → Keeps s u) : Keeps s (settle a t s) := by
  unfold settle
  split
  · exact h _ rfl
  · exact refuse_keeps _ _ _

theorem settleClip_keeps {a : Addr} {t : State × Option RefuseReason} {s : State} (h : Keeps s t.1) : Keeps s (settleClip a t) := by
  unfold settleClip
  split
  · exact h
  · exact h.trans (refuse_keeps _ _ _)

theorem takeRecord_keeps (id : RecordId) (a : Addr) (bytes : List Byte) (s : State) : Keeps s (takeRecord id a bytes s) := by
  unfold takeRecord
  split
  · exact settle_keeps _ _ _ fun _ => takeRingRecord_keeps
  · exact settle_keeps _ _ _ fun _ => takeChannelRecord_keeps
  · exact settle_keeps _ _ _ fun _ h => (takeAlertRecord_alr h).keeps
  · exact settle_keeps _ _ _ fun _ => takePodRecord_keeps
  · exact settleClip_keeps (takeClipRecord_keeps _ _ _)

/-! ### Mailboxes -/

theorem spliceNow_sched (mb : List Byte) (s : State) : Sched s (spliceNow mb s).1 := by
  unfold spliceNow
  dsimp only
  split
  · exact Sched.refl s
  · split
    · exact Sched.refl s
    · split
      · exact Sched.refl s
      · split
        · exact Sched.refl s
        · exact bindPod_sched _ _ _ _ _ _

theorem returnNow_sched (mb : List Byte) (s : State) : Sched s (returnNow mb s).1 := by
  unfold returnNow
  split
  · exact Sched.refl s
  · split
    · split
      · exact Sched.refl s
      · split
        · next h => exact armReturn_sched h
        · exact Sched.refl s
    · exact Sched.refl s

theorem cancelEvent_sched (mb : List Byte) (s : State) : Sched s (cancelEvent mb s).1 := by
  unfold cancelEvent
  split
  · exact Sched.refl s
  · exact cancelBreak_sched _ _ _

theorem revokePod_sched (p : PodNo) (s : State) : Sched s (revokePod p s).1 := by
  unfold revokePod
  split
  · exact Sched.refl s
  · exact Sched.refl s
  · exact Sched.refl s
  · dsimp only
    exact (setReady_sched _ _ _).trans (modPod_sched _ p (fun pod => { pod with state := .empty }) fun _ => rfl)
  · exact closePod_sched _ _ _ _
  · exact closePod_sched _ _ _ _

theorem podRevoke_sched (mb : List Byte) (s : State) : Sched s (podRevoke mb s).1 := by
  unfold podRevoke
  split
  · exact Sched.refl s
  · exact revokePod_sched _ _

theorem armFeed_sched (c : ChanNo) (f : RingNo) (a : FeedStartArgs) (s : State)
    (room : s.watchHasRoom (s.netRing c) a.entries = true) : Sched s (armFeed c f a s) := by
  unfold armFeed
  dsimp only
  unfold FeedStartArgs.entries at room
  cases hs : a.stop with
  | none => rw [hs] at room; exact arm_sched room _ _ _ _
  | some t =>
    rw [hs] at room
    simp only [Option.isSome_some, if_true, State.watchHasRoom, decide_eq_true_eq] at room
    refine (arm_sched ?_ _ _ _ _).trans (arm_sched ?_ _ _ _ _)
    · simp only [State.watchHasRoom, decide_eq_true_eq]; omega
    · simp only [State.watchHasRoom, decide_eq_true_eq, arm, setWatch_get_self, List.length_append, List.length_singleton]
      omega

theorem feedStartCmd_sched (mb : List Byte) (s : State) : Sched s (feedStartCmd mb s).1 := by
  unfold feedStartCmd
  dsimp only
  split
  · split
    · exact Sched.refl s
    · split
      · exact Sched.refl s
      · split
        · exact Sched.refl s
        · split
          · exact Sched.refl s
          · next room => exact armFeed_sched _ _ _ _ (by simpa only [Bool.not_eq_true', Bool.not_eq_false] using room)
  · exact Sched.refl s

theorem feedStop_sched (mb : List Byte) (s : State) : Sched s (feedStop mb s).1 := by
  unfold feedStop
  dsimp only
  split
  · exact Sched.refl s
  · split
    · exact dropFeedTargets_sched _ _
    · split
      · exact Sched.refl s
      · split
        · exact Sched.refl s
        · split
          · exact rearm_sched _ _ _ _ _ _
          · split
            · next room => exact arm_sched room _ _ _ _
            · exact Sched.refl s

theorem reset_capacity : Capacity State.reset where
  asRun := by decide
  watch := fun r => by simp [State.watchList, State.reset, Vector.get_eq_getElem]
  queue := fun c => by simp [State.chan, State.reset, Vector.get_eq_getElem]
  cues := by decide

theorem softReset_keeps (s : State) : Keeps s (softReset s) :=
  ⟨fun _ => reset_capacity.of_eq rfl (fun _ => le_rfl) (fun _ => le_rfl) le_rfl, fun _ => id, rfl, rfl⟩

theorem command_keeps (n : Nat) (mb : List Byte) (s : State) : Keeps s (command n mb s).1 := by
  unfold command
  split
  · exact (spliceNow_sched _ _).keeps
  · exact (returnNow_sched _ _).keeps
  · exact (cancelEvent_sched _ _).keeps
  · exact (podRevoke_sched _ _).keeps
  · exact (feedStartCmd_sched _ _).keeps
  · exact (feedStop_sched _ _).keeps
  · exact (alertEngage_alr _).keeps
  · exact (alertEnd_alr _).keeps
  · exact (lockDown_alr _ _).keeps
  · unfold softResetCmd
    split
    · exact Keeps.refl s
    · exact softReset_keeps s

theorem finishCommand_keeps (tag : Option (BitVec 32)) (n : Nat) (r : Result) (s : State) : Keeps s (finishCommand tag n r s) := by
  unfold finishCommand
  dsimp only
  split <;> exact Keeps.of_eq rfl rfl rfl rfl rfl rfl rfl

/-! ### Words -/

theorem AsRun.consumeTo_held (q : AsRun) (c : BitVec 8) (h : q.held ≤ Config.asRunSize) : (q.consumeTo c).held ≤ Config.asRunSize := by
  unfold AsRun.consumeTo
  split
  · next hle =>
    simp only [AsRun.held, Config.asRunSize] at *
    bv_omega
  · simp [AsRun.held, Config.asRunSize]

theorem clearCounters_keeps (s : State) : Keeps s (clearCounters s) := by
  refine ⟨fun h => ⟨h.asRun, h.watch, fun c => ?_, h.cues⟩, fun _ => id, rfl, rfl⟩
  have := h.queue c
  simpa [clearCounters, State.chan, Vector.get_eq_getElem] using this

theorem takeWord_keeps (x : StatusWord) (bytes : List Byte) (s : State) : Keeps s (takeWord x bytes s) := by
  unfold takeWord
  split
  · exact Keeps.of_eq rfl rfl rfl rfl rfl rfl rfl
  · exact Keeps.of_eq rfl rfl rfl rfl rfl rfl rfl
  · exact clearCounters_keeps s
  · exact ⟨fun h => ⟨AsRun.consumeTo_held _ _ h.asRun, h.watch, h.queue, h.cues⟩, fun _ => id, rfl, rfl⟩

/-! ### Requests and responses -/

theorem ite_keeps {s a b : State} {p : Prop} [Decidable p] (ha : Keeps s a) (hb : Keeps s b) : Keeps s (if p then a else b) := by
  split
  · exact ha
  · exact hb

theorem examineWord_keeps (w : WriteReq) (x : StatusWord) (s : State) : Keeps s (examineWord w x s) := by
  unfold examineWord
  exact ite_keeps (ite_keeps (takeWord_keeps _ _ _) (refuse_keeps _ _ _)) (Keeps.refl s)

theorem runCommand_keeps (n : Nat) (mb : List Byte) (s : State) : Keeps s (runCommand n mb s) :=
  (command_keeps n mb s).trans (finishCommand_keeps _ _ _ _)

theorem examineMalformed_keeps (w : WriteReq) (s : State) : Keeps s (examineMalformed w s) := by
  unfold examineMalformed
  cases s.lowestMailbox w with
  | some n => exact finishCommand_keeps _ _ _ _
  | none => exact Keeps.refl s

theorem examineMailboxes_keeps (w : WriteReq) (s : State) : Keeps s (examineMailboxes w s) := by
  unfold examineMailboxes
  cases s.mailboxOf w with
  | some n => exact runCommand_keeps _ _ _
  | none => exact examineMalformed_keeps _ _

theorem examineRecords_keeps (w : WriteReq) (s : State) : Keeps s (examineRecords w s) := by
  unfold examineRecords
  cases s.recordOf w with
  | some id => exact takeRecord_keeps _ _ _ _
  | none => exact ite_keeps (refuse_keeps _ _ _) (Keeps.refl s)

theorem intake_keeps (w : WriteReq) (s : State) : Keeps s (intake w s) :=
  ((forEach_keeps (examineWord_keeps w) _ s).trans (examineMailboxes_keeps w _)).trans (examineRecords_keeps w _)

theorem countOrder_keeps (r : RingNo) (s : State) : Keeps s (countOrder r s) :=
  (modRing_keeps s r _).trans (setFlag_sched _ _).keeps

theorem trackCell_keeps (r : RingNo) (k : Nat) (cell : List Byte) (s : State) : Keeps s (trackCell r k cell s) := by
  have hin : ∀ f t, Keeps t (inspect r f cell t) := fun f t => by
    obtain ⟨a, h⟩ := inspect_sched r f cell t
    exact (modRing_keeps t r _).trans h.keeps
  unfold trackCell
  dsimp only
  refine (modRing_keeps s r fun x => classSlot k (parseCell cell) (advance k (writeKind (s.ring r) k) x)).trans ?_
  generalize (s.modRing r fun x => classSlot k (parseCell cell) (advance k (writeKind (s.ring r) k) x)) = t
  split
  · exact hin _ _
  · refine Keeps.trans ?_ (hin _ _)
    split
    · exact countOrder_keeps _ _
    · exact Keeps.refl _
  · exact countOrder_keeps _ _

theorem trackPartial_keeps (r : RingNo) (w : WriteReq) (s : State) : Keeps s (trackPartial r w s) := by
  unfold trackPartial
  dsimp only
  split
  · exact Keeps.refl s
  · exact (modRing_keeps s r _).trans (countOrder_keeps _ _)

theorem trackWrite_keeps (w : WriteReq) (r : RingNo) (s : State) : Keeps s (trackWrite w r s) := by
  unfold trackWrite
  split
  · exact trackCell_keeps _ _ _ _
  · exact trackPartial_keeps _ _ _

theorem forward_keeps (r : Request) (s : State) : Keeps s (forward r s) := Keeps.of_eq rfl rfl rfl rfl rfl rfl rfl

theorem acceptWrite_keeps (w : WriteReq) (s : State) : Keeps s (acceptWrite w s) := by
  have h1 : ∀ b t, Keeps t (intakeIf b w t) := fun b t => by
    unfold intakeIf; split
    · exact intake_keeps _ _
    · exact Keeps.refl _
  have h2 : ∀ b t, Keeps t (orderIf b t) := fun b t => by
    unfold orderIf; split
    · exact (setFlag_sched _ _).keeps
    · exact Keeps.refl _
  unfold acceptWrite
  dsimp only
  exact ((((forward_keeps (.write w) s).trans (h1 _ _)).trans (forEach_keeps (trackWrite_keeps w) _ _)).trans (h2 _ _)).trans
    (applyAllStaged_keeps _)

theorem releaseStatus_keeps (s : State) : Keeps s (releaseStatus s) := Keeps.of_eq rfl rfl rfl rfl rfl rfl rfl

theorem partialRead_keeps (inside : Option ChanNo) (addr : Addr) (len : Nat) (s : State) : Keeps s (partialRead inside addr len s) :=
  Keeps.of_eq rfl rfl rfl rfl rfl rfl rfl

theorem takePoints_eng (c : ChanNo) (seq : Option SeqNo) (t : State × ReadCtx) : Eng t.1 (takePoints c seq t).1 := by
  unfold takePoints
  split
  · exact takeDue_eng _ _ _ _
  · exact Eng.refl _

theorem sendRead_keeps (w : WindowRead) (addr : Addr) (s : State) : Keeps s (sendRead w addr s) := Keeps.of_eq rfl rfl rfl rfl rfl rfl rfl

theorem spliceRead_keeps (c : ChanNo) (k : Nat) (s : State) : Keeps s (spliceRead c k s) := by
  unfold spliceRead
  dsimp only
  exact (((takeMark_eng c s).trans (takePoints_eng _ _ _)).trans (serveRead_eng _ _ _ _ _)).keeps.trans (sendRead_keeps _ _ _)

theorem windowRead_keeps (inside : Option ChanNo) (addr : Addr) (len : Nat) (s : State) : Keeps s (windowRead inside addr len s) := by
  unfold windowRead
  split
  · split
    · split
      · exact (spliceRead_keeps _ _ _).trans (applyAllStaged_keeps _)
      · exact partialRead_keeps _ _ _ _
    · exact partialRead_keeps _ _ _ _
  · exact partialRead_keeps _ _ _ _

theorem acceptRead_keeps (addr : Addr) (len : Nat) (s : State) : Keeps s (acceptRead addr len s) := by
  unfold acceptRead
  dsimp only
  split
  · exact Keeps.of_eq rfl rfl rfl rfl rfl rfl rfl
  · split
    · exact forward_keeps _ _
    · split
      · exact windowRead_keeps _ _ _ _
      · exact forward_keeps _ _

theorem accept_keeps (r : Request) (s : State) : Keeps s (accept r s) := by
  unfold accept
  split
  · exact Keeps.refl s
  · split
    · exact acceptRead_keeps _ _ _
    · exact acceptWrite_keeps _ _

theorem quiet_keeps (s : State) : Keeps s s.quiet := Keeps.of_eq rfl rfl rfl rfl rfl rfl rfl

/-! ### The Cell Rewriter -/

theorem applyMark_queue (p : Pid) (room : Bool) (cell : List Byte) (ch : Channel) : (applyMark p room cell ch).2.queue = ch.queue := by
  unfold applyMark
  split
  · split <;> rfl
  · rfl

theorem passNetwork_queue (video : Option Pid) (cell : List Byte) (ch : Channel) : (passNetwork video cell ch).2.queue = ch.queue := by
  unfold passNetwork
  dsimp only
  split
  · rfl
  · exact applyMark_queue _ _ _ _

theorem takeSwitch_queue (ch : Channel) (sw : Option SwitchIn) (wrap : Option Dur) (t0 : Stamp) : (ch.takeSwitch sw wrap t0).queue = ch.queue := by
  cases sw <;> cases wrap <;> rfl

theorem passSource_queue (net map : Components) (feedPsi : Bool) (sw : Option SwitchIn) (wrap : Option Dur) (cell : List Byte) (ch : Channel) :
    (passSource net map feedPsi sw wrap cell ch).2.queue = ch.queue := by
  unfold passSource
  dsimp only
  split
  · exact takeSwitch_queue _ _ _ _
  · exact (applyMark_queue _ _ _ _).trans (takeSwitch_queue _ _ _ _)

theorem passCell_queue (net : Components) (serving : Serving) (cell : List Byte) (ch : Channel) :
    (passCell net serving cell ch).2.queue = ch.queue := by
  unfold passCell
  split
  · exact passNetwork_queue _ _ _
  · rfl
  · rfl
  · exact passSource_queue _ _ _ _ _ _ _

theorem judgeCarried_eng (w : WindowRead) (s : State) : Eng s (judgeCarried w s) := by
  unfold judgeCarried
  split
  · exact judgeResume_eng _ _ _
  · exact Eng.refl s

theorem takeMarkReq_queue (b : Bool) (ch : Channel) : (ch.takeMarkReq b).queue = ch.queue := by
  unfold Channel.takeMarkReq
  split <;> rfl

theorem rewriteCell_keeps (w : WindowRead) (cell : List Byte) (s : State) : Keeps s (rewriteCell w cell s).1 := by
  refine ⟨fun h => h.of_eq rfl (fun _ => le_rfl) (fun d => ?_) le_rfl, fun _ => id, rfl, rfl⟩
  unfold rewriteCell
  dsimp only
  rw [setChan_get]
  split
  · next e => subst e; rw [passCell_queue, takeMarkReq_queue]
  · exact le_rfl

theorem windowReturn_keeps (w : WindowRead) (cell : List Byte) (s : State) : Keeps s (windowReturn w cell s).1 :=
  (judgeCarried_eng w s).keeps.trans (rewriteCell_keeps _ _ _)

theorem handleData_keeps (how : Handling) (data : List Byte) (s : State) : Keeps s (handleData how data s).1 := by
  unfold handleData
  split
  · exact Keeps.refl s
  · exact windowReturn_keeps _ _ _

theorem answerRead_keeps (t : State × List Byte) : Keeps t.1 (answerRead t) := by
  unfold answerRead
  refine Keeps.trans ?_ (applyAllStaged_keeps _)
  refine Keeps.trans ?_ (releaseStatus_keeps _)
  exact Keeps.of_eq rfl rfl rfl rfl rfl rfl rfl

/-- Some requests leave the outstanding list. -/
theorem outstanding_keeps (s : State) (l : List Outstanding) : Keeps s { s with outstanding := l } := Keeps.of_eq rfl rfl rfl rfl rfl rfl rfl

theorem takeReadData_keeps {data : List Byte} {s t : State} (h : takeReadData data s = .next t) : Keeps s t := by
  unfold takeReadData at h
  split at h
  · cases h; exact Keeps.of_eq rfl rfl rfl rfl rfl rfl rfl
  · cases h
  · split at h
    · split at h
      · rw [← Host.Outcome.next.inj h]
        refine Keeps.trans ?_ (answerRead_keeps _)
        exact (outstanding_keeps s _).trans (handleData_keeps _ _ _)
      · cases h
    · cases h

theorem takeWriteAck_keeps {s t : State} (h : takeWriteAck s = .next t) : Keeps s t := by
  unfold takeWriteAck at h
  split at h
  · cases h; exact Keeps.of_eq rfl rfl rfl rfl rfl rfl rfl
  · cases h
  · split at h
    · cases h; exact Keeps.of_eq rfl rfl rfl rfl rfl rfl rfl
    · cases h

/-! ### The offered commands -/

theorem offer_keeps {r : Request} {s t : State} (h : offer r s = .next t) : Keeps s t := by
  unfold offer at h
  split at h
  · cases h; exact (quiet_keeps s).trans (accept_keeps _ _)
  · cases h

theorem offerWhole_keeps {off size : Nat} {bytes : List Byte} {s t : State} (h : offerWhole off size bytes s = .next t) : Keeps s t := by
  unfold offerWhole at h
  split at h
  · exact offer_keeps h
  · cases h

theorem offerData_keeps {data : List Byte} {s t : State} (h : offerData data s = .next t) : Keeps s t := by
  unfold offerData at h
  split at h
  · exact (quiet_keeps s).trans (takeReadData_keeps h)
  · cases h

theorem offerCell_keeps {data : List Byte} {s t : State} (h : offerCell data s = .next t) : Keeps s t := by
  unfold offerCell at h
  split at h
  · exact (quiet_keeps s).trans (takeReadData_keeps h)
  · cases h

end Sys2Proof.Machine
end

