-- ==== Sys2Proof/Laws/PerInstr.lean ====
section
/-! SUPPORT. One lemma per command: a well-formed command carries a number of bytes that a bus request or response can have. -/

namespace Sys2Proof.Laws.PortWellFormed

/-- The bytes that a command's request or response carries on a bus port (00_scope.md 3.4), where it carries any. -/
def carried : Instr → Option Nat
  | .powerOnReset _ | .rstNAssert | .rstNRelease _ | .writeAcknowledgement | .lineSample _ _ _ | .episodeTimerAdvance => none
  | .otherTraffic (.read _ len) | .statusWindowRead _ len | .windowPartialRead _ len => some len
  | .windowFullCellRead _ => some 192
  | .otherTraffic (.write w) | .ringPartialWrite w | .windowWrite w | .recordWritePartial w | .mailboxMalformedWrite w
  | .statusWordPartialWrite w | .controlRegionOtherWrite w => some w.bytes.length
  | .forwardedReadResponse d | .ringFullCellWrite _ d | .sourceCellReturn d | .networkCellReturn d | .ringRecordWrite _ d
  | .channelRecordWrite _ d | .alertRecordWrite d | .podRecordWrite _ d | .clipRecordWrite _ d | .spliceNow d | .returnNow d
  | .cancelEvent d | .podRevoke d | .feedStart d | .feedStop d | .alertEngage d | .alertEnd d | .lockdown d | .softReset d
  | .flagClear d | .flagEnables d | .counterClear d | .consumeIndex d | .networkSlotNullReturn d => some d.length

/-- What a well-formed command carries is 8 to 256 bytes in steps of 8. -/
def Statement (i : Instr) : Prop := i.wf = true → ∀ n, carried i = some n → 8 ≤ n ∧ n ≤ 256 ∧ n % 8 = 0

/-- A length the bus carries, as arithmetic. -/
theorem of_lengthOk {n : Nat} (h : lengthOk n = true) : 8 ≤ n ∧ n ≤ 256 ∧ n % 8 = 0 := by
  simpa [lengthOk, and_assoc] using h

/-- A structure of a fixed size that the bus carries. -/
theorem of_size {d : List Byte} {k n : Nat} (hk : lengthOk k = true) (h : (d.length == k) = true) (hn : some d.length = some n) :
    8 ≤ n ∧ n ≤ 256 ∧ n % 8 = 0 := by
  cases hn; rw [beq_iff_eq.1 h]; exact of_lengthOk hk

theorem powerOnReset (straps : Byte) : Statement (.powerOnReset straps) := fun _ _ h => nomatch h
theorem rstNAssert : Statement .rstNAssert := fun _ _ h => nomatch h
theorem rstNRelease (straps : Byte) : Statement (.rstNRelease straps) := fun _ _ h => nomatch h
theorem otherTraffic : (r : Request) → Statement (.otherTraffic r)
  | .read _ _ => fun h _ hn => by cases hn; exact of_lengthOk h
  | .write _ => fun h _ hn => by cases hn; exact of_lengthOk h
theorem forwardedReadResponse (data : List Byte) : Statement (.forwardedReadResponse data) := fun h _ hn => by cases hn; exact of_lengthOk h
theorem writeAcknowledgement : Statement .writeAcknowledgement := fun _ _ h => nomatch h
theorem statusWindowRead (addr : Addr) (len : Nat) : Statement (.statusWindowRead addr len) := fun h _ hn => by cases hn; exact of_lengthOk h
theorem ringFullCellWrite (addr : Addr) (cell : List Byte) : Statement (.ringFullCellWrite addr cell) := fun h _ hn => of_size (by decide) h hn
theorem ringPartialWrite (w : WriteReq) : Statement (.ringPartialWrite w) := fun h _ hn => by cases hn; exact of_lengthOk h
theorem windowFullCellRead (addr : Addr) : Statement (.windowFullCellRead addr) := fun _ _ h => by cases h; decide
theorem windowPartialRead (addr : Addr) (len : Nat) : Statement (.windowPartialRead addr len) := fun h _ hn => by cases hn; exact of_lengthOk h
theorem windowWrite (w : WriteReq) : Statement (.windowWrite w) := fun h _ hn => by cases hn; exact of_lengthOk h
theorem sourceCellReturn (data : List Byte) : Statement (.sourceCellReturn data) := fun h _ hn => of_size (by decide) h hn
theorem networkCellReturn (data : List Byte) : Statement (.networkCellReturn data) := fun h _ hn => of_size (by decide) h hn
theorem ringRecordWrite (k : RingNo) (record : List Byte) : Statement (.ringRecordWrite k record) := fun h _ hn => of_size (by decide) h hn
theorem channelRecordWrite (c : ChanNo) (record : List Byte) : Statement (.channelRecordWrite c record) := fun h _ hn => of_size (by decide) h hn
theorem alertRecordWrite (record : List Byte) : Statement (.alertRecordWrite record) := fun h _ hn => of_size (by decide) h hn
theorem podRecordWrite (p : PodNo) (record : List Byte) : Statement (.podRecordWrite p record) := fun h _ hn => of_size (by decide) h hn
theorem clipRecordWrite (n : ClipNo) (record : List Byte) : Statement (.clipRecordWrite n record) := fun h _ hn => of_size (by decide) h hn
theorem recordWritePartial (w : WriteReq) : Statement (.recordWritePartial w) := fun h _ hn => by cases hn; exact of_lengthOk h
theorem mailboxMalformedWrite (w : WriteReq) : Statement (.mailboxMalformedWrite w) := fun h _ hn => by cases hn; exact of_lengthOk h
theorem spliceNow (mb : List Byte) : Statement (.spliceNow mb) := fun h _ hn => of_size (by decide) h hn
theorem returnNow (mb : List Byte) : Statement (.returnNow mb) := fun h _ hn => of_size (by decide) h hn
theorem cancelEvent (mb : List Byte) : Statement (.cancelEvent mb) := fun h _ hn => of_size (by decide) h hn
theorem podRevoke (mb : List Byte) : Statement (.podRevoke mb) := fun h _ hn => of_size (by decide) h hn
theorem feedStart (mb : List Byte) : Statement (.feedStart mb) := fun h _ hn => of_size (by decide) h hn
theorem feedStop (mb : List Byte) : Statement (.feedStop mb) := fun h _ hn => of_size (by decide) h hn
theorem alertEngage (mb : List Byte) : Statement (.alertEngage mb) := fun h _ hn => of_size (by decide) h hn
theorem alertEnd (mb : List Byte) : Statement (.alertEnd mb) := fun h _ hn => of_size (by decide) h hn
theorem lockdown (mb : List Byte) : Statement (.lockdown mb) := fun h _ hn => of_size (by decide) h hn
theorem softReset (mb : List Byte) : Statement (.softReset mb) := fun h _ hn => of_size (by decide) h hn
theorem flagClear (word : List Byte) : Statement (.flagClear word) := fun h _ hn => of_size (by decide) h hn
theorem flagEnables (word : List Byte) : Statement (.flagEnables word) := fun h _ hn => of_size (by decide) h hn
theorem counterClear (word : List Byte) : Statement (.counterClear word) := fun h _ hn => of_size (by decide) h hn
theorem consumeIndex (word : List Byte) : Statement (.consumeIndex word) := fun h _ hn => of_size (by decide) h hn
theorem statusWordPartialWrite (w : WriteReq) : Statement (.statusWordPartialWrite w) := fun h _ hn => by cases hn; exact of_lengthOk h
theorem controlRegionOtherWrite (w : WriteReq) : Statement (.controlRegionOtherWrite w) := fun h _ hn => by cases hn; exact of_lengthOk h
theorem lineSample (alrq0 : Bool) (alrq1 : Bool) (protN : Bool) : Statement (.lineSample alrq0 alrq1 protN) := fun _ _ h => nomatch h
theorem episodeTimerAdvance : Statement .episodeTimerAdvance := fun _ _ h => nomatch h
theorem networkSlotNullReturn (data : List Byte) : Statement (.networkSlotNullReturn data) := fun h _ hn => of_size (by decide) h hn

end Sys2Proof.Laws.PortWellFormed
end

