-- ==== Sys2Proof/Laws/Routing.lean ====
section
/-! SUPPORT. Where an offered request goes: to the ports only, to one area of the control region, to one ring or to one window. -/

namespace Sys2Proof.Machine

/-! ### Staged copies -/

theorem applyStaged_none {c : ChanNo} {s : State} (h : (s.chan c).staged = none) : applyStaged c s = s := by
  unfold applyStaged
  rw [h]

/-- With no staged copy the last part of an event does nothing (R120). -/
theorem applyAllStaged_noStaged {s : State} (h : s.NoStaged) : applyAllStaged s = s := by
  unfold applyAllStaged
  suffices ∀ l : List ChanNo, forEach l applyStaged s = s from this _
  intro l
  induction l with
  | nil => rfl
  | cons c l ih =>
    show forEach l applyStaged (applyStaged c s) = s
    rw [applyStaged_none (h c), ih]

theorem Eng.noStaged {s t : State} (h : Eng s t) (k : s.NoStaged) : t.NoStaged := fun c => by rw [h.staged]; exact k c

/-- A state whose channels are another's holds no more staged copies. -/
theorem State.NoStaged.of_eq {s t : State} (h : s.NoStaged) (e : t.channels = s.channels) : t.NoStaged := fun c => by
  have := h c
  simpa only [State.chan, e] using this

/-! ### Ranges -/

theorem rangesMeet_false {a la b lb : Nat} (h : la = 0 ∨ lb = 0 ∨ b + lb ≤ a ∨ a + la ≤ b) : rangesMeet a la b lb = false := by
  unfold rangesMeet
  rw [Bool.eq_false_iff]
  simp only [ne_eq, Bool.and_eq_true, decide_eq_true_eq]
  omega

theorem rangesMeet_true {a la b lb : Nat} (h1 : 0 < la) (h2 : 0 < lb) (h3 : a < b + lb) (h4 : b < a + la) : rangesMeet a la b lb = true := by
  simp [rangesMeet, *]

/-- The straps are address bits 35 to 28 (R160). -/
theorem regionBase_eq (s : State) : s.regionBase = s.straps.toNat * 2 ^ 28 := by
  unfold State.regionBase
  rw [BitVec.toNat_append, Nat.shiftLeft_eq]
  exact Nat.or_zero _

theorem regionBase_le (s : State) : s.regionBase + 0x10000 ≤ 2 ^ 36 := by
  have := s.straps.isLt
  rw [regionBase_eq]
  omega

/-- An offset of the control region is where its address says. -/
theorem regionAddr_toNat (s : State) {off : Nat} (h : off < 0x10000) : (s.regionAddr off).toNat = s.regionBase + off := by
  have := regionBase_le s
  unfold State.regionAddr
  rw [BitVec.toNat_ofNat, Nat.mod_eq_of_lt]
  omega

theorem rangeWithin_true {a la b lb : Nat} (h : b ≤ a) (g : a + la ≤ b + lb) : rangeWithin a la b lb = true := by
  simp [rangeWithin, h, g]

theorem rangeWithin_false {a la b lb : Nat} (h : a < b ∨ b + lb < a + la) : rangeWithin a la b lb = false := by
  rw [Bool.eq_false_iff]
  simp only [rangeWithin, ne_eq, Bool.and_eq_true, decide_eq_true_eq]
  omega

theorem rangesMeet_iff {a la b lb : Nat} : rangesMeet a la b lb = true ↔ 0 < la ∧ 0 < lb ∧ a < b + lb ∧ b < a + la := by
  simp [rangesMeet, and_assoc]

/-- A read that does not touch the control region does not lie in the status window. -/
theorem offStatus {s : State} {a len : Nat} (hl : lengthOk len = true) (h : s.regionMeets a len = false) :
    rangeWithin a len s.regionBase Config.statusWindowSize = false := by
  apply rangeWithin_false
  have h0 : ¬ (0 < len ∧ 0 < Config.regionSize ∧ a < s.regionBase + Config.regionSize ∧ s.regionBase < a + len) := fun hx =>
    Bool.false_ne_true (h.symm.trans (rangesMeet_iff.mpr hx))
  simp only [lengthOk, Bool.and_eq_true, decide_eq_true_eq] at hl
  simp only [Config.regionSize, Config.statusWindowSize] at h0 ⊢
  omega

/-! ### Full writes -/

theorem writeFull_all (a : Addr) (bytes : List Byte) : writeFull { addr := a, bytes := bytes.map fun b => (b, true) } = true := by
  simp [writeFull, List.all_map]

theorem writeData_all (a : Addr) (bytes : List Byte) : writeData { addr := a, bytes := bytes.map fun b => (b, true) } = bytes := by
  simp [writeData, Function.comp_def]

/-- The whole write of a structure at an offset of the control region. -/
def State.regionReq (s : State) (off : Nat) (bytes : List Byte) : WriteReq := { addr := s.regionAddr off, bytes := bytes.map fun b => (b, true) }

/-! ### Acceptance -/

/-- A write that touches no ring and no window goes downstream, and to Control Intake when it touches the control region (R2, R3). -/
theorem acceptWrite_off (w : WriteReq) (s : State) (h : s.OffRings w.addr.toNat w.bytes.length) :
    acceptWrite w s = applyAllStaged (intakeIf (s.regionMeets w.addr.toNat w.bytes.length) w (forward (.write w) s)) := by
  have hr : (allRings.filter fun r => (s.ring r).shadow.meets w.addr.toNat w.bytes.length) = [] := by
    rw [List.filter_eq_nil_iff]
    intro r _
    rw [h.ring r]
    exact Bool.false_ne_true
  have hw : (allChans.any fun c => s.windowMeets c w.addr.toNat w.bytes.length) = false := by
    rw [List.any_eq_false]
    intro c _
    rw [h.window c]
    exact Bool.false_ne_true
  unfold acceptWrite
  dsimp only
  rw [hr, hw]
  rfl

/-- A write the bus carries, offered while RST_N is high. -/
theorem offer_write {w : WriteReq} {s : State} (hw : lengthOk w.bytes.length = true) (h : s.rstLow = false) :
    offer (.write w) s = .next (acceptWrite w s.quiet) := by
  have hq : s.quiet.rstLow = false := h
  simp only [offer, Request.wf, hw, if_true, accept, hq, Bool.false_eq_true, if_false]

/-- A read the bus carries, offered while RST_N is high. -/
theorem offer_read {addr : Addr} {len : Nat} {s : State} (hw : lengthOk len = true) (h : s.rstLow = false) :
    offer (.read addr len) s = .next (acceptRead addr len s.quiet) := by
  have hq : s.quiet.rstLow = false := h
  simp only [offer, Request.wf, hw, if_true, accept, hq, Bool.false_eq_true, if_false]

/-- A read within the status window is answered, or waits for its turn (R168). -/
theorem acceptRead_status {addr : Addr} {len : Nat} {s : State} (h : s.regionBase ≤ addr.toNat)
    (g : addr.toNat + len ≤ s.regionBase + 0x3000) :
    acceptRead addr len s =
      releaseStatus { s with outstanding := s.outstanding ++ [.status (statusAnswer s (addr.toNat - s.regionBase) len)],
                             freeCount := s.freeCount + 1 } := by
  unfold acceptRead
  dsimp only
  have g' : addr.toNat + len ≤ s.regionBase + Config.statusWindowSize := by unfold Config.statusWindowSize; exact g
  rw [rangeWithin_true h g']
  rfl

/-- A read clear of the control region and of every window is forwarded (R3). -/
theorem acceptRead_off {addr : Addr} {len : Nat} {s : State} (hl : lengthOk len = true) (hr : s.regionMeets addr.toNat len = false)
    (hw : ∀ c, s.windowMeets c addr.toNat len = false) : acceptRead addr len s = forward (.read addr len) s := by
  have ha : (allChans.any fun c => s.windowMeets c addr.toNat len) = false := by
    rw [List.any_eq_false]
    intro c _
    rw [hw c]
    exact Bool.false_ne_true
  unfold acceptRead
  dsimp only
  rw [offStatus hl hr, hr, ha]
  rfl

/-- A read that touches a window and not the control region is a window read (R2). -/
theorem acceptRead_window {addr : Addr} {len : Nat} {s : State} (hl : lengthOk len = true) (hr : s.regionMeets addr.toNat len = false)
    {c : ChanNo} (hw : s.windowMeets c addr.toNat len = true) :
    acceptRead addr len s = windowRead (s.windowHolding addr.toNat len) addr len s := by
  have ha : (allChans.any fun c => s.windowMeets c addr.toNat len) = true :=
    List.any_eq_true.mpr ⟨c, List.mem_finRange c, hw⟩
  unfold acceptRead
  dsimp only
  rw [offStatus hl hr, hr, ha]
  rfl

/-- Status reads at the head are answered, up to the first request that waits (R3). -/
theorem releaseHead_answers (answers : List (List Byte)) (rest : List Outstanding) (h : ∀ a l, rest ≠ .status a :: l) :
    releaseHead (answers.map .status ++ rest) = (answers.map .readData, rest) := by
  induction answers with
  | nil =>
    cases rest with
    | nil => rfl
    | cons x l =>
      cases x with
      | status a => exact absurd rfl (h a l)
      | forwarded r how => rfl
  | cons a as ih => simp only [List.map_cons, List.cons_append, releaseHead, ih]

/-- With no status read at the head nothing is answered. -/
theorem releaseStatus_behind {s : State} (h : ∀ a l, s.outstanding ≠ .status a :: l) : releaseStatus s = s := by
  have := releaseHead_answers [] s.outstanding h
  simp only [List.map_nil, List.nil_append] at this
  unfold releaseStatus
  simp only [this, List.append_nil]

/-- The data of the read that waits first is handled as its acceptance chose (R3). -/
theorem takeReadData_first {data : List Byte} {s : State} {addr : Addr} {len : Nat} {how : Handling} {rest : List Outstanding}
    (ha : s.abandoned = []) (ho : s.outstanding = .forwarded (.read addr len) how :: rest) (hd : data.length = len) :
    takeReadData data s = .next (answerRead (handleData how data { s with outstanding := rest })) := by
  unfold takeReadData
  rw [ha, ho]
  dsimp only
  rw [if_pos hd]

/-- The write that waits first is acknowledged (R3). -/
theorem takeWriteAck_first {s : State} {w : WriteReq} {how : Handling} {rest : List Outstanding} (ha : s.abandoned = [])
    (ho : s.outstanding = .forwarded (.write w) how :: rest) :
    takeWriteAck s = .next (releaseStatus { s with outstanding := rest, upOut := s.upOut ++ [.writeAck] }) := by
  unfold takeWriteAck
  rw [ha, ho]

/-- The cell of a full-cell window read, answered with no staged copy and no status read behind it: what the Cell Rewriter makes of it goes upstream
(R3, R99). -/
theorem offerCell_window {data : List Byte} {s : State} {addr : Addr} {w : WindowRead} {rest : List Outstanding}
    (h : Awaiting s (.read addr 192) (.window w) rest) (hd : data.length = 192) {t : State} {out : List Byte}
    (ht : windowReturn w data { s with outstanding := rest, upOut := [], downOut := [] } = (t, out)) (hs : t.NoStaged)
    (ho : t.outstanding = rest) (hu : t.upOut = []) :
    offerCell data s = .next { t with upOut := [.readData out] } := by
  unfold offerCell
  rw [if_pos (show data.length = Config.cellSize from hd), takeReadData_first (s := s.quiet) h.settled h.first hd]
  show Host.Outcome.next (answerRead (windowReturn w data { s with outstanding := rest, upOut := [], downOut := [] })) = _
  rw [ht]
  unfold answerRead
  dsimp only
  rw [hu, List.nil_append, releaseStatus_behind (s := { t with upOut := [.readData out] }) (by rw [ho]; exact h.behind),
    applyAllStaged_noStaged (s := { t with upOut := [.readData out] }) (hs.of_eq rfl)]

/-- The placement of rings and windows is not changed by what the ports sent. -/
theorem State.OffRings.quiet {s : State} {a n : Nat} (h : s.OffRings a n) : s.quiet.OffRings a n := ⟨h.ring, h.window⟩

theorem quiet_regionBase (s : State) : s.quiet.regionBase = s.regionBase := rfl

theorem forward_quiet (r : Request) (s : State) : forward r s.quiet = s.carry r := rfl

theorem regionReq_length (s : State) (off : Nat) (bytes : List Byte) : (s.regionReq off bytes).bytes.length = bytes.length := by
  simp [State.regionReq]

theorem regionReq_addr (s : State) {off : Nat} (h : off < 0x10000) (bytes : List Byte) :
    (s.regionReq off bytes).addr.toNat = s.regionBase + off := regionAddr_toNat s h

/-- A write within the control region, off rings and windows: Control Intake examines it, then staged copies are applied (R120, R161, R163, R169). -/
theorem offer_region {w : WriteReq} {s : State} {off : Nat} (hl : lengthOk w.bytes.length = true) (ha : w.addr.toNat = s.regionBase + off)
    (ho : off < 0x10000) (high : s.rstLow = false) (h : s.OffRings (s.regionBase + off) w.bytes.length) :
    offer (.write w) s = .next (applyAllStaged (intake w (s.carry (.write w)))) := by
  have hpos : 0 < w.bytes.length := by
    simp only [lengthOk, Bool.and_eq_true, decide_eq_true_eq] at hl
    omega
  have hoff : s.quiet.OffRings w.addr.toNat w.bytes.length := ha ▸ h.quiet
  have hmeets : s.quiet.regionMeets w.addr.toNat w.bytes.length = true := by
    unfold State.regionMeets
    rw [ha]
    exact rangesMeet_true hpos (by decide) (by show _ < s.regionBase + 0x10000; omega) (by show s.regionBase < _; omega)
  rw [offer_write hl high, acceptWrite_off _ _ hoff, hmeets, forward_quiet]
  rfl

/-- A whole write of a structure, off rings and windows. -/
theorem offerWhole_off {off size : Nat} {bytes : List Byte} {s : State} (hb : bytes.length = size) (hl : lengthOk size = true)
    (ho : off < 0x10000) (high : s.rstLow = false) (h : s.OffRings (s.regionBase + off) size) :
    offerWhole off size bytes s = .next (applyAllStaged (intake (s.regionReq off bytes) (s.carried off bytes))) := by
  have hlen : (s.regionReq off bytes).bytes.length = size := (regionReq_length s off bytes).trans hb
  unfold offerWhole
  rw [if_pos hb]
  exact offer_region (w := s.regionReq off bytes) (by rw [hlen]; exact hl) (regionReq_addr s ho bytes) ho high (by rw [hlen]; exact h)

/-! ### Which area examines a write -/

/-- The words, mailboxes and records that a write of `n` bytes at an offset belongs to, none of the writable words. -/
theorem examineWord_off {w : WriteReq} {x : StatusWord} {s : State} {off : Nat} (ha : w.addr.toNat = s.regionBase + off)
    (h : wordOffset x + 8 ≤ off ∨ off + w.bytes.length ≤ wordOffset x) : examineWord w x s = s := by
  unfold examineWord
  have : s.touchesWord w x = false := by
    unfold State.touchesWord State.wordBase
    rw [ha]
    exact rangesMeet_false (by omega)
  rw [this]
  rfl

/-- A whole write of a writable word takes the word (R169). -/
theorem examineWord_whole {w : WriteReq} {x : StatusWord} {s : State} (ha : w.addr.toNat = s.regionBase + wordOffset x)
    (hl : w.bytes.length = 8) (hf : writeFull w = true) : examineWord w x s = takeWord x (writeData w) s := by
  have hp : s.wordPart w x = w.bytes := by
    unfold State.wordPart State.wordBase
    rw [ha, Nat.sub_self, List.drop_zero, List.take_of_length_le (by omega)]
  have ht : s.touchesWord w x = true := by
    unfold State.touchesWord State.wordBase
    rw [ha, hl]
    exact rangesMeet_true (by omega) (by omega) (by omega) (by omega)
  have hc : s.coversWord w x = true := by
    unfold State.coversWord
    rw [hp, hl]
    simp only [State.wordBase, ha, le_refl, decide_true, Bool.true_and, beq_self_eq_true]
    exact hf
  unfold examineWord
  rw [ht, hc, hp]
  rfl

theorem recordIndex_at {start size count i : Nat} (hs : 0 < size) (hi : i < count) : recordIndex start size count (start + size * i) = some i := by
  unfold recordIndex
  rw [List.find?_range_eq_some]
  refine ⟨by simp, List.mem_range.mpr hi, fun j hj => ?_⟩
  have : size * j < size * i := (Nat.mul_lt_mul_left hs).mpr hj
  have hne : start + size * i ≠ start + size * j := by omega
  simpa using hne

/-- An offset outside an area is no record's. -/
theorem recordIndex_off {start size count off : Nat} (hs : 0 < size) (h : off < start ∨ start + size * count ≤ off) :
    recordIndex start size count off = none := by
  unfold recordIndex
  rw [List.find?_eq_none]
  intro j hj
  have : size * j < size * count := (Nat.mul_lt_mul_left hs).mpr (List.mem_range.mp hj)
  simp only [beq_iff_eq]
  omega

theorem offsetOf_at {w : WriteReq} {s : State} {off : Nat} (ha : w.addr.toNat = s.regionBase + off) : s.offsetOf w = some off := by
  unfold State.offsetOf
  rw [if_pos (by omega), ha, Nat.add_sub_cancel_left]

/-- No mailbox examines a write that lies outside 0x3000 to 0x309F (R163). -/
theorem examineMailboxes_off {w : WriteReq} {s : State} {off : Nat} (ha : w.addr.toNat = s.regionBase + off)
    (h : off + w.bytes.length ≤ 0x3000 ∨ 0x30A0 ≤ off) : examineMailboxes w s = s := by
  have h1 : s.mailboxOf w = none := by
    unfold State.mailboxOf
    rw [offsetOf_at ha, Option.bind_some]
    split
    · rw [recordIndex_off (by decide) (by omega)]
      rfl
    · rfl
  have h2 : s.lowestMailbox w = none := by
    unfold State.lowestMailbox
    rw [Option.map_eq_none_iff, List.find?_eq_none]
    intro i hi
    have := List.mem_range.mp hi
    rw [ha, rangesMeet_false (by omega)]
    exact Bool.false_ne_true
  unfold examineMailboxes
  rw [h1]
  simp only [examineMalformed, h2]

/-- A whole write of mailbox `n` carries its command (R163). -/
theorem examineMailboxes_at {w : WriteReq} {s : State} {n : Nat} (h1 : 1 ≤ n) (h10 : n ≤ 10)
    (ha : w.addr.toNat = s.regionBase + (0x3000 + 16 * (n - 1))) (hl : w.bytes.length = 16) (hf : writeFull w = true) :
    examineMailboxes w s = runCommand n (writeData w) s := by
  have : s.mailboxOf w = some n := by
    unfold State.mailboxOf
    rw [offsetOf_at ha, Option.bind_some, if_pos ⟨hl, hf⟩, recordIndex_at (by decide) (by omega), Option.map_some]
    congr 1
    omega
  unfold examineMailboxes
  rw [this]

/-- The record areas leave alone a write outside them (R161). -/
theorem examineRecords_off {w : WriteReq} {s : State} {off : Nat} (ha : w.addr.toNat = s.regionBase + off)
    (h : off + w.bytes.length ≤ 0x4000) : examineRecords w s = s := by
  have h1 : s.recordOf w = none := by
    unfold State.recordOf
    rw [offsetOf_at ha, Option.bind_some]
    split
    · by_cases h0 : w.bytes.length = 0
      · simp only [recordAt, h0]; rfl
      · unfold recordAt
        rw [recordIndex_off (by decide) (by omega), recordIndex_off (by decide) (by omega), recordIndex_off (by decide) (by omega),
          recordIndex_off (by decide) (by omega), if_neg (show ¬ off = 0x6000 by omega)]
        simp
    · rfl
  have h2 : s.recordAreaMeets w = false := by
    unfold State.recordAreaMeets
    rw [ha, List.any_eq_false]
    intro a ha'
    simp only [recordAreas, List.mem_cons, List.not_mem_nil, or_false] at ha'
    rcases ha' with rfl | rfl | rfl | rfl | rfl <;> · rw [rangesMeet_false (by omega)]; exact Bool.false_ne_true
  unfold examineRecords
  rw [h1, h2]
  rfl

/-- A whole record is handed to its owner (R161). -/
theorem examineRecords_at {w : WriteReq} {s : State} {off : Nat} {id : RecordId} (ha : w.addr.toNat = s.regionBase + off)
    (hf : writeFull w = true) (hr : recordAt off w.bytes.length = some id) : examineRecords w s = takeRecord id w.addr (writeData w) s := by
  have : s.recordOf w = some id := by
    unfold State.recordOf
    rw [offsetOf_at ha, Option.bind_some, if_pos hf, hr]
  unfold examineRecords
  rw [this]

theorem recordAt_ring (k : RingNo) : recordAt (0x4000 + 32 * k.val) 32 = some (.ring k) := by
  unfold recordAt
  rw [if_pos rfl, recordIndex_at (by decide) k.isLt]
  simp

theorem recordAt_channel (c : ChanNo) : recordAt (0x5000 + 32 * c.val) 32 = some (.channel c) := by
  have := c.isLt
  unfold recordAt
  rw [if_pos rfl, recordIndex_off (by decide) (by omega), recordIndex_at (by decide) c.isLt]
  simp

theorem recordAt_clip (n : ClipNo) : recordAt (0x8000 + 32 * n.val) 32 = some (.clip n) := by
  have := n.isLt
  unfold recordAt
  rw [if_pos rfl, recordIndex_off (by decide) (by omega), recordIndex_off (by decide) (by omega), recordIndex_at (by decide) n.isLt]
  simp

theorem recordAt_pod (p : PodNo) : recordAt (0x7000 + 64 * p.val) 64 = some (.pod p) := by
  have := p.isLt
  unfold recordAt
  rw [if_neg (by decide), if_pos rfl, if_neg (by omega), recordIndex_at (by decide) p.isLt]
  simp

/-! ### Control Intake -/

/-- A write outside the four writable words: the mailboxes and the records examine it (R169). -/
theorem intake_noWord {w : WriteReq} {s : State} {off : Nat} (ha : w.addr.toNat = s.regionBase + off)
    (h : off + w.bytes.length ≤ 0x100 ∨ 0x120 ≤ off) : intake w s = examineRecords w (examineMailboxes w s) := by
  unfold intake
  have : ∀ x, examineWord w x s = s := fun x => examineWord_off ha (by cases x <;> simp only [wordOffset] <;> omega)
  simp only [forEach, List.foldl, this]

/-- A whole write of a writable word (R169). -/
theorem intake_word {w : WriteReq} {s : State} (x : StatusWord) (ha : w.addr.toNat = s.regionBase + wordOffset x)
    (hl : w.bytes.length = 8) (hf : writeFull w = true) : intake w s = takeWord x (writeData w) s := by
  have hb : (takeWord x (writeData w) s).regionBase = s.regionBase := by
    unfold State.regionBase
    rw [(takeWord_keeps x (writeData w) s).straps]
  have ha' : w.addr.toNat = (takeWord x (writeData w) s).regionBase + wordOffset x := by rw [hb]; exact ha
  have hx := examineWord_whole ha hl hf
  have ho : ∀ y, y ≠ x → ∀ t : State, t.regionBase = s.regionBase → examineWord w y t = t := by
    intro y hy t ht
    refine examineWord_off (off := wordOffset x) (by rw [ht]; exact ha) ?_
    cases x <;> cases y <;> simp_all [wordOffset]
  have hall : forEach [.flagClear, .flagEnables, .counterClear, .consumeIndex] (examineWord w) s = takeWord x (writeData w) s := by
    simp only [forEach, List.foldl]
    cases x
    · rw [hx, ho _ (by decide) _ hb, ho _ (by decide) _ hb, ho _ (by decide) _ hb]
    · rw [ho .flagClear (by decide) s rfl, hx, ho _ (by decide) _ hb, ho _ (by decide) _ hb]
    · rw [ho .flagClear (by decide) s rfl, ho .flagEnables (by decide) s rfl, hx, ho _ (by decide) _ hb]
    · rw [ho .flagClear (by decide) s rfl, ho .flagEnables (by decide) s rfl, ho .counterClear (by decide) s rfl, hx]
  unfold intake
  dsimp only
  rw [hall, examineMailboxes_off ha' (by cases x <;> simp only [wordOffset] <;> omega),
    examineRecords_off ha' (by cases x <;> simp only [wordOffset] <;> omega)]

/-- A whole write of a mailbox (R163). -/
theorem intake_mailbox {w : WriteReq} {s : State} {n : Nat} (h1 : 1 ≤ n) (h10 : n ≤ 10)
    (ha : w.addr.toNat = s.regionBase + (0x3000 + 16 * (n - 1))) (hl : w.bytes.length = 16) (hf : writeFull w = true) :
    intake w s = runCommand n (writeData w) s := by
  rw [intake_noWord ha (by omega), examineMailboxes_at h1 h10 ha hl hf]
  have hb : (runCommand n (writeData w) s).regionBase = s.regionBase := by
    unfold State.regionBase
    rw [(runCommand_keeps n (writeData w) s).straps]
  exact examineRecords_off (by rw [hb]; exact ha) (by omega)

/-- A whole write of a record (R161). -/
theorem intake_record {w : WriteReq} {s : State} {off : Nat} {id : RecordId} (ha : w.addr.toNat = s.regionBase + off) (ho : 0x4000 ≤ off)
    (hf : writeFull w = true) (hr : recordAt off w.bytes.length = some id) : intake w s = takeRecord id w.addr (writeData w) s := by
  rw [intake_noWord ha (by omega), examineMailboxes_off ha (by omega), examineRecords_at ha hf hr]

/-! ### The commands -/

/-- The structure's write is where its offset says after it went downstream, too. -/
theorem carried_addr (s : State) {off : Nat} (h : off < 0x10000) (bytes : List Byte) :
    (s.regionReq off bytes).addr.toNat = (s.carried off bytes).regionBase + off := regionReq_addr s h bytes

/-- A mailbox command runs on the state whose write went downstream, then staged copies are applied (R120, R163). -/
theorem offerMailbox_off {n : Nat} {mb : List Byte} {s : State} (h1 : 1 ≤ n) (h10 : n ≤ 10) (hb : mb.length = 16)
    (high : s.rstLow = false) (h : s.OffRings (s.regionBase + (0x3000 + 16 * (n - 1))) 16) :
    offerMailbox n mb s = .next (applyAllStaged (runCommand n mb (s.carried (0x3000 + 16 * (n - 1)) mb))) := by
  unfold offerMailbox
  rw [offerWhole_off hb (by decide) (by omega) high h,
    intake_mailbox h1 h10 (carried_addr s (by omega) mb) (by rw [regionReq_length, hb]) (writeFull_all _ _)]
  rw [show writeData (s.regionReq (0x3000 + 16 * (n - 1)) mb) = mb from writeData_all _ _]

theorem offerMailbox_clear {n : Nat} {mb : List Byte} {s : State} (h1 : 1 ≤ n) (h10 : n ≤ 10) (hb : mb.length = 16)
    (h : ControlClear s (0x3000 + 16 * (n - 1)) 16) :
    offerMailbox n mb s = .next (applyAllStaged (runCommand n mb (s.carried (0x3000 + 16 * (n - 1)) mb))) :=
  offerMailbox_off h1 h10 hb h.high h.off

/-- A record is handed to its owner on the state whose write went downstream, then staged copies are applied (R120, R161). -/
theorem offerRecord_off {off size : Nat} {id : RecordId} {record : List Byte} {s : State} (hb : record.length = size)
    (hl : lengthOk size = true) (ho : 0x4000 ≤ off ∧ off < 0x10000) (hr : recordAt off size = some id) (high : s.rstLow = false)
    (h : s.OffRings (s.regionBase + off) size) :
    offerWhole off size record s = .next (applyAllStaged (takeRecord id (s.regionAddr off) record (s.carried off record))) := by
  rw [offerWhole_off hb hl ho.2 high h,
    intake_record (carried_addr s ho.2 record) ho.1 (writeFull_all _ _) (by rw [regionReq_length, hb]; exact hr)]
  rw [show writeData (s.regionReq off record) = record from writeData_all _ _]
  rfl

theorem offerRecord_clear {off size : Nat} {id : RecordId} {record : List Byte} {s : State} (hb : record.length = size)
    (hl : lengthOk size = true) (ho : 0x4000 ≤ off ∧ off < 0x10000) (hr : recordAt off size = some id) (h : ControlClear s off size) :
    offerWhole off size record s = .next (applyAllStaged (takeRecord id (s.regionAddr off) record (s.carried off record))) :=
  offerRecord_off hb hl ho hr h.high h.off

/-- A writable word is taken on the state whose write went downstream (R169). -/
theorem offerWord_clear (x : StatusWord) {word : List Byte} {s : State} (hb : word.length = 8) (h : ControlClear s (wordOffset x) 8) :
    offerWhole (wordOffset x) 8 word s = .next (applyAllStaged (takeWord x word (s.carried (wordOffset x) word))) := by
  have ho : wordOffset x < 0x10000 := by cases x <;> decide
  rw [offerWhole_off hb (by decide) ho h.high h.off,
    intake_word x (carried_addr s ho word) (by rw [regionReq_length, hb]) (writeFull_all _ _)]
  rw [show writeData (s.regionReq (wordOffset x) word) = word from writeData_all _ _]

/-! ### The status window and the ports -/

theorem chanStatus_quiet (fr : Nat → Byte) (off : Nat) (s : State) (c : ChanNo) : chanStatus fr off s.quiet c = chanStatus fr off s c := by
  unfold chanStatus
  rfl

theorem deviceHead_quiet (fr : Nat → Byte) (s : State) : deviceHead fr s.quiet = deviceHead fr s := by
  unfold deviceHead
  rfl

theorem deviceWords_quiet (s : State) : deviceWords s.quiet = deviceWords s := by
  unfold deviceWords
  rfl

/-- What the status window shows does not depend on what the ports sent (R168). -/
theorem statusByte_quiet (fr : Nat → Byte) (s : State) (off : Nat) : statusByte fr s.quiet off = statusByte fr s off := by
  have hr : ∀ r, s.quiet.ring r = s.ring r := fun _ => rfl
  have hc : s.quiet.cueQueue = s.cueQueue := rfl
  have ha : s.quiet.asRun = s.asRun := rfl
  unfold statusByte
  simp only [chanStatus_quiet, deviceHead_quiet, deviceWords_quiet, hr, hc, ha]

theorem statusAnswer_quiet (s : State) (off len : Nat) : statusAnswer s.quiet off len = statusAnswer s off len := by
  have : s.quiet.freeCount = s.freeCount := rfl
  unfold statusAnswer
  simp only [statusByte_quiet, this]

end Sys2Proof.Machine
end

