-- ==== Sys2Proof/Laws/Requests.lean ====
section
/-! SUPPORT. A cell written to one ring and a cell read from one window: what the request comes to. -/

namespace Sys2Proof.Machine

/-- An address that is a slot's is that slot's (R1). -/
theorem slotAt_at {base n k a : Nat} (h : a = base + 192 * k) (hk : k < n) : slotAt base n a = some k := by
  have h1 : a - base = 192 * k := by omega
  unfold slotAt Config.cellSize
  rw [h1, Nat.mul_mod_right, Nat.mul_div_cancel_left _ (by decide), if_pos ⟨by omega, rfl, hk⟩]

/-- The only channel of all that passes a test is the first. -/
theorem find_allChans {test : ChanNo → Bool} {c : ChanNo} (h : test c = true) (hn : ∀ d, d ≠ c → test d = false) :
    allChans.find? test = some c := by
  cases hf : allChans.find? test with
  | none => exact absurd h (List.find?_eq_none.mp hf c (List.mem_finRange c))
  | some d =>
    by_contra hne
    have hd : d ≠ c := fun e => hne (by rw [e])
    exact Bool.false_ne_true ((hn d hd).symm.trans (List.find?_some hf))

/-- The only ring of all that passes a test is what a filter leaves. -/
theorem filter_allRings {test : RingNo → Bool} {r : RingNo} (h : test r = true) (hn : ∀ j, j ≠ r → test j = false) :
    allRings.filter test = [r] := by
  have e : allRings.filter test = allRings.filter (· == r) := by
    apply List.filter_congr
    intro j _
    by_cases hj : j = r
    · subst hj; simp [h]
    · simp [hn j hj, hj]
  rw [e, List.filter_beq, show allRings.count r = 1 from List.count_eq_one_of_mem (List.nodup_finRange 48) (List.mem_finRange r)]
  rfl

/-- A full-cell write to a slot of one ring, clear of everything else, is tracked there (R9 to R12). -/
theorem offer_slot {s : State} {r : RingNo} {k : Nat} {addr : Addr} {cell : List Byte} (hl : s.rstLow = false) (h : s.AtSlot r k addr)
    (hc : cell.length = 192) :
    offer (wholeWrite addr cell) s = .next (applyAllStaged (trackCell r k cell (s.carry (wholeWrite addr cell)))) := by
  have hlen : (cell.map fun b => (b, true)).length = 192 := by rw [List.length_map, hc]
  have hbytes : (s.ring r).shadow.bytes = 192 * (s.ring r).shadow.slotCount.toNat := rfl
  have hmeets : (s.ring r).shadow.meets addr.toNat 192 = true := by
    have hs := h.slot
    have hi := h.lies
    unfold RingShadow.meets RingShadow.tracked
    rw [rangesMeet_true (by decide) (by rw [hbytes]; omega) (by rw [hbytes]; omega) (by omega)]
    simpa using h.tracked
  have hrings : (allRings.filter fun j => (s.ring j).shadow.meets addr.toNat 192) = [r] := filter_allRings hmeets h.rings
  have hwin : (allChans.any fun c => s.windowMeets c addr.toNat 192) = false := by
    rw [List.any_eq_false]
    intro c _
    rw [h.windows c]
    exact Bool.false_ne_true
  have hfull : fullCellSlot (s.ring r).shadow { addr := addr, bytes := cell.map fun b => (b, true) } = some k := by
    unfold fullCellSlot
    rw [if_pos ⟨hlen, writeFull_all addr cell⟩]
    exact slotAt_at h.lies h.slot
  unfold wholeWrite
  rw [offer_write (by rw [hlen]; decide) hl]
  unfold acceptWrite
  dsimp only
  rw [hlen]
  have hq : (allRings.filter fun j => (s.quiet.ring j).shadow.meets addr.toNat 192) = [r] := hrings
  have hw : (allChans.any fun c => s.quiet.windowMeets c addr.toNat 192) = false := hwin
  have hr : s.quiet.regionMeets addr.toNat 192 = false := h.region
  rw [hq, hw, hr, forward_quiet]
  unfold orderIf intakeIf
  simp only [Bool.false_eq_true, if_false]
  show Host.Outcome.next (applyAllStaged (trackWrite _ r _)) = _
  unfold trackWrite
  have hf : fullCellSlot ((s.carry (.write { addr := addr, bytes := cell.map fun b => (b, true) })).ring r).shadow
      { addr := addr, bytes := cell.map fun b => (b, true) } = some k := hfull
  rw [hf]
  dsimp only
  rw [show (cell.map fun b => (b, true)).map (·.1) = cell from writeData_all addr cell]

/-- A full-cell read of a slot of one window is taken there (R99). -/
theorem offer_window {s : State} {c : ChanNo} {k : Nat} {addr : Addr} (hl : s.rstLow = false) (h : s.AtWindow c k addr) :
    offer (.read addr 192) s = .next (applyAllStaged (spliceRead c k s.quiet)) := by
  have hbytes : s.windowBytes c = 192 * (s.ring (s.netRing c)).shadow.slotCount.toNat := rfl
  have hs := h.slot
  have hi := h.lies
  have hmeets : s.windowMeets c addr.toNat 192 = true := by
    unfold State.windowMeets
    rw [rangesMeet_true (by decide) (by rw [hbytes]; omega) (by rw [hbytes]; omega) (by omega)]
    simpa [Channel.enabled] using h.enabled
  have hhold : s.quiet.windowHolding addr.toNat 192 = some c := by
    apply find_allChans
    · show (s.windowMeets c addr.toNat 192 && rangeWithin addr.toNat 192 (s.windowBase c) (s.windowBytes c)) = true
      rw [hmeets, rangeWithin_true (by omega) (by rw [hbytes]; omega)]
      rfl
    · intro d hd
      show (s.windowMeets d addr.toNat 192 && _) = false
      rw [h.windows d hd]
      rfl
  have hat : slotAt (s.quiet.windowBase c) (s.quiet.ring (s.quiet.netRing c)).shadow.slotCount.toNat addr.toNat = some k :=
    slotAt_at h.lies h.slot
  have hr : s.quiet.regionMeets addr.toNat 192 = false := h.region
  have hm : s.quiet.windowMeets c addr.toNat 192 = true := hmeets
  rw [offer_read (by decide) hl, acceptRead_window (by decide) hr hm, hhold]
  unfold windowRead
  dsimp only
  rw [hat]
  rfl

/-- A channel changed to what it is. -/
theorem modChan_self (s : State) (c : ChanNo) (f : Channel → Channel) (h : f (s.chan c) = s.chan c) : s.modChan c f = s := by
  unfold State.modChan
  rw [h]
  simp [State.setChan, State.chan, Vector.get_eq_getElem]

/-- With no point due at the head of the queue none is taken (R100). -/
theorem takeDue_none {c : ChanNo} {q : SeqNo} {t : State × ReadCtx}
    (h : ∀ pt, (t.1.chan c).queue.head? = some pt → seqAtOrAfter q pt.seq = false) (n : Nat) : takeDue c q n t = t := by
  cases n with
  | zero => rfl
  | succ n =>
    unfold takeDue
    cases hq : (t.1.chan c).queue with
    | nil => rfl
    | cons pt rest =>
      dsimp only
      rw [h pt (by rw [hq]; rfl)]
      rfl

/-- With no mark pending the read takes none (R99). -/
theorem takeMark_none {c : ChanNo} {s : State} (h : (s.chan c).mark = .none) : takeMark c s = (s, {}) := by
  unfold takeMark
  dsimp only
  rw [modChan_self s c _ (by rw [← h]), h]

/-- A read with no mark and no point due is served by the state as it stands (R99). -/
theorem offer_served {s : State} {c : ChanNo} {k : Nat} {addr : Addr} (h : ReadAt s c k addr) (hm : (s.chan c).mark = .none)
    {t : State} {v : Served}
    (hv : serveRead c ((s.ring (s.netRing c)).classOf k) ((s.ring (s.netRing c)).seqOf k) ((s.ring (s.netRing c)).shadow.slotAddr k) s.quiet =
      (t, v)) (hn : t.NoStaged) :
    offer (.read addr 192) s = .next (sendRead { chan := c, serving := v.serving, markReq := v.markReq, resume := none } v.addr t) := by
  have hq : takeMark c s.quiet = (s.quiet, {}) := takeMark_none (s := s.quiet) hm
  have hp : takePoints c ((s.ring (s.netRing c)).seqOf k) (s.quiet, {}) = (s.quiet, {}) := by
    unfold takePoints
    split
    · next q hs => exact takeDue_none (fun pt hpt => h.noDue q pt hs hpt) _
    · rfl
  rw [offer_window h.high h.at_]
  unfold spliceRead
  dsimp only
  rw [hq]
  have e1 : s.quiet.ring (s.quiet.netRing c) = s.ring (s.netRing c) := rfl
  rw [e1, hp, hv]
  have hns : (sendRead { chan := c, serving := v.serving, markReq := v.markReq, resume := none } v.addr t).NoStaged := hn.of_eq rfl
  dsimp only
  rw [show ((({} : ReadCtx).markReq || ({} : ReadCtx).startMark) || v.markReq) = v.markReq by cases v.markReq <;> rfl]
  exact congrArg Host.Outcome.next (applyAllStaged_noStaged hns)

end Sys2Proof.Machine
end

