-- ==== Sys2Proof/Tests/Slice0.lean ====
section
/-! SUPPORT. Tests of the model against the spec's own tables and worked sequences, and a witness for the hypotheses of every statement of
Certificates/Slice0/Obligations.lean. Expected results are the spec's; each test names the place. -/

open Sys2Proof Sys2Proof.Machine

namespace Sys2Proof.Tests

set_option Elab.async false

/-! ### Small states -/

/-- A network ring of 64 slots at 0x100000 that nothing was written to. -/
def freshRing : Machine.Ring :=
  { shadow := { kind := .network, slotCount := 64, base := 0x100000, comps := { pcr := some 0x100, video := some 0x100, audio1 := some 0x101 },
                pmt := some 0x20, cue := some 0x1F0 }
    classes := List.replicate 64 .unwritten }

/-- The same ring after step 6 of the worked sequence of 1.5: 37 cells, the last in slot 36 (every slot classed OTHER). -/
def busyRing : Machine.Ring :=
  { freshRing with writeCount := 37, lastSlot := some 36, classes := List.replicate 64 .other, mark := some ⟨36, 900000, 777⟩,
                   pcrBase := some 899000 }

/-- A feed ring of 256 slots at 0x400000, as step 3 of the worked sequence of chapter 8 finds it. -/
def feedRing : Machine.Ring :=
  { shadow := { kind := .feed, slotCount := 256, base := 0x400000, comps := { video := some 0x100, pcr := some 0x100 } }
    classes := List.replicate 256 .other, writeCount := 10030, lastSlot := some 45, mark := some ⟨10000, 7200000, 80000000⟩ }

/-- A channel in NETWORK on ring 3, its window at 0x300000. -/
def netChan : Channel := { state := .network, inForce := { flags := 1, ring := 3, base := 0x300000 } }

/-- Ring 3, feed ring 40 and channel 2. -/
def wired (x : Machine.Ring) (ch : Channel) : State := ((State.reset.setRing 3 x).setRing 40 feedRing).setChan 2 ch

/-- Clips 7 and 8, of 3 and 2 cells, and pod 4 on channel 2 that lists them. -/
def stocked (s : State) (pod : Pod) : State :=
  ((s.setClip 7 { valid := true, base := 0x1000000, cellCount := 3, firstPts := 50000, duration := 3003, comps := { video := some 0x200 } }).setClip 8
    { valid := true, base := 0x1100000, cellCount := 2, firstPts := 70000, duration := 1500 }).setPod 4 pod

/-- What pod 4 loads: spots on clips 7 and 8. -/
def podRecord : PodRecord := { chan := 2, spots := [7, 8] }

/-- A cell with sync lost. -/
def deadCell : List Byte := List.replicate 192 0

/-- A cell on the video PID: payload unit start, an adaptation field of length 7 with PCR base 49,000, and a PES start with PTS 50,000; its stamp is
2,000,000 (clip 60 cell 0 of the worked sequence of chapter 7, on the network's PID). -/
def videoCell : List Byte :=
  toBytes 4 2000000 ++ [0x47, 0x41, 0x00, 0x33, 0x07, 0x10] ++ toBytes 6 (49000 * 2 ^ 15 + 0x7E00) ++
  [0x00, 0x00, 0x01, 0xE0, 0x00, 0x00, 0x80, 0x80, 0x05, 0x21, 0x00, 0x03, 0x86, 0xA1] ++ List.replicate 162 0xAA

/-- An answer's bytes as a whole structure, zeros after what is given. -/
def padded (n : Nat) (bs : List Byte) : List Byte := bs ++ List.replicate (n - bs.length) 0

/-! ### Checks of the conditions that statements are made under -/

def settledCheck (s : State) : Bool := !s.rstLow && allChans.all fun c => (s.chan c).staged.isNone

def offCheck (s : State) (a n : Nat) : Bool :=
  (allRings.all fun r => !(s.ring r).shadow.meets a n) && allChans.all fun c => !s.windowMeets c a n

theorem noStaged_of {s : State} (h : settledCheck s = true) : s.NoStaged := fun c => by
  have := List.all_eq_true.mp (Bool.and_eq_true_iff.mp h).2 c (List.mem_finRange c)
  exact Option.isNone_iff_eq_none.mp this

theorem high_of {s : State} (h : settledCheck s = true) : s.rstLow = false := by
  have := (Bool.and_eq_true_iff.mp h).1
  simpa using this

theorem offRings_of {s : State} {a n : Nat} (h : offCheck s a n = true) : s.OffRings a n where
  ring := fun r => by simpa using List.all_eq_true.mp (Bool.and_eq_true_iff.mp h).1 r (List.mem_finRange r)
  window := fun c => by simpa using List.all_eq_true.mp (Bool.and_eq_true_iff.mp h).2 c (List.mem_finRange c)

theorem clear_of {s : State} {off n : Nat} (h : (settledCheck s && offCheck s (s.regionBase + off) n) = true) : ControlClear s off n :=
  ⟨high_of (Bool.and_eq_true_iff.mp h).1, noStaged_of (Bool.and_eq_true_iff.mp h).1, offRings_of (Bool.and_eq_true_iff.mp h).2⟩

def slotCheck (s : State) (r : RingNo) (k : Nat) (addr : Addr) : Bool :=
  (s.ring r).shadow.kind != .unused && decide (k < (s.ring r).shadow.slotCount.toNat) &&
    decide (addr.toNat = (s.ring r).shadow.base.toNat + 192 * k) &&
    (allRings.all fun j => j == r || !(s.ring j).shadow.meets addr.toNat 192) &&
    (allChans.all fun c => !s.windowMeets c addr.toNat 192) && !s.regionMeets addr.toNat 192

theorem atSlot_of {s : State} {r : RingNo} {k : Nat} {addr : Addr} (h : slotCheck s r k addr = true) : s.AtSlot r k addr := by
  simp only [slotCheck, Bool.and_eq_true, decide_eq_true_eq, List.all_eq_true] at h
  obtain ⟨⟨⟨⟨⟨h1, h2⟩, h3⟩, h4⟩, h5⟩, h6⟩ := h
  refine ⟨by simpa using h1, h2, h3, fun j hj => ?_, fun c => by simpa using h5 c (List.mem_finRange c), by simpa using h6⟩
  have := h4 j (List.mem_finRange j)
  simpa [hj] using this

def windowCheck (s : State) (c : ChanNo) (k : Nat) (addr : Addr) : Bool :=
  (s.chan c).state != .off && decide (k < (s.ring (s.netRing c)).shadow.slotCount.toNat) &&
    decide (addr.toNat = s.windowBase c + 192 * k) && (allChans.all fun d => d == c || !s.windowMeets d addr.toNat 192) &&
    !s.regionMeets addr.toNat 192

theorem atWindow_of {s : State} {c : ChanNo} {k : Nat} {addr : Addr} (h : windowCheck s c k addr = true) : s.AtWindow c k addr := by
  simp only [windowCheck, Bool.and_eq_true, decide_eq_true_eq, List.all_eq_true] at h
  obtain ⟨⟨⟨⟨h1, h2⟩, h3⟩, h4⟩, h5⟩ := h
  refine ⟨by simpa using h1, h2, h3, fun d hd => ?_, by simpa using h5⟩
  have := h4 d (List.mem_finRange d)
  simpa [hd] using this

/-- With an empty switch queue no point is due. -/
theorem readAt_of {s : State} {c : ChanNo} {k : Nat} {addr : Addr} (h : (settledCheck s && windowCheck s c k addr && (s.chan c).queue.isEmpty) = true) :
    ReadAt s c k addr := by
  simp only [Bool.and_eq_true] at h
  refine ⟨high_of h.1.1, noStaged_of h.1.1, atWindow_of h.1.2, fun q pt _ hp => ?_⟩
  rw [List.isEmpty_iff.mp h.2] at hp
  cases hp

/-! ### WellFormed: an ill-formed term for each check -/

theorem test_wf_length : lengthOk 0 = false ∧ lengthOk 12 = false ∧ lengthOk 264 = false ∧ lengthOk 8 = true ∧ lengthOk 256 = true := by decide

theorem test_wf_requests : Instr.wf (.otherTraffic (.read 0 4)) = false ∧ Instr.wf (.otherTraffic (.write ⟨0, []⟩)) = false ∧
    Instr.wf (.statusWindowRead 0 300) = false ∧ Instr.wf (.ringPartialWrite ⟨0, []⟩) = false ∧ Instr.wf (.windowPartialRead 0 0) = false ∧
    Instr.wf (.windowWrite ⟨0, []⟩) = false ∧ Instr.wf (.recordWritePartial ⟨0, []⟩) = false ∧ Instr.wf (.mailboxMalformedWrite ⟨0, []⟩) = false ∧
    Instr.wf (.statusWordPartialWrite ⟨0, []⟩) = false ∧ Instr.wf (.controlRegionOtherWrite ⟨0, []⟩) = false := by decide

theorem test_wf_cells : Instr.wf (.ringFullCellWrite 0 []) = false ∧ Instr.wf (.forwardedReadResponse []) = false ∧
    Instr.wf (.sourceCellReturn []) = false ∧ Instr.wf (.networkCellReturn []) = false ∧ Instr.wf (.networkSlotNullReturn []) = false := by decide

theorem test_wf_records : Instr.wf (.ringRecordWrite 0 []) = false ∧ Instr.wf (.channelRecordWrite 0 []) = false ∧
    Instr.wf (.alertRecordWrite []) = false ∧ Instr.wf (.podRecordWrite 0 []) = false ∧ Instr.wf (.clipRecordWrite 0 []) = false := by decide

theorem test_wf_mailboxes : Instr.wf (.spliceNow []) = false ∧ Instr.wf (.returnNow []) = false ∧ Instr.wf (.cancelEvent []) = false ∧
    Instr.wf (.podRevoke []) = false ∧ Instr.wf (.feedStart []) = false ∧ Instr.wf (.feedStop []) = false ∧ Instr.wf (.alertEngage []) = false ∧
    Instr.wf (.alertEnd []) = false ∧ Instr.wf (.lockdown []) = false ∧ Instr.wf (.softReset []) = false := by decide

theorem test_wf_words : Instr.wf (.flagClear []) = false ∧ Instr.wf (.flagEnables []) = false ∧ Instr.wf (.counterClear []) = false ∧
    Instr.wf (.consumeIndex []) = false := by decide

/-- What the check refuses, exec refuses by name. -/
theorem test_exec_refuses : exec (.spliceNow []) State.reset = .refused .illFormed ∧ exec (.otherTraffic (.read 0 4)) State.reset = .refused .illFormed ∧
    exec (.networkCellReturn []) State.reset = .refused .illFormed := ⟨rfl, rfl, rfl⟩

/-- No row of the table has bits. -/
theorem test_no_words : decodeTableWord 8 0xFF = none := rfl

/-! ### The spec's tables -/

/-- 1.5, worked sequence, step 3: slot 4 after slot 1 is ahead by 3, a skip of 2. -/
theorem test_writeKind_skip : writeKind { freshRing with lastSlot := some 1 } 4 = .ahead 3 := by decide
/-- 1.5, steps 5 and 6: 36 slots ahead is late, 32 of 64 is ahead. -/
theorem test_writeKind_half : writeKind { freshRing with lastSlot := some 4 } 40 = .late ∧ writeKind { freshRing with lastSlot := some 4 } 36 = .ahead 32 := by
  decide
/-- 1.5, step 6: slots 5 to 35 are classed OTHER, W becomes 37, L 36; slot 37 stays UNWRITTEN. -/
theorem test_advance_half :
    (advance 36 (.ahead 32) { freshRing with writeCount := 5, lastSlot := some 4 }).writeCount = 37 ∧
    (advance 36 (.ahead 32) { freshRing with writeCount := 5, lastSlot := some 4 }).classOf 35 = .other ∧
    (advance 36 (.ahead 32) { freshRing with writeCount := 5, lastSlot := some 4 }).classOf 37 = .unwritten := by decide

/-- 1.6, worked sequence: W = 123,457 and L = 456 of 1,000 give slot 0 sequence 123,000 and slot 457 sequence 122,457. -/
theorem test_seqOf :
    (let r : Machine.Ring := { shadow := { kind := .network, slotCount := 1000 }, writeCount := 123457, lastSlot := some 456,
                               classes := List.replicate 1000 .other }
     (r.seqOf 0, r.seqOf 457, r.seqOf 500)) = (some 123000, some 122457, some 122500) := by decide +kernel
/-- 1.6, the end: slot 40 of the ring of 1.5 is given 4,294,967,272, and a ring never written gives none. -/
theorem test_seqOf_wraps : busyRing.seqOf 40 = some 4294967272 ∧ freshRing.seqOf 40 = none := by decide +kernel

/-- 2.4, worked sequence: PTS 50,000 and PCR base 49,000 of the cell are found, and it is a video start of its ring. -/
theorem test_parse_video : (parseCell videoCell).pts = some 50000 ∧ (parseCell videoCell).pcr = some (49000, 0) ∧
    classify freshRing.shadow (parseCell videoCell) = .vstart := by decide +kernel
/-- R19: with sync lost only the stamp is found, and the slot is classed OTHER. -/
theorem test_parse_dead : parseCell deadCell = { stamp := 0 } ∧ classify freshRing.shadow (parseCell deadCell) = .other := by decide +kernel

/-- 3.7, the table of R33 near the wraps. -/
theorem test_order_wraps : ticksAfter 100 8589934000 = true ∧ ticksBefore 8589934000 100 = true ∧ ticksBefore (2 ^ 32) 0 = true ∧
    ticksBefore 0 (2 ^ 32) = true ∧ seqAfter 5 4294967290 = true ∧ seqBefore 4294967272 0 = true := by decide
/-- 3.7: 54,000,000 ticks are 3,315,098,112 counts. -/
theorem test_inCounts : inCounts 54000000 = 3315098112 := by decide
/-- 2.4, the end: V = 1,800,000 at 54,000,000 and t_L = 54,018,000 give the estimate 1,800,060. -/
theorem test_estimate : estimate { video := some (1800000, 54000000), tL := some 54018000 } = some 1800060 := by decide

/-- R52: the check value of this CRC over "123456789" is 0x0376E6E7 (the polynomial and start are the spec's; the value is the known one of that code). -/
theorem test_crc : crc32 [0x31, 0x32, 0x33, 0x34, 0x35, 0x36, 0x37, 0x38, 0x39] = 0x0376E6E7 := by decide +kernel

/-- The cell that goes upstream at read 5,000 of the worked sequence of 7.6. -/
def firstOut : List Byte :=
  (passSource freshRing.shadow.comps { video := some 0x100 } false
    (some { place := some (900000, 30000000), ref := 50000, origin := none }) none videoCell
    { netChan with cc := [⟨0x100, some 7, true⟩, ⟨0x101, some 12, true⟩] }).1

/-- 7.6, worked sequence, read 5,000: stamp, PID, counter, PTS and PCR base of the first inserted cell, its mark applied. -/
theorem test_inserted_cell : (parseCell firstOut).stamp = 30000000 ∧ (parseCell firstOut).pid = some 0x100 ∧ (parseCell firstOut).cc = 8 ∧
    (parseCell firstOut).pts = some 900000 ∧ (parseCell firstOut).pcr = some (899000, 0) ∧ (parseCell firstOut).disc = some true := by
  decide +kernel
/-- 7.6, read 5,000: D90 = 850,000 and S = 28,000,000. -/
theorem test_offsets :
    (let ch := netChan.fixOffsets { place := some (900000, 30000000), ref := 50000, origin := none } 2000000
     (ch.d90, ch.s)) = (850000, 28000000) := by decide
/-- 8.3, worked sequence, step 3: sequence 10,000 of the feed ring lies in slot 16. -/
theorem test_feed_slot : feedRing.slotOfSeq 10000 = 16 := by decide
/-- 10.4, worked sequence, steps 3 and 5: an advance within the records held, and one past them. -/
theorem test_consume : (({ producer := 128 } : AsRun).consumeTo 100).held = 28 ∧ (({ producer := 129, consume := 100 } : AsRun).consumeTo 140).consume = 129 := by
  decide
/-- Table of R145: an engage mark posted in ALERT holds SOURCE, a restore mark posted outside it holds none. -/
theorem test_postedMark : postedMark .engage true .restore = .source ∧ postedMark .restore false .engage = .none := by decide
/-- R35: a duration of 0 or of 2^32 ticks is absent. -/
theorem test_breakDuration : breakDuration 0 = none ∧ breakDuration (2 ^ 32) = none ∧ breakDuration (2 ^ 32 - 1) = some (2 ^ 32 - 1) := by decide
/-- 11.8: an alert record's filter length of 0 counts as 1 (R133), and the status window begins with 0x48, 0x32. -/
theorem test_filter_clamp : (parseAlert (padded 64 [])).line0.filter = 1 := by decide +kernel

/-! ### A witness for the hypotheses of each statement -/

/-- The state that most witnesses start from: ring 3 written, channel 2 in NETWORK. -/
def home : State := wired busyRing netChan

/-- Window slot 36 of channel 2. -/
def slot36 : Addr := 0x301B00

theorem home_read : ReadAt home 2 36 slot36 := readAt_of (by decide +kernel)


theorem witness_StepRunsFront : State.reset.pending = [] ∧
    ({ State.reset with pending := [.writeAcknowledgement] } : State).pending = .writeAcknowledgement :: [] := ⟨rfl, rfl⟩

/-- RST_N low. -/
def low : State := { State.reset with rstLow := true }

theorem witness_RstPin : low.rstLow = true := rfl

theorem witness_LowAcceptsNothing : low.rstLow = true ∧ offersRequest (.otherTraffic (.read 0 8)) = true ∧
    Instr.wf (.otherTraffic (.read 0 8)) = true := by decide

theorem home_noStaged : home.NoStaged := noStaged_of (by decide +kernel)

/-- The eight bytes just below ring 3, and the 256 bytes just above the control region. -/
theorem witness_OtherTrafficForwarded :
    (home.rstLow = false ∧ home.NoStaged ∧ home.OffRings 0xFFFF8 8 ∧ home.regionMeets 0xFFFF8 8 = false) ∧
    (∀ c, home.windowMeets c 0x10000 256 = false) ∧ home.regionMeets 0x10000 256 = false ∧ lengthOk 8 = true ∧ lengthOk 256 = true :=
  ⟨⟨rfl, home_noStaged, offRings_of (by decide +kernel), by decide +kernel⟩, by decide +kernel, by decide +kernel, by decide⟩

/-- A state with these requests outstanding. -/
def waiting (l : List Outstanding) : State := { State.reset with outstanding := l }

theorem reset_noStaged : State.reset.NoStaged := noStaged_of (by decide +kernel)

theorem witness_ResponsesInOrder :
    ((waiting [.forwarded (.read 0x10000 8) .plain, .status [1]]).abandoned = [] ∧
      (waiting [.forwarded (.read 0x10000 8) .plain, .status [1]]).NoStaged ∧
      (waiting [.forwarded (.read 0x10000 8) .plain, .status [1]]).outstanding =
        .forwarded (.read 0x10000 8) .plain :: (([[1]] : List (List Byte)).map .status ++ [])) ∧
    ((waiting [.forwarded (.write ⟨0x10000, []⟩) .plain]).abandoned = [] ∧ (waiting [.forwarded (.write ⟨0x10000, []⟩) .plain]).NoStaged ∧
      (waiting [.forwarded (.write ⟨0x10000, []⟩) .plain]).outstanding =
        .forwarded (.write ⟨0x10000, []⟩) .plain :: (([] : List (List Byte)).map .status ++ [])) ∧
    lengthOk 8 = true ∧ (List.replicate 8 (0 : Byte)).length = 8 ∧ ∀ a l, ([] : List Outstanding) ≠ .status a :: l :=
  ⟨⟨rfl, reset_noStaged.of_eq rfl, rfl⟩, ⟨rfl, reset_noStaged.of_eq rfl, rfl⟩, by decide, by decide, fun _ _ h => by cases h⟩

theorem witness_AbandonedDiscarded :
    ({ State.reset with abandoned := [false] } : State).abandoned = false :: [] ∧ lengthOk 8 = true ∧
    ({ State.reset with abandoned := [true] } : State).abandoned = true :: [] := by decide

/-- The last eight bytes of the status window. -/
theorem witness_StatusReadAnswered : State.reset.rstLow = false ∧ lengthOk 8 = true ∧
    State.reset.regionBase ≤ (0x2FF8 : Addr).toNat ∧ (0x2FF8 : Addr).toNat + 8 ≤ State.reset.regionBase + 0x3000 ∧
    State.reset.outstanding = [] ∧
    (waiting [.forwarded (.read 0x10000 8) .plain]).outstanding = .forwarded (.read 0x10000 8) .plain :: [] := by decide +kernel

theorem witness_StatusShows : State.reset.asRun.slots.get 127 = none := by decide +kernel

/-! Rings. -/

/-- The last slot of a ring never written. -/
theorem witness_FirstWrite : (wired freshRing netChan).rstLow = false ∧ (wired freshRing netChan).NoStaged ∧
    (wired freshRing netChan).AtSlot 3 63 0x102F40 ∧ deadCell.length = 192 ∧ ((wired freshRing netChan).ring 3).lastSlot = none :=
  ⟨rfl, noStaged_of (by decide +kernel), atSlot_of (by decide +kernel), by decide +kernel, by decide +kernel⟩

/-- Distances 1 and 32 of 64. -/
theorem witness_AheadWrite : home.rstLow = false ∧ home.NoStaged ∧ (home.AtSlot 3 37 0x101BC0 ∧ home.AtSlot 3 4 0x100300) ∧
    (home.ring 3).lastSlot = some 36 ∧ 36 < (home.ring 3).shadow.slotCount.toNat ∧
    (home.ring 3).classes.length = (home.ring 3).shadow.slotCount.toNat ∧ deadCell.length = 192 ∧
    (1 = (37 + (home.ring 3).shadow.slotCount.toNat - 36) % (home.ring 3).shadow.slotCount.toNat ∧
      2 * 1 ≤ (home.ring 3).shadow.slotCount.toNat) ∧
    32 = (4 + (home.ring 3).shadow.slotCount.toNat - 36) % (home.ring 3).shadow.slotCount.toNat ∧
      2 * 32 ≤ (home.ring 3).shadow.slotCount.toNat :=
  ⟨rfl, home_noStaged, ⟨atSlot_of (by decide +kernel), atSlot_of (by decide +kernel)⟩, by decide +kernel⟩

/-- Distances 0 and 33 of 64. -/
theorem witness_LateWrite : home.rstLow = false ∧ home.NoStaged ∧ home.AtSlot 3 36 0x101B00 ∧ home.AtSlot 3 5 0x1003C0 ∧ (home.ring 3).lastSlot = some 36 ∧
    0 = (36 + (home.ring 3).shadow.slotCount.toNat - 36) % (home.ring 3).shadow.slotCount.toNat ∧
    33 = (5 + (home.ring 3).shadow.slotCount.toNat - 36) % (home.ring 3).shadow.slotCount.toNat ∧
    (home.ring 3).shadow.slotCount.toNat < 2 * 33 ∧ deadCell.length = 192 :=
  ⟨rfl, home_noStaged, atSlot_of (by decide +kernel), atSlot_of (by decide +kernel), by decide +kernel⟩

/-- Eight bytes across slots 0 and 1 of ring 3, all enabled or none. -/
def across (en : Bool) : WriteReq := ⟨0x1000BC, List.replicate 8 (0, en)⟩

theorem witness_PartialRingWrite : home.rstLow = false ∧ home.NoStaged ∧
    (lengthOk (across true).bytes.length = true ∧ (∀ c, home.windowMeets c (across true).addr.toNat (across true).bytes.length = false) ∧
      home.regionMeets (across true).addr.toNat (across true).bytes.length = false ∧
      (∀ r, fullCellSlot (home.ring r).shadow (across true) = none) ∧ (∀ r, fullCellSlot (home.ring r).shadow (across false) = none) ∧
      ∀ r, (home.ring r).classes.length = (home.ring r).shadow.slotCount.toNat) ∧
    touchedSlots (home.ring 3).shadow (across true) = [0, 0, 0, 0, 1, 1, 1, 1] ∧ touchedSlots (home.ring 40).shadow (across true) = [] ∧
    touchedSlots (home.ring 3).shadow (across false) = [] ∧
    ∃ touched : RingNo → Nat → Prop, ∀ r j, touched r j ↔ (home.ring r).shadow.kind ≠ .unused ∧ j < (home.ring r).shadow.slotCount.toNat ∧
      ∃ i b, (across true).bytes[i]? = some (b, true) ∧ (home.ring r).shadow.base.toNat + 192 * j ≤ (across true).addr.toNat + i ∧
        (across true).addr.toNat + i < (home.ring r).shadow.base.toNat + 192 * (j + 1) :=
  ⟨rfl, home_noStaged, by decide +kernel, by decide +kernel, by decide +kernel, by decide +kernel, _, fun _ _ => Iff.rfl⟩

/-- The RETURN entry of pod 4. -/
def returnEntry4 : WatchEntry := { kind := .ret 4, chan := 2, target := .atTick 5000000, pcrBase := none, markSeq := none }

/-- A channel's FEED_IN entry. -/
def feedInEntry : WatchEntry := { kind := .feedIn 40, chan := 2, target := .atTick 5000000, pcrBase := none, markSeq := none }

/-- The video cell with its PCR flag clear: a video start that carries no PCR. -/
def startCell : List Byte := videoCell.take 9 ++ [0x00] ++ videoCell.drop 10

/-- The video cell without its PES header: a PCR arrival, base 49,000, that is no video start. -/
def plainCell : List Byte := videoCell.take 17 ++ List.replicate 175 0xAA

/-- A watch entry that no cell below is due for. -/
def lateEntry : WatchEntry := { kind := .feedOut 40, chan := 2, target := .atTick 60000, pcrBase := none, markSeq := none }

/-- The OUT entry of pod 4 with this target. -/
def outEntry4 (target : Target) (markSeq : Option SeqNo) : WatchEntry :=
  { kind := .out 4, chan := 2, target := target, pcrBase := none, markSeq := markSeq }

/-- Ring 3 watches an entry and one that is not due; pod 4 is BOUND to a cue of 3,003 ticks with automatic return; channel 2 has these points queued. -/
def watched (e : WatchEntry) (queue : List SwitchPoint) : State :=
  (stocked (wired busyRing { netChan with queue := queue })
    { record := podRecord, state := .bound,
      binding := some { ring := 3, event := some 0x5A01, cue := { home.spliceValues 3 with duration := some 3003, autoReturn := true } } }).setWatch 3
    [e, lateEntry]

/-- A point of a sequence in channel 2's queue. -/
def queuedPoint (q : SeqNo) : SwitchPoint := { kind := .feedOut 40, seq := q, anchor := 0, stamp := 0, mark := none, aligned := true }

theorem notDueAt_of {e : WatchEntry} {t pts : Ticks} {seq : SeqNo} (h : e.target = .atTick t) (ht : ticksAtOrAfter pts t = false) :
    ¬ e.DueAt pts seq := by
  rintro (⟨u, hu, hd⟩ | ⟨hu, _⟩) <;> rw [h] at hu <;> cases hu
  rw [ht] at hd
  cases hd

theorem notForcedAt_of {e : WatchEntry} {t base : Ticks} {w : BitVec 32} (h : e.target = .atTick t)
    (ht : ticksAtOrAfter base (t + w.setWidth 33) = false) (a : Ticks) : ¬ e.ForcedAt w base a := by
  rintro (⟨u, hu, hd, _⟩ | ⟨_, hu, _, _⟩) <;> rw [h] at hu <;> cases hu
  rw [ht] at hd
  cases hd

/-- What is asked of the cell and the state, whatever the entry. -/
def reportCheck (s : State) (cell : List Byte) : Bool :=
  settledCheck s && slotCheck s 3 37 0x101BC0 && decide (cell.length = 192) && decide (writeKind (s.ring 3) 37 ≠ .late) &&
    !(parseCell cell).isOn (s.ring 3).shadow.cue

theorem report_of {s : State} {cell : List Byte} (h : reportCheck s cell = true) :
    s.rstLow = false ∧ s.NoStaged ∧ s.AtSlot 3 37 0x101BC0 ∧ cell.length = 192 ∧ writeKind (s.ring 3) 37 ≠ .late ∧
    (parseCell cell).isOn (s.ring 3).shadow.cue = false := by
  simp only [reportCheck, Bool.and_eq_true, decide_eq_true_eq, Bool.not_eq_true'] at h
  exact ⟨high_of h.1.1.1.1, noStaged_of h.1.1.1.1, atSlot_of h.1.1.1.2, h.1.1.2, h.1.2, h.2⟩

/-- The state that a command leaves. -/
def after (i : Instr) (s : State) : State :=
  match exec i s with
  | .next t => t
  | _ => s

/-- The cells: a video start with and without a PCR, a PCR alone, and neither. -/
theorem witness_CellReports :
    reportCheck home videoCell = true ∧ reportCheck home startCell = true ∧ reportCheck home plainCell = true ∧ reportCheck home deadCell = true ∧
    (classify (home.ring 3).shadow (parseCell videoCell) = .vstart ∧ (parseCell videoCell).pts = some 50000 ∧
      (parseCell videoCell).isOn (home.ring 3).shadow.comps.pcr = true ∧ (parseCell videoCell).pcr = some (49000, 0)) ∧
    (classify (home.ring 3).shadow (parseCell startCell) = .vstart ∧ (parseCell startCell).pts = some 50000 ∧ (parseCell startCell).pcr = none) ∧
    (classify (home.ring 3).shadow (parseCell plainCell) ≠ .vstart ∧ (parseCell plainCell).isOn (home.ring 3).shadow.comps.pcr = true ∧
      (parseCell plainCell).pcr = some (49000, 0)) ∧
    (classify (home.ring 3).shadow (parseCell deadCell) ≠ .vstart ∧ (parseCell deadCell).pcr = none) := by decide +kernel

/-- At the start's own PTS and one tick past it; an immediate OUT armed before the start and at it. -/
theorem witness_CellReports_due :
    (outEntry4 (.atTick 50000) none).DueAt 50000 37 ∧ ¬ (outEntry4 (.atTick 50001) none).DueAt 50000 37 ∧
    (outEntry4 .immediate (some 36)).DueAt 50000 37 ∧ ¬ (outEntry4 .immediate (some 37)).DueAt 50000 37 ∧ ¬ lateEntry.DueAt 50000 37 :=
  ⟨.inl ⟨_, rfl, by decide⟩, notDueAt_of rfl (by decide), .inr ⟨rfl, fun _ _ _ h => by cases h; decide⟩,
    fun h => by
      rcases h with ⟨_, h, _⟩ | ⟨_, h⟩
      · cases h
      · exact absurd (h 4 37 rfl rfl) (by decide),
    notDueAt_of rfl (by decide)⟩

/-- With the window of 0 that channel 2 has, at the base itself and one tick past it; an immediate entry that had no base takes this one and is forced. -/
theorem witness_CellReports_forced :
    (outEntry4 (.atTick 49000) none).ForcedAt 0 49000 49000 ∧ (∀ a, ¬ (outEntry4 (.atTick 49001) none).ForcedAt 0 49000 a) ∧
    ({ outEntry4 .immediate none with pcrBase := some 49000 } : WatchEntry).ForcedAt 0 49000 49000 ∧ (∀ a, ¬ lateEntry.ForcedAt 0 49000 a) ∧
    lateEntry.target ≠ .immediate ∧ ((watched (outEntry4 .immediate none) []).chan 2).inForce.window = 0 :=
  ⟨.inl ⟨_, rfl, by decide, rfl⟩, notForcedAt_of rfl (by decide), .inr ⟨_, rfl, rfl, by decide, rfl⟩, notForcedAt_of rfl (by decide),
    by decide, by decide +kernel⟩

/-- Three points leave a place for sequence 37, four do not, nor does a tail of that sequence. -/
theorem witness_CellReports_place : HasPlace (List.replicate 3 (queuedPoint 36)) 37 ∧ ¬ HasPlace (List.replicate 4 (queuedPoint 36)) 37 ∧
    ¬ HasPlace [queuedPoint 37] 37 :=
  ⟨⟨by decide, fun _ h => by cases h; decide⟩, fun h => absurd h.1 (by decide), fun h => absurd (h.2 _ rfl) (by decide)⟩

/-- The states in which they meet: the entry placed or dropped, of each kind that a drop treats in its own way; a FEED_IN whose ring has a mark, and one without. -/
theorem witness_CellReports_states :
    reportCheck (watched (outEntry4 (.atTick 50000) none) (List.replicate 3 (queuedPoint 36))) startCell = true ∧
    reportCheck (watched (outEntry4 (.atTick 50000) none) (List.replicate 4 (queuedPoint 36))) startCell = true ∧
    reportCheck (watched feedInEntry []) plainCell = true ∧
    ((watched returnEntry4 [queuedPoint 37]).watchList 3 = [] ++ returnEntry4 :: [lateEntry] ∧
      ∀ x, x ∈ [] ++ [lateEntry] → x.kind ≠ returnEntry4.kind ∨ x.chan ≠ returnEntry4.chan) ∧
    ((watched returnEntry4 []).pod 4).binding.map (·.cue.duration) = some (some 3003) ∧ (watched returnEntry4 []).cueQueue = [] ∧
    37 = ((after (.ringFullCellWrite 0x101BC0 startCell) (watched (outEntry4 (.atTick 50000) none) [])).ring 3).writeCount - 1 ∧
    ((after (.ringFullCellWrite 0x101BC0 startCell) (watched feedInEntry [])).ring 40).mark = some ⟨10000, 7200000, 80000000⟩ ∧
    ((after (.ringFullCellWrite 0x101BC0 startCell) (watched { feedInEntry with kind := .feedIn 41 } [])).ring 41).mark = none := by decide +kernel

/-! Cues. -/

/-- A section's bytes with the CRC that makes it good. -/
def sealed (bs : List Byte) : List Byte := bs ++ toBytes 4 (crc32 bs).toNat

/-- An OUT cue and the queue entry that holds its values. -/
def outCue1 : Cue :=
  { kind := .out, event := 0x5A01, zones := 1, target := .atTick 1890000, duration := some 2700000, autoReturn := true, avail := 1, expected := 2 }

/-- The queue holds that cue. -/
def queued : State :=
  { home with cueQueue := [{ ring := 3, event := 0x5A01, zones := 1, arrivalSeq := 36, waiting := 4,
                             cue := { target := .atTick 1890000, duration := some 2700000, autoReturn := true, avail := 1, expected := 2,
                                      markSeq := none } }] }

/-- A cell on the CUE PID: these control bits and counter in byte 7, then the payload, stuffed with 0xFF. -/
def cueCell (unitStart : Byte) (byte7 : Byte) (payload : List Byte) : List Byte :=
  [0, 0, 0, 0, 0x47, unitStart ||| 0x01, 0xF0, byte7] ++ payload ++ List.replicate (184 - payload.length) 0xFF

/-- A cell in which a section begins after `pointer` bytes of stuffing. -/
def beginCell (pointer : Nat) (sec : List Byte) : List Byte :=
  cueCell 0x40 0x13 ([BitVec.ofNat 8 pointer] ++ List.replicate pointer 0xFF ++ sec)

/-- The shortest section: OUT of event 0x5A01 for zone 0 at PTS 1,890,000, 2,700,000 ticks with automatic return, avail 1 of 2. -/
def outSection : List Byte :=
  sealed ([0xC7, 0, 24, 0, 1, 0, 0, 0x5A, 1, 1, 6] ++ toBytes 5 1890000 ++ toBytes 5 2700000 ++ [1, 2])

/-- Ring 3 with its section assembler in this state. -/
def assembling (a : Assembler) : State := wired { busyRing with assembler := a } netChan

def cueCheck (s : State) (cell : List Byte) : Bool :=
  settledCheck s && slotCheck s 3 37 0x101BC0 && decide (cell.length = 192) && decide (writeKind (s.ring 3) 37 ≠ .late) &&
    (parseCell cell).isOn (s.ring 3).shadow.cue && decide (classify (s.ring 3).shadow (parseCell cell) ≠ .vstart) &&
    !(parseCell cell).isOn (s.ring 3).shadow.comps.pcr

theorem cueWrite_of {s : State} {cell : List Byte} (h : cueCheck s cell = true) : CueWrite s 3 37 0x101BC0 cell := by
  simp only [cueCheck, Bool.and_eq_true, decide_eq_true_eq, Bool.not_eq_true'] at h
  obtain ⟨⟨⟨⟨⟨⟨h1, h2⟩, h3⟩, h4⟩, h5⟩, h6⟩, h7⟩ := h
  exact ⟨high_of h1, noStaged_of h1, atSlot_of h2, h3, h4, h5, h6, .inl h7⟩

/-- No payload, and a scrambled one. -/
theorem witness_CuesCounted_passed : CueWrite home 3 37 0x101BC0 (cueCell 0x40 0x20 [0]) ∧ CueWrite home 3 37 0x101BC0 (cueCell 0x40 0x53 [0]) ∧
    (parseCell (cueCell 0x40 0x20 [0])).payload = none ∧ (parseCell (cueCell 0x40 0x53 [0])).scrambling ≠ 0 :=
  ⟨cueWrite_of (by decide +kernel), cueWrite_of (by decide +kernel), by decide +kernel⟩

/-- A section that begins at the cell's last byte and past it; of another table; whose length is just in the cell and just not; lengths 23, 24, 361 and 362; of
24 and ending with the cell, and one byte past it. -/
theorem witness_CuesCounted_begun :
    (∀ cell, cell ∈ [beginCell 182 [0xC7], beginCell 183 [], beginCell 0 [0x00], beginCell 180 [0xC7, 0, 24], beginCell 181 [0xC7, 0],
        beginCell 0 [0xC7, 0, 23], beginCell 0 [0xC7, 0, 24], beginCell 0 [0xC7, 0x01, 0x69], beginCell 0 [0xC7, 0x01, 0x6A],
        beginCell 156 [0xC7, 0, 24], beginCell 157 [0xC7, 0, 24]] →
      cueCheck home cell = true ∧ (parseCell cell).payload = some 8 ∧ (parseCell cell).scrambling = 0 ∧ (parseCell cell).unitStart = true) ∧
    8 + 1 + (byteAt (beginCell 182 [0xC7]) 8).toNat = 191 ∧ 8 + 1 + (byteAt (beginCell 183 []) 8).toNat = 192 ∧
    8 + 1 + (byteAt (beginCell 180 [0xC7, 0, 24]) 8).toNat + 3 = 192 ∧ 8 + 1 + (byteAt (beginCell 181 [0xC7, 0]) 8).toNat + 3 = 193 ∧
    (byteAt (beginCell 0 [0x00]) 9 ≠ 0xC7 ∧ byteAt (beginCell 0 [0xC7, 0, 23]) 9 = 0xC7) ∧
    fieldNat (beginCell 0 [0xC7, 0, 23]) 10 2 % 4096 = 23 ∧ fieldNat (beginCell 0 [0xC7, 0, 24]) 10 2 % 4096 = 24 ∧
    fieldNat (beginCell 0 [0xC7, 0x01, 0x69]) 10 2 % 4096 = 361 ∧ fieldNat (beginCell 0 [0xC7, 0x01, 0x6A]) 10 2 % 4096 = 362 ∧
    8 + 1 + (byteAt (beginCell 156 [0xC7, 0, 24]) 8).toNat + 3 + 24 = 192 ∧ 8 + 1 + (byteAt (beginCell 157 [0xC7, 0, 24]) 8).toNat + 3 + 24 = 193 := by
  decide +kernel

/-- A section in progress whose next cell has the next counter, a gap, another table in front, too short a length, and exactly the bytes it wants and one fewer. -/
theorem witness_CuesCounted_continued :
    (∀ buffer, buffer ∈ [[0xC7, 0], [0x00], [0xC7, 0, 23], [0xC7, 0, 184], [0xC7, 0, 185]] →
      cueCheck (assembling (.collecting buffer none 2)) (cueCell 0 0x13 []) = true) ∧
    (home.ring 3).assembler = .idle ∧ cueCheck home (cueCell 0 0x13 []) = true ∧
    ((parseCell (cueCell 0 0x13 [])).payload = some 8 ∧ (parseCell (cueCell 0 0x13 [])).scrambling = 0 ∧
      (parseCell (cueCell 0 0x13 [])).unitStart = false ∧ (parseCell (cueCell 0 0x13 [])).cc = (2 : CC) + 1 ∧
      (parseCell (cueCell 0 0x14 [])).cc ≠ (2 : CC) + 1) ∧
    byteAt ([0x00] ++ (cueCell 0 0x13 []).drop 8) 0 ≠ 0xC7 ∧ byteAt ([0xC7, 0] ++ (cueCell 0 0x13 []).drop 8) 0 = 0xC7 ∧
    fieldNat ([0xC7, 0, 23] ++ (cueCell 0 0x13 []).drop 8) 1 2 % 4096 = 23 ∧
    ([0xC7, 0, 184] ++ (cueCell 0 0x13 []).drop 8).length = 3 + 184 ∧
    fieldNat ([0xC7, 0, 184] ++ (cueCell 0 0x13 []).drop 8) 1 2 % 4096 = 184 ∧
    ([0xC7, 0, 185] ++ (cueCell 0 0x13 []).drop 8).length < 3 + 185 := by decide +kernel

/-- The sections: a bad CRC, a version other than 0, kinds 0, 1, 2, 3 and 4; and a repeat. -/
theorem witness_CuesCounted : crc32 [0xC7] ≠ 0 ∧
    (crc32 (sealed [0xC7, 0, 24, 1, 1]) = 0 ∧ byteAt (sealed [0xC7, 0, 24, 1, 1]) 3 ≠ 0) ∧
    (crc32 (sealed [0xC7, 0, 24, 0, 4]) = 0 ∧ byteAt (sealed [0xC7, 0, 24, 0, 4]) 4 = 4 ∧ crc32 (sealed [0xC7, 0, 24, 0, 0]) = 0) ∧
    (crc32 outSection = 0 ∧ byteAt outSection 3 = 0 ∧ byteAt outSection 4 = 1 ∧ outSection.length = 27) ∧
    (crc32 (sealed [0xC7, 0, 24, 0, 2]) = 0 ∧ crc32 (sealed [0xC7, 0, 24, 0, 3]) = 0) ∧
    (outCue1.kind = .out ∧ (queued.cueEntry 3 outCue1.event).isSome = true ∧ (∀ p, queued.bindingIs p 3 outCue1.event = false) ∧
      (queued.cueEntry 3 outCue1.event).map (fun e => (e.cue.target, e.cue.duration)) = some (outCue1.target, outCue1.duration)) := by
  decide +kernel

def newOutCheck (s : State) : Bool :=
  (s.cueEntry 3 0x5A01).isNone && (allPods.all fun p => !s.bindingIs p 3 0x5A01) &&
    (allChans.all fun ch => setHas 4 ch == ((s.chan ch).state != .off && (s.chan ch).state != .feed && (s.chan ch).inForce.names 3 &&
      (1 : BitVec 8).getLsbD (s.chan ch).inForce.zone.toNat && !(s.chan ch).inForce.ignoresCues)) &&
    (allChans.all fun ch => (s.readyList ch).all fun p => !s.eligible 1 p) && decide (s.cueQueue.length < 32)

theorem newOut_of {s : State} (h : newOutCheck s = true) : NewOut s 3 0x5A01 1 1 4 := by
  simp only [newOutCheck, Bool.and_eq_true, decide_eq_true_eq, List.all_eq_true, Option.isNone_iff_eq_none] at h
  obtain ⟨⟨⟨⟨h1, h2⟩, h3⟩, h4⟩, h5⟩ := h
  refine ⟨h1, fun p => by simpa using h2 p (List.mem_finRange p), fun ch => ?_, fun ch p _ hp => by simpa using h4 ch (List.mem_finRange ch) p hp, by decide, h5⟩
  have := h3 ch (List.mem_finRange ch)
  rw [beq_iff_eq] at this
  rw [this]
  simp [and_assoc]

/-- The queue holds 31 entries of other events. -/
def nearlyFull : State :=
  { home with cueQueue := List.replicate 31 { ring := 3, event := 1, zones := 1, arrivalSeq := 36, waiting := 4, cue := home.spliceValues 3 } }

/-- The cue itself, and the cell that brings its section, at the cell's front and at its end. -/
theorem witness_NewCueQueued : outCue1.kind = .out ∧ NewOut home 3 outCue1.event outCue1.zones outCue1.avail 4 ∧ NewOut nearlyFull 3 0x5A01 1 1 4 ∧
    CueWrite home 3 37 0x101BC0 (beginCell 0 outSection) ∧ CueWrite home 3 37 0x101BC0 (beginCell 156 outSection) ∧
    (home.ring 3).assembler = .idle ∧ (parseCell (beginCell 156 outSection)).payload = some 8 ∧
    8 + 1 + (byteAt (beginCell 156 outSection) 8).toNat = 165 ∧ fieldNat (beginCell 156 outSection) 166 2 % 4096 = 24 ∧ 165 + 3 + 24 = 192 ∧
    field (beginCell 156 outSection) 165 27 = outSection ∧ (byteAt outSection 0 = 0xC7 ∧ crc32 outSection = 0 ∧ byteAt outSection 3 = 0 ∧
      byteAt outSection 4 = 1 ∧ BitVec.ofNat 32 (fieldNat outSection 5 4) = (0x5A01 : BitVec 32) ∧ byteAt outSection 9 = 1 ∧ byteAt outSection 21 = 1) :=
  ⟨rfl, newOut_of (by decide +kernel), newOut_of (by decide +kernel), cueWrite_of (by decide +kernel), cueWrite_of (by decide +kernel), by decide +kernel⟩

/-! Mailbox commands. -/

/-- A mailbox with tag 1 and these bytes from byte 4 on. -/
def mailbox (bs : List Byte) : List Byte := padded 16 ([0, 0, 0, 1] ++ bs)

/-- Pod 4 READY on channel 2's list. -/
def ready4 : State := (stocked home { record := podRecord, state := .ready }).setReady 2 [4]

theorem witness_SpliceNowBinds : ControlClear ready4 0x3000 16 ∧ (byteAt (mailbox [2, 4]) 4).toNat = (2 : ChanNo).val ∧
    (ready4.chan 2).state = .network ∧ (ready4.chan 2).queue = [] ∧
    ((byteAt (mailbox [2, 4]) 5).toNat = (4 : PodNo).val ∧ (ready4.pod 4).state = .ready ∧ (ready4.pod 4).record.chan = 2 ∧
      ready4.clipsValid (ready4.pod 4).record = true) ∧
    (byteAt (mailbox [2, 0xFF]) 5 = 0xFF ∧ (ready4.readyList 2).find? (fun q => ready4.clipsValid (ready4.pod q).record) = some 4) ∧
    (byteAt (mailbox [2, 0xFF]) 4).toNat = (2 : ChanNo).val ∧ (mailbox [2, 4]).length = 16 ∧ (mailbox [2, 0xFF]).length = 16 ∧
    (ready4.watchList (ready4.netRing 2)).length < 16 := ⟨clear_of (by decide +kernel), by decide +kernel⟩

/-- Pod 4 on the air on channel 2 at a position, with its spot 0 PLAYING. -/
def airing (pos : Position) (ch : Channel) : State :=
  stocked (wired busyRing { ch with state := .insert, playing := some 4, pos := some pos, spotTarget := some 30000000 })
    { record := podRecord, state := .airing, anchor := some (900000, 0),
      spotInfo := (Vector.replicate 8 {}).set 0 { fate := .playing, startSeq := some 30, startStamp := some 30000000 } }

theorem witness_ReturnNowArms : ControlClear home 0x3010 16 ∧ ControlClear (airing (.spot 0 1) netChan) 0x3010 16 ∧
    ControlClear ((airing (.spot 0 1) netChan).setWatch 3 [returnEntry4]) 0x3010 16 ∧
    ControlClear ((airing (.spot 0 1) netChan).setWatch 3 (List.replicate 16 feedInEntry)) 0x3010 16 ∧
    (mailbox [32]).length = 16 ∧ (mailbox [2]).length = 16 ∧ (airing (.spot 0 1) netChan).netRing 2 = 3 ∧
    (31 < (byteAt (mailbox [32]) 4).toNat ∧ (byteAt (mailbox [2]) 4).toNat = (2 : ChanNo).val ∧ (home.chan 2).state ≠ .insert) ∧
    ((((airing (.spot 0 1) netChan).chan 2).state = .insert ∧ ((airing (.spot 0 1) netChan).chan 2).playing = some 4 ∧
      ((airing (.spot 0 1) netChan).chan 2).queue = [])) ∧
    returnEntry4 ∈ ((airing (.spot 0 1) netChan).setWatch 3 [returnEntry4]).watchList 3 ∧
    ((airing (.spot 0 1) netChan).watchList 3).length < 16 ∧
    (16 ≤ (((airing (.spot 0 1) netChan).setWatch 3 (List.replicate 16 feedInEntry)).watchList 3).length ∧
      ∀ e, e ∈ ((airing (.spot 0 1) netChan).setWatch 3 (List.replicate 16 feedInEntry)).watchList 3 → e.kind ≠ .ret 4) :=
  ⟨clear_of (by decide +kernel), clear_of (by decide +kernel), clear_of (by decide +kernel), clear_of (by decide +kernel), by decide +kernel⟩

theorem witness_CancelEventRemoves : ControlClear queued 0x3020 16 ∧ (mailbox [48]).length = 16 ∧
    (mailbox [3, 0, 0, 0, 0, 0, 0x5A, 1]).length = 16 ∧ 47 < (byteAt (mailbox [48]) 4).toNat ∧
    (byteAt (mailbox [3, 0, 0, 0, 0, 0, 0x5A, 1]) 4).toNat = (3 : RingNo).val ∧
    (0x5A01 : BitVec 32) = BitVec.ofNat 32 (fieldNat (mailbox [3, 0, 0, 0, 0, 0, 0x5A, 1]) 8 4) ∧
    ∀ p, queued.bindingIs p 3 0x5A01 = true → (queued.pod p).state ≠ .bound ∧ (queued.pod p).state ≠ .pending :=
  ⟨clear_of (by decide +kernel), by decide +kernel⟩

/-- Pod 4 BOUND to event 0x5A01 of ring 3. -/
def bound4 : State :=
  (stocked home { record := podRecord, state := .bound, binding := some { ring := 3, event := some 0x5A01, cue := home.spliceValues 3 } }).setWatch 3
    [{ kind := .out 4, chan := 2, target := .immediate, pcrBase := none, markSeq := none }]

theorem witness_CancelEventUnbinds : ControlClear bound4 0x3020 16 ∧
    (mailbox [3, 0, 0, 0, 0, 0, 0x5A, 1]).length = 16 ∧ (byteAt (mailbox [3, 0, 0, 0, 0, 0, 0x5A, 1]) 4).toNat = (3 : RingNo).val ∧
    (0x5A01 : BitVec 32) = BitVec.ofNat 32 (fieldNat (mailbox [3, 0, 0, 0, 0, 0, 0x5A, 1]) 8 4) ∧ bound4.bindingIs 4 3 0x5A01 = true ∧ (bound4.pod 4).state = .bound ∧
    (∀ q, q ≠ 4 → bound4.bindingIs q 3 0x5A01 = false) ∧ bound4.cueQueue = [] := ⟨clear_of (by decide +kernel), by decide +kernel⟩

theorem witness_PodRevoked : ControlClear bound4 0x3030 16 ∧ ControlClear ready4 0x3030 16 ∧ ControlClear home 0x3030 16 ∧
    (mailbox [64]).length = 16 ∧ (mailbox [4]).length = 16 ∧ 63 < (byteAt (mailbox [64]) 4).toNat ∧
    (byteAt (mailbox [4]) 4).toNat = (4 : PodNo).val ∧ (home.pod 4).state = .empty ∧ (ready4.pod 4).state = .ready ∧
    (bound4.pod 4).state = .bound :=
  ⟨clear_of (by decide +kernel), clear_of (by decide +kernel), clear_of (by decide +kernel), by decide +kernel⟩

/-- FEED_START for channel 2 and feed ring 40, from 5,000,000 to 5,000,001. -/
def feedStartBox (flags : Byte) : List Byte := mailbox [2 + flags, 40, 0, 0, 0x4C, 0x4B, 0x40, 0, 0, 0x4C, 0x4B, 0x41]

theorem witness_FeedStartArms : ControlClear home 0x3040 16 ∧ (feedStartBox 0xC0).length = 16 ∧
    ((feedStartBox 0x40).length = 16 ∧ (byteAt (feedStartBox 0x40) 4).toNat % 64 = (2 : ChanNo).val ∧
      (byteAt (feedStartBox 0x40) 5).toNat = (40 : RingNo).val) ∧ (home.watchList (home.netRing 2)).length < 15 ∧
    (byteAt (feedStartBox 0xC0) 4).toNat % 64 = (2 : ChanNo).val ∧ (byteAt (feedStartBox 0xC0) 5).toNat = (40 : RingNo).val ∧
    (home.chan 2).state = .network ∧ (∀ p, (home.pod p).state = .pending → (home.pod p).record.chan ≠ 2) ∧ (∀ r, home.watchList r = []) ∧
    (home.chan 2).queue = [] ∧ (home.ring 40).shadow.kind = .feed ∧ (byteAt (feedStartBox 0x40) 4).getLsbD 7 = false ∧
    (byteAt (feedStartBox 0xC0) 4).getLsbD 7 = true ∧ (byteAt (feedStartBox 0xC0) 4).getLsbD 6 = true ∧
    ticksAfter (timeField (feedStartBox 0xC0) 11) (timeField (feedStartBox 0xC0) 6) = true := ⟨clear_of (by decide +kernel), by decide +kernel⟩

/-- Channel 2 in FEED on ring 40, its next cell of sequence `fs`. -/
def feeding (fs : SeqNo) : Channel :=
  { netChan with
    state := .feed
    feed := some { ring := 40, fs := fs, run := { startSeq := 30, startStamp := 1, startPts := 2, delivered := 3, underrun := 0, late := false,
                                                  unaligned := false } } }

theorem witness_FeedStopActs : ControlClear home 0x3050 16 ∧ (mailbox [2]).length = 16 ∧ (byteAt (mailbox [2]) 4).toNat = (2 : ChanNo).val ∧
    ControlClear (home.setWatch 3 [feedInEntry]) 0x3050 16 ∧ ControlClear (wired busyRing (feeding 10000)) 0x3050 16 ∧
    (feedInEntry ∈ (home.setWatch 3 [feedInEntry]).watchList 3 ∧ feedInEntry.chan = 2 ∧ feedInEntry.kind = .feedIn 40) ∧
    ((∀ r, (wired busyRing (feeding 10000)).watchList r = []) ∧ ((wired busyRing (feeding 10000)).chan 2).queue = [] ∧
      ((wired busyRing (feeding 10000)).chan 2).state = .feed ∧ ((wired busyRing (feeding 10000)).chan 2).feed = (feeding 10000).feed ∧
      (feeding 10000).feed.isSome = true) ∧
    ((∀ r, home.watchList r = []) ∧ (home.chan 2).queue = [] ∧ (home.chan 2).state = .network) :=
  ⟨clear_of (by decide +kernel), by decide +kernel, by decide +kernel, clear_of (by decide +kernel), clear_of (by decide +kernel), by decide +kernel⟩

/-- The alert record names clip 7 for the command source and LINE0, and channel 2 takes part. -/
def alertRec : AlertRecord := { participation := 4, commandClip := some 7, line0 := { clip := some 7 }, hold := 10 }

/-- Those clips stocked, with this much of an episode. -/
def episode (a : AlertCtl) : State := { stocked home {} with alert := a }

theorem witness_AlertEngaged : ControlClear (episode { record := alertRec }) 0x3060 16 ∧
    ControlClear (episode { record := alertRec, engaged := 4 }) 0x3060 16 ∧ ControlClear home 0x3060 16 ∧ (mailbox []).length = 16 ∧
    hasSource (episode { record := alertRec, engaged := 4 }).alert.engaged .command = true ∧
    (hasSource home.alert.engaged .command = false ∧ home.sourceClip .command = none) ∧
    ((episode { record := alertRec }).alert.engaged = 0 ∧ (episode { record := alertRec }).alert.state = .idle ∧
      (episode { record := alertRec }).sourceClip .command = some 7) :=
  ⟨clear_of (by decide +kernel), clear_of (by decide +kernel), clear_of (by decide +kernel), by decide +kernel⟩

/-- COMMAND alone engaged, the timer one short of the minimum hold of 10 and at it; IDLE; HOLD with nothing engaged. -/
theorem witness_AlertEnded :
    (let s := episode { record := alertRec, state := .active, engaged := 4, timer := 9 }
     ControlClear s 0x3070 16 ∧ s.alert.state ≠ .idle ∧ hasSource s.alert.engaged .command = true ∧ s.EndReleases .command ∧
     (∀ y, y ≠ .command → hasSource s.alert.engaged y = false) ∧ dropSource s.alert.engaged .command = 0 ∧ s.alert.timer.toNat < s.alert.record.hold) ∧
    (let s := episode { record := alertRec, state := .active, engaged := 4, timer := 10 }
     ControlClear s 0x3070 16 ∧ dropSource s.alert.engaged .command = 0 ∧ s.alert.record.hold ≤ s.alert.timer.toNat) ∧
    (ControlClear home 0x3070 16 ∧ home.alert.state = .idle ∧ (mailbox []).length = 16) ∧
    (let s := episode { record := alertRec, state := .hold }
     ControlClear s 0x3070 16 ∧ s.alert.state ≠ .idle ∧ ∀ x, hasSource s.alert.engaged x = false) :=
  ⟨⟨clear_of (by decide +kernel), by decide +kernel, by decide +kernel, .inl rfl, by intro y hy; cases y <;> first | exact absurd rfl hy | decide +kernel,
      by decide +kernel, by decide +kernel⟩,
    ⟨clear_of (by decide +kernel), by decide +kernel⟩, ⟨clear_of (by decide +kernel), by decide +kernel⟩,
    ⟨clear_of (by decide +kernel), by decide +kernel, by intro x; cases x <;> decide +kernel⟩⟩

theorem witness_LockdownAdds : ControlClear home 0x3080 16 ∧ (mailbox [0, 0, 0, 4]).length = 16 ∧
    (4 : ChanSet) = BitVec.ofNat 32 (fieldNat (mailbox [0, 0, 0, 4]) 4 4) := ⟨clear_of (by decide +kernel), by decide +kernel⟩

/-- An alert state that is protected. -/
def protectedAlert (st : AlertState) : AlertCtl := { record := { alertRec with protect := true }, protHigh := false, state := st }

theorem witness_SoftReset : ControlClear (episode (protectedAlert .active)) 0x3090 16 ∧ ControlClear home 0x3090 16 ∧
    ((episode (protectedAlert .active)).alert.isProtected = true ∧ (episode (protectedAlert .active)).alert.state ≠ .idle) ∧
    home.alert.isProtected = false ∧ (mailbox []).length = 16 :=
  ⟨clear_of (by decide +kernel), clear_of (by decide +kernel), by decide +kernel⟩

theorem witness_WordWrites : ControlClear home 0x100 8 ∧ ControlClear home 0x108 8 ∧ ControlClear home 0x110 8 ∧ (padded 8 [1]).length = 8 :=
  ⟨clear_of (by decide +kernel), clear_of (by decide +kernel), clear_of (by decide +kernel), by decide⟩

/-- 29 records held (worked sequence of 10.4), an advance of 29 and of 30. -/
def held29 : State := { home with asRun := { producer := 129, consume := 100 } }

theorem witness_ConsumeIndexMoves : ControlClear held29 0x118 8 ∧ (padded 8 [129]).length = 8 ∧ (padded 8 [130]).length = 8 ∧
    (byteAt (padded 8 [129]) 0 - held29.asRun.consume).toNat ≤ held29.asRun.held ∧
    held29.asRun.held < (byteAt (padded 8 [130]) 0 - held29.asRun.consume).toNat := ⟨clear_of (by decide +kernel), by decide +kernel⟩

/-! Records. -/

/-- A ring record of kind NETWORK at 0x500000 with this many slots. -/
def ringBytes (slots : Byte) : List Byte := padded 32 [1, 0, 0, slots, 0, 0, 0x50, 0, 0]

/-- Ring 5 is placed with 64 slots, not with 63; ring 3 is in use while channel 2 is in INSERT. -/
theorem witness_RingRecordWritten : ControlClear home (0x4000 + 32 * (5 : RingNo).val) 32 ∧
    ControlClear (airing (.spot 0 1) netChan) (0x4000 + 32 * (3 : RingNo).val) 32 ∧ parseRing (padded 32 [3]) = none ∧
    (padded 32 [3]).length = 32 ∧ (ringBytes 63).length = 32 ∧ (ringBytes 64).length = 32 ∧
    (parseRing (ringBytes 63)).map (home.ringOk 5) = some false ∧ (parseRing (ringBytes 64)).map (home.ringOk 5) = some true ∧
    (parseRing (ringBytes 64)).map (home.ringInUse 5) = some false ∧ (parseRing (ringBytes 64)).map (home.ring 5).shadow.moved = some true ∧
    ((parseRing (ringBytes 64)).map ((airing (.spot 0 1) netChan).ringOk 3) = some true ∧
      (parseRing (ringBytes 64)).map ((airing (.spot 0 1) netChan).ringInUse 3) = some true) :=
  ⟨clear_of (by decide +kernel), clear_of (by decide +kernel), by decide +kernel⟩

/-- A channel record that enables a channel on ring 3 with its window at 0x700000. -/
def chanBytes : List Byte := padded 32 [1, 3, 0, 0, 0, 0, 0x70, 0, 0]

theorem witness_ChannelEnabled : ControlClear home (0x5000 + 32 * (5 : ChanNo).val) 32 ∧ chanBytes.length = 32 ∧ (home.chan 5).state = .off ∧
    (parseChannel chanBytes).enable = true ∧ home.windowOk 5 (parseChannel chanBytes) = true ∧ home.alert.state = .idle :=
  ⟨clear_of (by decide +kernel), by decide +kernel⟩

/-- Channel 2 holds a staged copy, in this state of its pod 4 and of the lock-down set. -/
def holding (ch : Channel) (pod : PodState) (lockdown : ChanSet) : State :=
  { stocked (wired busyRing { ch with staged := some (parseChannel chanBytes) }) { record := podRecord, state := pod } with
    alert := { lockdown := lockdown } }

theorem controlStaged_of {s : State} {off n : Nat} (hs : ∀ d, (s.chan d).staged ≠ none → d = 2)
    (h2 : (s.chan 2).staged ≠ none → s.Stages 2) (h : (!s.rstLow && offCheck s (s.regionBase + off) n) = true) : ControlStaged s off n :=
  ⟨by simpa using (Bool.and_eq_true_iff.mp h).1, fun d hd => by cases hs d hd; exact h2 hd, offRings_of (Bool.and_eq_true_iff.mp h).2⟩

/-- A copy is held already, in INSERT and in NETWORK with a PENDING pod; none is held, in INSERT and for a locked-down channel in NETWORK. -/
theorem witness_ChannelStagedOrRefused : chanBytes.length = 32 ∧ (padded 32 []).length = 32 ∧
    ControlStaged (holding { netChan with state := .insert } .airing 0) (0x5000 + 32 * (2 : ChanNo).val) 32 ∧
    (holding { netChan with state := .insert } .airing 0).Stages 2 ∧
    ControlStaged (holding netChan .pending 0) (0x5000 + 32 * (2 : ChanNo).val) 32 ∧ (holding netChan .pending 0).Stages 2 ∧
    ControlStaged (airing (.spot 0 1) netChan) (0x5000 + 32 * (2 : ChanNo).val) 32 ∧
    ControlStaged { home with alert := { lockdown := 4 } } (0x5000 + 32 * (2 : ChanNo).val) 32 ∧
    ((home.chan 2).state = .network ∧ ({ home with alert := { lockdown := 4 } } : State).hasStartedPod 2 = false ∧
      setHas ({ home with alert := { lockdown := 4 } } : State).alert.lockdown 2 = true ∧ (parseChannel (padded 32 [])).enable = false) := by
  have hi : (holding { netChan with state := .insert } .airing 0).Stages 2 := ⟨by decide +kernel, .inl (by decide +kernel)⟩
  have hn : (holding netChan .pending 0).Stages 2 := ⟨by decide +kernel, .inr ⟨4, by decide +kernel⟩⟩
  exact ⟨by decide, by decide, controlStaged_of (by decide +kernel) (fun _ => hi) (by decide +kernel), hi,
    controlStaged_of (by decide +kernel) (fun _ => hn) (by decide +kernel), hn,
    controlStaged_of (by decide +kernel) (fun h => absurd (by decide +kernel) h) (by decide +kernel),
    controlStaged_of (by decide +kernel) (fun h => absurd (by decide +kernel) h) (by decide +kernel), by decide +kernel⟩

/-- What the revoke of pod 4 asks of a state in which channel 2 holds a copy. -/
def revokeCheck (s : State) : Bool :=
  !s.rstLow && offCheck s (s.regionBase + 0x3030) 16 && decide ((s.pod 4).state = .pending) && decide ((s.pod 4).record.chan = 2) &&
    decide ((s.chan 2).state = .network) && (allChans.all fun d => d == 2 || (s.chan d).staged.isNone) &&
    (allPods.all fun q => q == 4 || (s.pod q).record.chan != 2 || (s.pod q).state == .empty || (s.pod q).state == .ready) && s.cueQueue.isEmpty

/-- Channel 2 holds this copy. -/
def holdingCopy (new : ChannelRecord) (lockdown : ChanSet) : State :=
  (holding netChan .pending lockdown).setChan 2 { netChan with staged := some new }

/-- The copy enables the channel on its ring; its window would lie on the ring; it disables the channel, locked down or not. -/
theorem witness_ChannelStagedOrRefused_applied : (byteAt (mailbox [4]) 4).toNat = (4 : PodNo).val ∧ (mailbox [4]).length = 16 ∧
    (revokeCheck (holdingCopy (parseChannel chanBytes) 0) = true ∧ (parseChannel chanBytes).enable = true ∧
      (holdingCopy (parseChannel chanBytes) 0).windowOk 2 (parseChannel chanBytes) = true ∧ (parseChannel chanBytes).ring = netChan.inForce.ring) ∧
    (revokeCheck (holdingCopy { parseChannel chanBytes with base := 0x100000 } 0) = true ∧
      (holdingCopy { parseChannel chanBytes with base := 0x100000 } 0).windowOk 2 { parseChannel chanBytes with base := 0x100000 } = false) ∧
    (revokeCheck (holdingCopy {} 4) = true ∧ ({} : ChannelRecord).enable = false ∧ setHas (holdingCopy {} 4).alert.lockdown 2 = true) ∧
    (revokeCheck (holdingCopy {} 0) = true ∧ setHas (holdingCopy {} 0).alert.lockdown 2 = false) := by decide +kernel

theorem witness_AlertRecordWritten : ControlClear (episode (protectedAlert .idle)) 0x6000 64 ∧ ControlClear home 0x6000 64 ∧
    (episode (protectedAlert .idle)).alert.isProtected = true ∧
    (home.alert.isProtected = false ∧ home.alert.state = .idle ∧ home.alert.engaged = 0) ∧ (padded 64 []).length = 64 :=
  ⟨clear_of (by decide +kernel), clear_of (by decide +kernel), by decide +kernel⟩

/-- A pod record for channel 2 that lists clips 7 and `b`. -/
def podBytes (b : Byte) : List Byte := padded 64 [1, 2, 2, 0, 7, b]

/-- Clip 9 is INVALID. -/
theorem witness_PodRecordWritten : ControlClear ready4 (0x7000 + 64 * (5 : PodNo).val) 64 ∧
    ControlClear bound4 (0x7000 + 64 * (4 : PodNo).val) 64 ∧ ((bound4.pod 4).state ≠ .empty ∧ (bound4.pod 4).state ≠ .ready) ∧
    ((ready4.pod 5).state = .empty ∧ bitAt (padded 64 []) 0 0 = false ∧ bitAt (podBytes 8) 0 0 = true) ∧
    (padded 64 []).length = 64 ∧ (podBytes 8).length = 64 ∧ (podBytes 9).length = 64 ∧ bitAt (podBytes 9) 0 0 = true ∧
    (parsePod (podBytes 9)).map ready4.clipsValid = some false ∧ (parsePod (podBytes 8)).map ready4.clipsValid = some true :=
  ⟨clear_of (by decide +kernel), clear_of (by decide +kernel), by decide +kernel⟩

/-- A clip record of `count` cells at 0x1000000, 3,003 ticks. -/
def clipBytes (count : Byte) : List Byte := padded 32 [0, 1, 0, 0, 0, 0, 0, count, 0, 0, 0, 0, 0, 0, 0, 0, 0, 0, 0, 0, 0, 0, 0, 0, 0, 0, 0x0B, 0xBB]

theorem witness_ClipRecordWritten : ControlClear bound4 (0x8000 + 32 * (7 : ClipNo).val) 32 ∧ ControlClear home (0x8000 + 32 * (255 : ClipNo).val) 32 ∧
    bound4.clipInUse 7 = true ∧ home.clipInUse 255 = false ∧ (parseClip (clipBytes 0)).valid = false ∧ (parseClip (clipBytes 1)).valid = true ∧
    (clipBytes 0).length = 32 ∧ (clipBytes 1).length = 32 ∧ ∀ p, (home.pod p).state ≠ .ready := ⟨clear_of (by decide +kernel), clear_of (by decide +kernel), by decide +kernel⟩

/-- A write of `n` bytes at an offset of the control region of the reset state, all enabled or none. -/
def ctlWrite (off : Addr) (n : Nat) (en : Bool) : WriteReq := ⟨off, List.replicate n (0, en)⟩

/-- Part of ring record 0, of the last clip record, and a write that begins below the record areas; mailbox 1 from below and mailbox 10; part of the first
and of the last word, and of two words at once. -/
theorem witness_PartialWritesRefused :
    (ControlClear home 0x4000 8 ∧ ControlClear home 0x9FF8 8 ∧ ControlClear home 0x3FF8 16 ∧ ControlClear home 0x2FF8 16 ∧ ControlClear home 0x3090 16 ∧
      ControlClear home 0x100 8 ∧ ControlClear home 0x11C 8 ∧ ControlClear home 0x104 8) ∧
    (home.regionBase = 0 ∧ lengthOk 8 = true ∧ lengthOk 16 = true ∧ (ctlWrite 0x11C 8 true).bytes.length = 8 ∧
      home.recordAreaMeets (ctlWrite 0x4000 8 true) = true ∧ home.recordAreaMeets (ctlWrite 0x9FF8 8 true) = true ∧
      home.recordAreaMeets (ctlWrite 0x3FF8 16 true) = true ∧ recordAt 0x4000 8 = none ∧ recordAt 0x9FF8 8 = none ∧ recordAt 0x3FF8 16 = none) ∧
    (0x2FF8 % 16 ≠ 0 ∧ 0x2FF8 + 16 ≤ 0x4000 ∧ 0x3000 + 16 * (10 - 1) ≤ 0x3090 ∧ 0x3090 < 0x3000 + 16 * 10 ∧ writeFull (ctlWrite 0x3090 16 false) = false ∧
      0x2FF8 < 0x3000 + 16 * 1 ∧ 0x3000 + 16 * (1 - 1) < 0x2FF8 + 16) ∧
    (∀ y, 0x100 ≤ wordOffset y → wordOffset y + 8 ≤ 0x100 + 8 → (((ctlWrite 0x100 8 false).bytes.drop (wordOffset y - 0x100)).take 8).all (·.2) = false) ∧
    (0x11C < wordOffset .consumeIndex + 8 ∧ ∀ y, ¬ (0x11C ≤ wordOffset y)) ∧
    (0x104 < wordOffset .flagClear + 8 ∧ wordOffset .flagEnables < 0x104 + 8 ∧ ∀ y, ¬ (0x104 ≤ wordOffset y ∧ wordOffset y + 8 ≤ 0x104 + 8)) := by
  refine ⟨⟨clear_of (by decide +kernel), clear_of (by decide +kernel), clear_of (by decide +kernel), clear_of (by decide +kernel),
    clear_of (by decide +kernel), clear_of (by decide +kernel), clear_of (by decide +kernel), clear_of (by decide +kernel)⟩,
    by decide +kernel, by decide +kernel, ?_, ⟨by decide, ?_⟩, ⟨by decide, by decide, ?_⟩⟩ <;>
  intro y <;> cases y <;> decide

/-- Just below and just above the writable words, below and above the mailboxes. -/
theorem witness_ControlRegionOther :
    ControlClear home 0xF8 8 ∧ ControlClear home 0x120 8 ∧ ControlClear home 0x2FF8 8 ∧ ControlClear home 0x30A0 8 ∧
    lengthOk 8 = true ∧ home.regionBase = 0 ∧ home.recordAreaMeets (ctlWrite 0x120 8 true) = false ∧
    home.recordAreaMeets (ctlWrite 0x2FF8 8 true) = false ∧ home.recordAreaMeets (ctlWrite 0xF8 8 true) = false ∧ home.recordAreaMeets (ctlWrite 0x30A0 8 true) = false :=
  ⟨clear_of (by decide +kernel), clear_of (by decide +kernel), clear_of (by decide +kernel), clear_of (by decide +kernel), by decide +kernel⟩

/-! Window reads. -/

theorem witness_NetworkRead : ReadAt home 2 36 slot36 ∧ ReadAt home 2 0 0x300000 ∧ ReadAt home 2 63 0x302F40 ∧ (home.chan 2).mark = .none ∧
    (home.chan 2).state = .network :=
  ⟨home_read, readAt_of (by decide +kernel), readAt_of (by decide +kernel), by decide +kernel⟩

/-- The first and the middle of the three cells of spot 0. -/
theorem witness_InsertRead : ReadAt (airing (.spot 0 0) netChan) 2 36 slot36 ∧ ReadAt (airing (.spot 0 1) netChan) 2 36 slot36 ∧
    ((airing (.spot 0 1) netChan).chan 2).mark = .none ∧ ((airing (.spot 0 1) netChan).chan 2).state = .insert ∧
    ((airing (.spot 0 1) netChan).chan 2).playing = some 4 ∧ ((airing (.spot 0 1) netChan).chan 2).pos = some (.spot 0 1) ∧
    7 = ((airing (.spot 0 1) netChan).pod 4).record.clipOf (0 : SpotNo).val ∧
    ((airing (.spot 0 1) netChan).ring ((airing (.spot 0 1) netChan).netRing 2)).seqOf 36 = some 36 ∧
    ((airing (.spot 0 1) netChan).ring ((airing (.spot 0 1) netChan).netRing 2)).classOf 36 ≠ .psi ∧
    1 + 1 < ((airing (.spot 0 1) netChan).clip 7).cellCount.toNat :=
  ⟨readAt_of (by decide +kernel), readAt_of (by decide +kernel), by decide +kernel⟩

/-- Pod 4 at the first cell of spot 0, its clip of one cell, not begun yet. -/
def oneCell : State :=
  ((airing (.spot 0 0) netChan).setClip 7 { valid := true, base := 0x1000000, cellCount := 1, firstPts := 50000, duration := 3003 }).setPod 4
    { record := podRecord, state := .airing, anchor := some (900000, 0) }

/-- Pod 4 at the last cell of its last spot, clip 7 its filler. -/
def filled : State :=
  (airing (.spot 1 1) netChan).setPod 4 { record := { podRecord with filler := some 7 }, state := .airing, anchor := some (900000, 0) }

/-- The last cell of spot 0 of two; the one cell of a spot of one cell, not begun yet; the last cell of the pod's last spot, with no filler and with one. -/
theorem witness_SpotEnds : ReadAt (airing (.spot 0 2) netChan) 2 36 slot36 ∧ ReadAt oneCell 2 36 slot36 ∧
    ReadAt (airing (.spot 1 1) netChan) 2 36 slot36 ∧ ReadAt filled 2 36 slot36 ∧
    (∀ s, s ∈ [airing (.spot 0 2) netChan, oneCell, airing (.spot 1 1) netChan, filled] →
      (s.chan 2).mark = .none ∧ (s.chan 2).state = .insert ∧ (s.chan 2).playing = some 4 ∧ (s.ring (s.netRing 2)).seqOf 36 = some 36 ∧
      (s.ring (s.netRing 2)).classOf 36 ≠ .psi ∧ (s.chan 2).spotTarget = some 30000000) ∧
    (((airing (.spot 0 2) netChan).chan 2).pos = some (.spot 0 2) ∧ 7 = ((airing (.spot 0 2) netChan).pod 4).record.clipOf (0 : SpotNo).val ∧
      2 + 1 = ((airing (.spot 0 2) netChan).clip 7).cellCount.toNat ∧ (1 : SpotNo).val = (0 : SpotNo).val + 1 ∧
      (1 : SpotNo).val < ((airing (.spot 0 2) netChan).pod 4).record.spots.length ∧
      8 = ((airing (.spot 0 2) netChan).pod 4).record.clipOf (1 : SpotNo).val) ∧
    ((oneCell.chan 2).pos = some (.spot 0 0) ∧ 0 + 1 = (oneCell.clip 7).cellCount.toNat ∧
      ((oneCell.pod 4).spotInfo.get 0).fate = .unstarted) ∧
    (((airing (.spot 1 1) netChan).chan 2).pos = some (.spot 1 1) ∧ 1 + 1 = ((airing (.spot 1 1) netChan).clip 8).cellCount.toNat ∧
      ((airing (.spot 1 1) netChan).pod 4).record.spots.length = (1 : SpotNo).val + 1 ∧
      ((airing (.spot 1 1) netChan).pod 4).record.filler = none ∧ (filled.pod 4).record.filler = some 7) :=
  ⟨readAt_of (by decide +kernel), readAt_of (by decide +kernel), readAt_of (by decide +kernel), readAt_of (by decide +kernel), by decide +kernel⟩

/-- An OUT point of pod 4, due at sequence `q`. -/
def outPoint (q : SeqNo) : SwitchPoint := { kind := .out 4, seq := q, anchor := 900000, stamp := 30000000, mark := none, aligned := true }

/-- Pod 4 PENDING with that point queued. -/
def pending4 (q : SeqNo) : State :=
  stocked (wired busyRing { netChan with queue := [outPoint q] }) { record := podRecord, state := .pending, anchor := some (900000, 0) }

/-- The point's own sequence, and one after it. -/
theorem witness_OutPointApplied : (pending4 36).rstLow = false ∧ (pending4 36).NoStaged ∧ (pending4 36).AtWindow 2 36 slot36 ∧
    ((pending4 36).chan 2).mark = .none ∧ ((pending4 36).chan 2).state = .network ∧ ((pending4 36).chan 2).queue = [outPoint 36] ∧
    ((pending4 36).pod 4).state = .pending ∧ (((pending4 36).pod 4).spotInfo.get 0).fate = .unstarted ∧
    ((pending4 36).ring ((pending4 36).netRing 2)).seqOf 36 = some 36 ∧ seqAtOrAfter 36 36 = true ∧ seqAtOrAfter 36 35 = true ∧
    ((pending4 36).ring ((pending4 36).netRing 2)).classOf 36 ≠ .psi ∧ 7 = ((pending4 36).pod 4).record.clipOf 0 ∧
    1 < ((pending4 36).clip 7).cellCount.toNat :=
  ⟨rfl, noStaged_of (by decide +kernel), atWindow_of (by decide +kernel), by decide +kernel⟩

/-- A RETURN point of pod 4, due at sequence 36. -/
def retPoint : SwitchPoint := { kind := .ret 4, seq := 36, anchor := 910000, stamp := 30040000, mark := none, aligned := false }

/-- Pod 4 with one spot, on the air at cell 1, its RETURN due. -/
def ending4 : State :=
  let s := airing (.spot 0 1) { netChan with queue := [retPoint] }
  s.setPod 4 { s.pod 4 with record := { chan := 2, spots := [7] } }

theorem witness_ReturnPointApplied : ending4.rstLow = false ∧ ending4.NoStaged ∧ ending4.AtWindow 2 36 slot36 ∧
    (ending4.chan 2).mark = .none ∧ (ending4.chan 2).state = .insert ∧ (ending4.chan 2).playing = some 4 ∧
    (ending4.chan 2).pos = some (.spot 0 1) ∧ (ending4.pod 4).record.spots.length = 1 ∧ ((ending4.pod 4).spotInfo.get 0).fate = .playing ∧
    (ending4.pod 4).anchor = some (900000, 0) ∧ (ending4.pod 4).record.chan = 2 ∧ (ending4.chan 2).queue = [retPoint] ∧
    (ending4.ring (ending4.netRing 2)).seqOf 36 = some 36 ∧ seqAtOrAfter 36 retPoint.seq = true :=
  ⟨rfl, noStaged_of (by decide +kernel), atWindow_of (by decide +kernel), by decide +kernel⟩

/-- Feed ring 40 with its last start mark at this sequence. -/
def markedFeed (mark : Option StartMark) (fs : SeqNo) : State := (wired busyRing (feeding fs)).setRing 40 { feedRing with mark := mark }

/-- The oldest cell that is not overrun and the newest of those that are; the newest cell, and the first not written; a start mark that is not overrun, one that
just is, and none. -/
theorem witness_FeedRead : ReadAt (wired busyRing (feeding 10000)) 2 36 slot36 ∧ ReadAt (wired busyRing (feeding 9775)) 2 36 slot36 ∧
    ReadAt (wired busyRing (feeding 10030)) 2 36 slot36 ∧ ((wired busyRing (feeding 10030)).chan 2).feed = (feeding 10030).feed ∧
    ((wired busyRing (feeding 10000)).chan 2).mark = .none ∧
    ((wired busyRing (feeding 10000)).ring ((wired busyRing (feeding 10000)).netRing 2)).seqOf 36 = some 36 ∧
    ((wired busyRing (feeding 10000)).ring ((wired busyRing (feeding 10000)).netRing 2)).classOf 36 ≠ .psi ∧ ((wired busyRing (feeding 10000)).chan 2).state = .feed ∧
    (seqBefore 9775 feedRing.writeCount = true ∧ (feedRing.writeCount - 9775).toNat < feedRing.shadow.slotCount.toNat) ∧
    seqBefore 10029 feedRing.writeCount = true ∧ seqBefore 10030 feedRing.writeCount = false ∧
    (wired busyRing (feeding 10000)).ring 40 = feedRing ∧
    ReadAt (wired busyRing (feeding 9774)) 2 36 slot36 ∧ ReadAt (markedFeed (some ⟨9774, 7200000, 80000000⟩) 9774) 2 36 slot36 ∧
    ReadAt (markedFeed none 9774) 2 36 slot36 ∧
    (seqBefore 9774 feedRing.writeCount = true ∧ feedRing.shadow.slotCount.toNat ≤ (feedRing.writeCount - 9774).toNat) ∧
    (feedRing.mark.map (·.seq) = some 10000 ∧ (feedRing.writeCount - 10000).toNat < feedRing.shadow.slotCount.toNat) ∧
    (((markedFeed (some ⟨9774, 7200000, 80000000⟩) 9774).ring 40).mark.map (·.seq) = some 9774 ∧ ((markedFeed none 9774).ring 40).mark = none) :=
  ⟨readAt_of (by decide +kernel), readAt_of (by decide +kernel), readAt_of (by decide +kernel), by decide +kernel, by decide +kernel,
    by decide +kernel, by decide +kernel, by decide +kernel, by decide +kernel, by decide +kernel, by decide +kernel, by decide +kernel,
    readAt_of (by decide +kernel), readAt_of (by decide +kernel), readAt_of (by decide +kernel), by decide +kernel⟩

/-- An episode that LINE0 plays, with channel 2 in this state. -/
def alerting (ch : Channel) : State :=
  { stocked (wired busyRing ch) {} with alert := { record := { alertRec with commandClip := some 8 }, state := .active, engaged := 1, playing := some .line0 } }

theorem witness_EngageMarkTaken : ReadAt (alerting { netChan with mark := .engage }) 2 36 slot36 ∧
    ((alerting { netChan with mark := .engage }).chan 2).mark = .engage ∧ ((alerting { netChan with mark := .engage }).chan 2).state = .network ∧
    (alerting { netChan with mark := .engage }).alert.playing = some .line0 ∧
    (alerting { netChan with mark := .engage }).alert.record.clipOf .line0 = some 7 ∧
    ((alerting { netChan with mark := .engage }).ring ((alerting { netChan with mark := .engage }).netRing 2)).seqOf 36 = some 36 ∧
    ((alerting { netChan with mark := .engage }).ring ((alerting { netChan with mark := .engage }).netRing 2)).classOf 36 ≠ .psi ∧
    1 < ((alerting { netChan with mark := .engage }).clip 7).cellCount.toNat := ⟨readAt_of (by decide +kernel), by decide +kernel⟩

/-- Channel 2 in ALERT on a source and clip, NETWORK saved, with a mark. -/
def inAlert (x : Source) (n : ClipNo) (mark : AlertMark) : Channel :=
  { netChan with state := .alert, alert := some (x, n), saved := some .network, mark := mark }

theorem witness_SourceMarkTaken : ReadAt (alerting (inAlert .command 8 .source)) 2 36 slot36 ∧ ReadAt (alerting (inAlert .line0 7 .source)) 2 36 slot36 ∧
    ((alerting (inAlert .command 8 .source)).chan 2).mark = .source ∧ ((alerting (inAlert .command 8 .source)).chan 2).alert = some (.command, 8) ∧
    (((alerting (inAlert .command 8 .source)).chan 2).state = .alert ∧ (alerting (inAlert .command 8 .source)).alert.playing = some .line0 ∧
      ((alerting (inAlert .command 8 .source)).ring ((alerting (inAlert .command 8 .source)).netRing 2)).seqOf 36 = some 36 ∧
      ((alerting (inAlert .command 8 .source)).ring ((alerting (inAlert .command 8 .source)).netRing 2)).classOf 36 ≠ .psi ∧
      1 < ((alerting (inAlert .command 8 .source)).clip 7).cellCount.toNat) ∧
    ((alerting (inAlert .line0 7 .source)).chan 2).alert = some (.line0, 7) ∧
    (alerting (inAlert .command 8 .source)).alert.record.clipOf .line0 = some 7 ∧ Source.line0 ≠ Source.command ∧
    ((alerting (inAlert .line0 7 .source)).chan 2).alertCell + 1 < ((alerting (inAlert .line0 7 .source)).clip 7).cellCount.toNat ∧
    ((alerting (inAlert .line0 7 .source)).chan 2).wrapDue = false :=
  ⟨readAt_of (by decide +kernel), readAt_of (by decide +kernel), by decide +kernel⟩

theorem witness_RestoreMarkTaken : ReadAt (alerting (inAlert .line0 7 .restore)) 2 36 slot36 ∧
    ((alerting (inAlert .line0 7 .restore)).chan 2).state = .alert ∧ ((alerting (inAlert .line0 7 .restore)).chan 2).mark = .restore ∧ ((alerting (inAlert .line0 7 .restore)).chan 2).saved = some .network ∧
    ((alerting (inAlert .line0 7 .restore)).ring ((alerting (inAlert .line0 7 .restore)).netRing 2)).seqOf 36 = some 36 :=
  ⟨readAt_of (by decide +kernel), by decide +kernel⟩

/-- Ring 3 with one slot of another class. -/
def mixedRing (k : Nat) (c : SlotClass) : Machine.Ring := busyRing.setClass k c

theorem witness_InsertionPassOrNull :
    ReadAt (wired (mixedRing 36 .psi) (feeding 10000)) 2 36 slot36 ∧ ReadAt (wired (mixedRing 36 .unwritten) (feeding 10000)) 2 36 slot36 ∧
    ((wired (mixedRing 36 .psi) (feeding 10000)).chan 2).mark = .none ∧ ((wired (mixedRing 36 .psi) (feeding 10000)).chan 2).state = .feed ∧
    ((wired (mixedRing 36 .psi) (feeding 10000)).ring ((wired (mixedRing 36 .psi) (feeding 10000)).netRing 2)).classOf 36 = .psi ∧
    ((wired (mixedRing 36 .unwritten) (feeding 10000)).ring ((wired (mixedRing 36 .unwritten) (feeding 10000)).netRing 2)).classOf 36 = .unwritten :=
  ⟨readAt_of (by decide +kernel), readAt_of (by decide +kernel), by decide +kernel⟩

/-- The first eight bytes of the window; 192 bytes from byte 8; eight bytes across its first byte, and across its last. -/
theorem witness_WindowPartialRead : home.rstLow = false ∧
    (home.windowMeets 2 0x300000 8 = true ∧ home.windowMeets 2 0x300008 192 = true ∧ home.windowMeets 2 0x2FFFFC 8 = true ∧
      home.windowMeets 2 0x302FFC 8 = true) ∧
    lengthOk 8 = true ∧ lengthOk 192 = true ∧ (∀ d, d ≠ 2 → home.windowMeets d 0x300000 8 = false) ∧
    (∀ d, d ≠ 2 → home.windowMeets d 0x2FFFFC 8 = false) ∧ home.regionMeets 0x2FFFFC 8 = false ∧ home.regionMeets 0x300000 8 = false ∧ home.windowBase 2 = 0x300000 ∧
    home.windowBase 2 + home.windowBytes 2 = 0x303000 ∧ (8 ≠ 192 ∨ 0 % 192 ≠ 0) ∧ (0x300008 - 0x300000) % 192 ≠ 0 := by decide +kernel

theorem witness_WindowWrite : home.rstLow = false ∧ home.NoStaged ∧ lengthOk 8 = true ∧ home.windowMeets 2 0x300000 8 = true ∧ (∀ r, (home.ring r).shadow.meets 0x300000 8 = false) ∧
    home.regionMeets 0x300000 8 = false := ⟨rfl, home_noStaged, by decide, by decide +kernel⟩

/-! The data of window reads. -/

/-- A read of channel 2 that awaits its data, with two component CC entries. -/
def awaitingRead (w : WindowRead) (mark : Bool) : State :=
  { wired busyRing { netChan with cc := [⟨0x100, some 7, mark⟩, ⟨0x101, some 12, false⟩] } with
    outstanding := [.forwarded (.read 0x101B00 192) (.window w)] }

theorem awaiting_of (w : WindowRead) (mark : Bool) : Awaiting (awaitingRead w mark) (.read 0x101B00 192) (.window w) [] :=
  ⟨rfl, rfl, fun _ _ h => by cases h⟩

theorem awaitingRead_noStaged (w : WindowRead) (mark : Bool) : (awaitingRead w mark).NoStaged := by
  have : (wired busyRing { netChan with cc := [⟨0x100, some 7, mark⟩, ⟨0x101, some 12, false⟩] }).NoStaged := noStaged_of (by
    cases mark <;> decide +kernel)
  exact this.of_eq rfl

/-- A read served from the network. -/
def netRead : WindowRead := { chan := 2, serving := .network, markReq := false, resume := none }

theorem witness_NetworkCellReturned : (awaitingRead netRead true).NoStaged ∧ Awaiting (awaitingRead netRead true) (.read 0x101B00 192) (.window netRead) [] ∧
    ((parseCell deadCell).pid = none ∧ deadCell.length = 192) ∧
    (plainCell.length = 192 ∧ (parseCell plainCell).pid = some 0x100 ∧ (parseCell plainCell).pts = none ∧ (parseCell plainCell).room = true) ∧
    ((awaitingRead netRead false).chan 2).ccEntry 0x100 = some ⟨0x100, some 7, false⟩ ∧
    ((awaitingRead netRead true).chan 2).ccEntry 0x100 = some ⟨0x100, some 7, true⟩ :=
  ⟨awaitingRead_noStaged _ _, awaiting_of _ _, by decide +kernel⟩

/-- A redirected read, its video on PID 0x100. -/
def srcRead (sw : Option SwitchIn) : WindowRead :=
  { chan := 2, serving := .source { video := some 0x100 } false sw none, markReq := false, resume := none }

theorem witness_SourceCellReturned : (awaitingRead (srcRead none) true).NoStaged ∧
    Awaiting (awaitingRead (srcRead none) true) (.read 0x101B00 192) (.window (srcRead none)) [] ∧ videoCell.length = 192 ∧
    (parseCell videoCell).pid ≠ none ∧
    remap { video := some 0x100 } ((awaitingRead (srcRead none) true).ring ((awaitingRead (srcRead none) true).netRing 2)).shadow.comps
      (parseCell videoCell).pid = some 0x100 := ⟨awaitingRead_noStaged _ _, awaiting_of _ _, by decide +kernel⟩

/-- The switch-in of the worked sequence of 7.6. -/
def firstSwitch : SwitchIn := { place := some (900000, 30000000), ref := 50000, origin := none }

theorem witness_SwitchInFixesOffsets : (awaitingRead (srcRead (some firstSwitch)) true).NoStaged ∧
    Awaiting (awaitingRead (srcRead (some firstSwitch)) true) (.read 0x101B00 192) (.window (srcRead (some firstSwitch))) [] ∧
    videoCell.length = 192 := ⟨awaitingRead_noStaged _ _, awaiting_of _ _, by decide +kernel⟩

theorem witness_NullSlotReturned :
    Awaiting (awaitingRead { netRead with serving := .nullSlot } true) (.read 0x101B00 192) (.window { netRead with serving := .nullSlot }) [] ∧
    (awaitingRead { netRead with serving := .nullSlot } true).NoStaged ∧ deadCell.length = 192 :=
  ⟨awaiting_of _ _, awaitingRead_noStaged _ _, by decide +kernel⟩

theorem witness_TimesRewritten : videoCell.length = 192 := by decide +kernel

/-! The reference clock. -/

/-- An episode that both lines may play, LINE0 in FOLLOW with filter length 2, LINE1 in LATCH and active low, with this much of it begun. -/
def lines (a : AlertCtl) : State :=
  episode { a with record := { alertRec with line0 := { clip := some 7, filter := 2 }, line1 := { clip := some 8, polarity := .activeLow, mode := .latch } } }

/-- LINE0 in FOLLOW is engaged with COMMAND, which ALERT_END alone releases, or alone, where it releases nothing; LINE1 in LATCH is released alone, from
among others too. -/
theorem witness_AlertEnded_lines :
    (let s := lines { state := .active, engaged := 5, playing := some .line0 }
     ControlClear s 0x3070 16 ∧ hasSource s.alert.engaged .command = true ∧ dropSource s.alert.engaged .command ≠ 0 ∧
     ∀ y, y ≠ .command → hasSource s.alert.engaged y = true → ¬ s.EndReleases y) ∧
    (let s := lines { state := .active, engaged := 1, playing := some .line0 }
     ControlClear s 0x3070 16 ∧ ∀ y, hasSource s.alert.engaged y = true → ¬ s.EndReleases y) ∧
    (let s := lines { state := .active, engaged := 3, playing := some .line0 }
     ControlClear s 0x3070 16 ∧ s.EndReleases .line1 ∧ dropSource s.alert.engaged .line1 ≠ 0 ∧
     ∀ y, y ≠ .line1 → hasSource s.alert.engaged y = true → ¬ s.EndReleases y) := by
  refine ⟨⟨clear_of (by decide +kernel), by decide +kernel, by decide +kernel, fun y hy he => ?_⟩, ⟨clear_of (by decide +kernel), fun y he => ?_⟩,
    ⟨clear_of (by decide +kernel), .inr (by decide +kernel), by decide +kernel, fun y hy he => ?_⟩⟩ <;>
  cases y <;> revert he <;> unfold State.EndReleases <;> first | exact absurd rfl hy | decide +kernel

/-- LINE0 reaches its filter length, and is one sample short of it. -/
theorem witness_LineSampled : (lines {}).rstLow = false ∧
    (let s := lines { filter0 := { run := 1 } }
     s.LineTurns { active := true } {} .line0 1 .follow true ∧ s.alert.record.line0.filter ≤ s.alert.filter0.run + 1 ∧
     s.alert.state = .idle ∧ s.alert.engaged = 0 ∧ s.sourceClip .line0 = some 7) ∧
    ((lines {}).alert.filter0.run + 1 < (lines {}).alert.record.line0.filter) := by
  unfold State.LineTurns
  decide +kernel

/-- LINE1 turns ACTIVE at its first low sample, its source engaged, or its clip INVALID. -/
theorem witness_LineSampled_line1 :
    (lines {}).LineTurns {} { active := true } .line1 2 .latch true ∧ (lines {}).alert.record.line1.filter ≤ (lines {}).alert.filter1.run + 1 ∧
    hasSource (lines { engaged := 2 }).alert.engaged .line1 = true ∧
    (hasSource (lines {}).alert.engaged .line1 = false ∧ ((lines {}).setClip 8 {}).sourceClip .line1 = none) ∧
    (lines { filter1 := { active := true } }).LineTurns {} {} .line1 2 .latch false := by
  unfold State.LineTurns
  decide +kernel

/-- LINE0 turns INACTIVE, its source alone engaged, the timer one short of the minimum hold of 10 and at it. -/
theorem witness_LineSampled_release :
    (let s := lines { filter0 := { active := true, run := 1 }, state := .active, engaged := 1, playing := some .line0, timer := 9 }
     s.LineTurns {} {} .line0 1 .follow false ∧ s.alert.engaged = 1 ∧ s.alert.timer.toNat < s.alert.record.hold) ∧
    (let s := lines { filter0 := { active := true, run := 1 }, state := .active, engaged := 1, playing := some .line0, timer := 10 }
     s.LineTurns {} {} .line0 1 .follow false ∧ s.alert.record.hold ≤ s.alert.timer.toNat) := by
  unfold State.LineTurns
  decide +kernel

/-- LINE1 turns ACTIVE in HOLD and while COMMAND plays, and LINE0 turns INACTIVE with COMMAND still engaged. -/
theorem witness_LineSampled_others :
    (let s := lines { state := .hold }
     s.LineTurns {} { active := true } .line1 2 .latch true ∧ s.alert.state ≠ .idle ∧ hasSource s.alert.engaged .line1 = false ∧
     s.sourceClip .line1 = some 8) ∧
    (let s := lines { state := .active, engaged := 4, playing := some .command }
     s.LineTurns {} { active := true } .line1 2 .latch true ∧ hasSource s.alert.engaged .line1 = false ∧
     highest (s.alert.engaged ||| 2) ≠ s.alert.playing) ∧
    (let s := lines { filter0 := { active := true, run := 1 }, state := .active, engaged := 5, playing := some .line0 }
     s.LineTurns {} {} .line0 1 .follow false ∧ hasSource s.alert.engaged .line0 = true ∧ s.alert.engaged ≠ 1) := by
  unfold State.LineTurns
  decide +kernel

/-- IDLE; ACTIVE without a limit and one millisecond short of one minute; HOLD one short of the minimum hold and at it; the last millisecond of the limit. -/
theorem witness_EpisodeTimerAdvances : home.rstLow = false ∧ home.alert.state = .idle ∧
    ((episode { record := alertRec, state := .active }).alert.state = .active ∧ (episode { record := alertRec, state := .active }).alert.record.limit = 0) ∧
    (heldInc (episode { record := { alertRec with limit := 1 }, state := .active, timer := 59998 }).alert.timer).toNat <
      (episode { record := { alertRec with limit := 1 }, state := .active, timer := 59998 }).alert.record.limit * 60000 ∧
    (heldInc (episode { record := alertRec, state := .hold, timer := 8 }).alert.timer).toNat <
      (episode { record := alertRec, state := .hold, timer := 8 }).alert.record.hold ∧
    (episode { record := alertRec, state := .hold, timer := 9 }).alert.record.hold ≤
      (heldInc (episode { record := alertRec, state := .hold, timer := 9 }).alert.timer).toNat ∧
    ((episode { record := { alertRec with limit := 1 }, state := .active, timer := 59999 }).alert.record.limit * 60000 ≤
      (heldInc (episode { record := { alertRec with limit := 1 }, state := .active, timer := 59999 }).alert.timer).toNat) := by decide +kernel

/-! Rules of the whole machine. -/

theorem witness_CapacityKept : Capacity State.reset ∧ step State.reset = .next State.reset := ⟨reset_capacity, rfl⟩

theorem witness_LockdownAndBaseKept : (∀ straps : Byte, Instr.rstNAssert ≠ .powerOnReset straps) ∧
    (exec .rstNAssert State.reset = .next (rstAssert State.reset)) ∧ (∀ straps : Byte, Instr.rstNAssert ≠ .rstNRelease straps) :=
  ⟨fun _ h => Instr.noConfusion h, rfl, fun _ h => Instr.noConfusion h⟩

end Sys2Proof.Tests
end

section
/-! PROOFS. The step's frame around a command: resets, the pin, and requests and responses that touch no ring. -/

namespace Sys2Proof.Machine

/-! ### Reset values of the banks -/

@[simp] theorem reset_ring (r : RingNo) : State.reset.ring r = {} := by
  simp [State.ring, State.reset, Vector.get_eq_getElem]

@[simp] theorem reset_chan (c : ChanNo) : State.reset.chan c = {} := by
  simp [State.chan, State.reset, Vector.get_eq_getElem]

@[simp] theorem reset_pod (p : PodNo) : State.reset.pod p = {} := by
  simp [State.pod, State.reset, Vector.get_eq_getElem]

@[simp] theorem reset_clip (n : ClipNo) : State.reset.clip n = {} := by
  simp [State.clip, State.reset, Vector.get_eq_getElem]

@[simp] theorem reset_readyList (c : ChanNo) : State.reset.readyList c = [] := by
  simp [State.readyList, State.reset, Vector.get_eq_getElem]

@[simp] theorem reset_watchList (r : RingNo) : State.reset.watchList r = [] := by
  simp [State.watchList, State.reset, Vector.get_eq_getElem]

theorem reset_asRunSlot (j : Fin 128) : State.reset.asRun.slots.get j = none := by
  simp [State.reset, Vector.get_eq_getElem]

theorem reset_spotInfo (p : PodNo) (k : SpotNo) : (State.reset.pod p).spotInfo.get k = {} := by
  simp [Vector.get_eq_getElem]

/-! ### Offered requests -/

/-- While RST_N is low an offered request changes nothing but what the ports show (R8). -/
theorem offer_low {q : Request} {s : State} (hw : q.wf = true) (h : s.rstLow = true) : offer q s = .next s.quiet := by
  have hq : s.quiet.rstLow = true := h
  simp only [offer, hw, if_true, accept, hq]

/-- A structure of the right size is offered as its whole write. -/
theorem offerWhole_eq {off size : Nat} {bytes : List Byte} (s : State) (hb : bytes.length = size) :
    offerWhole off size bytes s = offer (wholeWrite (s.regionAddr off) bytes) s := by
  unfold offerWhole
  rw [if_pos hb]

theorem wholeWrite_wf {a : Addr} {bytes : List Byte} {size : Nat} (hb : (bytes.length == size) = true) (hl : lengthOk size = true) :
    (wholeWrite a bytes).wf = true := by
  simpa [wholeWrite, Request.wf, beq_iff_eq.mp hb] using hl

/-- A whole write of a structure, as the request it offers. -/
theorem offerWhole_offers {off size : Nat} {bytes : List Byte} (s : State) (hb : (bytes.length == size) = true) (hl : lengthOk size = true) :
    ∃ q : Request, q.wf = true ∧ offerWhole off size bytes s = offer q s :=
  ⟨_, wholeWrite_wf hb hl, offerWhole_eq s (beq_iff_eq.mp hb)⟩

/-- A well-formed command that offers a request is the offer of a request that the bus carries (R2). -/
theorem exec_offers (s : State) : (i : Instr) → offersRequest i = true → i.wf = true → ∃ q : Request, q.wf = true ∧ exec i s = offer q s
  | .otherTraffic _, _, hw => ⟨_, hw, rfl⟩
  | .statusWindowRead addr len, _, hw | .windowPartialRead addr len, _, hw => ⟨.read addr len, hw, rfl⟩
  | .windowFullCellRead addr, _, _ => ⟨.read addr Config.cellSize, rfl, rfl⟩
  | .ringPartialWrite w, _, hw | .windowWrite w, _, hw | .recordWritePartial w, _, hw | .mailboxMalformedWrite w, _, hw
  | .statusWordPartialWrite w, _, hw | .controlRegionOtherWrite w, _, hw => ⟨.write w, hw, rfl⟩
  | .ringFullCellWrite _ cell, _, hw => ⟨_, wholeWrite_wf hw (by decide), if_pos (beq_iff_eq.mp hw)⟩
  | .ringRecordWrite _ _, _, hw | .channelRecordWrite _ _, _, hw | .alertRecordWrite _, _, hw | .podRecordWrite _ _, _, hw
  | .clipRecordWrite _ _, _, hw | .spliceNow _, _, hw | .returnNow _, _, hw | .cancelEvent _, _, hw | .podRevoke _, _, hw
  | .feedStart _, _, hw | .feedStop _, _, hw | .alertEngage _, _, hw | .alertEnd _, _, hw | .lockdown _, _, hw | .softReset _, _, hw
  | .flagClear _, _, hw | .flagEnables _, _, hw | .counterClear _, _, hw | .consumeIndex _, _, hw =>
    offerWhole_offers s hw (by decide)

/-- A read that is not a full-cell window read goes downstream and changes nothing else, its channel's ring or its own address being its
target (R17). -/
theorem windowRead_partial {inside : Option ChanNo} {addr : Addr} {len : Nat} {s : State}
    (h : ∀ c, inside = some c → len = Config.cellSize →
      slotAt (s.windowBase c) (s.ring (s.netRing c)).shadow.slotCount.toNat addr.toNat = none) :
    windowRead inside addr len s = partialRead inside addr len s := by
  unfold windowRead
  cases inside with
  | none => rfl
  | some c =>
    dsimp only
    split
    · next k hk => exact if_neg fun hl => by rw [h c rfl hl] at hk; cases hk
    · rfl

/-- An address off the slot grid is no slot's (R1). -/
theorem slotAt_off {base n a : Nat} (h : (a - base) % 192 ≠ 0) : slotAt base n a = none :=
  if_neg fun hs => h hs.2.1

/-- The one channel whose window a read touches holds it when it lies wholly within (R15). -/
theorem windowHolding_within {s : State} {c : ChanNo} {a n : Nat} (hm : s.windowMeets c a n = true)
    (ho : ∀ d, d ≠ c → s.windowMeets d a n = false) (h1 : s.windowBase c ≤ a) (h2 : a + n ≤ s.windowBase c + s.windowBytes c) :
    s.windowHolding a n = some c :=
  find_allChans (by rw [hm, rangeWithin_true h1 h2]; rfl) fun d hd => by rw [ho d hd]; rfl

/-- The one channel whose window a read touches does not hold it when it reaches out of the window (R17). -/
theorem windowHolding_across {s : State} {c : ChanNo} {a n : Nat} (ho : ∀ d, d ≠ c → s.windowMeets d a n = false)
    (h : a < s.windowBase c ∨ s.windowBase c + s.windowBytes c < a + n) : s.windowHolding a n = none := by
  unfold State.windowHolding
  rw [List.find?_eq_none]
  intro d _
  by_cases hd : d = c
  · rw [hd, rangeWithin_false h, Bool.and_false]; exact Bool.false_ne_true
  · rw [ho d hd, Bool.false_and]; exact Bool.false_ne_true

end Sys2Proof.Machine

namespace Sys2Proof.Proofs

open Sys2Proof.Machine

/-- Settles O2: each bank of the reset state is a constant vector, and the rest are the fields' default values. -/
theorem resetLeaves : Obligations.ResetLeaves := by
  refine ⟨fun r => ?_, fun c => ?_, fun c => ?_, fun c => ?_, fun p => ?_, fun n => ?_, rfl, rfl, rfl, rfl, rfl, rfl,
    reset_asRunSlot, rfl, rfl, rfl, rfl, rfl⟩
  · simp [Ring.classOf]
  · simp [ChannelRecord.enable]
  · simp
  · simp
  · simp only [reset_spotInfo]
    simp
  · simp

/-- Settles O3: the equation is `powerOn` unfolded. -/
theorem powerOnReset : Obligations.PowerOnReset := fun _ _ => rfl

/-- Settles O4: the assertion is `rstAssert` unfolded, and the release acts because the pin was low. -/
theorem rstPin : Obligations.RstPin := by
  refine ⟨fun _ => rfl, fun s straps h => ?_⟩
  have hq : s.quiet.rstLow = true := h
  show Host.Outcome.next (rstRelease straps s.quiet) = _
  unfold rstRelease
  rw [if_pos hq]
  rfl

/-- Settles O5: every such command is the offer of a request, and a low pin lets none be accepted. -/
theorem lowAcceptsNothing : Obligations.LowAcceptsNothing := by
  intro s i h ho hw
  obtain ⟨q, hq, he⟩ := exec_offers s i ho hw
  exact he.trans (offer_low hq h)

/-- Settles O6: the write is off every area and no staged copy is applied after it; the read falls to the last row of R2's table. -/
theorem otherTrafficForwarded : Obligations.OtherTrafficForwarded := by
  constructor
  · intro s w high hs hl hoff hreg
    have hr : s.quiet.regionMeets w.addr.toNat w.bytes.length = false := hreg
    show offer (.write w) s = _
    rw [offer_write hl high, acceptWrite_off w s.quiet hoff.quiet, hr, forward_quiet]
    exact congrArg Host.Outcome.next (applyAllStaged_noStaged (hs.of_eq rfl))
  · intro s addr len high hl hwin hreg
    show offer (.read addr len) s = _
    rw [offer_read hl high, acceptRead_off (s := s.quiet) hl hreg hwin, forward_quiet]

/-- Settles O7: the head of the outstanding requests is answered, and with it the status reads up to the next forwarded request. -/
theorem responsesInOrder : Obligations.ResponsesInOrder := by
  intro s answers rest ha hs hrest
  have hrel := releaseHead_answers answers rest hrest
  constructor
  · intro addr len data ho hl hd
    show offerData data s = _
    unfold offerData
    rw [hd, if_pos hl, takeReadData_first (s := s.quiet) ha ho hd]
    unfold answerRead releaseStatus handleData
    dsimp only
    rw [hrel]
    exact congrArg Host.Outcome.next (applyAllStaged_noStaged (hs.of_eq rfl))
  · intro w how ho
    show takeWriteAck s.quiet = _
    rw [takeWriteAck_first (s := s.quiet) ha ho]
    unfold releaseStatus
    dsimp only
    rw [hrel]
    rfl

/-- Settles O8: the oldest abandoned request's kind is dropped and the data with it. -/
theorem abandonedDiscarded : Obligations.AbandonedDiscarded := by
  intro s rest
  constructor
  · intro data ha hl
    have hq : s.quiet.abandoned = false :: rest := ha
    show offerData data s = _
    unfold offerData takeReadData
    rw [if_pos hl, hq]
    rfl
  · intro ha
    have hq : s.quiet.abandoned = true :: rest := ha
    show takeWriteAck s.quiet = _
    unfold takeWriteAck
    rw [hq]
    rfl

/-- Settles O9: the answer is fixed at the acceptance; it is released at once exactly when it stands at the head. -/
theorem statusReadAnswered : Obligations.StatusReadAnswered := by
  intro s addr len high hl h1 h2
  have hx : exec (.statusWindowRead addr len) s = .next (releaseStatus { s.quiet with
      outstanding := s.outstanding ++ [.status (statusAnswer s (addr.toNat - s.regionBase) len)], freeCount := s.freeCount + 1 }) := by
    show offer (.read addr len) s = _
    rw [offer_read hl high, acceptRead_status (s := s.quiet) h1 h2, statusAnswer_quiet]
    rfl
  constructor
  · intro ho
    rw [hx, ho]
    rfl
  · intro r how rest ho
    rw [hx, ho]
    rfl

/-- Settles O39: a read served by the network slot, whatever its class. -/
theorem networkRead : Obligations.NetworkRead := by
  intro s c k addr h hm hst
  have hn : (s.quiet.setChan c { s.chan c with markReq := false }).NoStaged := fun d => by
    rw [setChan_get]
    split
    · exact h.noStaged c
    · exact h.noStaged d
  have hsv : serveRead c ((s.ring (s.netRing c)).classOf k) ((s.ring (s.netRing c)).seqOf k) ((s.ring (s.netRing c)).shadow.slotAddr k) s.quiet =
      (s.quiet.setChan c { s.chan c with markReq := false },
       { addr := (s.ring (s.netRing c)).shadow.slotAddr k,
         serving := if ((s.ring (s.netRing c)).seqOf k).isNone then .untouched else .network, markReq := (s.chan c).markReq }) := by
    have hq : s.quiet.chan c = s.chan c := rfl
    unfold serveRead
    rw [hq]
    rcases hst with hst | hst <;> rw [hst] <;> rfl
  exact offer_served h hm hsv hn

/-- Settles O48: orders 1 and 2 of R106 come before the insertion source is looked at. -/
theorem insertionPassOrNull : Obligations.InsertionPassOrNull := by
  intro s c k addr h hm hst
  have hserve : ∀ cls seq slot, serveRead c cls seq slot s.quiet = serveInsertion c cls seq slot s.quiet := by
    intro cls seq slot
    have hq : s.quiet.chan c = s.chan c := rfl
    unfold serveRead
    rw [hq]
    rcases hst with hst | hst | hst <;> rw [hst]
  have hn : s.quiet.NoStaged := h.noStaged
  constructor
  · intro hcls
    refine offer_served (t := s.quiet) (v := { addr := _, serving := .network }) h hm ?_ hn
    rw [hserve, hcls]
    rfl
  · intro hcls
    have hseq : (s.ring (s.netRing c)).seqOf k = none := by
      unfold Ring.seqOf
      split
      · rfl
      · exact if_pos hcls
    refine offer_served (t := s.quiet) (v := { addr := _, serving := .nullSlot }) h hm ?_ hn
    rw [hserve, hcls, hseq]
    rfl

/-- Settles O49: R17's read is translated when its one window holds it, and forwarded as it is otherwise. -/
theorem windowPartialRead : Obligations.WindowPartialRead := by
  intro s c addr len high hl hm ho hr
  have hx : exec (.windowPartialRead addr len) s = .next (windowRead (s.windowHolding addr.toNat len) addr len s.quiet) := by
    show offer (.read addr len) s = _
    rw [offer_read hl high, acceptRead_window (s := s.quiet) hl hr hm]
    rfl
  constructor
  · intro h1 h2 hne
    rw [hx, windowHolding_within hm ho h1 h2, windowRead_partial]
    · rfl
    · intro d hd hlen
      cases hd
      exact slotAt_off (hne.resolve_left fun hl' => hl' hlen)
  · intro h
    rw [hx, windowHolding_across ho h, windowRead_partial (by intro d hd; cases hd)]
    rfl

/-- Settles O50: a window is touched, a ring and the control region are not, and no staged copy is applied after the write. -/
theorem windowWrite : Obligations.WindowWrite := by
  intro s c w high hs hl hm hring hreg
  have hrings : (allRings.filter fun r => (s.ring r).shadow.meets w.addr.toNat w.bytes.length) = [] := by
    rw [List.filter_eq_nil_iff]
    intro r _
    rw [hring r]
    exact Bool.false_ne_true
  have hwin : (allChans.any fun c => s.windowMeets c w.addr.toNat w.bytes.length) = true :=
    List.any_eq_true.mpr ⟨c, List.mem_finRange c, hm⟩
  have hx : acceptWrite w s.quiet = applyAllStaged (setFlag .order (s.carry (.write w))) := by
    have h1 : (allRings.filter fun r => (s.quiet.ring r).shadow.meets w.addr.toNat w.bytes.length) = [] := hrings
    have h2 : (allChans.any fun c => s.quiet.windowMeets c w.addr.toNat w.bytes.length) = true := hwin
    have h3 : s.quiet.regionMeets w.addr.toNat w.bytes.length = false := hreg
    unfold acceptWrite
    dsimp only
    rw [h1, h2, h3, forward_quiet]
    rfl
  show offer (.write w) s = _
  rw [offer_write hl high, hx]
  exact congrArg Host.Outcome.next (applyAllStaged_noStaged (hs.of_eq rfl))

end Sys2Proof.Proofs
end

section
/-! PROOFS. Writes to ring slots: how a cell is taken, and what its slot, its ring and the other rings hold after it. -/

namespace Sys2Proof.Machine

/-! ### The slots of a ring -/

/-- Slots classed alike one after the other: a slot of the list has the new class, any other its own. -/
theorem getD_foldl_set {α : Type} (c d : α) (xs : List Nat) (l : List α) (j : Nat) (hj : j < l.length) :
    (xs.foldl (fun l k => l.set k c) l).getD j d = if j ∈ xs then c else l.getD j d := by
  induction xs generalizing l with
  | nil => simp
  | cons x xs ih =>
    rw [List.foldl_cons, ih (l.set x c) (by simpa using hj)]
    by_cases hm : j ∈ xs
    · simp [hm]
    · by_cases hx : x = j
      · subst hx; simp [hm, hj]
      · have hx' : ¬ j = x := fun e => hx e.symm
        simp [hm, hx', List.getElem?_set_ne hx]

theorem length_foldl_set {α : Type} (c : α) (xs : List Nat) (l : List α) : (xs.foldl (fun l k => l.set k c) l).length = l.length := by
  induction xs generalizing l with
  | nil => rfl
  | cons x xs ih => rw [List.foldl_cons, ih, List.length_set]

/-- Classing slots changes the classes alone. -/
theorem foldl_setClass (c : SlotClass) (xs : List Nat) (x : Ring) :
    xs.foldl (fun x k => x.setClass k c) x = { x with classes := xs.foldl (fun l k => l.set k c) x.classes } := by
  induction xs generalizing x with
  | nil => rfl
  | cons k xs ih => rw [List.foldl_cons, ih]; rfl

/-- The slots that an ahead write of distance `d` passes over (R10 step 1). -/
def passedOver (l d n : Nat) : List Nat := (List.range (d - 1)).map fun i => (l + 1 + i) % n

theorem mem_passedOver {l d n j : Nat} : j ∈ passedOver l d n ↔ ∃ i, i < d - 1 ∧ j = (l + 1 + i) % n := by
  simp [passedOver, eq_comm]

theorem skipSlots_eq (l d : Nat) (x : Ring) :
    skipSlots l d x =
      { x with classes := (passedOver l d x.shadow.slotCount.toNat).foldl (fun l k => l.set k .other) x.classes } := by
  rw [← foldl_setClass, passedOver, List.foldl_map]
  unfold skipSlots
  generalize List.range (d - 1) = is
  induction is generalizing x with
  | nil => rfl
  | cons i is ih => exact ih (x.setClass ((l + 1 + i) % x.shadow.slotCount.toNat) .other)

/-! ### What a write to a ring leaves alone -/

/-- State `t` is `s` but for its rings and its flags. -/
def State.RingsOnly (s t : State) : Prop := ∃ rings flags, t = { s with rings := rings, flags := flags }

theorem State.RingsOnly.refl (s : State) : s.RingsOnly s := ⟨_, _, rfl⟩

theorem State.RingsOnly.trans {s t u : State} : s.RingsOnly t → t.RingsOnly u → s.RingsOnly u := by
  rintro ⟨_, _, rfl⟩ ⟨_, _, rfl⟩
  exact ⟨_, _, rfl⟩

theorem State.RingsOnly.eq {s t : State} : s.RingsOnly t → t = { s with rings := t.rings, flags := t.flags } := by
  rintro ⟨_, _, rfl⟩
  rfl

theorem State.RingsOnly.channels {s t : State} : s.RingsOnly t → t.channels = s.channels := by
  rintro ⟨_, _, rfl⟩
  rfl

theorem modRing_ringsOnly (s : State) (r : RingNo) (g : Ring → Ring) : s.RingsOnly (s.modRing r g) := ⟨_, _, rfl⟩

/-! ### How a cell is taken -/

/-- A slot classed by its cell (R23). -/
theorem classSlot_eq (k : Nat) (f : Findings) (x : Ring) :
    classSlot k f x = { x with classes := x.classes.set k (classify x.shadow f)
                               syncLoss := if f.sync then x.syncLoss else counterAdd x.syncLoss 1 } := by
  unfold classSlot
  dsimp only
  split <;> rfl

theorem writeKind_first {x : Ring} {k : Nat} (h : x.lastSlot = none) : writeKind x k = .first := by
  unfold writeKind
  rw [h]

theorem writeKind_ahead {x : Ring} {k l d : Nat} (h : x.lastSlot = some l) (hd : d = (k + x.shadow.slotCount.toNat - l) % x.shadow.slotCount.toNat)
    (h1 : 1 ≤ d) (h2 : 2 * d ≤ x.shadow.slotCount.toNat) : writeKind x k = .ahead d := by
  unfold writeKind
  rw [h]
  dsimp only
  rw [← hd, if_pos ⟨h1, h2⟩]

theorem writeKind_late {x : Ring} {k l d : Nat} (h : x.lastSlot = some l) (hd : d = (k + x.shadow.slotCount.toNat - l) % x.shadow.slotCount.toNat)
    (h1 : d = 0 ∨ x.shadow.slotCount.toNat < 2 * d) : writeKind x k = .late := by
  unfold writeKind
  rw [h]
  dsimp only
  rw [← hd, if_neg (by omega)]

/-- A full-cell write to a slot of one ring is tracked there, and with no staged copy that is all it does. -/
theorem exec_slot {s t : State} {r : RingNo} {k : Nat} {addr : Addr} {cell : List Byte} (hl : s.rstLow = false) (h : s.AtSlot r k addr)
    (hc : cell.length = 192) (ht : trackCell r k cell (s.carry (wholeWrite addr cell)) = t) (hs : t.NoStaged) :
    exec (.ringFullCellWrite addr cell) s = .next t := by
  show (if cell.length = Config.cellSize then offer (wholeWrite addr cell) s else _) = _
  rw [if_pos (show cell.length = Config.cellSize from hc), offer_slot hl h hc, ht, applyAllStaged_noStaged hs]

/-- The state once a first or ahead write of slot `k` is counted in its ring and the slot is classed, before the cell is inspected (R9, R10). -/
def State.counted (s : State) (r : RingNo) (k : Nat) (f : Findings) (kind : WriteKind) : State :=
  let u := s.modRing r fun x => classSlot k f (advance k kind x)
  match kind with
  | .ahead d => if 1 < d then countOrder r u else u
  | .first | .late => u

/-- A first or ahead write is counted, then inspected (R12). -/
theorem trackCell_counted {s : State} {r : RingNo} {k : Nat} {kind : WriteKind} (hk : writeKind (s.ring r) k = kind) (hn : kind ≠ .late)
    (cell : List Byte) : trackCell r k cell s = inspect r (parseCell cell) cell (s.counted r k (parseCell cell) kind) := by
  unfold trackCell State.counted
  dsimp only
  rw [hk]
  cases kind with
  | first => rfl
  | ahead d => rfl
  | late => exact absurd rfl hn

/-- Counting a cell touches its ring and the flags only. -/
theorem counted_ringsOnly (s : State) (r : RingNo) (k : Nat) (f : Findings) (kind : WriteKind) : s.RingsOnly (s.counted r k f kind) := by
  unfold State.counted
  cases kind with
  | first => exact ⟨_, _, rfl⟩
  | late => exact ⟨_, _, rfl⟩
  | ahead d => dsimp only; split <;> exact ⟨_, _, rfl⟩

theorem countOrder_get (s : State) (r j : RingNo) :
    (countOrder r s).ring j = if r = j then { s.ring r with order := counterAdd (s.ring r).order 1 } else s.ring j := by
  unfold countOrder
  rw [setFlag_ring, modRing_get]

theorem counted_ring_ne (s : State) {r j : RingNo} (h : j ≠ r) (k : Nat) (f : Findings) (kind : WriteKind) :
    (s.counted r k f kind).ring j = s.ring j := by
  have hu := modRing_get_ne s (fun x => classSlot k f (advance k kind x)) h.symm
  unfold State.counted
  cases kind with
  | first => exact hu
  | late => exact hu
  | ahead d =>
    dsimp only
    split
    · rw [countOrder_get, if_neg h.symm]; exact hu
    · exact hu

theorem counted_ring_first (s : State) (r : RingNo) (k : Nat) (f : Findings) :
    (s.counted r k f .first).ring r = classSlot k f { s.ring r with writeCount := 1, lastSlot := some k } :=
  modRing_get_self s r _

/-- The ring after an ahead write of distance `d` from slot `l` (R10). -/
theorem counted_ring_ahead {s : State} {r : RingNo} {l : Nat} (h : (s.ring r).lastSlot = some l) (k d : Nat) (f : Findings) :
    (s.counted r k f (.ahead d)).ring r =
      { s.ring r with
        writeCount := (s.ring r).writeCount + BitVec.ofNat 32 d, lastSlot := some k
        classes := (((passedOver l d (s.ring r).shadow.slotCount.toNat).foldl (fun l k => l.set k .other) (s.ring r).classes).set k
          (classify (s.ring r).shadow f))
        syncLoss := if f.sync then (s.ring r).syncLoss else counterAdd (s.ring r).syncLoss 1
        order := if 1 < d then counterAdd (s.ring r).order 1 else (s.ring r).order } := by
  unfold State.counted
  dsimp only
  split <;> simp [countOrder_get, classSlot_eq, advance, skipSlots_eq, h]

/-- A skip sets ORDER (R10 step 1). -/
theorem counted_order (s : State) (r : RingNo) (k : Nat) (f : Findings) {d : Nat} (h : 1 < d) :
    (s.counted r k f (.ahead d)).flags.getLsbD (flagBit .order) = true := by
  unfold State.counted
  dsimp only
  rw [if_pos h]
  show (_ ||| flagMask .order).getLsbD (flagBit .order) = true
  rw [BitVec.getLsbD_or, show (flagMask .order).getLsbD (flagBit .order) = true by decide, Bool.or_true]

/-! ### Inspection -/

theorem Eng.ring {s t : State} (h : Eng s t) (r : RingNo) : t.ring r = s.ring r := by simp only [State.ring, h.rings]

/-- A state that differs from `s` in ring `r` and the flags, taken on by the Break Scheduler and the Cue Unit. -/
theorem inspectionFrame_of_sched {s u t : State} {r : RingNo} (hu : s.RingsOnly u) (hr : ∀ j, j ≠ r → u.ring j = s.ring j)
    (h : Sched u t) : InspectionFrame s t r := by
  obtain ⟨_, _, rfl⟩ := hu
  exact {
    rings := fun j hj => (h.toEng.ring j).trans (hr j hj)
    straps := h.straps
    rstLow := h.rstLow
    outstanding := h.outstanding
    abandoned := h.abandoned
    upOut := h.upOut
    downOut := h.downOut
    clips := h.clips
    alert := h.alert
    enables := h.enables
    lastCommand := h.lastCommand
    lastRefused := h.lastRefused
    channels := h.chans
    pods := h.recs }

/-- A first or ahead write (R9, R10, R12): the cell is counted and inspected, which leaves in its ring the reports and elsewhere what the Break
Scheduler and the Cue Unit do. -/
theorem exec_counted {s : State} {r : RingNo} {k : Nat} {addr : Addr} {cell : List Byte} {kind : WriteKind} (hl : s.rstLow = false)
    (hs : s.NoStaged) (h : s.AtSlot r k addr) (hc : cell.length = 192) (hk : writeKind (s.ring r) k = kind) (hn : kind ≠ .late) :
    ∃ t a, exec (.ringFullCellWrite addr cell) s = .next t ∧
      t = inspect r (parseCell cell) cell ((s.carry (wholeWrite addr cell)).counted r k (parseCell cell) kind) ∧
      InspectionFrame (s.carry (wholeWrite addr cell)) t r ∧
      t.ring r = Ring.report (parseCell cell) a (((s.carry (wholeWrite addr cell)).counted r k (parseCell cell) kind).ring r) ∧
      ∀ i, ((s.carry (wholeWrite addr cell)).counted r k (parseCell cell) kind).flags.getLsbD i = true → t.flags.getLsbD i = true := by
  generalize hq : s.carry (wholeWrite addr cell) = q
  have hcarry : q.channels = s.channels := by rw [← hq]; rfl
  have hkq : writeKind (q.ring r) k = kind := by rw [← hq]; exact hk
  have hrest := counted_ringsOnly q r k (parseCell cell) kind
  have hne := fun j hj => counted_ring_ne q (r := r) (j := j) hj k (parseCell cell) kind
  generalize hu : q.counted r k (parseCell cell) kind = u at hrest hne
  obtain ⟨a, hsched⟩ := inspect_sched r (parseCell cell) cell u
  have hns : (u.modRing r (Ring.report (parseCell cell) a)).NoStaged := hs.of_eq (hrest.channels.trans hcarry)
  refine ⟨_, a, exec_slot hl h hc (by rw [hq, trackCell_counted hkq hn, hu]) (hsched.toEng.noStaged hns), rfl, ?_, ?_, ?_⟩
  · refine inspectionFrame_of_sched (hrest.trans (modRing_ringsOnly u r _)) (fun j hj => ?_) hsched
    rw [modRing_get_ne _ _ hj.symm]
    exact hne j hj
  · rw [hsched.toEng.ring, modRing_get_self]
  · exact fun i => hsched.flags i

/-! ### Partial writes -/

/-- A byte touches slot `j` of a ring (R1, R2). -/
theorem meets_byte_iff {x : RingShadow} {a j : Nat} :
    x.meets a 1 = true ∧ (a - x.base.toNat) / Config.cellSize = j ↔
      x.kind ≠ .unused ∧ j < x.slotCount.toNat ∧ x.base.toNat + 192 * j ≤ a ∧ a < x.base.toNat + 192 * (j + 1) := by
  unfold RingShadow.meets RingShadow.tracked RingShadow.bytes Config.cellSize
  rw [Bool.and_eq_true, rangesMeet_iff, bne_iff_ne]
  constructor
  · rintro ⟨⟨hu, h⟩, hj⟩
    exact ⟨hu, by omega⟩
  · rintro ⟨hu, h⟩
    exact ⟨⟨hu, by omega⟩, by omega⟩

/-- The slots that a write touches with an enabled byte (R13). -/
theorem mem_touchedSlots {x : RingShadow} {w : WriteReq} {j : Nat} :
    j ∈ touchedSlots x w ↔ x.kind ≠ .unused ∧ j < x.slotCount.toNat ∧
      ∃ i b, w.bytes[i]? = some (b, true) ∧ x.base.toNat + 192 * j ≤ w.addr.toNat + i ∧ w.addr.toNat + i < x.base.toNat + 192 * (j + 1) := by
  unfold touchedSlots
  simp only [List.mem_map, List.mem_filter, List.mem_range]
  constructor
  · rintro ⟨i, ⟨hi, hm⟩, hj⟩
    obtain ⟨⟨b, en⟩, hb⟩ : ∃ p, w.bytes[i]? = some p := ⟨_, List.getElem?_eq_getElem hi⟩
    simp only [hb, Bool.and_eq_true] at hm
    obtain ⟨rfl, hm⟩ := hm
    obtain ⟨hu, hn, h⟩ := meets_byte_iff.mp ⟨hm, hj⟩
    exact ⟨hu, hn, i, b, hb, h⟩
  · rintro ⟨hu, hn, i, b, hb, h⟩
    obtain ⟨hm, hj⟩ := meets_byte_iff.mpr ⟨hu, hn, h⟩
    exact ⟨i, ⟨(List.getElem?_eq_some_iff.mp hb).1, by simp only [hb, hm, Bool.and_self]⟩, hj⟩

/-- A ring touched with an enabled byte is touched by the write's range (R2). -/
theorem meets_of_touched {x : RingShadow} {w : WriteReq} (h : touchedSlots x w ≠ []) : x.meets w.addr.toNat w.bytes.length = true := by
  obtain ⟨j, hj⟩ := List.exists_mem_of_ne_nil _ h
  obtain ⟨hu, hn, i, b, hb, h1, h2⟩ := mem_touchedSlots.mp hj
  have hi := (List.getElem?_eq_some_iff.mp hb).1
  unfold RingShadow.meets RingShadow.tracked RingShadow.bytes Config.cellSize
  rw [Bool.and_eq_true, rangesMeet_iff, bne_iff_ne]
  exact ⟨hu, by omega⟩

/-- A ring after a partial write that touches these slots (R13). -/
def Ring.touch (slots : List Nat) (x : Ring) : Ring :=
  if slots = [] then x
  else { x with order := counterAdd x.order 1, classes := slots.foldl (fun l k => l.set k .other) x.classes }

theorem touch_shadow (slots : List Nat) (x : Ring) : (x.touch slots).shadow = x.shadow := by
  unfold Ring.touch
  split <;> rfl

/-- A partial write in one ring (R13): the ring is touched, and ORDER set when a slot is. -/
theorem trackPartial_eq (r : RingNo) (w : WriteReq) (s : State) :
    trackPartial r w s =
      orderIf (touchedSlots (s.ring r).shadow w ≠ []) (s.modRing r (Ring.touch (touchedSlots (s.ring r).shadow w))) := by
  unfold trackPartial orderIf
  dsimp only
  by_cases h : touchedSlots (s.ring r).shadow w = []
  · rw [h, modRing_self s r (Ring.touch []) rfl]
    rfl
  · have he : (touchedSlots (s.ring r).shadow w).isEmpty = false := by simpa using h
    have hd : decide (touchedSlots (s.ring r).shadow w ≠ []) = true := by simpa using h
    rw [he, hd]
    unfold countOrder
    rw [modRing_modRing]
    refine congrArg (setFlag .order) (modRing_congr s r _ _ ?_)
    simp only [Function.comp, Ring.touch, h, if_false, foldl_setClass]

/-- A partial write in several rings, each touched on its own (R13). -/
theorem trackWrites_partial {w : WriteReq} (rs : List RingNo) (hnd : rs.Nodup) (s : State)
    (hf : ∀ r, fullCellSlot (s.ring r).shadow w = none) :
    s.RingsOnly (forEach rs (trackWrite w) s) ∧
    (∀ r, (forEach rs (trackWrite w) s).ring r =
      if r ∈ rs then (s.ring r).touch (touchedSlots (s.ring r).shadow w) else s.ring r) ∧
    (forEach rs (trackWrite w) s).flags =
      if ∃ r, r ∈ rs ∧ touchedSlots (s.ring r).shadow w ≠ [] then s.flags ||| flagMask .order else s.flags := by
  induction rs generalizing s with
  | nil => exact ⟨.refl s, fun r => by simp [forEach], by simp [forEach]⟩
  | cons x xs ih =>
    obtain ⟨hx, hxs⟩ := List.nodup_cons.mp hnd
    have hstep : trackWrite w x s =
        orderIf (touchedSlots (s.ring x).shadow w ≠ []) (s.modRing x (Ring.touch (touchedSlots (s.ring x).shadow w))) := by
      unfold trackWrite
      rw [hf x]
      exact trackPartial_eq x w s
    have hring : ∀ r, (trackWrite w x s).ring r =
        if x = r then (s.ring x).touch (touchedSlots (s.ring x).shadow w) else s.ring r := by
      intro r
      rw [hstep, ← modRing_get]
      unfold orderIf
      split <;> rfl
    have hshadow : ∀ r, ((trackWrite w x s).ring r).shadow = (s.ring r).shadow := by
      intro r
      rw [hring]
      split
      · next e => rw [touch_shadow, e]
      · rfl
    have hrest : s.RingsOnly (trackWrite w x s) := by
      rw [hstep]
      unfold orderIf
      split <;> exact ⟨_, _, rfl⟩
    have hflags : (trackWrite w x s).flags =
        if touchedSlots (s.ring x).shadow w ≠ [] then s.flags ||| flagMask .order else s.flags := by
      rw [hstep]
      unfold orderIf
      by_cases h : touchedSlots (s.ring x).shadow w = [] <;> simp [h, setFlag]
    obtain ⟨h1, h2, h3⟩ := ih hxs (trackWrite w x s) fun r => by rw [hshadow r]; exact hf r
    simp only [hshadow] at h2 h3
    rw [show forEach (x :: xs) (trackWrite w) s = forEach xs (trackWrite w) (trackWrite w x s) from rfl]
    generalize trackWrite w x s = u at *
    refine ⟨hrest.trans h1, fun r => ?_, ?_⟩
    · rw [h2, hring]
      by_cases hr : x = r
      · subst hr; simp [hx]
      · have hr' : ¬ r = x := fun e => hr e.symm
        simp [hr, hr']
    · rw [h3, hflags]
      simp only [List.exists_mem_cons_iff]
      by_cases hp : touchedSlots (s.ring x).shadow w ≠ [] <;> by_cases hq : ∃ r ∈ xs, touchedSlots (s.ring r).shadow w ≠ []
      · rw [if_pos hq, if_pos hp, if_pos (.inl hp), BitVec.or_assoc, BitVec.or_self]
      · rw [if_neg hq, if_pos hp, if_pos (.inl hp)]
      · rw [if_pos hq, if_neg hp, if_pos (.inr hq)]
      · rw [if_neg hq, if_neg hp, if_neg (not_or.mpr ⟨hp, hq⟩)]

/-- The rings that a write touches by its range are all that its enabled bytes touch (R2, R13). -/
theorem exec_partial {s : State} {w : WriteReq} (high : s.rstLow = false) (hs : s.NoStaged) (hl : lengthOk w.bytes.length = true)
    (hwin : ∀ c, s.windowMeets c w.addr.toNat w.bytes.length = false) (hreg : s.regionMeets w.addr.toNat w.bytes.length = false)
    (hf : ∀ r, fullCellSlot (s.ring r).shadow w = none) :
    ∃ t, exec (.ringPartialWrite w) s = .next t ∧ (s.carry (.write w)).RingsOnly t ∧
      (∀ r, t.ring r = (s.ring r).touch (touchedSlots (s.ring r).shadow w)) ∧
      t.flags = if ∃ r, touchedSlots (s.ring r).shadow w ≠ [] then s.flags ||| flagMask .order else s.flags := by
  have hnone : (allChans.any fun c => s.quiet.windowMeets c w.addr.toNat w.bytes.length) = false := by
    rw [List.any_eq_false]
    intro c _
    rw [show s.quiet.windowMeets c w.addr.toNat w.bytes.length = false from hwin c]
    exact Bool.false_ne_true
  have hr : s.quiet.regionMeets w.addr.toNat w.bytes.length = false := hreg
  obtain ⟨h1, h2, h3⟩ := trackWrites_partial (w := w) (allRings.filter fun r => (s.ring r).shadow.meets w.addr.toNat w.bytes.length)
    ((List.nodup_finRange 48).filter _) (s.carry (.write w)) hf
  have hmem : ∀ r, r ∈ (allRings.filter fun r => (s.ring r).shadow.meets w.addr.toNat w.bytes.length) ↔
      (s.ring r).shadow.meets w.addr.toNat w.bytes.length = true := fun r => by simp [allRings]
  have hx : exec (.ringPartialWrite w) s = .next (applyAllStaged
      (forEach (allRings.filter fun r => (s.ring r).shadow.meets w.addr.toNat w.bytes.length) (trackWrite w) (s.carry (.write w)))) := by
    show offer (.write w) s = _
    rw [offer_write hl high]
    unfold acceptWrite
    dsimp only
    rw [hnone, hr, forward_quiet]
    rfl
  generalize forEach _ (trackWrite w) (s.carry (.write w)) = t at *
  refine ⟨t, ?_, h1, fun r => ?_, h3.trans (if_congr ⟨?_, ?_⟩ rfl rfl)⟩
  · rw [hx, applyAllStaged_noStaged (hs.of_eq h1.channels)]
  · rw [h2]
    split
    · rfl
    · next hm =>
      have hnil : touchedSlots (s.ring r).shadow w = [] := by
        by_contra hne
        exact hm ((hmem r).mpr (meets_of_touched hne))
      show s.ring r = _
      rw [hnil]
      rfl
  · exact fun ⟨r, _, h⟩ => ⟨r, h⟩
  · exact fun ⟨r, h⟩ => ⟨r, (hmem r).mpr (meets_of_touched h), h⟩

end Sys2Proof.Machine

namespace Sys2Proof.Proofs

open Sys2Proof.Machine

/-- Settles O11: the ring is counted and classed before the inspection, which leaves both alone. -/
theorem firstWrite : Obligations.FirstWrite := by
  intro s r k addr cell high hs hat hc hlast
  obtain ⟨t, a, hx, -, hframe, hring, -⟩ := exec_counted high hs hat hc (writeKind_first hlast) (by decide)
  rw [counted_ring_first, classSlot_eq] at hring
  refine ⟨t, hx, hframe, ?_⟩
  rw [hring]
  exact ⟨rfl, rfl, rfl, rfl, rfl, rfl⟩

/-- Settles O12: the slots passed over are classed before slot k is, and the skip is counted before the inspection. -/
theorem aheadWrite : Obligations.AheadWrite := by
  intro s r k l d addr cell high hs hat hc hlast _ hlen hd h1 h2
  obtain ⟨t, a, hx, -, hframe, hring, hflags⟩ := exec_counted high hs hat hc (writeKind_ahead hlast hd h1 h2) (by simp)
  have hl : ((s.carry (wholeWrite addr cell)).ring r).lastSlot = some l := hlast
  rw [counted_ring_ahead hl] at hring
  refine ⟨t, hx, hframe, ?_⟩
  rw [hring]
  refine ⟨rfl, rfl, rfl, fun j hj => ?_, rfl, rfl, fun h => hflags _ (counted_order _ r k _ h)⟩
  show ((List.foldl _ (s.ring r).classes (passedOver l d (s.ring r).shadow.slotCount.toNat)).set k _).getD j .unwritten = _
  rw [← hlen] at hj
  by_cases hjk : j = k
  · subst hjk
    rw [if_pos rfl]
    simp only [List.getD_eq_getElem?_getD]
    rw [List.getElem?_set_self (by rw [length_foldl_set]; exact hj)]
    rfl
  · have hkj : k ≠ j := fun e => hjk e.symm
    have hset := getD_foldl_set SlotClass.other .unwritten (passedOver l d (s.ring r).shadow.slotCount.toNat) (s.ring r).classes j hj
    simp only [mem_passedOver] at hset
    rw [if_neg hjk, List.getD_eq_getElem?_getD, List.getElem?_set_ne hkj, ← List.getD_eq_getElem?_getD, hset]
    rfl

/-- Settles O13: a late write is classed and counted out of order, with no inspection. -/
theorem lateWrite : Obligations.LateWrite := by
  intro s r k l d addr cell high hs hat hc hlast hd hdist
  have hkind : writeKind ((s.carry (wholeWrite addr cell)).ring r) k = .late := writeKind_late hlast hd hdist
  refine exec_slot high hat hc ?_ (hs.of_eq rfl)
  unfold trackCell
  dsimp only
  rw [hkind]
  unfold countOrder
  dsimp only
  rw [modRing_modRing]
  refine congrArg (setFlag .order) ?_
  unfold State.modRing
  simp only [Function.comp, advance, classSlot_eq]
  rfl

/-- Settles O14: the slots touched are those of the enabled bytes, each ring takes them on its own. -/
theorem partialRingWrite : Obligations.PartialRingWrite := by
  intro s w touched high hs hl hwin hreg hf hlen htouched
  obtain ⟨t, hx, hrest, hring, hflags⟩ := exec_partial high hs hl hwin hreg hf
  have hmem : ∀ r j, touched r j ↔ j ∈ touchedSlots (s.ring r).shadow w := fun r j => (htouched r j).trans mem_touchedSlots.symm
  have hany : ∀ r, (∃ j, touched r j) ↔ touchedSlots (s.ring r).shadow w ≠ [] := fun r => by
    simp only [hmem]
    exact ⟨fun ⟨_, h⟩ => List.ne_nil_of_mem h, List.exists_mem_of_ne_nil _⟩
  refine ⟨t, hx, hrest.eq, fun r hr => ?_, fun r hr => ?_, fun h => ?_, fun h => ?_⟩
  · have hne := (hany r).mp hr
    rw [hring r, Ring.touch, if_neg hne]
    refine ⟨rfl, length_foldl_set _ _ _, fun j hj => ?_⟩
    have hcls := getD_foldl_set SlotClass.other .unwritten (touchedSlots (s.ring r).shadow w) (s.ring r).classes j hj
    constructor
    · intro ht
      exact hcls.trans (if_pos ((hmem r j).mp ht))
    · intro ht
      exact hcls.trans (if_neg fun hm => ht ((hmem r j).mpr hm))
  · have hnil : touchedSlots (s.ring r).shadow w = [] := by
      by_contra hne
      exact hr ((hany r).mpr hne)
    rw [hring r, hnil]
    rfl
  · rw [hflags, if_pos]
    obtain ⟨r, hr⟩ := h
    exact ⟨r, (hany r).mp hr⟩
  · rw [hflags, if_neg]
    rintro ⟨r, hr⟩
    obtain ⟨j, hj⟩ := (hany r).mpr hr
    exact h ⟨r, j, hj⟩

end Sys2Proof.Proofs
end

section
/-! PROOFS. Writes to the control region that reset the splicer, restart a ring or enable a channel. -/

namespace Sys2Proof.Machine

/-! ### Operations taken for each element of a list -/

/-- What one step relates, the steps of a whole list relate. -/
theorem forEach_rel {α : Type} {R : State → State → Prop} {f : α → State → State} (hr : ∀ s, R s s)
    (ht : ∀ {s t u}, R s t → R t u → R s u) (h : ∀ x s, R s (f x s)) (xs : List α) (s : State) : R s (forEach xs f s) := by
  induction xs generalizing s with
  | nil => exact hr s
  | cons x xs ih => exact ht (h x s) (ih (f x s))

/-- State `t` is `s` but for its as-run queue and its flags: what making records changes. -/
def State.LogOnly (s t : State) : Prop := ∃ asRun flags, t = { s with asRun := asRun, flags := flags }

theorem State.LogOnly.refl (s : State) : s.LogOnly s := ⟨_, _, rfl⟩

theorem State.LogOnly.trans {s t u : State} : s.LogOnly t → t.LogOnly u → s.LogOnly u := by
  rintro ⟨_, _, rfl⟩ ⟨_, _, rfl⟩
  exact ⟨_, _, rfl⟩

/-- The entries of a queue that expire are recorded and removed, and nothing else changes (R61). -/
theorem expireEntries_eq (test : CueEntry → Bool) (s : State) :
    ∃ asRun flags, expireEntries test s =
      { s with asRun := asRun, flags := flags, cueQueue := s.cueQueue.filter fun e => !test e } := by
  have hmiss : ∀ (e : CueEntry) (s : State), s.LogOnly (missEntry e s) := fun e s =>
    forEach_rel State.LogOnly.refl State.LogOnly.trans (fun _ _ => ⟨_, _, rfl⟩) _ s
  obtain ⟨q, f, h⟩ := forEach_rel State.LogOnly.refl State.LogOnly.trans hmiss (s.cueQueue.filter test) s
  unfold expireEntries
  dsimp only
  rw [h]
  exact ⟨q, f, rfl⟩

/-! ### SOFT_RESET -/

theorem finishCommand_channels (tag : Option (BitVec 32)) (n : Nat) (result : Result) (s : State) :
    (finishCommand tag n result s).channels = s.channels := by
  unfold finishCommand
  dsimp only
  split <;> rfl

/-- With RST_N high, what SOFT_RESET leaves (R8, R137, R166). -/
theorem softReset_high {s : State} (h : s.rstLow = false) :
    softReset s = { State.reset with
      straps := s.straps, abandoned := s.abandoned, upOut := s.upOut, downOut := s.downOut,
      outstanding := s.outstanding.map Outstanding.plainly,
      alert := { State.reset.alert with lockdown := s.alert.lockdown, protHigh := s.alert.protHigh },
      pending := s.pending, freeCount := s.freeCount } := by
  unfold softReset
  rw [h]
  rfl

/-! ### Ring records -/

/-- The component CC tables of channels rebuilt: nothing else changes (R109). -/
theorem rebuildTables_eq (keys : List Pid) (cs : List ChanNo) (s : State) :
    (∃ channels, forEach cs (fun c s => s.modChan c fun ch => { ch with cc := rebuildCc keys ch.cc }) s = { s with channels := channels }) ∧
    Eng s (forEach cs (fun c s => s.modChan c fun ch => { ch with cc := rebuildCc keys ch.cc }) s) := by
  constructor
  · refine forEach_rel (R := fun s t => ∃ channels, t = { s with channels := channels }) (fun s => ⟨_, rfl⟩) ?_ (fun c s => ⟨_, rfl⟩) cs s
    rintro s t u ⟨_, rfl⟩ ⟨_, rfl⟩
    exact ⟨_, rfl⟩
  · exact forEach_rel Eng.refl Eng.trans (fun c s => modChan_eng s c _) cs s

/-- A ring whose record changes kind, base or slot count is restarted (R7): besides its own tracking, its queue entries go, with their records, and
the tables of the channels on it are rebuilt. -/
theorem takeRing_moved {s : State} {k : RingNo} {new : RingShadow} (h : (s.ring k).shadow.moved new = true) :
    (∃ asRun flags channels, takeRing k new s =
      { s.setRing k ((s.ring k).restart new) with
        asRun := asRun, flags := flags, channels := channels, cueQueue := s.cueQueue.filter fun e => !(e.ring == k) }) ∧
    (s.NoStaged → (takeRing k new s).NoStaged) := by
  obtain ⟨q, f, hx⟩ := expireEntries_eq (fun e => e.ring == k) (s.modRing k fun r => r.restart new)
  unfold takeRing
  dsimp only
  rw [if_pos h, hx]
  obtain ⟨⟨ch, hc⟩, he⟩ := rebuildTables_eq new.comps.keys
    (allChans.filter fun c => State.isOnRing { s.modRing k fun r => r.restart new with
      asRun := q, flags := f, cueQueue := (s.modRing k fun r => r.restart new).cueQueue.filter fun e => !(e.ring == k) } c k)
    { s.modRing k fun r => r.restart new with
      asRun := q, flags := f, cueQueue := (s.modRing k fun r => r.restart new).cueQueue.filter fun e => !(e.ring == k) }
  exact ⟨⟨q, f, ch, hc⟩, fun hs => he.noStaged (hs.of_eq rfl)⟩

/-- A restarted ring keeps its two counters (R7). -/
theorem restart_eq (x : Ring) (new : RingShadow) :
    x.restart new =
      { shadow := new, writeCount := 0, lastSlot := none, mark := none, pcrBase := none, assembler := .idle,
        classes := if new.kind = .unused then [] else List.replicate new.slotCount.toNat .unwritten,
        syncLoss := x.syncLoss, order := x.order } := by
  unfold Ring.restart RingShadow.tracked
  by_cases hn : new.kind = .unused <;> simp [hn]

/-- A ring record's write is settled by its owner's answer (R161, R162). -/
theorem exec_ringRecord {s : State} {k : RingNo} {record : List Byte} {answer : Except RefuseReason State}
    (h : ControlClear s (0x4000 + 32 * k.val) 32) (hl : record.length = 32)
    (ha : takeRingRecord k record (s.carried (0x4000 + 32 * k.val) record) = answer)
    (hs : (settle (s.regionAddr (0x4000 + 32 * k.val)) answer (s.carried (0x4000 + 32 * k.val) record)).NoStaged) :
    exec (.ringRecordWrite k record) s =
      .next (settle (s.regionAddr (0x4000 + 32 * k.val)) answer (s.carried (0x4000 + 32 * k.val) record)) := by
  have hk := k.isLt
  subst ha
  exact (offerRecord_clear (id := .ring k) hl rfl (by omega) (recordAt_ring k) h).trans
    (congrArg Host.Outcome.next (applyAllStaged_noStaged hs))

/-! ### Channel records -/

theorem withdrawTargets_sched (c : ChanNo) (s : State) : Sched s (withdrawTargets c s) :=
  ((forEach_sched unbind_sched _ s).trans (dropEntries_sched _ _)).trans (dropPoints_sched _ _ _)

theorem leaveWaiting_sched (c : ChanNo) (r : ChannelRecord) (s : State) : Sched s (leaveWaiting c r s) :=
  cueQueue_sched s _ fun h => (List.length_filter_le _ _).trans (by simpa using h.cues)

theorem rebuildCc_nil (keys : List Pid) : rebuildCc keys [] = keys.map fun p => { pid := p, cc := none, mark := false } := rfl

/-- A record that enables a channel in OFF while no episode runs (R119 steps 4 and 5). -/
theorem enforce_off {s : State} {c : ChanNo} {rec : ChannelRecord} (hst : (s.chan c).state = .off) (he : rec.enable = true)
    (ha : s.alert.state = .idle) :
    enforce c rec s =
      s.setChan c ({ s.chan c with inForce := rec }.enableFresh (s.ring rec.netRing).shadow.comps.keys) := by
  have hold : (s.chan c).enabled = false := by simp [Channel.enabled, hst]
  have hrun : s.alert.running = false := by simp [AlertCtl.running, ha]
  unfold enforce
  simp only [he, hold, modChan_alert, hrun, Bool.not_true, Bool.not_false, Bool.false_and, Bool.false_eq_true, if_false, if_true]
  simp [State.modChan, State.setChan, State.chan, Vector.get_eq_getElem]

/-- A channel record that its owner takes leaves what the owner makes of it (R161). -/
theorem exec_channelRecord {s t : State} {c : ChanNo} {record : List Byte} (h : ControlClear s (0x5000 + 32 * c.val) 32)
    (hl : record.length = 32) (ha : takeChannelRecord c record (s.carried (0x5000 + 32 * c.val) record) = .ok t) (hs : t.NoStaged) :
    exec (.channelRecordWrite c record) s = .next t := by
  have hc := c.isLt
  have ht : takeRecord (.channel c) (s.regionAddr (0x5000 + 32 * c.val)) record (s.carried (0x5000 + 32 * c.val) record) = t := by
    show settle _ (takeChannelRecord c record (s.carried (0x5000 + 32 * c.val) record)) _ = t
    rw [ha]
    rfl
  have hx := offerRecord_clear (id := .channel c) hl rfl (by omega) (recordAt_channel c) h
  rw [ht, applyAllStaged_noStaged hs] at hx
  exact hx

/-- A valid record that enables a channel in OFF is applied (R14, R119): after the Break Scheduler's part the record is put in force. -/
theorem takeChannelRecord_off {s : State} {c : ChanNo} {record : List Byte} (hst : (s.chan c).state = .off)
    (he : (parseChannel record).enable = true) (hw : s.windowOk c (parseChannel record) = true) :
    ∃ u, Sched s u ∧ takeChannelRecord c record s = .ok (enforce c (parseChannel record) u) := by
  have hat : s.appliesAtOnce c = true := by simp [State.appliesAtOnce, hst]
  unfold takeChannelRecord
  dsimp only
  rw [if_pos hat]
  unfold applyChannel
  simp only [he, hw, Bool.not_true, Bool.and_false, Bool.false_and, Bool.false_eq_true, if_false, Bool.false_or]
  refine ⟨_, ?_, rfl⟩
  split
  · exact (leaveWaiting_sched _ _ _).trans (withdrawTargets_sched _ _)
  · exact leaveWaiting_sched _ _ _

end Sys2Proof.Machine

namespace Sys2Proof.Proofs

open Sys2Proof.Machine

/-- Settles O28: the command is refused or resets, on the state whose write went downstream. -/
theorem softReset : Obligations.SoftReset := by
  intro s mb h hl
  have hx : exec (.softReset mb) s = .next (applyAllStaged (runCommand 10 mb (s.carried 0x3090 mb))) :=
    offerMailbox_clear (n := 10) (by decide) (by decide) hl h
  have hrun : ∀ u result, softResetCmd (s.carried 0x3090 mb) = (u, result) → u.NoStaged →
      exec (.softReset mb) s = .next (answered 10 mb result u) := by
    intro u result hu hs
    have hc : runCommand 10 mb (s.carried 0x3090 mb) = answered 10 mb result u := by
      show finishCommand _ 10 (softResetCmd (s.carried 0x3090 mb)).2 (softResetCmd (s.carried 0x3090 mb)).1 = _
      rw [hu]
      rfl
    have hn : (answered 10 mb result u).NoStaged := hs.of_eq (finishCommand_channels _ _ _ u)
    rw [hx, hc, applyAllStaged_noStaged hn]
  constructor
  · intro hp
    exact hrun _ _ (if_pos hp) (h.noStaged.of_eq rfl)
  · intro hp
    have hn : ¬ ((s.carried 0x3090 mb).alert.isProtected = true ∧ (s.carried 0x3090 mb).alert.state ≠ .idle) := by
      rintro ⟨h1, h2⟩
      rcases hp with hp | hp
      · exact Bool.false_ne_true (hp.symm.trans h1)
      · exact h2 hp
    have hs : (Machine.softReset (s.carried 0x3090 mb)).NoStaged := fun c => congrArg Channel.staged (reset_chan c)
    rw [hrun _ _ (if_neg hn) hs, softReset_high (s := s.carried 0x3090 mb) h.high]
    rfl

/-- Settles O31: the checks of R5 and R6 in order, then the restart of R7. -/
theorem ringRecordWritten : Obligations.RingRecordWritten := by
  intro s k record h hl
  have hrefused : ∀ why, takeRingRecord k record (s.carried (0x4000 + 32 * k.val) record) = .error why →
      exec (.ringRecordWrite k record) s =
        .next (refuse (s.regionAddr (0x4000 + 32 * k.val)) why (s.carried (0x4000 + 32 * k.val) record)) := fun why hw =>
    exec_ringRecord h hl hw (h.noStaged.of_eq rfl)
  have htake : ∀ new, parseRing record = some new → takeRingRecord k record (s.carried (0x4000 + 32 * k.val) record) =
      if !s.ringOk k new then .error .invalid
      else if s.ringInUse k new then .error .inUse
      else .ok (takeRing k new (s.carried (0x4000 + 32 * k.val) record)) := by
    intro new hp
    unfold takeRingRecord
    rw [hp]
    rfl
  refine ⟨fun hp => hrefused _ (by unfold takeRingRecord; rw [hp]), fun new hp => ⟨fun hok => ?_, fun hok hu => ?_, fun hok hu hm => ?_⟩⟩
  · exact hrefused _ (by rw [htake new hp, hok]; rfl)
  · exact hrefused _ (by rw [htake new hp, hok, hu]; rfl)
  · obtain ⟨⟨q, f, ch, ht⟩, hs⟩ := takeRing_moved (s := s.carried (0x4000 + 32 * k.val) record) (k := k) (new := new) hm
    have hok' : takeRingRecord k record (s.carried (0x4000 + 32 * k.val) record) =
        .ok (takeRing k new (s.carried (0x4000 + 32 * k.val) record)) := by
      rw [htake new hp, hok, hu]
      rfl
    refine ⟨takeRing k new (s.carried (0x4000 + 32 * k.val) record), exec_ringRecord h hl hok' (hs (h.noStaged.of_eq rfl)), ?_⟩
    rw [ht]
    refine ⟨?_, fun j hj => setRing_get_ne _ _ hj.symm, rfl, rfl, rfl, rfl, rfl⟩
    exact (setRing_get_self _ k _).trans (restart_eq _ new)

/-- Settles O32: the Break Scheduler's part leaves of each channel all but its queue, then the record is put in force. -/
theorem channelEnabled : Obligations.ChannelEnabled := by
  intro s c record rec h hl hrec hst he hw hal
  subst hrec
  obtain ⟨u, hu, htake⟩ := takeChannelRecord_off (s := s.carried (0x5000 + 32 * c.val) record) hst he hw
  have hidle : u.alert.state = .idle := by rw [hu.alert]; exact hal
  have hring : u.ring (parseChannel record).netRing = s.ring (parseChannel record).netRing := hu.toEng.ring _
  have hchan : ∀ d, u.chan d = { s.chan d with queue := (u.chan d).queue } := hu.chans
  rw [enforce_off ((hu.state c).trans hst) he hidle, hring] at htake
  refine ⟨_, exec_channelRecord h hl htake fun d => ?_, ?_, fun d hd => ?_, hu.rings, hu.clips, hu.alert⟩
  · rw [setChan_get]
    split
    · exact (hu.staged c).trans (h.noStaged c)
    · exact (hu.staged d).trans (h.noStaged d)
  · rw [setChan_get_self, hchan c, Channel.enableFresh, rebuildCc_nil]
  · rw [setChan_get_ne _ _ hd.symm]
    exact hchan d

end Sys2Proof.Proofs
end

section
/-! PROOFS. The reports of a cell: the last start mark, the latest PCR base, and the watch entry that falls due. -/

namespace Sys2Proof.Machine

/-! ### Banks that are equal -/

theorem chan_congr {s t : State} (h : t.channels = s.channels) (c : ChanNo) : t.chan c = s.chan c := by simp only [State.chan, h]

theorem pod_congr {s t : State} (h : t.pods = s.pods) (p : PodNo) : t.pod p = s.pod p := by simp only [State.pod, h]

theorem readyList_congr {s t : State} (h : t.ready = s.ready) (c : ChanNo) : t.readyList c = s.readyList c := by
  simp only [State.readyList, h]

theorem watchList_congr {s t : State} (h : t.watch = s.watch) (r : RingNo) : t.watchList r = s.watchList r := by
  simp only [State.watchList, h]

/-! ### When an entry falls due -/

theorem same_iff {a b : WatchEntry} : a.same b = true ↔ a.kind = b.kind ∧ a.chan = b.chan := by simp [WatchEntry.same]

theorem heldBack_iff {s : State} {e : WatchEntry} : s.heldBack e.kind = true ↔ s.NoFeedMark e := by
  unfold State.heldBack State.NoFeedMark
  cases e.kind <;> simp

/-- An entry is due at a start when its target is reached and its feed ring has a mark (R88). -/
theorem dueAtStart_iff {s : State} {e : WatchEntry} {seq : SeqNo} {pts : Ticks} :
    s.dueAtStart e seq pts = true ↔ e.DueAt pts seq ∧ ¬ s.NoFeedMark e := by
  unfold State.dueAtStart WatchEntry.DueAt
  rw [Bool.and_eq_true, Bool.not_eq_true', Bool.eq_false_iff, ne_eq, heldBack_iff, and_comm]
  refine and_congr_left fun _ => ?_
  cases e.target with
  | atTick t => simp
  | immediate =>
    cases e.kind with
    | out p => cases e.markSeq <;> simp
    | ret | slotResume | feedIn | feedOut => simp

/-- An entry is forced at a PCR that has passed its target by the window, when its feed ring has a mark (R89). -/
theorem dueAtPcr_iff {s : State} {e : WatchEntry} {base anchor : Ticks} :
    s.dueAtPcr e base = some anchor ↔ e.ForcedAt (s.chan e.chan).inForce.window base anchor ∧ ¬ s.NoFeedMark e := by
  unfold State.dueAtPcr WatchEntry.ForcedAt
  by_cases hb : s.NoFeedMark e
  · rw [if_pos (heldBack_iff.mpr hb)]
    simp [hb]
  · rw [if_neg (fun h => hb (heldBack_iff.mp h))]
    cases e.target with
    | atTick t =>
      dsimp only
      rw [Option.ite_none_right_eq_some, Option.some_inj]
      constructor
      · rintro ⟨h, rfl⟩
        exact ⟨.inl ⟨t, rfl, h, rfl⟩, hb⟩
      · rintro ⟨⟨_, ht, h, rfl⟩ | ⟨_, ht, _⟩, _⟩ <;> cases ht
        exact ⟨h, rfl⟩
    | immediate =>
      cases e.pcrBase with
      | none => simp
      | some q =>
        dsimp only
        rw [Option.ite_none_right_eq_some, Option.some_inj]
        constructor
        · rintro ⟨h, rfl⟩
          exact ⟨.inr ⟨q, rfl, rfl, h, rfl⟩, hb⟩
        · rintro ⟨⟨_, ht, _⟩ | ⟨_, _, hq, h, rfl⟩, _⟩
          · cases ht
          · cases hq
            exact ⟨h, rfl⟩

theorem hasPlace_iff {queue : List SwitchPoint} {seq : SeqNo} : HasPlace queue seq ↔ queueAdmits queue seq = true := by
  unfold HasPlace queueAdmits Config.switchQueueSize
  cases queue.getLast? <;> simp

/-! ### An entry that resolves -/

/-- State `v` is `s` as it stands when entry `e` of ring `r`, the only one of its kind and channel there, comes to be resolved in its list as `e'`: the
other lists, the channels and the pods are as they were, and so are an empty cue queue and then the as-run queue. -/
structure Resolving (s v : State) (r : RingNo) (pre post : List WatchEntry) (e e' : WatchEntry) : Prop where
  before   : s.watchList r = pre ++ e :: post
  now      : v.watchList r = pre ++ e' :: post
  lists    : ∀ j, j ≠ r → v.watchList j = s.watchList j
  channels : v.channels = s.channels
  pods     : v.pods = s.pods
  ready    : v.ready = s.ready
  noCues   : s.cueQueue = [] → v.cueQueue = [] ∧ v.asRun = s.asRun
  kind     : e'.kind = e.kind
  chan     : e'.chan = e.chan
  room     : pre.length + post.length < 16
  alone    : ∀ x, x ∈ pre ++ post → x.kind ≠ e.kind ∨ x.chan ≠ e.chan

namespace Resolving

variable {s v : State} {r : RingNo} {pre post : List WatchEntry} {e e' : WatchEntry}

theorem not_same (h : Resolving s v r pre post e e') {x : WatchEntry} (hx : x ∈ pre ++ post) : x.same e' = false := by
  rw [Bool.eq_false_iff]
  intro hs
  obtain ⟨hk, hc⟩ := same_iff.mp hs
  exact (h.alone x hx).elim (fun n => n (hk.trans h.kind)) (fun n => n (hc.trans h.chan))

/-- A test that picks out the entry before and after keeps the same of every list. -/
theorem filter_list (h : Resolving s v r pre post e e') {keep : WatchEntry → Bool} (h1 : keep e = false) (h2 : keep e' = false) (j : RingNo) :
    (v.watchList j).filter keep = (s.watchList j).filter keep := by
  by_cases hj : j = r
  · subst hj
    rw [h.before, h.now]
    simp [h1, h2]
  · rw [h.lists j hj]

/-- The entry leaves its list, the others stay in order (R87). -/
theorem leave (h : Resolving s v r pre post e e') : ((v.watchList r).filter fun x => !x.same e') = pre ++ post := by
  have hself : e'.same e' = true := same_iff.mpr ⟨rfl, rfl⟩
  have hkeep : ∀ l : List WatchEntry, (∀ x, x ∈ l → x ∈ pre ++ post) → (l.filter fun x => !x.same e') = l := fun l hl =>
    List.filter_eq_self.mpr fun x hx => by rw [h.not_same (hl x hx)]; rfl
  rw [h.now, List.filter_append, List.filter_cons, hself, hkeep pre fun x hx => List.mem_append_left _ hx]
  simp only [Bool.not_true, Bool.false_eq_true, if_false]
  rw [hkeep post fun x hx => List.mem_append_right _ hx]

/-- An entry of the same kind and channel takes its place (R86). -/
theorem replace (h : Resolving s v r pre post e e') {new : WatchEntry} (hk : new.kind = e.kind) (hc : new.chan = e.chan) :
    ((v.watchList r).map fun x => if x.same new then new else x) = pre ++ new :: post := by
  have hself : e'.same new = true := same_iff.mpr ⟨h.kind.trans hk.symm, h.chan.trans hc.symm⟩
  have hkeep : ∀ l : List WatchEntry, (∀ x, x ∈ l → x ∈ pre ++ post) → (l.map fun x => if x.same new then new else x) = l := fun l hl => by
    refine (List.map_congr_left fun x hx => if_neg fun hs => ?_).trans (List.map_id l)
    obtain ⟨h1, h2⟩ := same_iff.mp hs
    exact (h.alone x (hl x hx)).elim (fun n => n (h1.trans hk)) (fun n => n (h2.trans hc))
  rw [h.now, List.map_append, List.map_cons, hself, hkeep pre fun x hx => List.mem_append_left _ hx,
    hkeep post fun x hx => List.mem_append_right _ hx]
  rfl

end Resolving

/-! ### Placed points (R93, R94) -/

theorem outResolved_channels (r : RingNo) (p : PodNo) (c : ChanNo) (anchor : Ticks) (s : State) :
    (outResolved r p c anchor s).channels = s.channels := by
  unfold outResolved
  dsimp only
  split
  · rfl
  · split <;> rfl

theorem outResolved_pods (r : RingNo) (p : PodNo) (c : ChanNo) (anchor : Ticks) (s : State) :
    (outResolved r p c anchor s).pods = (s.modPod p (Pod.makePending anchor)).pods := by
  unfold outResolved
  dsimp only
  split
  · rfl
  · split <;> rfl

theorem outResolved_watchList_ne {r j : RingNo} (hj : j ≠ r) (p : PodNo) (c : ChanNo) (anchor : Ticks) (s : State) :
    (outResolved r p c anchor s).watchList j = s.watchList j := by
  unfold outResolved
  dsimp only
  split
  · rfl
  · split
    · exact setWatch_get_ne _ _ hj.symm
    · rfl

/-- The RETURN of a pod whose OUT is placed is armed when it has a target and the list a free place (R94). -/
theorem outResolved_watchList {r : RingNo} {p : PodNo} (c : ChanNo) {anchor : Ticks} {s : State} {b : Binding}
    (hb : (s.pod p).binding = some b) (room : s.watchHasRoom r = true) :
    (outResolved r p c anchor s).watchList r =
      s.watchList r ++ ((returnTarget b (s.pod p).record anchor).map (returnArmed p c)).toList := by
  unfold outResolved
  dsimp only
  rw [modPod_get_self]
  simp only [Pod.makePending, hb, Option.bind_some]
  cases returnTarget b (s.pod p).record anchor with
  | none => simp
  | some t =>
    dsimp only
    rw [if_pos (show (s.modPod p _).watchHasRoom r = true from room)]
    exact setWatch_get_self _ r _

/-- With automatic return and a duration, of the cue or else of the pod, the RETURN target is the duration's end (R94). -/
theorem returnTarget_auto {b : Binding} {record : PodRecord} {anchor : Ticks} {d : Dur} (ha : b.cue.autoReturn = true)
    (hd : b.cue.duration = some d ∨ b.cue.duration = none ∧ record.breakDur = some d) :
    returnTarget b record anchor = some (anchor + d.setWidth 33) := by
  unfold returnTarget
  rcases hd with hd | ⟨hd, hb⟩
  · rw [hd, ha]; rfl
  · rw [hd, hb, ha]; rfl

/-- Without automatic return or without a duration the RETURN target is the break limit's end, if the pod has a limit (R94). -/
theorem returnTarget_limit {b : Binding} {record : PodRecord} {anchor : Ticks}
    (h : b.cue.autoReturn = false ∨ b.cue.duration = none ∧ record.breakDur = none) :
    returnTarget b record anchor = record.breakLimit.map fun l => anchor + l.setWidth 33 := by
  unfold returnTarget
  rcases h with h | ⟨h1, h2⟩
  · rw [h]
    cases b.cue.duration <;> cases record.breakDur <;> cases record.breakLimit <;> rfl
  · rw [h1, h2]
    cases b.cue.autoReturn <;> cases record.breakLimit <;> rfl

theorem placed_channels (r : RingNo) (e : WatchEntry) (anchor : Ticks) (s : State) : (placed r e anchor s).channels = s.channels := by
  unfold placed
  split
  · exact outResolved_channels _ _ _ _ _
  all_goals rfl

theorem placed_watchList_ne {r j : RingNo} (hj : j ≠ r) (e : WatchEntry) (anchor : Ticks) (s : State) :
    (placed r e anchor s).watchList j = s.watchList j := by
  unfold placed
  split
  · exact outResolved_watchList_ne hj _ _ _ _
  all_goals rfl

theorem placed_out {r : RingNo} {e : WatchEntry} {p : PodNo} (h : e.kind = .out p) (anchor : Ticks) (s : State) :
    placed r e anchor s = outResolved r p e.chan anchor s := by
  unfold placed
  rw [h]

theorem placed_other {r : RingNo} {e : WatchEntry} (h : ∀ p, e.kind ≠ .out p) (anchor : Ticks) (s : State) : placed r e anchor s = s := by
  unfold placed
  split
  · next p hp => exact absurd hp (h p)
  all_goals rfl

/-- An entry whose point finds a place becomes it (R93, R94). -/
theorem entryPlaced_of {s v : State} {pre post : List WatchEntry} {e e' : WatchEntry} {at_ : Arrival} (anchor : Ticks) (aligned : Bool)
    (h : Resolving s v at_.ring pre post e e') (hp : HasPlace (s.chan e.chan).queue at_.seq) :
    EntryPlaced s (resolveEntry e' at_ anchor aligned v) at_.ring pre post e (v.pointOf e' at_ anchor aligned) := by
  have hadm : queueAdmits (v.chan e'.chan).queue at_.seq = true := by
    rw [chan_congr h.channels, h.chan]
    exact hasPlace_iff.mp hp
  unfold resolveEntry
  rw [if_pos hadm]
  have hanchor : (v.pointOf e' at_ anchor aligned).anchor = anchor := rfl
  generalize v.pointOf e' at_ anchor aligned = pt at hanchor ⊢
  have hlist : (leaveWatch at_.ring e' (enqueuePoint e'.chan pt v)).watchList at_.ring = pre ++ post :=
    (setWatch_get_self _ at_.ring _).trans h.leave
  have hlists : ∀ j, j ≠ at_.ring → (leaveWatch at_.ring e' (enqueuePoint e'.chan pt v)).watchList j = s.watchList j := fun j hj =>
    (setWatch_get_ne _ _ hj.symm).trans (h.lists j hj)
  have hchans : ∀ c, (leaveWatch at_.ring e' (enqueuePoint e'.chan pt v)).chan c =
      if e.chan = c then { s.chan c with queue := (s.chan c).queue ++ [pt] } else s.chan c := by
    intro c
    unfold leaveWatch enqueuePoint
    rw [setWatch_chan, modChan_get, h.chan, chan_congr h.channels, chan_congr h.channels]
    split
    · next hc => rw [hc]
    · rfl
  have hpods : (leaveWatch at_.ring e' (enqueuePoint e'.chan pt v)).pods = s.pods := h.pods
  generalize leaveWatch at_.ring e' (enqueuePoint e'.chan pt v) = w at *
  have hroom : w.watchHasRoom at_.ring = true := by
    have := h.room
    simp only [State.watchHasRoom, hlist, List.length_append, Config.watchListSize, decide_eq_true_eq]
    omega
  refine ⟨?_, fun c hc => ?_, fun j hj => (placed_watchList_ne hj e' anchor w).trans (hlists j hj), fun ho => ?_, fun p b ho hb => ?_⟩
  · rw [chan_congr (placed_channels _ _ _ _), hchans, if_pos rfl]
  · rw [chan_congr (placed_channels _ _ _ _), hchans, if_neg hc.symm]
  · rw [placed_other fun p => by rw [h.kind]; exact ho p]
    exact ⟨hlist, hpods⟩
  · have hbw : (w.pod p).binding = some b := by rw [pod_congr hpods]; exact hb
    rw [placed_out (h.kind.trans ho), outResolved_watchList e'.chan hbw hroom, hlist, h.chan, hanchor, pod_congr hpods]
    refine ⟨?_, fun q hq => ?_, fun d ha hd => ?_, fun hl => ⟨fun l hlim => ?_, fun hlim => ?_⟩⟩
    · rw [pod_congr (outResolved_pods _ _ _ _ _), modPod_get_self, pod_congr hpods]
      rfl
    · rw [pod_congr (outResolved_pods _ _ _ _ _), modPod_get_ne _ _ hq.symm, pod_congr hpods]
    · rw [returnTarget_auto ha hd]
      rfl
    · rw [returnTarget_limit hl, hlim]
      rfl
    · rw [returnTarget_limit hl, hlim]
      simp

/-! ### Dropped points (R93) -/

/-- LATE is set first, and what follows is the Break Scheduler's (R93). -/
theorem dropPoint_late (r : RingNo) (e : WatchEntry) (s : State) : Sched (setFlag .late s) (dropPoint r e s) := by
  unfold dropPoint
  dsimp only
  split
  · split
    · exact unbind_sched _ _
    · exact (unbind_sched _ _).trans (availMissed_sched _ _ _ _ _)
  · exact rearm_sched _ _ _ _ _ _
  · exact rearm_sched _ _ _ _ _ _
  · exact rearm_sched _ _ _ _ _ _
  · exact abandonFeed_sched _ _

theorem hasFlag_setFlag (f : Flag) (s : State) : hasFlag f (setFlag f s) = true := by
  unfold hasFlag setFlag
  rw [BitVec.getLsbD_or, show (flagMask f).getLsbD (flagBit f) = true by cases f <;> decide, Bool.or_true]

theorem dropPoint_again {r : RingNo} {e : WatchEntry} (h1 : ∀ p, e.kind ≠ .out p) (h2 : ∀ f, e.kind ≠ .feedIn f) (s : State) :
    dropPoint r e s = rearm r e.kind e.chan .immediate none (setFlag .late s) := by
  unfold dropPoint
  dsimp only
  split
  · next p hp => exact absurd hp (h1 p)
  · rfl
  · rfl
  · rfl
  · next f hf => exact absurd hf (h2 f)

theorem dropPoint_feedIn {r : RingNo} {e : WatchEntry} {f : RingNo} (h : e.kind = .feedIn f) (s : State) :
    dropPoint r e s = abandonFeed e.chan (setFlag .late s) := by
  unfold dropPoint
  rw [h]

theorem dropPoint_out {r : RingNo} {e : WatchEntry} {p : PodNo} {b : Binding} {s : State} (h : e.kind = .out p)
    (hb : (s.pod p).binding = some b) :
    dropPoint r e s = availMissed e.chan .switchFull b.event b.cue (unbind p (setFlag .late s)) := by
  unfold dropPoint
  rw [h]
  dsimp only
  rw [setFlag_pod, hb]

theorem dropPoints_chan (c d : ChanNo) (gone : SwitchPoint → Bool) (s : State) :
    (dropPoints c gone s).chan d = if d = c then { s.chan d with queue := (s.chan d).queue.filter fun pt => !gone pt } else s.chan d := by
  unfold dropPoints
  rw [modChan_get]
  by_cases h : c = d
  · subst h; simp
  · rw [if_neg h, if_neg fun e => h e.symm]

theorem dropPodTargets_pod (p q : PodNo) (s : State) : (dropPodTargets p s).pod q = s.pod q := rfl

theorem dropPodTargets_readyList (p : PodNo) (c : ChanNo) (s : State) : (dropPodTargets p s).readyList c = s.readyList c := rfl

theorem dropPodTargets_watchList (p : PodNo) (j : RingNo) (s : State) :
    (dropPodTargets p s).watchList j = (s.watchList j).filter fun x => !(x.kind.pod? == some p) :=
  dropEntries_watchList _ s j

theorem dropPodTargets_chan (p : PodNo) (c : ChanNo) (s : State) :
    (dropPodTargets p s).chan c =
      if c = (s.pod p).record.chan then { s.chan c with queue := (s.chan c).queue.filter fun pt => !(pt.kind.pod? == some p) }
      else s.chan c := dropPoints_chan _ c _ _

theorem makeReady_pod (p q : PodNo) (s : State) : (makeReady p s).pod q = if p = q then (s.pod p).becomeReady else s.pod q :=
  modPod_get s p q _

theorem makeReady_readyList (p : PodNo) (c : ChanNo) (s : State) :
    (makeReady p s).readyList c = if c = (s.pod p).record.chan then s.readyList c ++ [p] else s.readyList c := by
  unfold makeReady
  dsimp only
  rw [setReady_get, modPod_readyList, modPod_readyList]
  by_cases hc : (s.pod p).record.chan = c
  · rw [if_pos hc, if_pos hc.symm, hc]
  · rw [if_neg hc, if_neg fun e => hc e.symm]

theorem makeReady_watchList (p : PodNo) (j : RingNo) (s : State) : (makeReady p s).watchList j = s.watchList j := rfl

theorem makeReady_chan (p : PodNo) (c : ChanNo) (s : State) : (makeReady p s).chan c = s.chan c := rfl

theorem dropPodTargets_asRun (p : PodNo) (s : State) : (dropPodTargets p s).asRun = s.asRun := rfl

theorem makeReady_asRun (p : PodNo) (s : State) : (makeReady p s).asRun = s.asRun := rfl

theorem asRunPush_asRun (a : AsRunRecord) (s : State) : (asRunPush a s).asRun = s.asRun.push a := rfl

/-- With no cue queued, a pod that is unbound waits again at the tail of its channel's ready list (R81). -/
theorem unbind_noCues {p : PodNo} {s : State} (h : s.cueQueue = []) : unbind p s = makeReady p (dropPodTargets p s) := by
  have hq : (makeReady p (dropPodTargets p s)).cueQueue = [] := h
  unfold unbind tryQueue
  dsimp only
  rw [hq]
  split <;> rfl

/-- An entry whose point finds no place is dropped (R93). -/
theorem entryDropped_of {s v : State} {pre post : List WatchEntry} {e e' : WatchEntry} {at_ : Arrival} (anchor : Ticks) (aligned : Bool)
    (h : Resolving s v at_.ring pre post e e') (hp : ¬ HasPlace (s.chan e.chan).queue at_.seq) :
    EntryDropped s (resolveEntry e' at_ anchor aligned v) at_.ring pre post e := by
  have hadm : ¬ queueAdmits (v.chan e'.chan).queue at_.seq = true := by
    rw [chan_congr h.channels, h.chan]
    exact fun hq => hp (hasPlace_iff.mpr hq)
  unfold resolveEntry
  rw [if_neg hadm]
  refine ⟨(dropPoint_late _ e' v).flags _ (hasFlag_setFlag .late v), fun ho hf => ?_, fun f hf => ?_, fun p b ho hb hq => ?_⟩
  · rw [dropPoint_again (fun p => by rw [h.kind]; exact ho p) fun f => by rw [h.kind]; exact hf f]
    refine ⟨h.channels, h.pods, fun j hj => (setWatch_get_ne _ _ hj.symm).trans (h.lists j hj), (setWatch_get_self _ _ _).trans ?_⟩
    refine (h.replace (new := (setFlag .late v).armed at_.ring e'.kind e'.chan .immediate none) h.kind h.chan).trans ?_
    rw [h.kind, h.chan]
    rfl
  · have hfeed : e.kind.feed?.isSome = true := by rw [hf]; rfl
    rw [dropPoint_feedIn (h.kind.trans hf), h.chan]
    refine ⟨hasFlag_setFlag .feed _, h.pods, fun j => ?_, fun c => ?_⟩
    · refine (dropEntries_watchList _ _ j).trans (h.filter_list ?_ ?_ j)
      · simp [hfeed]
      · simp [hfeed, h.kind, h.chan]
    · refine (dropPoints_chan e.chan c _ _).trans ?_
      rw [dropEntries_chan, setFlag_chan, chan_congr h.channels]
      simp only [Option.not_isSome]
  · obtain ⟨hvq, hva⟩ := h.noCues hq
    have hpod : ∀ q, v.pod q = s.pod q := pod_congr h.pods
    have hk' := h.kind.trans ho
    rw [dropPoint_out hk' (by rw [hpod]; exact hb), unbind_noCues (p := p) (s := setFlag .late v) hvq, h.chan]
    unfold availMissed
    refine ⟨?_, fun q hqp => ?_, fun c => ?_, fun j => ?_, fun c => ?_, ?_⟩
    · rw [asRunPush_pod, makeReady_pod, if_pos rfl, dropPodTargets_pod, setFlag_pod, hpod]
      rfl
    · rw [asRunPush_pod, makeReady_pod, if_neg hqp.symm, dropPodTargets_pod, setFlag_pod, hpod]
    · rw [asRunPush_readyList, makeReady_readyList, dropPodTargets_pod, dropPodTargets_readyList, setFlag_pod, setFlag_readyList, hpod,
        readyList_congr h.ready]
    · rw [asRunPush_watchList, makeReady_watchList, dropPodTargets_watchList, setFlag_watchList]
      exact h.filter_list (by simp [ho, PointKind.pod?]) (by simp [hk', PointKind.pod?]) j
    · rw [asRunPush_chan, makeReady_chan, dropPodTargets_chan, setFlag_pod, setFlag_chan, hpod, chan_congr h.channels]
    · rw [asRunPush_asRun, makeReady_asRun, dropPodTargets_asRun, setFlag_asRun, hva]

/-- An entry resolves to its point: placed or dropped (R93). -/
theorem entryResolved_of {s v : State} {pre post : List WatchEntry} {e e' : WatchEntry} {at_ : Arrival} (anchor : Ticks) (aligned : Bool)
    (h : Resolving s v at_.ring pre post e e') :
    EntryResolved s (resolveEntry e' at_ anchor aligned v) at_.ring pre post e (v.pointOf e' at_ anchor aligned) :=
  ⟨entryPlaced_of anchor aligned h, entryDropped_of anchor aligned h⟩

end Sys2Proof.Machine
end

section
/-! PROOFS. The one watch entry that falls due at a cell, and the reports of a first or ahead write. -/

namespace Sys2Proof.Machine

/-! ### What a cell's reports leave in its ring (R24, R25) -/

theorem report_mark_start {x : Ring} {f : Findings} {pts : Ticks} (a : Assembler) (hv : classify x.shadow f = .vstart) (hp : f.pts = some pts) :
    (Ring.report f a x).mark = some { seq := x.writeCount - 1, pts := pts, stamp := f.stamp } := by
  simp only [Ring.report, Ring.markPcr, Ring.markStart, hv, hp]

theorem report_mark_other {x : Ring} {f : Findings} (a : Assembler) (hv : classify x.shadow f ≠ .vstart) :
    (Ring.report f a x).mark = x.mark := by
  unfold Ring.report Ring.markPcr Ring.markStart
  dsimp only
  split
  · next h _ => exact absurd h hv
  · rfl

theorem report_pcrBase_some {x : Ring} {f : Findings} {base : Ticks} {ext : Nat} (a : Assembler) (ho : f.isOn x.shadow.comps.pcr = true)
    (hp : f.pcr = some (base, ext)) : (Ring.report f a x).pcrBase = some base := by
  simp only [Ring.report, Ring.markPcr, Ring.markStart, ho, hp]

theorem report_pcrBase_none {x : Ring} {f : Findings} (a : Assembler) (h : f.isOn x.shadow.comps.pcr = false ∨ f.pcr = none) :
    (Ring.report f a x).pcrBase = x.pcrBase := by
  unfold Ring.report Ring.markPcr Ring.markStart
  dsimp only
  split
  · next h1 h2 => rcases h with h | h <;> simp_all
  · rfl

/-- Counting a cell leaves the ring's record, start mark and PCR base (R9, R10). -/
theorem counted_ring_kept (s : State) (r : RingNo) (k : Nat) (f : Findings) (kind : WriteKind) :
    ((s.counted r k f kind).ring r).shadow = (s.ring r).shadow ∧ ((s.counted r k f kind).ring r).mark = (s.ring r).mark ∧
    ((s.counted r k f kind).ring r).pcrBase = (s.ring r).pcrBase := by
  unfold State.counted
  cases kind with
  | first | late => simp [classSlot_eq, advance]
  | ahead d => dsimp only; split <;> simp [countOrder_get, classSlot_eq, advance, skipSlots_eq]

/-! ### Entries tested one after the other -/

/-- A fold whose steps each leave the value as it is. -/
theorem foldl_unmoved {α β : Type} {step : β → α → β} {b : β} (l : List α) (h : ∀ x, x ∈ l → step b x = b) : l.foldl step b = b := by
  induction l with
  | nil => rfl
  | cons x l ih => rw [List.foldl_cons, h x List.mem_cons_self, ih fun y hy => h y (List.mem_cons_of_mem x hy)]

/-- A fold in which one element alone moves the value. -/
theorem foldl_one {α β : Type} {step : β → α → β} {b b' : β} {pre post : List α} {x : α} (hpre : ∀ y, y ∈ pre → step b y = b)
    (hx : step b x = b') (hpost : ∀ y, y ∈ post → step b' y = b') : (pre ++ x :: post).foldl step b = b' := by
  rw [List.foldl_append, foldl_unmoved pre hpre, List.foldl_cons, hx, foldl_unmoved post hpost]

theorem any_same_of_mem {l : List WatchEntry} {x y : WatchEntry} (h : y ∈ l) (hs : x.same y = true) : l.any x.same = true :=
  List.any_eq_true.mpr ⟨y, h, hs⟩

theorem dueAtStart_false {s : State} {e : WatchEntry} {seq : SeqNo} {pts : Ticks} (h : ¬ e.DueAt pts seq ∨ s.NoFeedMark e) :
    s.dueAtStart e seq pts = false := by
  rw [Bool.eq_false_iff, ne_eq, dueAtStart_iff]
  exact fun hd => h.elim (fun n => n hd.1) hd.2

theorem dueAtPcr_none {s : State} {e : WatchEntry} {base : Ticks}
    (h : (∀ a, ¬ e.ForcedAt (s.chan e.chan).inForce.window base a) ∨ s.NoFeedMark e) : s.dueAtPcr e base = none := by
  rw [Option.eq_none_iff_forall_ne_some]
  intro a ha
  obtain ⟨hf, hm⟩ := dueAtPcr_iff.mp ha
  exact h.elim (fun n => n a hf) hm

/-- With no entry due at a start, none resolves (R88). -/
theorem resolveAtStart_none {at_ : Arrival} {pts : Ticks} {s : State}
    (h : ∀ x, x ∈ s.watchList at_.ring → s.dueAtStart x at_.seq pts = false) : resolveAtStart at_ pts s = (s, []) :=
  foldl_unmoved _ fun x hx => if_neg (by rw [h x hx, Bool.and_false]; exact Bool.false_ne_true)

/-- With one entry due at a start, that one resolves (R88). -/
theorem resolveAtStart_one {at_ : Arrival} {pts : Ticks} {s : State} {pre post : List WatchEntry} {e : WatchEntry}
    (hl : s.watchList at_.ring = pre ++ e :: post) (ho : ∀ x, x ∈ pre ++ post → ¬ x.DueAt pts at_.seq)
    (he : s.dueAtStart e at_.seq pts = true) : resolveAtStart at_ pts s = (resolveEntry e at_ pts true s, [e]) := by
  have hother : ∀ (acc : State × List WatchEntry) x, x ∈ pre ++ post →
      ¬ ((acc.1.watchList at_.ring).any x.same && acc.1.dueAtStart x at_.seq pts) = true := fun acc x hx => by
    rw [dueAtStart_false (.inl (ho x hx)), Bool.and_false]
    exact Bool.false_ne_true
  have hself : (s.watchList at_.ring).any e.same = true :=
    any_same_of_mem (by rw [hl]; exact List.mem_append_right _ List.mem_cons_self) (same_iff.mpr ⟨rfl, rfl⟩)
  unfold resolveAtStart
  conv_lhs => rw [hl]
  refine foldl_one (fun x hx => if_neg (hother _ x (List.mem_append_left _ hx))) (if_pos ?_)
    fun x hx => if_neg (hother _ x (List.mem_append_right _ hx))
  rw [hself, he]
  rfl

/-- An immediate entry that lacks a PCR base takes this one (R90). -/
def WatchEntry.fillBase (base : Ticks) (e : WatchEntry) : WatchEntry :=
  if e.target = .immediate ∧ e.pcrBase = none then { e with pcrBase := some base } else e

theorem fillBase_kind (base : Ticks) (e : WatchEntry) : (e.fillBase base).kind = e.kind := by unfold WatchEntry.fillBase; split <;> rfl

theorem fillBase_chan (base : Ticks) (e : WatchEntry) : (e.fillBase base).chan = e.chan := by unfold WatchEntry.fillBase; split <;> rfl

theorem fillBase_filled {base : Ticks} {e : WatchEntry} (h : e.target = .immediate → e.pcrBase ≠ none) : e.fillBase base = e :=
  if_neg fun ⟨h1, h2⟩ => h h1 h2

theorem fillPcrBase_watchList (r : RingNo) (base : Ticks) (s : State) :
    (fillPcrBase r base s).watchList r = (s.watchList r).map (WatchEntry.fillBase base) := setWatch_get_self s r _

/-- With no entry forced at a PCR, none resolves (R89). -/
theorem resolveAtPcr_none {at_ : Arrival} {base : Ticks} {old : List WatchEntry} {s : State}
    (h : ∀ x, x ∈ (fillPcrBase at_.ring base s).watchList at_.ring → (fillPcrBase at_.ring base s).dueAtPcr x base = none) :
    resolveAtPcr at_ base old [] s = fillPcrBase at_.ring base s :=
  foldl_unmoved _ fun x hx => by rw [h x hx]; exact ite_self _

/-- With one entry forced at a PCR, which the list held before the cell, that one resolves (R89). -/
theorem resolveAtPcr_one {at_ : Arrival} {base anchor : Ticks} {old pre post : List WatchEntry} {s : State} {e : WatchEntry}
    (hl : (fillPcrBase at_.ring base s).watchList at_.ring = pre ++ e :: post) (hold : old.any e.same = true)
    (ho : ∀ x, x ∈ pre ++ post → ∀ a, ¬ x.ForcedAt (s.chan x.chan).inForce.window base a)
    (he : (fillPcrBase at_.ring base s).dueAtPcr e base = some anchor) :
    resolveAtPcr at_ base old [] s = resolveEntry e at_ anchor false (fillPcrBase at_.ring base s) := by
  have hother : ∀ u, Sched (fillPcrBase at_.ring base s) u → ∀ x, x ∈ pre ++ post → u.dueAtPcr x base = none := fun u hu x hx =>
    dueAtPcr_none (.inl fun a => by rw [hu.inForce]; exact ho x hx a)
  have hself : ((fillPcrBase at_.ring base s).watchList at_.ring).any e.same = true :=
    any_same_of_mem (by rw [hl]; exact List.mem_append_right _ List.mem_cons_self) (same_iff.mpr ⟨rfl, rfl⟩)
  have hres := resolveEntry_sched e at_ anchor false (fillPcrBase at_.ring base s)
  unfold resolveAtPcr
  dsimp only
  conv_lhs => rw [hl]
  refine foldl_one (fun x hx => ?_) ?_ fun x hx => ?_
  · rw [hother _ (Sched.refl _) x (List.mem_append_left _ hx)]
    exact ite_self _
  · rw [hself, hold, he]
    rfl
  · rw [hother _ hres x (List.mem_append_right _ hx)]
    exact ite_self _

/-! ### The inspection of a cell that is not on the CUE PID -/

/-- The arrival that a cell of ring `r` gives its reports (R12). -/
def State.arrival (u : State) (r : RingNo) (f : Findings) : Arrival := { ring := r, seq := (u.ring r).writeCount - 1, stamp := f.stamp }

theorem inspect_noCue {u : State} {r : RingNo} {f : Findings} (h : f.isOn (u.ring r).shadow.cue = false) (cell : List Byte) :
    inspect r f cell u =
      inspectPcr (u.arrival r f) f (u.watchList r) (inspectStart (u.arrival r f) f u).2 (inspectStart (u.arrival r f) f u).1 := by
  unfold inspect inspectCue
  dsimp only
  rw [h]
  rfl

theorem inspectPcr_none {at_ : Arrival} {f : Findings} {old gone : List WatchEntry} {s : State}
    (h : f.isOn (s.ring at_.ring).shadow.comps.pcr = false ∨ f.pcr = none) : inspectPcr at_ f old gone s = s := by
  unfold inspectPcr
  split
  · next h1 h2 => rcases h with h | h <;> simp_all
  · rfl

/-- A video start that carries no PCR is reported as a start alone (R24). -/
theorem inspect_start {u : State} {r : RingNo} {f : Findings} {pts : Ticks} (hc : f.isOn (u.ring r).shadow.cue = false)
    (hv : classify (u.ring r).shadow f = .vstart) (hp : f.pts = some pts) (hn : f.isOn (u.ring r).shadow.comps.pcr = false ∨ f.pcr = none)
    (cell : List Byte) : inspect r f cell u = (reportStart (u.arrival r f) pts u).1 := by
  have hs : inspectStart (u.arrival r f) f u = reportStart (u.arrival r f) pts u := by
    unfold inspectStart
    rw [show classify (u.ring (u.arrival r f).ring).shadow f = .vstart from hv, hp]
  have hshadow : ((reportStart (u.arrival r f) pts u).1.ring r).shadow = (u.ring r).shadow := by
    rw [(reportStart_sched (u.arrival r f) pts u).toEng.ring, show (u.arrival r f).ring = r from rfl, modRing_get_self]
  rw [inspect_noCue hc, hs, inspectPcr_none]
  rw [show (u.arrival r f).ring = r from rfl, hshadow]
  exact hn

/-- A PCR arrival that is no video start is reported as a PCR alone (R25). -/
theorem inspect_pcr {u : State} {r : RingNo} {f : Findings} {base : Ticks} {ext : Nat} (hc : f.isOn (u.ring r).shadow.cue = false)
    (hv : classify (u.ring r).shadow f ≠ .vstart) (ho : f.isOn (u.ring r).shadow.comps.pcr = true) (hp : f.pcr = some (base, ext))
    (cell : List Byte) : inspect r f cell u = reportPcr (u.arrival r f) base (u.watchList r) [] u := by
  have hs : inspectStart (u.arrival r f) f u = (u, []) := by
    unfold inspectStart
    split
    · next h _ => exact absurd h hv
    · rfl
  rw [inspect_noCue hc, hs]
  unfold inspectPcr
  dsimp only
  rw [show f.isOn (u.ring (u.arrival r f).ring).shadow.comps.pcr = true from ho, hp]

theorem expireEntries_noCues {test : CueEntry → Bool} {s : State} (h : s.cueQueue = []) : expireEntries test s = s := by
  unfold expireEntries
  rw [h]
  show { s with cueQueue := s.cueQueue.filter _ } = s
  rw [h, List.filter_nil, ← h]

theorem noFeedMark_congr {s t : State} {e e' : WatchEntry} (hr : t.rings = s.rings) (hk : e'.kind = e.kind) :
    t.NoFeedMark e ↔ s.NoFeedMark e' := by
  unfold State.NoFeedMark State.ring
  rw [hr, hk]

theorem pointOf_congr {s t : State} {e e' : WatchEntry} (hr : t.rings = s.rings) (hk : e'.kind = e.kind) (at_ : Arrival) (anchor : Ticks)
    (aligned : Bool) : s.pointOf e' at_ anchor aligned = t.pointOf e at_ anchor aligned := by
  unfold State.pointOf State.ring
  rw [hr, hk]

/-- What a report does with the one entry of a list that it may resolve: with the report taken the state is `v`, the entry `e'`, and the command's
next state `t` is `v` once the entry has resolved, if it does. -/
structure Reported (s t v : State) (at_ : Arrival) (pre post : List WatchEntry) (e e' : WatchEntry) (aligned : Bool) (falls : Ticks → Prop) : Prop where
  taken    : Resolving s v at_.ring pre post e e'
  rings    : t.rings = v.rings
  resolves : ∀ anchor, falls anchor → ¬ v.NoFeedMark e' → t = resolveEntry e' at_ anchor aligned v
  stays    : (∀ anchor, ¬ falls anchor) ∨ v.NoFeedMark e' → t = v

namespace Reported

variable {s t v : State} {at_ : Arrival} {pre post : List WatchEntry} {e e' : WatchEntry} {aligned : Bool} {falls : Ticks → Prop}

theorem resolved (h : Reported s t v at_ pre post e e' aligned falls) {anchor : Ticks} (ha : falls anchor) (hm : ¬ t.NoFeedMark e) :
    EntryResolved s t at_.ring pre post e (t.pointOf e at_ anchor aligned) := by
  have hres := h.resolves anchor ha fun hm' => hm ((noFeedMark_congr h.rings h.taken.kind).mpr hm')
  rw [← pointOf_congr h.rings h.taken.kind]
  conv => arg 2; rw [hres]
  exact entryResolved_of anchor aligned h.taken

theorem kept (h : Reported s t v at_ pre post e e' aligned falls) (hs : (∀ anchor, ¬ falls anchor) ∨ t.NoFeedMark e) :
    t.watchList at_.ring = pre ++ e' :: post ∧ (∀ j, j ≠ at_.ring → t.watchList j = s.watchList j) ∧ t.channels = s.channels ∧
      t.pods = s.pods := by
  rw [h.stays (hs.imp_right (noFeedMark_congr h.rings h.taken.kind).mp)]
  exact ⟨h.taken.now, h.taken.lists, h.taken.channels, h.taken.pods⟩

end Reported

/-- An entry at a video start (R88). -/
theorem reported_start {s u : State} {r : RingNo} {f : Findings} {pts : Ticks} {pre post : List WatchEntry} {e : WatchEntry}
    (hu : Resolving s u r pre post e e) (hc : f.isOn (u.ring r).shadow.cue = false) (hv : classify (u.ring r).shadow f = .vstart)
    (hp : f.pts = some pts) (hn : f.isOn (u.ring r).shadow.comps.pcr = false ∨ f.pcr = none)
    (ho : ∀ x, x ∈ pre ++ post → ¬ x.DueAt pts (u.arrival r f).seq) (cell : List Byte) :
    ∃ v, Reported s (inspect r f cell u) v (u.arrival r f) pre post e e true fun anchor => anchor = pts ∧ e.DueAt pts (u.arrival r f).seq := by
  rw [inspect_start hc hv hp hn]
  unfold reportStart
  dsimp only
  generalize hm : (u.modRing (u.arrival r f).ring fun x =>
    { x with mark := some { seq := (u.arrival r f).seq, pts := pts, stamp := (u.arrival r f).stamp } }) = m
  generalize (fun x : CueEntry => x.expiresAt (u.arrival r f).ring (u.arrival r f).seq pts) = test
  have hnil : m.cueQueue = [] → expireEntries test m = m := expireEntries_noCues
  obtain ⟨q, fl, hx⟩ := expireEntries_eq test m
  generalize expireEntries test m = v at hx hnil ⊢
  subst hm
  have hw : v.watch = u.watch := by rw [hx]; rfl
  have hlist : v.watchList r = pre ++ e :: post := (watchList_congr hw r).trans hu.now
  refine ⟨v, ⟨?_, (resolveAtStart_sched _ _ _).rings, fun anchor ha hm => ?_, fun hs => ?_⟩⟩
  · exact {
      before := hu.before
      now := hlist
      lists := fun j hj => (watchList_congr hw j).trans (hu.lists j hj)
      channels := by rw [hx]; exact hu.channels
      pods := by rw [hx]; exact hu.pods
      ready := by rw [hx]; exact hu.ready
      noCues := fun hq => by
        rw [hnil (hu.noCues hq).1]
        exact hu.noCues hq
      kind := rfl
      chan := rfl
      room := hu.room
      alone := hu.alone }
  · obtain ⟨rfl, hd⟩ := ha
    rw [resolveAtStart_one hlist ho (dueAtStart_iff.mpr ⟨hd, hm⟩)]
  · rw [resolveAtStart_none]
    intro x hmem
    rw [show v.watchList (u.arrival r f).ring = _ from hlist, List.mem_append, List.mem_cons] at hmem
    rcases hmem with hmem | rfl | hmem
    · exact dueAtStart_false (.inl (ho x (List.mem_append_left _ hmem)))
    · exact dueAtStart_false (hs.imp_left fun h hd => h pts ⟨rfl, hd⟩)
    · exact dueAtStart_false (.inl (ho x (List.mem_append_right _ hmem)))

/-- An entry at a PCR arrival (R89, R90). -/
theorem reported_pcr {s u : State} {r : RingNo} {f : Findings} {base : Ticks} {ext : Nat} {pre post : List WatchEntry} {e : WatchEntry}
    (hu : Resolving s u r pre post e e) (hc : f.isOn (u.ring r).shadow.cue = false) (hv : classify (u.ring r).shadow f ≠ .vstart)
    (hon : f.isOn (u.ring r).shadow.comps.pcr = true) (hp : f.pcr = some (base, ext))
    (ho : ∀ x, x ∈ pre ++ post →
      (x.target = .immediate → x.pcrBase ≠ none) ∧ ∀ a, ¬ x.ForcedAt (s.chan x.chan).inForce.window base a) (cell : List Byte) :
    ∃ v, Reported s (inspect r f cell u) v (u.arrival r f) pre post e (e.fillBase base) false
      fun anchor => (e.fillBase base).ForcedAt (s.chan e.chan).inForce.window base anchor := by
  rw [inspect_pcr hc hv hon hp]
  unfold reportPcr
  generalize hm : (u.modRing (u.arrival r f).ring fun x => { x with pcrBase := some base }) = m
  have hmw : m.watch = u.watch := by rw [← hm]; rfl
  have hchan : ∀ c, m.chan c = s.chan c := chan_congr (by rw [← hm]; exact hu.channels)
  have hkeep : ∀ l : List WatchEntry, (∀ x, x ∈ l → x ∈ pre ++ post) → l.map (WatchEntry.fillBase base) = l := fun l hl =>
    (List.map_congr_left fun x hx => fillBase_filled (ho x (hl x hx)).1).trans (List.map_id l)
  have hlist : (fillPcrBase r base m).watchList r = pre ++ e.fillBase base :: post := by
    rw [fillPcrBase_watchList, watchList_congr hmw, hu.now, List.map_append, List.map_cons,
      hkeep pre fun x hx => List.mem_append_left _ hx, hkeep post fun x hx => List.mem_append_right _ hx]
  have hforced : ∀ x, x ∈ pre ++ post → ∀ a, ¬ x.ForcedAt (m.chan x.chan).inForce.window base a := fun x hx a => by
    rw [hchan]
    exact (ho x hx).2 a
  have hfe : ((fillPcrBase r base m).chan (e.fillBase base).chan).inForce.window = (s.chan e.chan).inForce.window := by
    rw [fillBase_chan, ← hchan]
    rfl
  have hold : (u.watchList r).any (e.fillBase base).same = true :=
    any_same_of_mem (y := e) (by rw [hu.now]; exact List.mem_append_right _ List.mem_cons_self)
      (same_iff.mpr ⟨fillBase_kind base e, fillBase_chan base e⟩)
  refine ⟨fillPcrBase r base m, ⟨?_, (resolveAtPcr_sched _ _ _ _ _).rings, fun anchor ha hnm => ?_, fun hs => ?_⟩⟩
  · exact {
      before := hu.before
      now := hlist
      lists := fun j hj => (setWatch_get_ne _ _ hj.symm).trans ((watchList_congr hmw j).trans (hu.lists j hj))
      channels := by subst hm; exact hu.channels
      pods := by subst hm; exact hu.pods
      ready := by subst hm; exact hu.ready
      noCues := by subst hm; exact hu.noCues
      kind := fillBase_kind base e
      chan := fillBase_chan base e
      room := hu.room
      alone := hu.alone }
  · exact resolveAtPcr_one hlist hold hforced (dueAtPcr_iff.mpr ⟨by
      show WatchEntry.ForcedAt _ ((fillPcrBase r base m).chan (e.fillBase base).chan).inForce.window base anchor
      rw [hfe]
      exact ha, hnm⟩)
  · refine resolveAtPcr_none fun x hmem => ?_
    rw [show (fillPcrBase (u.arrival r f).ring base m).watchList (u.arrival r f).ring = _ from hlist, List.mem_append, List.mem_cons] at hmem
    rcases hmem with hmem | rfl | hmem
    · exact dueAtPcr_none (.inl (hforced x (List.mem_append_left _ hmem)))
    · exact dueAtPcr_none (hs.imp_left fun h a => by
        show ¬ WatchEntry.ForcedAt _ ((fillPcrBase r base m).chan (e.fillBase base).chan).inForce.window base a
        rw [hfe]
        exact h a)
    · exact dueAtPcr_none (.inl (hforced x (List.mem_append_right _ hmem)))

theorem watch_ext {s t : State} (h : ∀ j, t.watchList j = s.watchList j) : t.watch = s.watch := by
  apply Vector.ext
  intro i hi
  exact h ⟨i, hi⟩

end Sys2Proof.Machine

namespace Sys2Proof.Proofs

open Sys2Proof.Machine

/-- Settles O15: the reports are made on the counted ring; the report that may resolve the entry is the only one that tests the list. -/
theorem cellReports : Obligations.CellReports := by
  intro s r k addr cell f high hs hat hc hk hf
  subst hf
  obtain ⟨t, a, hx, ht, -, hring, -⟩ := exec_counted high hs hat hc rfl hk
  obtain ⟨hshadow, hmark, hbase⟩ := counted_ring_kept (s.carry (wholeWrite addr cell)) r k (parseCell cell) (writeKind (s.ring r) k)
  have honly := counted_ringsOnly (s.carry (wholeWrite addr cell)) r k (parseCell cell) (writeKind (s.ring r) k)
  generalize (s.carry (wholeWrite addr cell)).counted r k (parseCell cell) (writeKind (s.ring r) k) = u at *
  replace hshadow : (u.ring r).shadow = (s.ring r).shadow := hshadow
  have hcount : (t.ring r).writeCount = (u.ring r).writeCount := by rw [hring]; rfl
  refine ⟨t, hx, fun pts hv hp => ?_, fun hv => ?_, fun base ext ho hp => ?_, fun hn => ?_, ?_⟩
  · rw [hcount, hring]
    exact report_mark_start a (by rw [hshadow]; exact hv) hp
  · rw [hring, report_mark_other a (by rw [hshadow]; exact hv)]
    exact hmark
  · rw [hring]
    exact report_pcrBase_some a (by rw [hshadow]; exact ho) hp
  · rw [hring, report_pcrBase_none a (by rw [hshadow]; exact hn)]
    exact hbase
  intro pre post e seq mark hcue hlist hroom halone hseq hmk
  have hu : Resolving s u r pre post e e := by
    obtain ⟨_, _, rfl⟩ := honly
    exact ⟨hlist, hlist, fun _ _ => rfl, rfl, rfl, rfl, fun h => ⟨h, rfl⟩, rfl, rfl, hroom, halone⟩
  have hat_ : seq = (u.arrival r (parseCell cell)).seq := by rw [hseq, hcount]; rfl
  have hpoint : ∀ anchor aligned, t.pointOf e (u.arrival r (parseCell cell)) anchor aligned =
      { kind := e.kind, seq := seq, anchor := anchor, stamp := (parseCell cell).stamp, mark := mark, aligned := aligned } := by
    intro anchor aligned
    unfold State.pointOf
    rw [hmk, hat_]
    cases e.kind <;> rfl
  constructor
  · intro pts hv hp hn ho
    obtain ⟨v, h⟩ := reported_start hu (by rw [hshadow]; exact hcue) (by rw [hshadow]; exact hv) hp (by rw [hshadow]; exact hn)
      (by rw [← hat_]; exact ho) cell
    rw [← ht, ← hat_] at h
    refine ⟨fun hd hm => ?_, fun hstay => ?_⟩
    · rw [← hpoint]
      exact h.resolved ⟨rfl, hd⟩ hm
    · obtain ⟨hself, hothers, hkept⟩ := h.kept (hstay.imp_left fun hd anchor ha => hd ha.2)
      refine ⟨watch_ext fun j => ?_, hkept⟩
      by_cases hj : j = r
      · rw [hj, hlist]; exact hself
      · exact hothers j hj
  · intro base ext e' hon hp hv ho he'
    obtain ⟨v, h⟩ := reported_pcr hu (by rw [hshadow]; exact hcue) (by rw [hshadow]; exact hv) (by rw [hshadow]; exact hon) hp ho cell
    rw [← ht, show e.fillBase base = e' from he'.symm] at h
    refine ⟨fun anchor ha hm => ?_, h.kept⟩
    rw [← hpoint]
    exact h.resolved ha hm

end Sys2Proof.Proofs
end

section
/-! PROOFS. The data of a window read that carries no mark request and no resume: a network cell as it came, and a null cell in its slot's place. -/

namespace Sys2Proof.Machine

/-! ### Numbers read from bytes and written back -/

/-- Bytes above the width written do not show in it. -/
theorem toBytes_add_mul (n a v : Nat) : toBytes n (a * 256 ^ n + v) = toBytes n v := by
  induction n generalizing a with
  | zero => rfl
  | succ n ih =>
    have hv : a * 256 ^ (n + 1) + v = a * 256 * 256 ^ n + v := by rw [Nat.pow_succ]; ring
    have hhead : BitVec.ofNat 8 ((a * 256 * 256 ^ n + v) / 256 ^ n) = BitVec.ofNat 8 (v / 256 ^ n) := by
      rw [Nat.add_comm, Nat.add_mul_div_right _ _ (Nat.pow_pos (by decide))]
      apply BitVec.eq_of_toNat_eq
      simp only [BitVec.toNat_ofNat]
      omega
    rw [hv, toBytes, toBytes, hhead, ih]

/-- A byte list read as a number is written back as it was. -/
theorem toBytes_beNat (bs : List Byte) : toBytes bs.length (beNat bs) = bs := by
  induction bs with
  | nil => rfl
  | cons b bs ih =>
    have hhead : (b.toNat * 256 ^ bs.length + beNat bs) / 256 ^ bs.length = b.toNat := by
      rw [Nat.add_comm, Nat.add_mul_div_right _ _ (Nat.pow_pos (by decide)), Nat.div_eq_of_lt (beNat_lt bs), Nat.zero_add]
    rw [List.length_cons, beNat_cons, toBytes, hhead, toBytes_add_mul, ih, BitVec.ofNat_toNat, BitVec.setWidth_eq]

theorem toBytes_fieldNat {bs : List Byte} {off n : Nat} (h : off + n ≤ bs.length) : toBytes n (fieldNat bs off n) = field bs off n := by
  have := toBytes_beNat (field bs off n)
  rwa [field_length h] at this

/-- The stamp is parsed with sync lost, too (R19). -/
theorem parseCell_stamp (cell : List Byte) : (parseCell cell).stamp = BitVec.ofNat 32 (fieldNat cell 0 4) := by
  unfold parseCell
  dsimp only
  split <;> rfl

/-- The null cell in a cell's place begins with the four bytes of its stamp (R108). -/
theorem nullCell_stamp {cell : List Byte} (h : cell.length = 192) :
    nullCell (parseCell cell).stamp = cell.take 4 ++ [0x47, 0x1F, 0xFF, 0x10] ++ List.replicate 184 0xFF := by
  have hlt : fieldNat cell 0 4 < 2 ^ 32 := fieldNat_lt cell 0 4
  unfold nullCell
  rw [parseCell_stamp, BitVec.toNat_ofNat, Nat.mod_eq_of_lt hlt, toBytes_fieldNat (by omega)]
  rfl

/-! ### The last-output record and the mark of a network cell -/

/-- Without a PTS on the network VIDEO PID, t_L alone takes a cell's stamp (R30, R31). -/
theorem update_noVideo (o : LastOutput) {video : Option Pid} {p : Pid} {pts : Option Ticks} (h : pts = none ∨ video ≠ some p) (stamp : Stamp) :
    o.update video (some p) pts stamp = { o with tL := some stamp } := by
  unfold LastOutput.update
  cases pts with
  | none => rfl
  | some v => exact if_neg fun ⟨_, hv⟩ => h.resolve_left (by simp) hv

/-- With no mark pending for its PID, or no room for it, a cell and its channel stay as they are (R112). -/
theorem applyMark_none {p : Pid} {room : Bool} {ch : Channel} (h : ∀ e, ch.ccEntry p = some e → e.mark = false ∨ room = false)
    (cell : List Byte) : applyMark p room cell ch = (cell, ch) := by
  unfold applyMark
  cases he : ch.ccEntry p with
  | none => rfl
  | some e => exact if_neg (by rcases h e he with hm | hr <;> simp [*])

/-- A pending mark with room for it is set in the cell and is pending no more (R112). -/
theorem applyMark_pending {p : Pid} {room : Bool} {ch : Channel} {e : CcEntry} (he : ch.ccEntry p = some e) (hm : e.mark = true)
    (hr : room = true) (cell : List Byte) :
    applyMark p room cell ch = (withDiscontinuity cell, ch.modCc p fun e => { e with mark := false }) := by
  unfold applyMark
  rw [he]
  exact if_pos (by rw [hm, hr]; rfl)

/-- Two changes of one PID's entries (R109). -/
theorem modCc_modCc (ch : Channel) (p : Pid) {f g : CcEntry → CcEntry} (hf : ∀ e, (f e).pid = e.pid) :
    (ch.modCc p f).modCc p g = ch.modCc p (g ∘ f) := by
  unfold Channel.modCc
  dsimp only
  rw [List.map_map]
  congr 2
  funext e
  by_cases h : e.pid = p <;> simp [h, hf]

/-! ### Network cells -/

/-- A cell with sync lost is passed with its stamp noted (R27). -/
theorem passNetwork_lost {cell : List Byte} (h : (parseCell cell).pid = none) (video : Option Pid) (ch : Channel) :
    passNetwork video cell ch = (cell, { ch with lastOut := { ch.lastOut with tL := some (parseCell cell).stamp } }) := by
  unfold passNetwork
  dsimp only
  rw [h]
  rfl

/-- A network cell that reports no video time: its mark, its counter and its stamp (R28, R30, R110, R112). -/
theorem passNetwork_noVideo {cell out : List Byte} {p : Pid} {video : Option Pid} {ch ch' : Channel} (h : (parseCell cell).pid = some p)
    (hv : (parseCell cell).pts = none ∨ video ≠ some p) (hm : applyMark p (parseCell cell).room cell ch = (out, ch')) :
    passNetwork video cell ch =
      (out, { ch'.modCc p (fun e => { e with cc := some (parseCell cell).cc }) with
              lastOut := { ch'.lastOut with tL := some (parseCell cell).stamp } }) := by
  unfold passNetwork Channel.output
  dsimp only
  rw [h]
  dsimp only
  rw [hm, update_noVideo _ hv]
  rfl

/-! ### The read -/

/-- The data of a read with no mark request and no resume: the cell goes upstream as its serving passes it, and its channel alone takes the rest
(R3, R99). -/
theorem offerCell_passed {s : State} {c : ChanNo} {addr : Addr} {rest : List Outstanding} {serving : Serving} {cell out : List Byte} {ch : Channel}
    (hs : s.NoStaged) (h : Awaiting s (.read addr 192) (.window { chan := c, serving := serving, markReq := false, resume := none }) rest)
    (hc : cell.length = 192) (hp : passCell (s.ring (s.netRing c)).shadow.comps serving cell (s.chan c) = (out, ch)) (hst : ch.staged = none) :
    offerCell cell s = .next (({ s with outstanding := rest, downOut := [], upOut := [.readData out] } : State).setChan c ch) := by
  have hret : windowReturn { chan := c, serving := serving, markReq := false, resume := none } cell
      { s with outstanding := rest, upOut := [], downOut := [] } =
        (({ s with outstanding := rest, upOut := [], downOut := [] } : State).setChan c ch, out) := by
    show ((_ : State).setChan c (passCell (s.ring (s.netRing c)).shadow.comps serving cell (s.chan c)).2,
      (passCell (s.ring (s.netRing c)).shadow.comps serving cell (s.chan c)).1) = _
    rw [hp]
    rfl
  refine offerCell_window h hc hret (fun d => ?_) rfl rfl
  rw [setChan_get]
  split
  · exact hst
  · exact hs d

end Sys2Proof.Machine

namespace Sys2Proof.Proofs

open Sys2Proof.Machine

/-- Settles O51: the cell is passed by R27 or R28, and a pending mark with room for it comes before the counter. -/
theorem networkCellReturned : Obligations.NetworkCellReturned := by
  intro s c addr rest cell f hs h hc hf
  subst hf
  have hpass := fun out ch => offerCell_passed (out := out) (ch := ch) hs h hc
  refine ⟨fun hlost => hpass _ _ (passNetwork_lost hlost _ _) (hs c), fun p hp hv => ⟨fun hnone => ?_, fun e he hm hroom => ?_⟩⟩
  · exact hpass _ _ (passNetwork_noVideo hp hv (applyMark_none hnone _)) (hs c)
  · have hcc := modCc_modCc (s.chan c) p (f := fun e => { e with mark := false }) (g := fun e => { e with cc := some (parseCell cell).cc })
      fun _ => rfl
    exact hpass _ _ ((passNetwork_noVideo hp hv (applyMark_pending he hm hroom _)).trans (by rw [hcc]; rfl)) (hs c)

/-- Settles O54: the four bytes of the stamp are read and written back, and the rest of the null cell is fixed. -/
theorem nullSlotReturned : Obligations.NullSlotReturned := by
  intro s c addr rest cell hs h hc
  rw [← nullCell_stamp hc, ← parseCell_stamp]
  exact offerCell_passed hs h hc rfl (hs c)

end Sys2Proof.Proofs
end

section
/-! PROOFS. Cells on the CUE PID: how they are counted, what the section assembler makes of them, and the cue of a good section. -/

namespace Sys2Proof.Machine

/-! ### A cell on the CUE PID is counted -/

theorem counted_flags (s : State) (r : RingNo) (k : Nat) (f : Findings) (kind : WriteKind) :
    (s.counted r k f kind).flags = s.flags ∨ (s.counted r k f kind).flags = s.flags ||| flagMask .order := by
  unfold State.counted
  cases kind with
  | first | late => exact .inl rfl
  | ahead d =>
    dsimp only
    split
    · exact .inr rfl
    · exact .inl rfl

/-- An ahead write's distance is counted from the last written slot (R10). -/
theorem lastSlot_of_ahead {x : Ring} {k d : Nat} (h : writeKind x k = .ahead d) :
    ∃ l, x.lastSlot = some l ∧ d = (k + x.shadow.slotCount.toNat - l) % x.shadow.slotCount.toNat := by
  unfold writeKind at h
  split at h
  · cases h
  · next l hl =>
    dsimp only at h
    split at h
    · cases h; exact ⟨l, hl, rfl⟩
    · cases h

/-- A first write finds no last written slot (R9). -/
theorem lastSlot_of_first {x : Ring} {k : Nat} (h : writeKind x k = .first) : x.lastSlot = none := by
  unfold writeKind at h
  split at h
  · assumption
  · dsimp only at h
    split at h <;> cases h

/-- The ring of a cell with sync that is no late write: slots' classes and the order counter apart, only the count and the last slot have moved
(R9, R10). -/
theorem counted_ring_synced {s : State} {r : RingNo} {k : Nat} {f : Findings} {kind : WriteKind} (hk : writeKind (s.ring r) k = kind)
    (hn : kind ≠ .late) (hf : f.sync = true) :
    (s.counted r k f kind).ring r =
      { s.ring r with
        writeCount := ((s.counted r k f kind).ring r).writeCount, lastSlot := some k
        classes := ((s.counted r k f kind).ring r).classes, order := ((s.counted r k f kind).ring r).order } ∧
    ((s.counted r k f kind).ring r).writeCount =
      match (s.ring r).lastSlot with
      | none => 1
      | some l =>
        (s.ring r).writeCount + BitVec.ofNat 32 ((k + (s.ring r).shadow.slotCount.toNat - l) % (s.ring r).shadow.slotCount.toNat) := by
  cases kind with
  | late => exact absurd rfl hn
  | first =>
    rw [counted_ring_first, classSlot_eq, if_pos hf, lastSlot_of_first hk]
    exact ⟨rfl, rfl⟩
  | ahead d =>
    obtain ⟨l, hl, rfl⟩ := lastSlot_of_ahead hk
    rw [counted_ring_ahead hl, if_pos hf, hl]
    exact ⟨rfl, rfl⟩

/-- The section assembler of ring `r` replaced. -/
def State.withAssembler (s : State) (r : RingNo) (a : Assembler) : State := s.modRing r fun x => { x with assembler := a }

theorem withAssembler_self {s : State} {r : RingNo} {a : Assembler} (h : (s.ring r).assembler = a) : s.withAssembler r a = s :=
  modRing_self s r _ (by rw [← h])

theorem withAssembler_ring (s : State) (r : RingNo) (a : Assembler) : (s.withAssembler r a).ring r = { s.ring r with assembler := a } :=
  modRing_get_self s r _

theorem withAssembler_withAssembler (s : State) (r : RingNo) (a b : Assembler) :
    (s.withAssembler r a).withAssembler r b = s.withAssembler r b := modRing_modRing s r _ _

/-- A cell with sync that is no late write, once counted, is what `CellCounted` says, whatever its assembler becomes (R9, R10). -/
theorem cellCounted_of_counted {s : State} {r : RingNo} {k : Nat} {f : Findings} (hk : writeKind (s.ring r) k ≠ .late) (hf : f.sync = true)
    (addr : Addr) (cell : List Byte) (a : Assembler) :
    CellCounted s (((s.carry (wholeWrite addr cell)).counted r k f (writeKind (s.ring r) k)).withAssembler r a) r k addr cell a := by
  obtain ⟨hring, hcount⟩ := counted_ring_synced (s := s.carry (wholeWrite addr cell)) (kind := writeKind (s.ring r) k) rfl hk hf
  have hrest := counted_ringsOnly (s.carry (wholeWrite addr cell)) r k f (writeKind (s.ring r) k)
  have hne := fun j (hj : j ≠ r) => counted_ring_ne (s.carry (wholeWrite addr cell)) hj k f (writeKind (s.ring r) k)
  have hflags := counted_flags (s.carry (wholeWrite addr cell)) r k f (writeKind (s.ring r) k)
  generalize (s.carry (wholeWrite addr cell)).counted r k f (writeKind (s.ring r) k) = q at *
  refine ⟨(hrest.trans (modRing_ringsOnly q r _)).eq, hflags, fun j hj => (modRing_get_ne q _ hj.symm).trans (hne j hj), ?_, ?_⟩
  · rw [withAssembler_ring, hring]
    rfl
  · rw [withAssembler_ring]
    exact hcount

/-! ### Its inspection -/

theorem inspectStart_none {at_ : Arrival} {f : Findings} {s : State} (h : classify (s.ring at_.ring).shadow f ≠ .vstart) :
    inspectStart at_ f s = (s, []) := by
  unfold inspectStart
  split
  · next hv _ => exact absurd hv h
  · rfl

/-- A cell on the CUE PID that is neither a video start nor a PCR arrival is given to the Cue Unit alone (R12, R26). -/
theorem inspect_cue {u : State} {r : RingNo} {f : Findings} (hc : f.isOn (u.ring r).shadow.cue = true)
    (hv : classify (u.ring r).shadow f ≠ .vstart) (hn : f.isOn (u.ring r).shadow.comps.pcr = false ∨ f.pcr = none) (cell : List Byte) :
    inspect r f cell u = cueCell r ((u.ring r).writeCount - 1) f.unitStart f.cc (cuePayload f cell) u := by
  obtain ⟨a, h⟩ := cueCell_sched r ((u.ring r).writeCount - 1) f.unitStart f.cc (cuePayload f cell) u
  have hshadow : ((cueCell r ((u.ring r).writeCount - 1) f.unitStart f.cc (cuePayload f cell) u).ring r).shadow = (u.ring r).shadow := by
    rw [h.toEng.ring, modRing_get_self]
  unfold inspect inspectCue
  dsimp only
  rw [if_pos hc, inspectStart_none (by rw [hshadow]; exact hv), inspectPcr_none (by rw [hshadow]; exact hn)]

/-- A cell on the CUE PID (R26): counted in its ring, then given to the Cue Unit. -/
theorem exec_cueWrite {s : State} {r : RingNo} {k : Nat} {addr : Addr} {cell : List Byte} (h : CueWrite s r k addr cell) :
    ∃ q, (∀ a, CellCounted s (q.withAssembler r a) r k addr cell a) ∧ (q.ring r).assembler = (s.ring r).assembler ∧
      exec (.ringFullCellWrite addr cell) s =
        .next (cueCell r ((q.ring r).writeCount - 1) (parseCell cell).unitStart (parseCell cell).cc (cuePayload (parseCell cell) cell) q) := by
  have hsync : (parseCell cell).sync = true := by
    have hon := h.onCue
    simp only [Findings.isOn, Bool.and_eq_true] at hon
    obtain ⟨⟨hsync, -⟩, -⟩ := hon
    exact hsync
  obtain ⟨t, a, hx, ht, -⟩ := exec_counted h.high h.noStaged h.at_ h.length rfl h.kind
  have hcounted := cellCounted_of_counted h.kind hsync addr cell
  obtain ⟨hring, -⟩ := counted_ring_synced (s := s.carry (wholeWrite addr cell)) (kind := writeKind (s.ring r) k) rfl h.kind hsync
  generalize (s.carry (wholeWrite addr cell)).counted r k (parseCell cell) (writeKind (s.ring r) k) = q at *
  have hshadow : (q.ring r).shadow = (s.ring r).shadow := by rw [hring]; rfl
  refine ⟨q, hcounted, by rw [hring]; rfl, ?_⟩
  rw [hx, ht, inspect_cue (by rw [hshadow]; exact h.onCue) (by rw [hshadow]; exact h.noStart) (by rw [hshadow]; exact h.noPcr)]

theorem cuePayload_none {f : Findings} (h : f.payload = none ∨ f.scrambling ≠ 0) (cell : List Byte) : cuePayload f cell = none := by
  unfold cuePayload
  split
  · next h0 => rw [h.resolve_right (not_not.mpr h0)]; rfl
  · rfl

theorem cuePayload_some {f : Findings} {p : Nat} (hp : f.payload = some p) (hs : f.scrambling = 0) (cell : List Byte) :
    cuePayload f cell = some (cell.drop p) := by
  unfold cuePayload
  rw [if_pos hs, hp]
  rfl

/-! ### The section assembler -/

/-- Payload that a cell carries begins within it (R20). -/
theorem payload_lt {cell : List Byte} {p : Nat} (h : (parseCell cell).payload = some p) : p < 192 := by
  have hstart : ∀ control, payloadStart control cell = some p → p < 192 := by
    intro control hp
    unfold payloadStart at hp
    dsimp only at hp
    split_ifs at hp <;> cases hp <;> omega
  unfold parseCell at h
  dsimp only at h
  split at h
  · exact hstart _ h
  · cases h

theorem byteAt_drop (bs : List Byte) (off i : Nat) : byteAt (bs.drop off) i = byteAt bs (off + i) := by
  simp [byteAt]

theorem byteAt_field {i n : Nat} (h : i < n) (bs : List Byte) (off : Nat) : byteAt (field bs off n) i = byteAt bs (off + i) := by
  simp [byteAt, field, h]

theorem fieldNat_drop (bs : List Byte) (off i n : Nat) : fieldNat (bs.drop off) i n = fieldNat bs (off + i) n := by
  simp [fieldNat, field, List.drop_drop]

section
variable {buffer : List Byte} {cc : CC}

theorem collect_other (hne : buffer ≠ []) (h : byteAt buffer 0 ≠ 0xC7) : collect buffer cc = (.idle, [.other]) := by
  unfold collect
  rw [if_neg hne, if_pos h]

theorem ne_nil_of_tableId (h : byteAt buffer 0 = 0xC7) : buffer ≠ [] := by
  rintro rfl
  exact absurd h (by decide)

theorem collect_short (h : byteAt buffer 0 = 0xC7) (hl : buffer.length < 3) : collect buffer cc = (.collecting buffer none cc, []) := by
  unfold collect
  rw [if_neg (ne_nil_of_tableId h), if_neg (not_not.mpr h), if_pos hl]

variable {len : Nat}

theorem collect_badLength (h : byteAt buffer 0 = 0xC7) (hl : 3 ≤ buffer.length) (hlen : len = fieldNat buffer 1 2 % 4096)
    (hb : len < 24 ∨ 361 < len) : collect buffer cc = (.idle, [.formatError]) := by
  unfold collect
  dsimp only
  rw [if_neg (ne_nil_of_tableId h), if_neg (not_not.mpr h), if_neg (by omega), ← hlen, if_pos hb]

theorem collect_more (h : byteAt buffer 0 = 0xC7) (hl : 3 ≤ buffer.length) (hlen : len = fieldNat buffer 1 2 % 4096)
    (h1 : 24 ≤ len) (h2 : len ≤ 361) (hm : buffer.length < 3 + len) : collect buffer cc = (.collecting buffer (some (3 + len)) cc, []) := by
  unfold collect
  dsimp only
  rw [if_neg (ne_nil_of_tableId h), if_neg (not_not.mpr h), if_neg (by omega), ← hlen, if_neg (by omega), if_pos hm]

theorem collect_whole (h : byteAt buffer 0 = 0xC7) (hlen : len = fieldNat buffer 1 2 % 4096) (h1 : 24 ≤ len) (h2 : len ≤ 361)
    (hw : 3 + len ≤ buffer.length) : collect buffer cc = (.idle, [.complete (buffer.take (3 + len))]) := by
  unfold collect
  dsimp only
  rw [if_neg (ne_nil_of_tableId h), if_neg (not_not.mpr h), if_neg (by omega), ← hlen, if_neg (by omega), if_neg (by omega)]

end

/-- The assembler and its events when a section begins at byte `first` of a cell (R50). -/
def sectionFrom (cell : List Byte) (first : Nat) (cc : CC) : Assembler × List SectionEvent :=
  if 192 ≤ first then (.idle, [.formatError]) else collect (cell.drop first) cc

/-- A cell that begins a section: the one in progress is a format error, then the section begins after the pointer's bytes (R50). -/
theorem beginSection_eq {cell : List Byte} {p first : Nat} (hc : cell.length = 192) (hfirst : first = p + 1 + (byteAt cell p).toNat) (a : Assembler)
    (cc : CC) :
    beginSection a cc (cell.drop p) =
      ((sectionFrom cell first cc).1, (if a = .idle then [] else [.formatError]) ++ (sectionFrom cell first cc).2) := by
  have hdrop : (cell.drop p).drop (1 + (byteAt cell p).toNat) = cell.drop first := by rw [List.drop_drop, hfirst, Nat.add_assoc]
  unfold beginSection sectionFrom
  dsimp only
  rw [byteAt_drop, Nat.add_zero, hdrop, List.length_drop, hc]
  by_cases h : 192 ≤ first
  · rw [if_pos (by omega), if_pos h]
    cases a <;> rfl
  · rw [if_neg (by omega), if_neg h]
    cases a <;> rfl

theorem drop_ne_nil {cell : List Byte} {first : Nat} (hc : cell.length = 192) (h : first < 192) : cell.drop first ≠ [] := by
  rw [ne_eq, List.drop_eq_nil_iff]
  omega

theorem sectionFrom_in {cell : List Byte} {first : Nat} {cc : CC} (h : first < 192) :
    sectionFrom cell first cc = collect (cell.drop first) cc := if_neg (by omega)

/-- A gap in the counter ends the section in progress (R51). -/
theorem continueSection_gap {buffer payload : List Byte} {want : Option Nat} {last cc : CC} (h : cc ≠ last + 1) :
    continueSection (.collecting buffer want last) cc payload = (.idle, [.formatError]) := if_pos h

/-- The cell after a section's first one is its last (R51). -/
theorem continueSection_done {buffer payload : List Byte} {want : Option Nat} {last cc : CC} {ev : List SectionEvent} (h : cc = last + 1)
    (hs : collect (buffer ++ payload) cc = (.idle, ev)) : continueSection (.collecting buffer want last) cc payload = (.idle, ev) := by
  unfold continueSection
  dsimp only
  rw [if_neg (not_not.mpr h), hs]

theorem continueSection_unfinished {buffer payload rest : List Byte} {want more : Option Nat} {last cc c : CC} (h : cc = last + 1)
    (hs : collect (buffer ++ payload) cc = (.collecting rest more c, [])) :
    continueSection (.collecting buffer want last) cc payload = (.idle, [.formatError]) := by
  unfold continueSection
  dsimp only
  rw [if_neg (not_not.mpr h), hs]
  rfl

/-- A section that its second cell leaves too short, or of no valid length, is a format error (R50, R51). -/
theorem continueSection_failed {buffer payload : List Byte} {want : Option Nat} {last cc : CC} {len : Nat} (h : cc = last + 1)
    (h0 : byteAt (buffer ++ payload) 0 = 0xC7) (hlen : len = fieldNat (buffer ++ payload) 1 2 % 4096)
    (hb : (buffer ++ payload).length < 3 ∨ len < 24 ∨ 361 < len ∨ (buffer ++ payload).length < 3 + len) :
    continueSection (.collecting buffer want last) cc payload = (.idle, [.formatError]) := by
  by_cases h3 : (buffer ++ payload).length < 3
  · exact continueSection_unfinished h (collect_short h0 h3)
  by_cases hl : len < 24 ∨ 361 < len
  · exact continueSection_done h (collect_badLength h0 (by omega) hlen hl)
  · exact continueSection_unfinished h (collect_more h0 (by omega) hlen (by omega) (by omega) (by omega))

/-! ### What the Cue Unit makes of a cell -/

/-- A format error counted, or not, leaves the rings. -/
theorem abandoned_ring {u v : State} {b : Prop} [Decidable b] (hv : v = if b then u else u.formatErrorCounted) (r : RingNo) :
    v.ring r = u.ring r := by
  rw [hv]
  split <;> rfl

section
variable {q u v : State} {r : RingNo} {arrival : SeqNo} {cell : List Byte} {p first : Nat} {cc : CC} {a : Assembler} {ev : List SectionEvent}

/-- A cell that begins a section (R50): with the section in progress abandoned the state is `v`. -/
theorem cueCell_begin (hc : cell.length = 192) (hfirst : first = p + 1 + (byteAt cell p).toNat) (hu : u = q.withAssembler r .idle)
    (hv : v = if (q.ring r).assembler = .idle then u else u.formatErrorCounted) (hs : sectionFrom cell first cc = (a, ev)) :
    cueCell r arrival true cc (some (cell.drop p)) q = forEach ev (takeSectionEvent r arrival) (v.withAssembler r a) := by
  unfold cueCell
  dsimp only
  rw [if_pos rfl, beginSection_eq hc hfirst, hs, hv, hu]
  by_cases hi : (q.ring r).assembler = .idle
  · rw [if_pos hi, if_pos hi, withAssembler_withAssembler]
    rfl
  · rw [if_neg hi, if_neg hi, show (q.withAssembler r .idle).formatErrorCounted.withAssembler r a =
      ((q.withAssembler r .idle).withAssembler r a).formatErrorCounted from rfl, withAssembler_withAssembler]
    rfl

/-- A section that begins and does not go on to another cell (R50). -/
theorem cueCell_begin_ends (hc : cell.length = 192) (hfirst : first = p + 1 + (byteAt cell p).toNat) (hu : u = q.withAssembler r .idle)
    (hv : v = if (q.ring r).assembler = .idle then u else u.formatErrorCounted) (hs : sectionFrom cell first cc = (.idle, ev)) :
    cueCell r arrival true cc (some (cell.drop p)) q = forEach ev (takeSectionEvent r arrival) v := by
  rw [cueCell_begin hc hfirst hu hv hs, withAssembler_self]
  rw [abandoned_ring hv, hu, withAssembler_ring]

/-- A section that begins and waits for its second cell (R50). -/
theorem cueCell_begin_waits (hc : cell.length = 192) (hfirst : first = p + 1 + (byteAt cell p).toNat) (hu : u = q.withAssembler r .idle)
    (hv : v = if (q.ring r).assembler = .idle then u else u.formatErrorCounted) (hs : sectionFrom cell first cc = (a, [])) :
    cueCell r arrival true cc (some (cell.drop p)) q = v.setRing r { u.ring r with assembler := a } := by
  rw [cueCell_begin hc hfirst hu hv hs, ← abandoned_ring hv r]
  rfl

/-- A cell that begins no section leaves the assembler idle (R51). -/
theorem cueCell_continue {payload : List Byte} (hs : continueSection (q.ring r).assembler cc payload = (.idle, ev)) :
    cueCell r arrival false cc (some payload) q = forEach ev (takeSectionEvent r arrival) (q.withAssembler r .idle) := by
  unfold cueCell
  dsimp only
  rw [if_neg Bool.false_ne_true, hs]
  rfl

end

/-! ### Complete sections (R52, R54) -/

section
variable {sec : List Byte}

theorem checkSection_crc (h : crc32 sec ≠ 0) : checkSection sec = .crcError := if_pos h

/-- A section of unknown version or kind (R52). -/
theorem checkSection_unknown (hc : crc32 sec = 0) (h : byteAt sec 3 ≠ 0 ∨ byteAt sec 4 ≠ 1 ∧ byteAt sec 4 ≠ 2 ∧ byteAt sec 4 ≠ 3) :
    checkSection sec = .formatError := by
  unfold checkSection
  rw [if_neg (not_not.mpr hc)]
  by_cases hv : byteAt sec 3 = 0
  · obtain ⟨h1, h2, h3⟩ := h.resolve_left (not_not.mpr hv)
    have hk : cueKindOf (byteAt sec 4) = none := by
      unfold cueKindOf
      rw [if_neg h1, if_neg h2, if_neg h3]
    rw [if_neg (not_not.mpr hv), hk]
  · exact if_pos hv

theorem cueKindOf_some {b : Byte} {kind : CueKind} (h : b = 1 ∧ kind = .out ∨ b = 2 ∧ kind = .back ∨ b = 3 ∧ kind = .cancel) :
    cueKindOf b = some kind := by
  rcases h with ⟨rfl, rfl⟩ | ⟨rfl, rfl⟩ | ⟨rfl, rfl⟩ <;> rfl

theorem checkSection_good {kind : CueKind} (hc : crc32 sec = 0) (hv : byteAt sec 3 = 0) (hk : cueKindOf (byteAt sec 4) = some kind) :
    checkSection sec = .good (cueFields kind sec) := by
  unfold checkSection
  rw [if_neg (not_not.mpr hc), if_neg (not_not.mpr hv), hk]

/-- The fields of a section, its duration out of the field's low 33 bits (R35, R54). -/
theorem cueFields_eq {v : Nat} (kind : CueKind) (hv : v = fieldNat sec 16 5 % 2 ^ 33) :
    cueFields kind sec =
      { kind := kind, event := BitVec.ofNat 32 (fieldNat sec 5 4), zones := byteAt sec 9,
        target := if (byteAt sec 10).getLsbD 0 then .immediate else .atTick (BitVec.ofNat 33 (fieldNat sec 11 5)),
        duration := if (byteAt sec 10).getLsbD 1 ∧ 1 ≤ v ∧ v < 2 ^ 32 then some (BitVec.ofNat 32 v) else none,
        autoReturn := (byteAt sec 10).getLsbD 2, avail := byteAt sec 21, expected := byteAt sec 22 } := by
  have hd : (if bitAt sec 10 1 then breakDuration (timeField sec 16).toNat else none) =
      if (byteAt sec 10).getLsbD 1 ∧ 1 ≤ v ∧ v < 2 ^ 32 then some (BitVec.ofNat 32 v) else none := by
    rw [show (timeField sec 16).toNat = v from hv.symm]
    unfold bitAt breakDuration
    rw [← ite_and]
  unfold cueFields
  rw [hd]
  rfl

/-- A good section is taken as the cue of its fields (R52). -/
theorem takeSectionEvent_good {kind : CueKind} (r : RingNo) (arrival : SeqNo) (s : State) (hc : crc32 sec = 0) (hv : byteAt sec 3 = 0)
    (hk : cueKindOf (byteAt sec 4) = some kind) :
    takeSectionEvent r arrival (.complete sec) s = takeCue r arrival (cueFields kind sec) s := by
  unfold takeSectionEvent
  dsimp only
  rw [checkSection_good hc hv hk]

end

/-! ### OUT cues (R56) -/

/-- With no pod bound for its event a cue has no holder among the pods. -/
theorem filter_bindingIs_nil {s : State} {r : RingNo} {event : BitVec 32} (h : ∀ p, s.bindingIs p r event = false) :
    (allPods.filter fun p => s.bindingIs p r event) = [] := by
  rw [List.filter_eq_nil_iff]
  intro p _
  rw [h p]
  exact Bool.false_ne_true

/-- An OUT cue whose only holder is a queue entry with its values is a repeat (R56). -/
theorem outCue_repeat {s : State} {r : RingNo} {c : Cue} {e : CueEntry} (he : s.cueEntry r c.event = some e)
    (hb : ∀ p, s.bindingIs p r c.event = false) (ht : e.cue.target = c.target) (hd : e.cue.duration = c.duration) (arrival : SeqNo) :
    outCue r arrival c s = countRepeat s := by
  have hsame : e.cue.sameAs c = true := by
    unfold CueValues.sameAs
    rw [ht, hd, beq_self_eq_true, beq_self_eq_true]
    rfl
  unfold outCue
  dsimp only
  rw [he, filter_bindingIs_nil hb]
  simp [hsame]

/-- An OUT cue with no holder is new (R56, R58). -/
theorem outCue_new {s : State} {r : RingNo} {c : Cue} (he : s.cueEntry r c.event = none) (hb : ∀ p, s.bindingIs p r c.event = false)
    (arrival : SeqNo) : outCue r arrival c s = newCue r arrival c s := by
  unfold outCue
  dsimp only
  rw [he, filter_bindingIs_nil hb]
  rfl

/-- What a cell with payload from byte `p` does on the CUE PID: counted, with no section left in progress, the state is `u`; a section in progress
that another one cuts short is a format error (R50, R51). -/
structure CueTaken (s u : State) (r : RingNo) (k : Nat) (addr : Addr) (cell : List Byte) (p : Nat) : Prop where
  counted   : CellCounted s u r k addr cell .idle
  ends      : ∀ v first ev, (parseCell cell).unitStart = true → first = p + 1 + (byteAt cell p).toNat →
    v = (if (s.ring r).assembler = .idle then u else u.formatErrorCounted) → sectionFrom cell first (parseCell cell).cc = (.idle, ev) →
    exec (.ringFullCellWrite addr cell) s = .next (forEach ev (takeSectionEvent r ((u.ring r).writeCount - 1)) v)
  waits     : ∀ v first a, (parseCell cell).unitStart = true → first = p + 1 + (byteAt cell p).toNat →
    v = (if (s.ring r).assembler = .idle then u else u.formatErrorCounted) → sectionFrom cell first (parseCell cell).cc = (a, []) →
    exec (.ringFullCellWrite addr cell) s = .next (v.setRing r { u.ring r with assembler := a })
  continues : ∀ ev, (parseCell cell).unitStart = false →
    continueSection (s.ring r).assembler (parseCell cell).cc (cell.drop p) = (.idle, ev) →
    exec (.ringFullCellWrite addr cell) s = .next (forEach ev (takeSectionEvent r ((u.ring r).writeCount - 1)) u)

theorem CueWrite.taken {s : State} {r : RingNo} {k : Nat} {addr : Addr} {cell : List Byte} {p : Nat} (h : CueWrite s r k addr cell)
    (hp : (parseCell cell).payload = some p) (hs : (parseCell cell).scrambling = 0) : ∃ u, CueTaken s u r k addr cell p := by
  obtain ⟨q, hq, ha, hx⟩ := exec_cueWrite h
  generalize hu : q.withAssembler r .idle = u
  have hseq : (q.ring r).writeCount = (u.ring r).writeCount := by rw [← hu, withAssembler_ring]
  rw [cuePayload_some hp hs, hseq] at hx
  refine ⟨u, hu ▸ hq .idle, fun v first ev hstart hfirst hv hsec => ?_, fun v first a hstart hfirst hv hsec => ?_, fun ev hstart hsec => ?_⟩
  · rw [← ha] at hv
    rw [hx, hstart, cueCell_begin_ends h.length hfirst hu.symm hv hsec]
  · rw [← ha] at hv
    rw [hx, hstart, cueCell_begin_waits h.length hfirst hu.symm hv hsec]
  · rw [hx, hstart, cueCell_continue (by rw [ha]; exact hsec), hu]

/-! ### A new OUT cue (R58, R59) -/

theorem setHas_insert (set : ChanSet) (c d : ChanNo) : setHas (set ||| BitVec.twoPow 32 d.val) c = (setHas set c || decide (c = d)) := by
  simp [setHas, Fin.ext_iff]

/-- The set of the channels that pass a test holds exactly them. -/
theorem setHas_chanSetOf (test : ChanNo → Bool) (c : ChanNo) : setHas (chanSetOf test) c = test c := by
  have key : ∀ (l : List ChanNo) (set : ChanSet),
      setHas (l.foldl (fun set d => if test d then set ||| BitVec.twoPow 32 d.val else set) set) c =
        (setHas set c || decide (c ∈ l) && test c) := by
    intro l
    induction l with
    | nil => intro set; simp
    | cons d l ih =>
      intro set
      rw [List.foldl_cons, ih]
      by_cases hd : c = d
      · subst hd
        cases ht : test c <;> simp [setHas_insert]
      · cases ht : test d <;> simp [setHas_insert, hd]
  rw [chanSetOf, key]
  simp [setHas, allChans]

/-- A set is known by its members. -/
theorem chanSet_ext {a b : ChanSet} (h : ∀ c, setHas a c = setHas b c) : a = b := BitVec.eq_of_getLsbD_eq fun i hi => h ⟨i, hi⟩

/-- With no eligible pod of any of its channels, none leaves the set (R77). -/
theorem tryChannels_none {set : ChanSet} {cv : CueValues} {s : State}
    (h : ∀ c p, setHas set c = true → p ∈ s.readyList c → s.eligible cv.avail p = false) (r : RingNo) (event : BitVec 32) :
    tryChannels set r event cv s = (s, set) := by
  refine foldl_unmoved _ fun c _ => ?_
  by_cases hc : setHas set c = true
  · have hnone : (s.readyList c).find? (s.eligible cv.avail) = none :=
      List.find?_eq_none.mpr fun p hp => by rw [h c p hc hp]; exact Bool.false_ne_true
    have htry : tryChannel c r event cv s = (s, false) := by
      unfold tryChannel
      rw [hnone]
    dsimp only
    rw [if_pos hc, htry]
    rfl
  · exact if_neg hc

namespace NewOut

variable {s : State} {r : RingNo} {event : BitVec 32} {zones : BitVec 8} {avail : Byte} {set : ChanSet}

/-- The pending set is that of the channels that pass the test of R58. -/
theorem chanSetOf_admits (h : NewOut s r event zones avail set) : chanSetOf (s.admits r zones) = set := by
  refine chanSet_ext fun c => ?_
  rw [setHas_chanSetOf, Bool.eq_iff_iff, h.members c]
  simp [State.admits, Channel.enabled]
  tauto

/-- What a new cue depends on is not changed when a cell goes downstream and is counted. -/
theorem of_counted {u : State} {k : Nat} {addr : Addr} {cell : List Byte} {a : Assembler} (h : NewOut s r event zones avail set)
    (hu : CellCounted s u r k addr cell a) : NewOut u r event zones avail set := by
  rw [hu.rest]
  exact ⟨h.noEntry, h.noHolder, h.members, h.noPod, h.nonempty, h.room⟩

end NewOut

theorem cueValues_eq (s : State) (r : RingNo) (c : Cue) :
    s.cueValues r c =
      { target := c.target, duration := c.duration, autoReturn := c.autoReturn, avail := c.avail, expected := c.expected,
        markSeq := if c.target = .immediate then (s.ring r).mark.map (·.seq) else none } := by
  unfold State.cueValues
  cases c.target <;> rfl

/-- A new OUT cue with no eligible pod is queued with its whole pending set (R59). -/
theorem takeCue_newOut {s : State} {r : RingNo} {c : Cue} {set : ChanSet} (hc : c.kind = .out)
    (h : NewOut s r c.event c.zones c.avail set) (arrival : SeqNo) :
    takeCue r arrival c s = { s with cueQueue := s.cueQueue ++ [entryOf r arrival c (s.cueValues r c) set] } := by
  unfold takeCue
  rw [hc]
  dsimp only
  rw [outCue_new h.noEntry h.noHolder]
  unfold newCue
  dsimp only
  rw [h.chanSetOf_admits, tryChannels_none (cv := s.cueValues r c) h.noPod]
  unfold queueCue
  rw [if_neg h.nonempty, if_pos (show s.cueQueue.length < Config.cueQueueSize from h.room)]

theorem immediate_iff {b : Bool} {t : Ticks} : (if b then Target.immediate else .atTick t) = .immediate ↔ b = true := by
  cases b <;> simp

end Sys2Proof.Machine

namespace Sys2Proof.Proofs

open Sys2Proof.Machine

/-- Settles O16: the cell is counted, then the assembler's cases are those of R50 and R51, and the section's those of R52. -/
theorem cuesCounted : Obligations.CuesCounted := by
  refine ⟨fun s r k addr cell f h hf => ?_, fun s r arrival sec => ⟨fun hc => ?_, fun hc hu => ?_, fun kind v hc hver hkind hv => ?_⟩,
    fun s r arrival c e hc he hb ht hd => ?_⟩
  · subst hf
    constructor
    · intro hnone
      obtain ⟨q, hq, ha, hx⟩ := exec_cueWrite h
      refine ⟨q, withAssembler_self ha ▸ hq _, ?_⟩
      rw [hx, cuePayload_none hnone]
      rfl
    intro p hp hscr
    obtain ⟨u, hu⟩ := h.taken hp hscr
    refine ⟨u, _, hu.counted, rfl, fun first len hstart hfirst hlen => ?_, fun hstart hidle => ?_,
      fun buffer want last sec len hstart hcol hsec hlen => ?_⟩
    · have hends := fun ev => hu.ends _ first ev hstart hfirst rfl
      have hwaits := fun a => hu.waits _ first a hstart hfirst rfl
      have hin := fun (hlt : first < 192) => sectionFrom_in (cell := cell) (cc := (parseCell cell).cc) hlt
      have h0 : byteAt (cell.drop first) 0 = byteAt cell first := byteAt_drop cell first 0
      have hl : (cell.drop first).length = 192 - first := by rw [List.length_drop, h.length]
      replace hlen : len = fieldNat (cell.drop first) 1 2 % 4096 := by rw [fieldNat_drop]; exact hlen
      rw [← h0]
      refine ⟨fun hpast => hends _ (if_pos hpast), fun hlt ho => ?_, fun hlt ht => ⟨fun hshort => ?_, fun hthree =>
        ⟨fun hbad => ?_, fun h1 h2 hmore => ?_, fun h1 hwhole => ?_⟩⟩⟩
      · exact hends _ ((hin hlt).trans (collect_other (drop_ne_nil h.length hlt) ho))
      · exact hwaits _ ((hin hlt).trans (collect_short ht (by omega)))
      · exact hends _ ((hin hlt).trans (collect_badLength ht (by omega) hlen hbad))
      · exact hwaits _ ((hin hlt).trans (collect_more ht (by omega) hlen h1 h2 (by omega)))
      · exact hends _ ((hin hlt).trans (collect_whole ht hlen h1 (by omega) (by omega)))
    · exact hu.continues [] hstart (by rw [hidle]; rfl)
    · have hends := fun ev => hu.continues ev hstart
      have hne : buffer ++ cell.drop p ≠ [] := List.append_ne_nil_of_right_ne_nil _ (drop_ne_nil h.length (payload_lt hp))
      rw [hcol] at hends
      subst hsec
      refine ⟨fun hgap => hends _ (continueSection_gap hgap), fun hnext ho => ?_, fun hnext ht => ⟨fun hbad => ?_, fun h1 h2 hwhole => ?_⟩⟩
      · exact hends _ (continueSection_done hnext (collect_other hne ho))
      · exact hends _ (continueSection_failed hnext ht hlen hbad)
      · exact hends _ (continueSection_done hnext (collect_whole ht hlen h1 h2 hwhole))
  · unfold takeSectionEvent
    dsimp only
    rw [checkSection_crc hc]
    rfl
  · unfold takeSectionEvent
    dsimp only
    rw [checkSection_unknown hc hu]
    rfl
  · rw [takeSectionEvent_good r arrival s hc hver (cueKindOf_some hkind), cueFields_eq kind hv]
  · unfold takeCue
    rw [hc]
    exact outCue_repeat he hb ht hd arrival

/-- Settles O17: the pending set stays whole for want of an eligible pod; a cell leaves what a new cue depends on as it was. -/
theorem newCueQueued : Obligations.NewCueQueued := by
  constructor
  · intro s r arrival c set hc h
    rw [takeCue_newOut hc h, cueValues_eq]
    rfl
  · intro s r k addr cell sec f p first len v set h hf hp hscr hstart hidle hfirst hlen h24 hwhole hsec htable hcrc hver hkind hnew hv
    subst hf
    obtain ⟨u, hu⟩ := h.taken hp hscr
    have hqueue : u.cueQueue = s.cueQueue := by rw [hu.counted.rest]; rfl
    have hmark : (u.ring r).mark = (s.ring r).mark := by rw [hu.counted.ring]
    have htable' : byteAt (cell.drop first) 0 = 0xC7 := by rw [byteAt_drop, ← byteAt_field (show 0 < 3 + len by omega), ← hsec, htable]
    have hcollect : sectionFrom cell first (parseCell cell).cc = (.idle, [.complete sec]) := by
      have hlen' : len = fieldNat (cell.drop first) 1 2 % 4096 := by rw [fieldNat_drop]; exact hlen
      rw [sectionFrom_in (by omega), collect_whole htable' hlen' h24 (by omega) (by rw [List.length_drop, h.length]; omega), hsec]
      rfl
    refine ⟨u, hu.counted, (hu.ends u first _ hstart hfirst (if_pos hidle).symm hcollect).trans ?_⟩
    show Host.Outcome.next (takeSectionEvent r ((u.ring r).writeCount - 1) (.complete sec) u) = _
    rw [takeSectionEvent_good r _ u hcrc hver (cueKindOf_some (.inl ⟨hkind, rfl⟩)), cueFields_eq .out hv,
      takeCue_newOut rfl (hnew.of_counted hu.counted), cueValues_eq, hqueue, hmark]
    simp only [immediate_iff, entryOf]

end Sys2Proof.Proofs
end

section
/-! PROOFS. What the cell parse finds in a cell after each of the writes to its fields, and the times of an inserted cell. -/

namespace Sys2Proof.Machine

/-! ### What an overwritten list reads as -/

theorem drop_overwrite {bs new : List Byte} {off a : Nat} (h : off + new.length ≤ bs.length) (ha : off + new.length ≤ a) :
    (overwrite bs off new).drop a = bs.drop a := by
  unfold overwrite
  rw [List.drop_append, List.drop_of_length_le (by simp; omega), List.nil_append, List.drop_drop]
  congr 1
  simp
  omega

theorem byteAt_overwrite_off {bs new : List Byte} {off i : Nat} (h : off + new.length ≤ bs.length) (hi : i < off ∨ off + new.length ≤ i) :
    byteAt (overwrite bs off new) i = byteAt bs i := by
  rw [byteAt_overwrite h, if_neg (by omega)]

theorem byteAt_overwrite_one {bs : List Byte} {off : Nat} (h : off < bs.length) (x : Byte) : byteAt (overwrite bs off [x]) off = x := by
  rw [byteAt_overwrite (by simpa using h), if_pos (by simp), Nat.sub_self]
  rfl

theorem bitAt_overwrite_off {bs new : List Byte} {off i j : Nat} (h : off + new.length ≤ bs.length) (hi : i < off ∨ off + new.length ≤ i) :
    bitAt (overwrite bs off new) i j = bitAt bs i j := by
  unfold bitAt
  rw [byteAt_overwrite_off h hi]

theorem fieldNat_overwrite_off {bs new : List Byte} {off a n : Nat} (h : off + new.length ≤ bs.length) (hn : a + n ≤ bs.length)
    (hd : a + n ≤ off ∨ off + new.length ≤ a) : fieldNat (overwrite bs off new) a n = fieldNat bs a n := by
  unfold fieldNat
  rw [field_overwrite_off h hn hd]

theorem pesTime_overwrite_off {bs new : List Byte} {off a : Nat} (h : off + new.length ≤ bs.length) (hn : a + 5 ≤ bs.length)
    (hd : a + 5 ≤ off ∨ off + new.length ≤ a) : pesTime (overwrite bs off new) a = pesTime bs a := by
  unfold pesTime
  rw [fieldNat_overwrite_off h hn hd]

theorem pcrField_overwrite_off {bs new : List Byte} {off : Nat} (h : off + new.length ≤ bs.length) (hn : 16 ≤ bs.length)
    (hd : 16 ≤ off ∨ off + new.length ≤ 10) : pcrField (overwrite bs off new) = pcrField bs := by
  unfold pcrField
  rw [fieldNat_overwrite_off h hn hd]

/-- A word written as bytes reads back. -/
theorem word_overwrite_same {bs : List Byte} {off n w : Nat} (h : off + n ≤ bs.length) (hw : 2 ^ w ≤ 256 ^ n) (x : BitVec w) :
    BitVec.ofNat w (fieldNat (overwrite bs off (toBytes n x.toNat)) off n) = x := by
  rw [fieldNat_overwrite_same h, Nat.mod_eq_of_lt (x.isLt.trans_le hw), BitVec.ofNat_toNat, BitVec.setWidth_eq]

theorem fieldNat_two {bs : List Byte} {off : Nat} (h : off + 2 ≤ bs.length) :
    fieldNat bs off 2 = (byteAt bs off).toNat * 256 + (byteAt bs (off + 1)).toNat := by
  unfold fieldNat
  rw [field_eq h, List.range_succ, List.range_one]
  simp [beNat]

/-- The value bits of a PTS or DTS field are read where they were put, whatever the bits between them (R22, R41). -/
theorem pesBits_placed (t : Ticks) (top : BitVec 4) (x y z : BitVec 1) :
    let w := top ++ t.extractLsb' 30 3 ++ x ++ t.extractLsb' 15 15 ++ y ++ t.extractLsb' 0 15 ++ z
    (w.extractLsb' 33 3 ++ w.extractLsb' 17 15 ++ w.extractLsb' 1 15).setWidth 33 = t := by
  intro w
  have hhigh : w.extractLsb' 33 3 = t.extractLsb' 30 3 := by
    simp (disch := decide) only [w, BitVec.extractLsb'_append_eq_of_le, BitVec.extractLsb'_append_eq_of_add_le, Nat.reduceSub, Nat.sub_self,
      BitVec.extractLsb'_eq_self]
  have hmiddle : w.extractLsb' 17 15 = t.extractLsb' 15 15 := by
    simp (disch := decide) only [w, BitVec.extractLsb'_append_eq_of_le, BitVec.extractLsb'_append_eq_of_add_le, Nat.reduceSub, Nat.sub_self,
      BitVec.extractLsb'_eq_self]
  have hlow : w.extractLsb' 1 15 = t.extractLsb' 0 15 := by
    simp (disch := decide) only [w, BitVec.extractLsb'_append_eq_of_le, BitVec.extractLsb'_append_eq_of_add_le, Nat.sub_self,
      BitVec.extractLsb'_eq_self]
  rw [hhigh, hmiddle, hlow, BitVec.extractLsb'_append_extractLsb'_eq_extractLsb' (show 30 = 15 + 15 from rfl),
    BitVec.extractLsb'_append_extractLsb'_eq_extractLsb' (show 15 = 0 + 15 from rfl)]
  exact (BitVec.setWidth_eq _).trans BitVec.extractLsb'_eq_self

/-- A time written into a PTS or DTS field is read there (R41). -/
theorem pesTime_withPesTime {cell : List Byte} {off : Nat} (h : off + 5 ≤ cell.length) (t : Ticks) : pesTime (withPesTime cell off t) off = t := by
  unfold pesTime withPesTime
  dsimp only
  rw [word_overwrite_same h (by decide)]
  exact pesBits_placed t _ _ _ _

theorem pesTime_congr {a b : List Byte} {p : Nat} (h : a.drop p = b.drop p) (i : Nat) : pesTime a (p + i) = pesTime b (p + i) := by
  unfold pesTime
  rw [← fieldNat_drop, h, fieldNat_drop]

/-- A new PCR base is read with the extension as it was (R42). -/
theorem pcrField_withPcrBase {cell : List Byte} (h : cell.length = 192) (b : Ticks) : pcrField (withPcrBase cell b) = (b, (pcrField cell).2) := by
  have hb := b.isLt
  unfold pcrField withPcrBase
  dsimp only
  rw [fieldNat_overwrite_same (by omega)]
  refine congrArg₂ Prod.mk (BitVec.eq_of_toNat_eq ?_) ?_
  · rw [BitVec.toNat_ofNat]
    omega
  · omega

/-! ### Where the parse finds things -/

/-- With sync lost every finding but the stamp is absent (R19). -/
theorem parseCell_lost {cell : List Byte} (hs : (parseCell cell).sync = false) : parseCell cell = { stamp := (parseCell cell).stamp } := by
  unfold parseCell at hs ⊢
  split_ifs with h4
  · rw [if_pos h4] at hs; cases hs
  · rfl

theorem sync_of_pid {cell : List Byte} (h : (parseCell cell).pid ≠ none) : (parseCell cell).sync = true := by
  by_contra hs
  exact h (by rw [parseCell_lost (Bool.eq_false_iff.mpr hs)])

theorem sync_byte {cell : List Byte} (hs : (parseCell cell).sync = true) : byteAt cell 4 = 0x47 := by
  by_contra hne
  rw [parseCell, if_neg hne] at hs
  cases hs

theorem parseCell_field (cell : List Byte) : (parseCell cell).field = (adaptation (parseCell cell).control cell).map (·.1) := by
  unfold parseCell
  split_ifs <;> rfl

theorem parseCell_payload (cell : List Byte) : (parseCell cell).payload = payloadStart (parseCell cell).control cell := by
  unfold parseCell
  split_ifs <;> rfl

/-- Payload begins at byte 8, or after the adaptation field (R20). -/
theorem payload_after_field {cell : List Byte} {p : Nat} (h : (parseCell cell).payload = some p) :
    p = 8 ∧ (parseCell cell).field = none ∨ ∃ len, p = 9 + len ∧ (parseCell cell).field = some len := by
  rw [parseCell_payload] at h
  rw [parseCell_field]
  unfold payloadStart at h
  unfold adaptation
  by_cases h1 : (parseCell cell).control = 1
  · rw [if_pos h1] at h
    exact .inl ⟨(Option.some.inj h).symm, by rw [h1]; rfl⟩
  by_cases h3 : (parseCell cell).control = 3
  · rw [h3, if_neg (by decide), if_pos rfl] at h
    dsimp only at h
    split_ifs at h
    exact .inr ⟨_, (Option.some.inj h).symm, by rw [h3]; rfl⟩
  · rw [if_neg h1, if_neg h3] at h
    cases h

theorem payload_ge {cell : List Byte} {p : Nat} (h : (parseCell cell).payload = some p) : 8 ≤ p := by
  rcases payload_after_field h with ⟨hp, -⟩ | ⟨len, hp, -⟩ <;> omega

/-- Payload lies behind an adaptation field that is present. -/
theorem payload_ge_of_field {cell : List Byte} {p n : Nat} (h : (parseCell cell).payload = some p) (hn : 0 < n)
    (hf : n ≤ (parseCell cell).field.getD 0) : 9 + n ≤ p := by
  rcases payload_after_field h with ⟨-, hnone⟩ | ⟨len, hp, hlen⟩
  · rw [hnone, Option.getD_none] at hf; omega
  · rw [hlen, Option.getD_some] at hf; omega

/-- Room for flags is an adaptation field of a byte or more (R20). -/
theorem field_of_room {cell : List Byte} (h : (parseCell cell).room = true) : 1 ≤ (parseCell cell).field.getD 0 := by
  unfold parseCell at h ⊢
  split_ifs at h ⊢ with h4
  dsimp only at h ⊢
  cases haf : adaptation ((byteAt cell 7).extractLsb' 4 2) cell with
  | none => rw [haf] at h; cases h
  | some x => rw [haf] at h; exact of_decide_eq_true (Bool.and_eq_true_iff.mp h).2

/-- The times of a cell are those of the PES header that its payload begins with (R22). -/
theorem parseCell_times {cell : List Byte} {get : Option Ticks × Option Ticks → Option Ticks} {t : Ticks} (hnone : get (none, none) = none)
    (ht : get ((parseCell cell).pts, (parseCell cell).dts) = some t) :
    ∃ p, (parseCell cell).payload = some p ∧ get (pesTimes p cell) = some t := by
  have habsent : get (none, none) ≠ some t := by rw [hnone]; nofun
  unfold parseCell at ht ⊢
  split_ifs at ht ⊢ with h4
  · dsimp only at ht ⊢
    cases hp : payloadStart ((byteAt cell 7).extractLsb' 4 2) cell with
    | none => rw [hp] at ht; exact absurd ht habsent
    | some p =>
      rw [hp] at ht
      dsimp only at ht
      split_ifs at ht
      · exact ⟨p, rfl, ht⟩
      · exact absurd ht habsent
  · exact absurd ht habsent

/-- The times that a PES header gives are read at their places, which lie in the cell (R22). -/
theorem pesTimes_at {p : Nat} {cell : List Byte} {t : Ticks} :
    ((pesTimes p cell).1 = some t → p + 14 ≤ 192 ∧ pesTime cell (p + 9) = t) ∧
      ((pesTimes p cell).2 = some t → p + 19 ≤ 192 ∧ pesTime cell (p + 14) = t) := by
  unfold pesTimes Config.cellSize
  dsimp only
  split_ifs with h2 h3
  · exact ⟨fun h => ⟨by omega, Option.some.inj h⟩, nofun⟩
  · exact ⟨fun h => ⟨by omega, Option.some.inj h⟩, fun h => ⟨by omega, Option.some.inj h⟩⟩
  · exact ⟨nofun, nofun⟩

theorem pts_at {cell : List Byte} {t : Ticks} (h : (parseCell cell).pts = some t) :
    ∃ p, (parseCell cell).payload = some p ∧ p + 14 ≤ 192 ∧ pesTime cell (p + 9) = t := by
  obtain ⟨p, hp, ht⟩ := parseCell_times (get := Prod.fst) rfl h
  exact ⟨p, hp, pesTimes_at.1 ht⟩

theorem dts_at {cell : List Byte} {t : Ticks} (h : (parseCell cell).dts = some t) :
    ∃ p, (parseCell cell).payload = some p ∧ p + 19 ≤ 192 ∧ pesTime cell (p + 14) = t := by
  obtain ⟨p, hp, ht⟩ := parseCell_times (get := Prod.snd) rfl h
  exact ⟨p, hp, pesTimes_at.2 ht⟩

/-! ### Cells of the same form -/

/-- The findings `f`, with the values in a cell's first 16 bytes read from `cell`. -/
def Findings.header (f : Findings) (cell : List Byte) : Findings :=
  let flag := f.room && bitAt cell 9 4
  { f with
    stamp := BitVec.ofNat 32 (fieldNat cell 0 4), pid := some (BitVec.ofNat 13 (fieldNat cell 5 2)), cc := (byteAt cell 7).extractLsb' 0 4,
    disc := if f.room then some (bitAt cell 9 7) else none, pcrFlag := flag,
    pcr := if flag ∧ 7 ≤ f.field.getD 0 ∧ (pcrField cell).2 ≤ 299 then some (pcrField cell) else none }

/-- The findings `f`, with their times too read from `cell`. -/
def Findings.reread (f : Findings) (cell : List Byte) : Findings :=
  { f.header cell with
    pts := f.pts.map fun _ => pesTime cell (f.payload.getD 0 + 9), dts := f.dts.map fun _ => pesTime cell (f.payload.getD 0 + 14) }

/-- What decides which fields cell `a` has is as in cell `b`: sync, unit start, scrambling and control bits, the length of the adaptation field and the
first nine bytes of a PES header (R19, R20, R22). -/
structure SameForm (a b : List Byte) : Prop where
  sync        : byteAt a 4 = byteAt b 4
  unitStart   : bitAt a 5 6 = bitAt b 5 6
  scrambling  : (byteAt a 7).extractLsb' 6 2 = (byteAt b 7).extractLsb' 6 2
  control     : (byteAt a 7).extractLsb' 4 2 = (byteAt b 7).extractLsb' 4 2
  fieldLength : byteAt a 8 = byteAt b 8
  pesHeader   : ∀ p, (parseCell b).payload = some p → field a p 9 = field b p 9

theorem isPesStart_congr {a b : List Byte} {p : Nat} (h : field a p 9 = field b p 9) (unitStart : Bool) (scrambling : BitVec 2) :
    isPesStart unitStart scrambling p a = isPesStart unitStart scrambling p b := by
  have h3 : ∀ bs : List Byte, field bs p 3 = (field bs p 9).take 3 := fun bs => by simp [field, List.take_take]
  unfold isPesStart
  rw [h3, h3, h]

theorem pesTimes_congr {a b : List Byte} {p : Nat} (h : field a p 9 = field b p 9) :
    pesTimes p a = ((pesTimes p b).1.map fun _ => pesTime a (p + 9), (pesTimes p b).2.map fun _ => pesTime a (p + 14)) := by
  have hb : ∀ i, i < 9 → byteAt a (p + i) = byteAt b (p + i) := fun i hi => by rw [← byteAt_field hi, h, byteAt_field hi]
  unfold pesTimes
  rw [hb 7 (by decide), hb 8 (by decide)]
  dsimp only
  split_ifs <;> rfl

/-- Cells of the same form have the same findings but for the values read. -/
theorem SameForm.parse {a b : List Byte} (h : SameForm a b) (hs : (parseCell b).sync = true) : parseCell a = (parseCell b).reread a := by
  have hsync := sync_byte hs
  have hfield : ∀ c, adaptation c a = adaptation c b := fun c => by unfold adaptation; rw [h.fieldLength]
  have hstart : ∀ c, payloadStart c a = payloadStart c b := fun c => by unfold payloadStart; rw [h.fieldLength]
  have hpcr : ∀ (flag : Bool) (af : Option (Nat × Bool)), (match af with
      | some (len, _) => if flag ∧ 7 ≤ len ∧ (pcrField a).2 ≤ 299 then some (pcrField a) else none
      | none => none) = if flag ∧ 7 ≤ (af.map (·.1)).getD 0 ∧ (pcrField a).2 ≤ 299 then some (pcrField a) else none := by
    rintro flag (_ | _) <;> simp
  have hpes := h.pesHeader
  unfold parseCell at hpes ⊢
  rw [if_pos hsync] at hpes ⊢
  rw [if_pos (h.sync.trans hsync)]
  unfold Findings.reread Findings.header
  dsimp only at hpes ⊢
  rw [hfield, hstart, h.unitStart, h.scrambling, h.control]
  cases hp : payloadStart ((byteAt b 7).extractLsb' 4 2) b with
  | none => congr 1; exact hpcr _ _
  | some p =>
    simp only [isPesStart_congr (hpes p hp), pesTimes_congr (hpes p hp)]
    congr 1
    · exact hpcr _ _
    · split_ifs <;> rfl
    · split_ifs <;> rfl

/-- A time that stands where it is read from. -/
theorem time_kept {a : List Byte} {start : Option Nat} {time : Option Ticks} {i : Nat}
    (h : ∀ t, time = some t → ∃ p, start = some p ∧ pesTime a (p + i) = t) : (time.map fun _ => pesTime a (start.getD 0 + i)) = time := by
  cases time with
  | none => rfl
  | some t =>
    obtain ⟨p, rfl, ht⟩ := h t rfl
    exact congrArg some ht

/-- Cells of the same form with the same payload differ in the values of their first 16 bytes only. -/
theorem SameForm.parse_header {a b : List Byte} (h : SameForm a b) (hs : (parseCell b).sync = true)
    (hd : ∀ p, (parseCell b).payload = some p → a.drop p = b.drop p) : parseCell a = (parseCell b).header a := by
  have hpts := time_kept (a := a) (i := 9) fun t ht => by
    obtain ⟨p, hp, -, hat⟩ := pts_at ht
    exact ⟨p, hp, (pesTime_congr (hd p hp) 9).trans hat⟩
  have hdts := time_kept (a := a) (i := 14) fun t ht => by
    obtain ⟨p, hp, -, hat⟩ := dts_at ht
    exact ⟨p, hp, (pesTime_congr (hd p hp) 14).trans hat⟩
  rw [h.parse hs]
  unfold Findings.reread
  rw [hpts, hdts]
  rfl

theorem parseCell_header {cell : List Byte} (hs : (parseCell cell).sync = true) : parseCell cell = (parseCell cell).header cell :=
  SameForm.parse_header ⟨rfl, rfl, rfl, rfl, rfl, fun _ _ => rfl⟩ hs fun _ _ => rfl

theorem parseCell_pcrFlag {cell : List Byte} (hs : (parseCell cell).sync = true) :
    (parseCell cell).pcrFlag = ((parseCell cell).room && bitAt cell 9 4) :=
  congrArg Findings.pcrFlag (parseCell_header hs)

theorem parseCell_pcr {cell : List Byte} (hs : (parseCell cell).sync = true) :
    (parseCell cell).pcr = if (parseCell cell).pcrFlag ∧ 7 ≤ (parseCell cell).field.getD 0 ∧ (pcrField cell).2 ≤ 299 then some (pcrField cell)
      else none := by
  rw [parseCell_pcrFlag hs]
  exact congrArg Findings.pcr (parseCell_header hs)

/-- A PCR is the flag, a field long enough and an extension in range (R20, R21). -/
theorem pcr_at {cell : List Byte} {x : Ticks × Nat} (hs : (parseCell cell).sync = true) (hp : (parseCell cell).pcr = some x) :
    (parseCell cell).pcrFlag = true ∧ 7 ≤ (parseCell cell).field.getD 0 ∧ x.2 ≤ 299 ∧ pcrField cell = x := by
  rw [parseCell_pcr hs] at hp
  split_ifs at hp with hc
  obtain ⟨hflag, hlen, hext⟩ := hc
  cases hp
  exact ⟨hflag, hlen, hext, rfl⟩

/-- Bytes overwritten before byte 4 or from byte 9 on, and not in the first nine of the payload, leave a cell its form. -/
theorem sameForm_overwrite {cell new : List Byte} {off : Nat} (h : off + new.length ≤ cell.length) (ho : off + new.length ≤ 4 ∨ 9 ≤ off)
    (hp : ∀ p, (parseCell cell).payload = some p → off + new.length ≤ p ∨ p + 9 ≤ off) : SameForm (overwrite cell off new) cell := by
  have hb : ∀ i, 4 ≤ i → i < 9 → byteAt (overwrite cell off new) i = byteAt cell i := fun i h4 h9 => byteAt_overwrite_off h (by omega)
  have h7 := hb 7 (by decide) (by decide)
  refine ⟨hb 4 (by decide) (by decide), ?_, by rw [h7], by rw [h7], hb 8 (by decide) (by decide), fun p hpay => ?_⟩
  · unfold bitAt; rw [hb 5 (by decide) (by decide)]
  · rcases hp p hpay with hlt | hge
    · unfold field; rw [drop_overwrite h hlt]
    · exact field_overwrite_off h (by omega) (.inl hge)

/-- Such bytes before the payload change values of the first 16 bytes only. -/
theorem parseCell_overwrite {cell new : List Byte} {off : Nat} (h : off + new.length ≤ cell.length) (ho : off + new.length ≤ 4 ∨ 9 ≤ off)
    (hs : (parseCell cell).sync = true) (hp : ∀ p, (parseCell cell).payload = some p → off + new.length ≤ p) :
    parseCell (overwrite cell off new) = (parseCell cell).header (overwrite cell off new) :=
  (sameForm_overwrite h ho fun p hpay => .inl (hp p hpay)).parse_header hs fun p hpay => drop_overwrite h (hp p hpay)

/-! ### The parse after each write -/

section
variable {cell : List Byte}

/-- A new stamp (R40). -/
theorem parseCell_withStamp (h : cell.length = 192) (hs : (parseCell cell).sync = true) (t : Stamp) :
    parseCell (withStamp cell t) = { parseCell cell with stamp := t } := by
  unfold withStamp
  rw [parseCell_overwrite (by rw [toBytes_length]; omega) (.inl (by rw [toBytes_length])) hs fun p hp => by
    have := payload_ge hp
    rw [toBytes_length]; omega]
  conv_rhs => rw [parseCell_header hs]
  unfold Findings.header
  rw [word_overwrite_same (by omega) (by decide)]
  simp (disch := (simp [toBytes_length, h])) only [fieldNat_overwrite_off, bitAt_overwrite_off, pcrField_overwrite_off, byteAt_overwrite_off]

/-- A new PID: the unit start bit lies above it (R107). -/
theorem parseCell_withPid (h : cell.length = 192) (hs : (parseCell cell).sync = true) (p : Pid) :
    parseCell (withPid cell p) = { parseCell cell with pid := some p } := by
  unfold withPid
  generalize hv : fieldNat cell 5 2 / 2 ^ 13 * 2 ^ 13 + p.toNat = v
  have hp := p.isLt
  have hlt : fieldNat cell 5 2 < 65536 := fieldNat_lt _ _ _
  have hfit : 5 + (toBytes 2 v).length ≤ cell.length := by rw [toBytes_length]; omega
  have hoff : ∀ i, i < 5 ∨ 7 ≤ i → byteAt (overwrite cell 5 (toBytes 2 v)) i = byteAt cell i := fun i hi =>
    byteAt_overwrite_off hfit (by rw [toBytes_length]; omega)
  have hdrop : ∀ p, (parseCell cell).payload = some p → (overwrite cell 5 (toBytes 2 v)).drop p = cell.drop p := fun p hp =>
    drop_overwrite hfit (by have := payload_ge hp; rw [toBytes_length]; omega)
  have hunit : bitAt (overwrite cell 5 (toBytes 2 v)) 5 6 = bitAt cell 5 6 := by
    have hbytes := fieldNat_two (bs := cell) (off := 5) (by omega)
    have hlow := (byteAt cell 6).isLt
    have h5 : byteAt (overwrite cell 5 (toBytes 2 v)) 5 = BitVec.ofNat 8 (v / 256) := by
      rw [byteAt_overwrite hfit, if_pos (by rw [toBytes_length]; omega)]
      rfl
    unfold bitAt
    rw [h5, BitVec.getLsbD_ofNat, ← BitVec.testBit_toNat, Nat.testBit_eq_decide_div_mod_eq, Nat.testBit_eq_decide_div_mod_eq]
    simp only [Nat.reduceLT, decide_true, Bool.true_and, decide_eq_decide]
    omega
  have hpid : BitVec.ofNat 13 (fieldNat (overwrite cell 5 (toBytes 2 v)) 5 2) = p := by
    rw [fieldNat_overwrite_same (by omega)]
    apply BitVec.eq_of_toNat_eq
    rw [BitVec.toNat_ofNat]
    omega
  have hform : SameForm (overwrite cell 5 (toBytes 2 v)) cell :=
    ⟨hoff 4 (by decide), hunit, by rw [hoff 7 (by decide)], by rw [hoff 7 (by decide)], hoff 8 (by decide),
      fun p hp => by unfold field; rw [hdrop p hp]⟩
  rw [hform.parse_header hs hdrop]
  conv_rhs => rw [parseCell_header hs]
  unfold Findings.header
  rw [hpid]
  simp (disch := (simp [toBytes_length, h])) only [fieldNat_overwrite_off, bitAt_overwrite_off, pcrField_overwrite_off, byteAt_overwrite_off]

/-- A new continuity counter: the scrambling and control bits lie above it (R110). -/
theorem parseCell_withCC (h : cell.length = 192) (hs : (parseCell cell).sync = true) (c : CC) :
    parseCell (withCC cell c) = { parseCell cell with cc := c } := by
  unfold withCC
  generalize hx : (byteAt cell 7).extractLsb' 4 4 ++ c = x
  have hfit : 7 + [x].length ≤ cell.length := by simp [h]
  have h7 := byteAt_overwrite_one (show 7 < cell.length by omega) x
  have hoff : ∀ i, i ≠ 7 → byteAt (overwrite cell 7 [x]) i = byteAt cell i := fun i hi => byteAt_overwrite_off hfit (by simp; omega)
  have hdrop : ∀ p, (parseCell cell).payload = some p → (overwrite cell 7 [x]).drop p = cell.drop p := fun p hp =>
    drop_overwrite hfit (payload_ge hp)
  have hcc : x.extractLsb' 0 4 = c := hx ▸ BitVec.extractLsb'_append_eq_right
  have hupper : ∀ i n, 4 ≤ i → i + n ≤ 8 → x.extractLsb' i n = (byteAt cell 7).extractLsb' i n := by
    intro i n hi hn
    subst hx
    rw [BitVec.extractLsb'_append_eq_of_le hi]
    ext j hj
    simp [show i - 4 + j < 4 by omega, show 4 + (i - 4 + j) = i + j by omega]
  have hform : SameForm (overwrite cell 7 [x]) cell :=
    ⟨hoff 4 (by decide), by unfold bitAt; rw [hoff 5 (by decide)], by rw [h7]; exact hupper 6 2 (by decide) (by decide),
      by rw [h7]; exact hupper 4 2 (by decide) (by decide), hoff 8 (by decide), fun p hp => by unfold field; rw [hdrop p hp]⟩
  rw [hform.parse_header hs hdrop]
  conv_rhs => rw [parseCell_header hs]
  unfold Findings.header
  rw [h7, hcc]
  simp (disch := (simp [h])) only [fieldNat_overwrite_off, bitAt_overwrite_off, pcrField_overwrite_off]

/-- A new flags byte changes what it says of the discontinuity and the PCR (R20, R21). -/
theorem parseCell_withFlags (h : cell.length = 192) (hs : (parseCell cell).sync = true) (hr : (parseCell cell).room = true) (x : Byte) :
    parseCell (overwrite cell 9 [x]) = { parseCell cell with
      disc := some (x.getLsbD 7), pcrFlag := x.getLsbD 4,
      pcr := if x.getLsbD 4 ∧ 7 ≤ (parseCell cell).field.getD 0 ∧ (pcrField cell).2 ≤ 299 then some (pcrField cell) else none } := by
  have hfit : 9 + [x].length ≤ cell.length := by simp [h]
  rw [parseCell_overwrite hfit (.inr le_rfl) hs fun p hp => payload_ge_of_field hp Nat.one_pos (field_of_room hr)]
  conv_rhs => rw [parseCell_header hs]
  unfold Findings.header bitAt
  rw [byteAt_overwrite_one (by omega)]
  simp (disch := (simp [h])) only [hr, Bool.true_and, if_true, fieldNat_overwrite_off, pcrField_overwrite_off, byteAt_overwrite_off]

/-- The discontinuity indicator set (R112). -/
theorem parseCell_withDiscontinuity (h : cell.length = 192) (hs : (parseCell cell).sync = true) (hr : (parseCell cell).room = true) :
    parseCell (withDiscontinuity cell) = { parseCell cell with disc := some true } := by
  have hdisc : (byteAt cell 9 ||| 0x80).getLsbD 7 = true := by simp
  have hflag : (byteAt cell 9 ||| 0x80).getLsbD 4 = (parseCell cell).pcrFlag := by
    rw [parseCell_pcrFlag hs, hr]
    simp [bitAt]
  unfold withDiscontinuity
  rw [parseCell_withFlags h hs hr, hdisc, hflag, ← parseCell_pcr hs]

/-- The flag of a rejected PCR cleared (R21). -/
theorem parseCell_withoutPcrFlag (h : cell.length = 192) (hs : (parseCell cell).sync = true) (hf : (parseCell cell).pcrFlag = true)
    (hp : (parseCell cell).pcr = none) : parseCell (withoutPcrFlag cell) = { parseCell cell with pcrFlag := false } := by
  have hroom : (parseCell cell).room = true := by
    rw [parseCell_pcrFlag hs] at hf
    exact (Bool.and_eq_true_iff.mp hf).1
  have hdisc : some ((byteAt cell 9 &&& 0xEF).getLsbD 7) = (parseCell cell).disc := by
    rw [parseCell_header hs]
    unfold Findings.header bitAt
    simp [hroom]
  have hflag : (byteAt cell 9 &&& 0xEF).getLsbD 4 = false := by simp
  unfold withoutPcrFlag
  rw [parseCell_withFlags h hs hroom, hdisc, hflag, if_neg (by simp), ← hp]

/-- A new PCR base (R42). -/
theorem parseCell_withPcrBase {x : Ticks × Nat} (h : cell.length = 192) (hs : (parseCell cell).sync = true)
    (hp : (parseCell cell).pcr = some x) (b : Ticks) : parseCell (withPcrBase cell b) = { parseCell cell with pcr := some (b, x.2) } := by
  obtain ⟨hflag, hlen, hext, hfield⟩ := pcr_at hs hp
  have hbit := hflag
  rw [parseCell_pcrFlag hs] at hbit
  have hpcr := pcrField_withPcrBase h b
  rw [hfield] at hpcr
  unfold withPcrBase at hpcr ⊢
  rw [parseCell_overwrite (by rw [toBytes_length]; omega) (.inr (by decide)) hs fun p hp => by
    rw [toBytes_length]
    exact payload_ge_of_field hp (by decide) hlen]
  conv_rhs => rw [parseCell_header hs]
  unfold Findings.header
  rw [hpcr]
  simp (disch := (simp [toBytes_length, h])) only [fieldNat_overwrite_off, bitAt_overwrite_off, byteAt_overwrite_off, hbit, hlen, hext,
    and_self, if_true]

/-- A time written behind the first nine bytes of the payload: both times are read again (R41). -/
theorem parseCell_withPesTime {p off : Nat} (h : cell.length = 192) (hs : (parseCell cell).sync = true)
    (hp : (parseCell cell).payload = some p) (ho : p + 9 ≤ off) (hoff : off + 5 ≤ 192) (t : Ticks) :
    parseCell (withPesTime cell off t) = { parseCell cell with
      pts := (parseCell cell).pts.map fun _ => pesTime (withPesTime cell off t) (p + 9),
      dts := (parseCell cell).dts.map fun _ => pesTime (withPesTime cell off t) (p + 14) } := by
  have hge := payload_ge hp
  have hform : SameForm (withPesTime cell off t) cell := by
    refine sameForm_overwrite ?_ (.inr (by omega)) fun q hq => ?_
    · rw [toBytes_length]; omega
    · cases hp.symm.trans hq; exact .inr ho
  rw [hform.parse hs]
  conv_rhs => rw [parseCell_header hs]
  unfold Findings.reread Findings.header withPesTime
  rw [hp]
  simp (disch := (simp [toBytes_length, h] <;> omega)) only [fieldNat_overwrite_off, bitAt_overwrite_off, pcrField_overwrite_off,
    byteAt_overwrite_off, Option.getD_some]

/-- A new PTS: a DTS lies behind it (R41). -/
theorem parseCell_withPts {p : Nat} {t0 : Ticks} (h : cell.length = 192) (hs : (parseCell cell).sync = true)
    (hp : (parseCell cell).payload = some p) (ht : (parseCell cell).pts = some t0) (t : Ticks) :
    parseCell (withPesTime cell (p + 9) t) = { parseCell cell with pts := some t } := by
  obtain ⟨q, hq, hin, -⟩ := pts_at ht
  cases hp.symm.trans hq
  have hdts := time_kept (a := withPesTime cell (p + 9) t) (start := some p) (i := 14) fun d hd => by
    obtain ⟨q, hq, hin, hat⟩ := dts_at hd
    cases hp.symm.trans hq
    refine ⟨p, rfl, (pesTime_overwrite_off ?_ (by omega) (.inr ?_)).trans hat⟩ <;> rw [toBytes_length]
    omega
  rw [Option.getD_some] at hdts
  rw [parseCell_withPesTime h hs hp le_rfl (by omega), hdts, ht, Option.map_some, pesTime_withPesTime (by omega)]

/-- A new DTS: the PTS lies before it (R41). -/
theorem parseCell_withDts {p : Nat} {t0 : Ticks} (h : cell.length = 192) (hs : (parseCell cell).sync = true)
    (hp : (parseCell cell).payload = some p) (ht : (parseCell cell).dts = some t0) (t : Ticks) :
    parseCell (withPesTime cell (p + 14) t) = { parseCell cell with dts := some t } := by
  obtain ⟨q, hq, hin, -⟩ := dts_at ht
  cases hp.symm.trans hq
  have hpts := time_kept (a := withPesTime cell (p + 14) t) (start := some p) (i := 9) fun d hd => by
    obtain ⟨q, hq, -, hat⟩ := pts_at hd
    cases hp.symm.trans hq
    exact ⟨p, rfl, (pesTime_overwrite_off (by rw [toBytes_length]; omega) (by omega) (.inl le_rfl)).trans hat⟩
  rw [Option.getD_some] at hpts
  rw [parseCell_withPesTime h hs hp (by omega) (by omega), hpts, ht, Option.map_some, pesTime_withPesTime (by omega)]

/-! ### The times of an inserted cell -/

/-- A PTS or DTS moved, when the cell has one: it stands `i` bytes into the PES header (R41). -/
def moveTime (start : Option Nat) (time : Option Ticks) (i : Nat) (d90 : Ticks) (cell : List Byte) : List Byte :=
  match start, time with
  | some p, some t => withPesTime cell (p + i) (t + d90)
  | _, _ => cell

/-- A PCR base moved, or the flag of a rejected PCR cleared (R42, R21). -/
def movePcr (f : Findings) (d90 : Ticks) (cell : List Byte) : List Byte :=
  match f.pcr with
  | some (b, _) => withPcrBase cell (b + d90)
  | none => if f.pcrFlag then withoutPcrFlag cell else cell

theorem rewriteTimes_eq (f : Findings) (d90 : Ticks) (cell : List Byte) :
    rewriteTimes f d90 cell = movePcr f d90 (moveTime f.payload f.dts 14 d90 (moveTime f.payload f.pts 9 d90 cell)) := by
  unfold rewriteTimes movePcr moveTime
  rfl

theorem moveTime_none (start : Option Nat) (i : Nat) (d90 : Ticks) (cell : List Byte) : moveTime start none i d90 cell = cell := by
  unfold moveTime
  cases start <;> rfl

theorem moveTime_pts (h : cell.length = 192) (hs : (parseCell cell).sync = true) (d90 : Ticks) :
    (moveTime (parseCell cell).payload (parseCell cell).pts 9 d90 cell).length = 192 ∧
      parseCell (moveTime (parseCell cell).payload (parseCell cell).pts 9 d90 cell) =
        { parseCell cell with pts := (parseCell cell).pts.map (· + d90) } := by
  cases ht : (parseCell cell).pts with
  | none =>
    rw [moveTime_none, Option.map_none, ← ht]
    exact ⟨h, rfl⟩
  | some t =>
    obtain ⟨p, hp, hin, -⟩ := pts_at ht
    rw [hp]
    exact ⟨(overwrite_length (by rw [toBytes_length]; omega)).trans h, parseCell_withPts h hs hp ht _⟩

theorem moveTime_dts (h : cell.length = 192) (hs : (parseCell cell).sync = true) (d90 : Ticks) :
    (moveTime (parseCell cell).payload (parseCell cell).dts 14 d90 cell).length = 192 ∧
      parseCell (moveTime (parseCell cell).payload (parseCell cell).dts 14 d90 cell) =
        { parseCell cell with dts := (parseCell cell).dts.map (· + d90) } := by
  cases ht : (parseCell cell).dts with
  | none =>
    rw [moveTime_none, Option.map_none, ← ht]
    exact ⟨h, rfl⟩
  | some t =>
    obtain ⟨p, hp, hin, -⟩ := dts_at ht
    rw [hp]
    exact ⟨(overwrite_length (by rw [toBytes_length]; omega)).trans h, parseCell_withDts h hs hp ht _⟩

theorem movePcr_parse (h : cell.length = 192) (hs : (parseCell cell).sync = true) (d90 : Ticks) :
    (movePcr (parseCell cell) d90 cell).length = 192 ∧
      parseCell (movePcr (parseCell cell) d90 cell) = { parseCell cell with
        pcr := (parseCell cell).pcr.map fun x => (x.1 + d90, x.2), pcrFlag := (parseCell cell).pcr.isSome } := by
  have hsame {pcr : Option (Ticks × Nat)} {flag : Bool} (hp : (parseCell cell).pcr = pcr) (hf : (parseCell cell).pcrFlag = flag) :
      parseCell cell = { parseCell cell with pcr := pcr, pcrFlag := flag } := by subst hp hf; rfl
  unfold movePcr
  cases hp : (parseCell cell).pcr with
  | none =>
    dsimp only
    cases hf : (parseCell cell).pcrFlag with
    | false => exact ⟨h, hsame hp hf⟩
    | true =>
      refine ⟨(overwrite_length (by simp [h])).trans h, (parseCell_withoutPcrFlag h hs hf hp).trans ?_⟩
      rw [hsame hp hf]
      rfl
  | some x =>
    obtain ⟨hflag, -⟩ := pcr_at hs hp
    refine ⟨(overwrite_length (by rw [toBytes_length]; omega)).trans h, (parseCell_withPcrBase h hs hp _).trans ?_⟩
    rw [hsame hp hflag]
    rfl

/-- What the parse finds of a cell with its times moved (R41, R42, R21). -/
def Findings.moved (f : Findings) (d90 : Ticks) : Findings :=
  { f with pts := f.pts.map (· + d90), dts := f.dts.map (· + d90), pcr := f.pcr.map fun x => (x.1 + d90, x.2), pcrFlag := f.pcr.isSome }

theorem parseCell_rewriteTimes (h : cell.length = 192) (hs : (parseCell cell).sync = true) (d90 : Ticks) :
    (rewriteTimes (parseCell cell) d90 cell).length = 192 ∧
      parseCell (rewriteTimes (parseCell cell) d90 cell) = (parseCell cell).moved d90 := by
  rw [rewriteTimes_eq]
  obtain ⟨hlen1, hparse1⟩ := moveTime_pts h hs d90
  generalize moveTime (parseCell cell).payload (parseCell cell).pts 9 d90 cell = c1 at *
  have hpayload : (parseCell cell).payload = (parseCell c1).payload := by rw [hparse1]
  have hdts : (parseCell cell).dts = (parseCell c1).dts := by rw [hparse1]
  obtain ⟨hlen2, hparse2⟩ := moveTime_dts hlen1 (by rw [hparse1]; exact hs) d90
  rw [hpayload, hdts]
  generalize moveTime (parseCell c1).payload (parseCell c1).dts 14 d90 c1 = c2 at *
  have hpcr : movePcr (parseCell cell) d90 c2 = movePcr (parseCell c2) d90 c2 := by rw [hparse2, hparse1]; rfl
  obtain ⟨hlen3, hparse3⟩ := movePcr_parse hlen2 (by rw [hparse2, hparse1]; exact hs) d90
  rw [hpcr]
  refine ⟨hlen3, hparse3.trans ?_⟩
  rw [hparse2, hparse1]
  rfl

theorem rewriteTimes_lost (hs : (parseCell cell).sync = false) (d90 : Ticks) : rewriteTimes (parseCell cell) d90 cell = cell := by
  rw [parseCell_lost hs]
  rfl

end

end Sys2Proof.Machine

namespace Sys2Proof.Proofs

open Sys2Proof.Machine

/-- Settles O55: each time is written in its own place, which the parse reads again; with sync lost there is none. -/
theorem timesRewritten : Obligations.TimesRewritten := by
  intro cell d90 h
  cases hs : (parseCell cell).sync with
  | false =>
    rw [rewriteTimes_lost hs, parseCell_lost hs]
    exact ⟨h, rfl, rfl, rfl, rfl, rfl, rfl⟩
  | true =>
    obtain ⟨hlen, hparse⟩ := parseCell_rewriteTimes h hs d90
    rw [hparse]
    exact ⟨hlen, rfl, rfl, rfl, rfl, rfl, rfl⟩

end Sys2Proof.Proofs
end

section
/-! PROOFS. The data of a redirected read: the cell with its times, PID and counter rewritten, and the offsets a switch-in fixes. -/

namespace Sys2Proof.Machine

/-! ### Marks and the last-output record -/

/-- A mark changes no more of a channel than its component CC table (R112). -/
theorem applyMark_frame (p : Pid) (room : Bool) (cell : List Byte) (ch : Channel) :
    (applyMark p room cell ch).2 = { ch with cc := (applyMark p room cell ch).2.cc } := by
  unfold applyMark
  split
  · split <;> rfl
  · rfl

/-- A mark changes a cell that has room for it only, by its discontinuity indicator (R112). -/
theorem applyMark_parse {cell : List Byte} (h : cell.length = 192) (hs : (parseCell cell).sync = true) (p : Pid) (ch : Channel) :
    (applyMark p (parseCell cell).room cell ch).1.length = 192 ∧
      ∃ disc, parseCell (applyMark p (parseCell cell).room cell ch).1 = { parseCell cell with disc := disc } := by
  unfold applyMark
  split
  · split
    · next hm =>
      have hroom := (Bool.and_eq_true_iff.mp hm).2
      exact ⟨(overwrite_length (by simp [h])).trans h, some true, parseCell_withDiscontinuity h hs hroom⟩
    · exact ⟨h, _, rfl⟩
  · exact ⟨h, _, rfl⟩

/-- t_L takes the stamp of every cell as output (R30). -/
theorem update_tL (o : LastOutput) (video pid : Option Pid) (pts : Option Ticks) (stamp : Stamp) :
    (o.update video pid pts stamp).tL = some stamp := by
  unfold LastOutput.update
  split
  · split <;> rfl
  · rfl

theorem nullCell_length (t : Stamp) : (nullCell t).length = 192 := by
  unfold nullCell
  rw [List.length_append, List.length_append, toBytes_length, List.length_replicate]
  rfl

theorem nullCell_parse_stamp (t : Stamp) : (parseCell (nullCell t)).stamp = t := by
  have hfield : field (nullCell t) 0 4 = toBytes 4 t.toNat := by
    unfold field nullCell
    rw [List.drop_zero, List.append_assoc]
    exact List.take_left' (toBytes_length 4 _)
  rw [parseCell_stamp, fieldNat, hfield, beNat_toBytes, Nat.mod_eq_of_lt (show t.toNat < 256 ^ 4 from t.isLt), BitVec.ofNat_toNat,
    BitVec.setWidth_eq]

/-! ### Source cells -/

/-- A cell with sync lost has no PID that a map could name (R107). -/
theorem remap_lost (source net : Components) : remap source net none = none := by
  have htest : ∀ x : Option Pid × Option Pid, (x.1.isSome && x.1 == none) = false := by
    rintro ⟨_ | _, _⟩ <;> rfl
  unfold remap
  rw [List.find?_eq_none.mpr fun x _ => by rw [htest x]; exact Bool.false_ne_true]
  rfl

/-- A source cell with everything but its mark written (R40 to R42, R107, R110). -/
def rewrittenCell (cell : List Byte) (d90 : Ticks) (stamp : Stamp) (p : Pid) (c : CC) : List Byte :=
  withCC (withPid (rewriteTimes (parseCell cell) d90 (withStamp cell stamp)) p) c

/-- The writes touch one finding each (R40 to R42, R107, R110). -/
theorem rewrittenCell_parse {cell : List Byte} (h : cell.length = 192) (hs : (parseCell cell).sync = true) (d90 : Ticks) (stamp : Stamp)
    (p : Pid) (c : CC) :
    (rewrittenCell cell d90 stamp p c).length = 192 ∧
      parseCell (rewrittenCell cell d90 stamp p c) = { (parseCell cell).moved d90 with stamp := stamp, pid := some p, cc := c } := by
  have hlen1 : (withStamp cell stamp).length = 192 := (overwrite_length (by rw [toBytes_length]; omega)).trans h
  have hparse1 := parseCell_withStamp h hs stamp
  have hsame : rewriteTimes (parseCell cell) d90 (withStamp cell stamp) =
      rewriteTimes (parseCell (withStamp cell stamp)) d90 (withStamp cell stamp) := by rw [hparse1]; rfl
  unfold rewrittenCell
  rw [hsame]
  obtain ⟨hlen2, hparse2⟩ := parseCell_rewriteTimes hlen1 (by rw [hparse1]; exact hs) d90
  generalize rewriteTimes (parseCell (withStamp cell stamp)) d90 (withStamp cell stamp) = c2 at *
  rw [hparse1] at hparse2
  have hlen3 : (withPid c2 p).length = 192 := (overwrite_length (by rw [toBytes_length]; omega)).trans hlen2
  have hparse3 := parseCell_withPid hlen2 (by rw [hparse2]; exact hs) p
  refine ⟨(overwrite_length (by simp [hlen3])).trans hlen3, (parseCell_withCC hlen3 (by rw [hparse3, hparse2]; exact hs) c).trans ?_⟩
  rw [hparse3, hparse2]
  rfl

/-- A source cell on a PID that its map names (R38): what its findings are upstream, and what of its channel changes. -/
theorem passSource_mapped {net map : Components} {sw : Option SwitchIn} {wrap : Option Dur} {cell : List Byte} {ch ch' : Channel} {p : Pid}
    (h : cell.length = 192) (hm : remap map net (parseCell cell).pid = some p) (hch : ch.takeSwitch sw wrap (parseCell cell).stamp = ch') :
    ∃ out cc o disc, passSource net map false sw wrap cell ch = (out, { ch' with cc := cc, lastOut := o }) ∧ out.length = 192 ∧
      parseCell out = { (parseCell cell).moved ch'.d90 with
        stamp := (parseCell cell).stamp + ch'.s, pid := some p, cc := insertedCC ((ch'.ccEntry p).bind (·.cc)) (parseCell cell), disc := disc } ∧
      o.tL = some ((parseCell cell).stamp + ch'.s) := by
  have hs : (parseCell cell).sync = true := sync_of_pid fun hnone => by
    rw [hnone, remap_lost] at hm
    cases hm
  subst hch
  unfold passSource
  dsimp only
  rw [if_neg Bool.false_ne_true, hm]
  dsimp only
  generalize ch.takeSwitch sw wrap (parseCell cell).stamp = ch'
  generalize hc : insertedCC ((ch'.ccEntry p).bind (·.cc)) (parseCell cell) = c
  obtain ⟨hlen, hparse⟩ := rewrittenCell_parse h hs ch'.d90 ((parseCell cell).stamp + ch'.s) p c
  unfold rewrittenCell at hlen hparse
  generalize withCC _ c = inner at *
  have hroom : (parseCell cell).room = (parseCell inner).room := by rw [hparse]; rfl
  obtain ⟨hout, disc, hfound⟩ := applyMark_parse hlen (by rw [hparse]; exact hs) p (ch'.modCc p fun e => { e with cc := some c })
  rw [hroom, applyMark_frame]
  exact ⟨_, _, _, disc, rfl, hout, by rw [hfound, hparse], update_tL _ _ _ _ _⟩

/-- Any source cell goes upstream with its stamp moved by S as the switch-in left it, and t_L takes it (R30, R40, R108). -/
theorem passSource_stamp {net map : Components} {sw : Option SwitchIn} {wrap : Option Dur} {cell : List Byte} {ch ch' : Channel}
    (h : cell.length = 192) (hch : ch.takeSwitch sw wrap (parseCell cell).stamp = ch') :
    ∃ out cc o, passSource net map false sw wrap cell ch = (out, { ch' with cc := cc, lastOut := o }) ∧ out.length = 192 ∧
      (parseCell out).stamp = (parseCell cell).stamp + ch'.s ∧ o.tL = some ((parseCell cell).stamp + ch'.s) := by
  cases hm : remap map net (parseCell cell).pid with
  | none =>
    subst hch
    unfold passSource
    dsimp only
    rw [if_neg Bool.false_ne_true, hm]
    exact ⟨_, _, _, rfl, nullCell_length _, nullCell_parse_stamp _, update_tL _ _ _ _ _⟩
  | some p =>
    obtain ⟨out, cc, o, disc, hpass, hlen, hparse, htL⟩ := passSource_mapped h hm hch
    exact ⟨out, cc, o, hpass, hlen, by rw [hparse], htL⟩

/-! ### The read -/

/-- A mark request sets marks in the channel's component CC table only (R112). -/
theorem takeMarkReq_frame (markReq : Bool) (ch : Channel) : ch.takeMarkReq markReq = { ch with cc := (ch.takeMarkReq markReq).cc } := by
  unfold Channel.takeMarkReq
  split <;> rfl

/-- The data of a read with no resume: the cell goes upstream as its serving passes it to the channel that has taken the mark request (R99, R112). -/
theorem offerCell_marked {s : State} {c : ChanNo} {addr : Addr} {rest : List Outstanding} {serving : Serving} {markReq : Bool}
    {cell out : List Byte} {ch : Channel} (hs : s.NoStaged)
    (h : Awaiting s (.read addr 192) (.window { chan := c, serving := serving, markReq := markReq, resume := none }) rest)
    (hc : cell.length = 192)
    (hp : passCell (s.ring (s.netRing c)).shadow.comps serving cell ((s.chan c).takeMarkReq markReq) = (out, ch)) (hst : ch.staged = none) :
    offerCell cell s = .next (({ s with outstanding := rest, downOut := [], upOut := [.readData out] } : State).setChan c ch) := by
  have hret : windowReturn { chan := c, serving := serving, markReq := markReq, resume := none } cell
      { s with outstanding := rest, upOut := [], downOut := [] } =
        (({ s with outstanding := rest, upOut := [], downOut := [] } : State).setChan c ch, out) :=
    congrArg (fun t => (({ s with outstanding := rest, upOut := [], downOut := [] } : State).setChan c t.2, t.1)) hp
  refine offerCell_window h hc hret (fun d => ?_) rfl rfl
  rw [setChan_get]
  split
  · exact hst
  · exact hs d

end Sys2Proof.Machine

namespace Sys2Proof.Proofs

open Sys2Proof.Machine

/-- Settles O52: each finding of the cell is written once, and the offsets stay with no switch-in and no wrap. -/
theorem sourceCellReturned : Obligations.SourceCellReturned := by
  intro s c addr rest map cell f p hs h hc hf hpid hm
  subst hf
  obtain ⟨out, cc, o, disc, hpass, hlen, hparse, htL⟩ := passSource_mapped (ch := s.chan c) (sw := none) (wrap := none) hc hm rfl
  refine ⟨_, out, offerCell_passed hs h hc hpass (hs c), rfl, hlen, ?_⟩
  rw [hparse, setChan_get_self]
  exact ⟨rfl, rfl, rfl, rfl, rfl, rfl, rfl, rfl, htL, rfl, rfl, rfl, rfl, fun d hd => setChan_get_ne _ _ hd.symm⟩

/-- Settles O53: the offsets are those of the place, so the cell's own stamp and S together are the target. -/
theorem switchInFixesOffsets : Obligations.SwitchInFixesOffsets := by
  intro s c addr rest map cell anchor ref target markReq hs h hc
  have hmarks := takeMarkReq_frame markReq (s.chan c)
  obtain ⟨out, cc, o, hpass, hlen, hstamp, htL⟩ := passSource_stamp (net := (s.ring (s.netRing c)).shadow.comps) (map := map) (wrap := none)
    (sw := some { place := some (anchor, target), ref := ref, origin := none }) (ch := (s.chan c).takeMarkReq markReq) hc rfl
  have htarget : (parseCell cell).stamp + (target - (parseCell cell).stamp) = target := by
    rw [BitVec.add_comm, BitVec.sub_add_cancel]
  refine ⟨_, out, offerCell_marked hs h hc hpass (by rw [hmarks]; exact hs c), rfl, hlen, hstamp.trans htarget, ?_⟩
  rw [setChan_get_self]
  exact ⟨rfl, rfl, rfl, htL.trans (congrArg some htarget)⟩

end Sys2Proof.Proofs
end

section
/-! PROOFS. Window reads that end a spot or take an ENGAGE mark. -/

namespace Sys2Proof.Machine

/-! ### A channel changed twice -/

theorem setChan_setChan (s : State) (c : ChanNo) (x y : Channel) : (s.setChan c x).setChan c y = s.setChan c y := by
  unfold State.setChan
  simp

theorem setChan_modChan (s : State) (c : ChanNo) (x : Channel) (f : Channel → Channel) : (s.setChan c x).modChan c f = s.setChan c (f x) := by
  unfold State.modChan
  rw [setChan_get_self, setChan_setChan]

theorem modChan_modChan (s : State) (c : ChanNo) (f g : Channel → Channel) : (s.modChan c f).modChan c g = s.modChan c (g ∘ f) :=
  setChan_modChan s c _ g

theorem setChan_noStaged {s : State} (h : s.NoStaged) {c : ChanNo} {x : Channel} (hx : x.staged = none) : (s.setChan c x).NoStaged := by
  intro d
  rw [setChan_get]
  split
  · exact hx
  · exact h d

/-! ### Which serving a read takes -/

/-- A read in ALERT, its slot neither PSI nor unwritten, plays the alert clip (R106, R147). -/
theorem serveRead_alert {s : State} {c : ChanNo} {cls : SlotClass} {q : SeqNo} {x : Source} {n : ClipNo} (slot : Addr)
    (hs : (s.chan c).state = .alert) (hc : cls ≠ .psi) (ha : (s.chan c).alert = some (x, n)) :
    serveRead c cls (some q) slot s = serveAlert c n s := by
  unfold serveRead serveInsertion
  dsimp only
  rw [hs, ha]
  dsimp only
  rw [if_neg hc, if_neg (by simp)]

/-- A read in a spot, its slot neither PSI nor unwritten, plays the spot's clip (R106, R113). -/
theorem serveRead_spot {s : State} {c : ChanNo} {cls : SlotClass} {q : SeqNo} {p : PodNo} {i : SpotNo} {cell : Nat} (slot : Addr)
    (hs : (s.chan c).state = .insert) (hc : cls ≠ .psi) (hp : (s.chan c).playing = some p) (hpos : (s.chan c).pos = some (.spot i cell)) :
    serveRead c cls (some q) slot s = serveSpot c p i cell (some q) s := by
  unfold serveRead serveInsertion
  dsimp only
  rw [hs, hp, hpos]
  dsimp only
  rw [if_neg hc, if_neg (by simp)]

/-- A read whose mark is taken with no point due is served by the state that the mark leaves (R99). -/
theorem offer_marked {s u t : State} {c : ChanNo} {k : Nat} {addr : Addr} {x : ReadCtx} {v : Served} (h : ReadAt s c k addr)
    (hm : takeMark c s.quiet = (u, x)) (hq : (u.chan c).queue = (s.chan c).queue)
    (hv : serveRead c ((s.ring (s.netRing c)).classOf k) ((s.ring (s.netRing c)).seqOf k) ((s.ring (s.netRing c)).shadow.slotAddr k) u = (t, v))
    (hn : t.NoStaged) :
    offer (.read addr 192) s =
      .next (sendRead { chan := c, serving := v.serving, markReq := x.markReq || x.startMark || v.markReq, resume := x.resume } v.addr t) := by
  have hp : takePoints c ((s.ring (s.netRing c)).seqOf k) (u, x) = (u, x) := by
    unfold takePoints
    split
    · next q hs => exact takeDue_none (fun pt hpt => h.noDue q pt hs (hq ▸ hpt)) _
    · rfl
  have hr : s.quiet.ring (s.quiet.netRing c) = s.ring (s.netRing c) := rfl
  rw [offer_window h.high h.at_]
  unfold spliceRead
  dsimp only
  rw [hm, hr, hp, hv]
  exact congrArg Host.Outcome.next (applyAllStaged_noStaged (hn.of_eq rfl))

/-! ### ENGAGE -/

/-- A channel in NETWORK that has taken an ENGAGE mark onto source `x` with clip `n` (R146, R147). -/
def Channel.engaged (ch : Channel) (x : Source) (n : ClipNo) (sw : SwitchIn) : Channel :=
  { ch with
    mark := .none, state := .alert, saved := some .network, alert := some (x, n), alertCell := 0, pos := none, feed := none,
    pendingIn := some sw, wrapDue := false }

/-- An ENGAGE mark taken in NETWORK (R146). -/
theorem takeMark_engage {s : State} {c : ChanNo} {x : Source} {n : ClipNo} (hm : (s.chan c).mark = .engage) (hst : (s.chan c).state = .network)
    (hx : s.alert.playing = some x) (hn : s.alert.record.clipOf x = some n) :
    takeMark c s = (s.setChan c ((s.chan c).engaged x n (s.estimateSwitchIn n)), { markReq := true }) := by
  have hclip : ∀ f, (s.modChan c f).playingClip = some (x, n) := fun f => by
    unfold State.playingClip
    rw [modChan_alert, hx, Option.bind_some, hn]
    rfl
  have hcontext : ((s.modChan c fun ch => { ch with mark := .none }).chan c).context = some .network := by
    rw [modChan_get_self]
    unfold Channel.context
    dsimp only
    rw [hst]
  unfold takeMark
  dsimp only
  rw [hm, hst]
  dsimp only
  unfold takeEngage
  rw [hcontext, hclip]
  dsimp only
  unfold playSource
  rw [modChan_modChan, modChan_modChan]
  rfl

/-- The cell of the alert clip that is not its last, in no new pass (R147). -/
theorem serveAlert_within {s : State} {c : ChanNo} {n : ClipNo} (hc : (s.chan c).alertCell + 1 < (s.clip n).cellCount.toNat)
    (hw : (s.chan c).wrapDue = false) :
    serveAlert c n s =
      (s.setChan c { (s.chan c).detach with alertCell := (s.chan c).alertCell + 1 },
        { addr := (s.clip n).cellAddr (s.chan c).alertCell, serving := .source (s.clip n).comps false (s.chan c).pendingIn none,
          markReq := (s.chan c).markReq }) := by
  have hlast : ((s.chan c).alertCell + 1 == (s.clip n).cellCount.toNat) = false := beq_false_of_ne hc.ne
  unfold serveAlert Channel.wrapOf
  dsimp only
  rw [hw, hlast, Bool.or_false]
  rfl

/-! ### The last cell of a spot -/

/-- Slot starts depend on a pod's anchor and record and on the clips (R45). -/
theorem slotStart_congr {s t : State} {p : PodNo} (ha : (t.pod p).anchor = (s.pod p).anchor) (hr : (t.pod p).record = (s.pod p).record)
    (hc : t.clips = s.clips) (k : Nat) : t.slotStart p k = s.slotStart p k := by
  unfold State.slotStart State.spotSpan State.clip
  rw [ha, hr, hc]

theorem modSpot_pod_self (p : PodNo) (k : SpotNo) (f : SpotInfo → SpotInfo) (s : State) :
    (modSpot p k f s).pod p = { s.pod p with spotInfo := (s.pod p).spotInfo.set k.val (f ((s.pod p).spotInfo.get k)) } :=
  modPod_get_self s p _

theorem modSpot_slotStart (p : PodNo) (i : SpotNo) (f : SpotInfo → SpotInfo) (s : State) (k : Nat) :
    (modSpot p i f s).slotStart p k = s.slotStart p k := by
  have hpod := modSpot_pod_self p i f s
  exact slotStart_congr (s := s) (t := modSpot p i f s) (p := p) (by rw [hpod]) (by rw [hpod]) rfl k

/-- A channel whose next switch-in is onto slot start `a` at stamp `t` (R45). -/
def Channel.awaiting (ch : Channel) (pos : Position) (a : Ticks) (t : Stamp) (ref : Ticks) : Channel :=
  { ch with
    pos := some pos, wrapDue := false, markReq := true, spotTarget := some t,
    pendingIn := some { place := some (a, t), ref := ref, origin := none } }

/-- The next spot's or the filler's switch-in made pending in a channel just changed (R45). -/
theorem switchToSpot_setChan (s : State) (c : ChanNo) (ch : Channel) (pos : Position) (p : PodNo) (n : ClipNo) (k : Nat) (t : Stamp) :
    switchToSpot c p n k t ((s.setChan c ch).modChan c fun ch => { ch with pos := some pos, markReq := true }) =
      s.setChan c (ch.awaiting pos (s.slotStart p k) t (s.clip n).firstPts) := by
  unfold switchToSpot
  rw [setChan_modChan]
  exact setChan_modChan s c _ _

section
variable {s : State} {c : ChanNo} {p : PodNo} {i : SpotNo} {ch : Channel} {t : Stamp}

theorem nextTarget_setChan (ht : ch.spotTarget = some t) (n : ClipNo) :
    (s.setChan c ch).nextTarget c n = t + inCounts (s.clip n).duration := by
  unfold State.nextTarget
  rw [setChan_get_self, ht]
  rfl

/-- A spot that is not its pod's last ends: it is recorded, and the next one's switch-in is pending (R113, R116). -/
theorem endSpot_next {j : SpotNo} (hj : j.val = i.val + 1) (hlen : j.val < (s.pod p).record.spots.length) (ht : ch.spotTarget = some t) :
    endSpot c p i (s.setChan c ch) =
      setFlag .asrun { (s.setPod p { s.pod p with
          spotInfo := (s.pod p).spotInfo.set i.val { (s.pod p).spotInfo.get i with fate := .recorded } }).setChan c
          (ch.awaiting (.spot j 0) (s.slotStart p j.val) (t + inCounts (s.clip ((s.pod p).record.clipOf i.val)).duration)
            (s.clip ((s.pod p).record.clipOf j.val)).firstPts) with
        asRun := s.asRun.push (s.playedRecord p i .spotAired (s.clip ((s.pod p).record.clipOf i.val)).cellCount.toNat {}) } := by
  have hnext : i + 1 = j := Fin.ext (by rw [Fin.val_add]; have := j.isLt; simp; omega)
  unfold endSpot
  dsimp only
  rw [if_pos (hj ▸ hlen), nextTarget_setChan ht, hnext, ← hj]
  refine (switchToSpot_setChan (markRecorded p i (asRunPush _ s)) c ch _ p _ j.val _).trans ?_
  unfold markRecorded
  rw [modSpot_slotStart]
  rfl

/-- The pod's last spot ends with a filler: the filler's switch-in is pending (R114). -/
theorem endSpot_filler {m : ClipNo} (hlen : (s.pod p).record.spots.length = i.val + 1) (hm : (s.pod p).record.filler = some m)
    (ht : ch.spotTarget = some t) :
    endSpot c p i (s.setChan c ch) =
      s.setChan c (ch.awaiting (.filler 0) (s.slotStart p (i.val + 1)) (t + inCounts (s.clip ((s.pod p).record.clipOf i.val)).duration)
        (s.clip m).firstPts) := by
  unfold endSpot
  dsimp only
  rw [if_neg (by rw [setChan_pod]; omega), nextTarget_setChan ht, setChan_pod, hm, ← hlen]
  exact switchToSpot_setChan s c ch _ p m _ _

/-- The pod's last spot ends with no filler: the pod is exhausted (R114). -/
theorem endSpot_exhausted (hlen : (s.pod p).record.spots.length = i.val + 1) (hm : (s.pod p).record.filler = none) :
    endSpot c p i (s.setChan c ch) =
      s.setChan c { ch with pos := some (.exhausted (s.clip ((s.pod p).record.clipOf i.val)).cellCount.toNat) } := by
  unfold endSpot
  dsimp only
  rw [if_neg (by rw [setChan_pod]; omega), setChan_pod, hm]
  exact setChan_modChan s c ch _

/-- The last cell of a spot: with its first cell the spot begins, and it ends (R113). -/
theorem serveSpot_last {u : State} {cell : Nat} {q : SeqNo} (ht : (s.chan c).spotTarget = some t)
    (hcell : cell + 1 = (s.clip ((s.pod p).record.clipOf i.val)).cellCount.toNat)
    (hu : u = if cell = 0 ∧ ((s.pod p).spotInfo.get i).fate = .unstarted then
        s.setPod p { s.pod p with spotInfo := ((s.pod p).spotInfo.set i.val
          { (s.pod p).spotInfo.get i with fate := .playing, startSeq := some q, startStamp := some t }) }
      else s) :
    serveSpot c p i cell (some q) s =
      (endSpot c p i (u.setChan c { (s.chan c).detach with pos := some (.spot i (cell + 1)) }),
        { addr := (s.clip ((s.pod p).record.clipOf i.val)).cellAddr cell, markReq := (s.chan c).markReq,
          serving := .source (s.clip ((s.pod p).record.clipOf i.val)).comps false (s.chan c).pendingIn none }) := by
  have hbegun : (if cell = 0 ∧ ((s.pod p).spotInfo.get i).fate = .unstarted then beginSpot c p i (some q) (s.modChan c Channel.detach)
      else s.modChan c Channel.detach) = u.setChan c (s.chan c).detach := by
    rw [hu]
    split
    · unfold beginSpot
      rw [modChan_get_self, show (s.chan c).detach.spotTarget = some t from ht]
      rfl
    · rfl
  unfold serveSpot
  dsimp only
  rw [if_pos hcell]
  refine congrArg (fun v => (endSpot c p i v, _)) ?_
  exact (congrArg (fun v : State => v.modChan c _) hbegun).trans (setChan_modChan u c _ _)

end

end Sys2Proof.Machine

namespace Sys2Proof.Proofs

open Sys2Proof.Machine

/-- Settles O45: the mark leaves the channel in ALERT at cell 0, whose read then moves on to cell 1. -/
theorem engageMarkTaken : Obligations.EngageMarkTaken := by
  intro s c k addr x n q h hm hst hx hn hq hcls hcount
  have hget := setChan_get_self s.quiet c ((s.chan c).engaged x n (s.quiet.estimateSwitchIn n))
  have hserve := (serveRead_alert (q := q) ((s.ring (s.netRing c)).shadow.slotAddr k) (congrArg Channel.state hget) hcls
    (congrArg Channel.alert hget)).trans (serveAlert_within (by rw [hget]; exact hcount) (congrArg Channel.wrapDue hget))
  rw [hget, setChan_setChan, ← hq] at hserve
  exact offer_marked h (takeMark_engage (s := s.quiet) hm hst hx hn) (congrArg Channel.queue hget :) hserve
    (setChan_noStaged (s := s.quiet) h.noStaged (h.noStaged c))

/-- Settles O41: with its first cell the spot begins, and its end is that of a spot that is not the last, of a last one with a filler or with none. -/
theorem spotEnds : Obligations.SpotEnds := by
  intro s u c k addr p i cell n q target h hm hst hp hpos hn hq hcls hcount ht hu
  subst hn
  obtain ⟨info, hpod⟩ : ∃ info, u.pod p = { s.pod p with spotInfo := info } := by
    rw [hu]
    split
    · exact ⟨_, setPod_get_self _ _ _⟩
    · exact ⟨_, rfl⟩
  have hrest : u = { s.quiet with pods := u.pods } := by
    rw [hu]
    split <;> rfl
  have hrec : (u.pod p).record = (s.pod p).record := by rw [hpod]
  have hclips : u.clips = s.clips := by rw [hrest]; rfl
  have hclip : ∀ n, u.clip n = s.clip n := fun n => by unfold State.clip; rw [hclips]
  have hstart := slotStart_congr (s := s) (t := u) (p := p) (by rw [hpod]) hrec hclips
  have hasRun : u.asRun = s.asRun := by rw [hrest]; rfl
  have hfree : u.NoStaged := h.noStaged.of_eq (by rw [hrest]; rfl)
  have hserve := (serveRead_spot (s := s.quiet) (q := q) ((s.ring (s.netRing c)).shadow.slotAddr k) hst hcls hp hpos).trans
    (serveSpot_last ht hcount hu)
  rw [← hq] at hserve
  have hread := fun (t : State) he hns => offer_served (t := t) h hm (hserve.trans (congrArg (Prod.mk · _) he)) hns
  refine ⟨fun j m hj hlen hm => ?_, fun hlen => ⟨fun m hm => ?_, fun hm => ?_⟩⟩
  · subst hm
    refine hread _ ?_ fun d => setChan_noStaged hfree (by exact h.noStaged c) d
    rw [endSpot_next hj (by rw [hrec]; exact hlen) (by exact ht), hrec, hstart, hclip, hclip, hasRun]
    rfl
  · refine hread _ ?_ (setChan_noStaged hfree (h.noStaged c))
    rw [endSpot_filler (by rw [hrec]; exact hlen) (by rw [hrec]; exact hm) (by exact ht), hrec, hstart, hclip, hclip]
    rfl
  · refine hread _ ?_ (setChan_noStaged hfree (h.noStaged c))
    rw [endSpot_exhausted (by rw [hrec]; exact hlen) (by rw [hrec]; exact hm), hrec, hclip]
    rfl

end Sys2Proof.Proofs
end

section
/-! PROOFS. The capacities of the queues over a whole step, and CANCEL_EVENT. -/

namespace Sys2Proof.Machine

/-! ### What a command keeps -/

/-- What a reset leaves holds nothing in any queue. -/
theorem afterReset_capacity (s : State) : Capacity s.afterReset :=
  reset_capacity.of_eq rfl (fun _ => le_rfl) (fun _ => le_rfl) le_rfl

theorem powerOn_capacity (straps : Byte) (s : State) : Capacity (powerOn straps s) :=
  (afterReset_capacity s).of_eq rfl (fun _ => le_rfl) (fun _ => le_rfl) le_rfl

theorem rstAssert_capacity (s : State) : Capacity (rstAssert s) :=
  (afterReset_capacity s).of_eq rfl (fun _ => le_rfl) (fun _ => le_rfl) le_rfl

theorem rstRelease_capacity (straps : Byte) {s : State} (h : Capacity s) : Capacity (rstRelease straps s) := by
  unfold rstRelease
  split
  · exact h.of_eq rfl (fun _ => le_rfl) (fun _ => le_rfl) le_rfl
  · exact h

theorem execRingFullCellWrite_keeps {addr : Addr} {cell : List Byte} {s t : State} (h : execRingFullCellWrite addr cell s = .next t) :
    Keeps s t := by
  unfold execRingFullCellWrite at h
  split at h
  · exact offer_keeps h
  · cases h

theorem execWriteAcknowledgement_keeps {s t : State} (h : execWriteAcknowledgement s = .next t) : Keeps s t :=
  (quiet_keeps s).trans (takeWriteAck_keeps h)

theorem execLineSample_keeps {alrq0 alrq1 protN : Bool} {s t : State} (h : execLineSample alrq0 alrq1 protN s = .next t) : Keeps s t := by
  unfold execLineSample at h
  split at h
  · cases h; exact quiet_keeps s
  · cases h; exact (quiet_keeps s).trans (sampleLines_alr _ _ _ _).keeps

theorem execEpisodeTimerAdvance_keeps {s t : State} (h : execEpisodeTimerAdvance s = .next t) : Keeps s t := by
  unfold execEpisodeTimerAdvance at h
  split at h
  · cases h; exact quiet_keeps s
  · cases h; exact (quiet_keeps s).trans (advanceTimer_alr _).keeps

/-- Every command but the resets and the release of RST_N keeps what `Keeps` names: it offers a request, brings a response, or is an event of the
reference clock. -/
theorem exec_keeps {s t : State} : (i : Instr) → (∀ straps, i ≠ .powerOnReset straps) → i ≠ .rstNAssert →
    (∀ straps, i ≠ .rstNRelease straps) → exec i s = .next t → Keeps s t
  | .powerOnReset straps, hp, _, _, _ => absurd rfl (hp straps)
  | .rstNAssert, _, ha, _, _ => absurd rfl ha
  | .rstNRelease straps, _, _, hr, _ => absurd rfl (hr straps)
  | .otherTraffic _, _, _, _, h | .statusWindowRead _ _, _, _, _, h | .ringPartialWrite _, _, _, _, h
  | .windowPartialRead _ _, _, _, _, h | .windowWrite _, _, _, _, h | .recordWritePartial _, _, _, _, h | .mailboxMalformedWrite _, _, _, _, h
  | .statusWordPartialWrite _, _, _, _, h | .controlRegionOtherWrite _, _, _, _, h => offer_keeps h
  | .windowFullCellRead addr, _, _, _, h => offer_keeps (r := .read addr Config.cellSize) h
  | .ringFullCellWrite _ _, _, _, _, h => execRingFullCellWrite_keeps h
  | .ringRecordWrite _ _, _, _, _, h | .channelRecordWrite _ _, _, _, _, h | .alertRecordWrite _, _, _, _, h | .podRecordWrite _ _, _, _, _, h
  | .clipRecordWrite _ _, _, _, _, h | .spliceNow _, _, _, _, h | .returnNow _, _, _, _, h | .cancelEvent _, _, _, _, h
  | .podRevoke _, _, _, _, h | .feedStart _, _, _, _, h | .feedStop _, _, _, _, h | .alertEngage _, _, _, _, h | .alertEnd _, _, _, _, h
  | .lockdown _, _, _, _, h | .softReset _, _, _, _, h | .flagClear _, _, _, _, h | .flagEnables _, _, _, _, h
  | .counterClear _, _, _, _, h | .consumeIndex _, _, _, _, h => offerWhole_keeps h
  | .forwardedReadResponse _, _, _, _, h => offerData_keeps h
  | .sourceCellReturn _, _, _, _, h | .networkCellReturn _, _, _, _, h | .networkSlotNullReturn _, _, _, _, h => offerCell_keeps h
  | .writeAcknowledgement, _, _, _, h => execWriteAcknowledgement_keeps h
  | .lineSample _ _ _, _, _, _, h => execLineSample_keeps h
  | .episodeTimerAdvance, _, _, _, h => execEpisodeTimerAdvance_keeps h

/-- No command overfills a queue (R55, R84, R92, R157). -/
theorem exec_capacity {i : Instr} {s t : State} (k : Capacity s) (h : exec i s = .next t) : Capacity t := by
  by_cases hp : ∃ straps, i = .powerOnReset straps
  · obtain ⟨straps, rfl⟩ := hp
    cases h
    exact powerOn_capacity straps s
  by_cases ha : i = .rstNAssert
  · subst ha
    cases h
    exact rstAssert_capacity s
  by_cases hr : ∃ straps, i = .rstNRelease straps
  · obtain ⟨straps, rfl⟩ := hr
    cases h
    exact rstRelease_capacity straps ((quiet_keeps s).cap k)
  · exact (exec_keeps i (not_exists.mp hp) ha (not_exists.mp hr) h).cap k

/-- The commands that wait hold no place in any of the four queues. -/
theorem Capacity.pending {s : State} (h : Capacity s) (rest : List Instr) : Capacity { s with pending := rest } :=
  h.of_eq rfl (fun _ => le_rfl) (fun _ => le_rfl) le_rfl

/-! ### Mailbox commands -/

/-- A mailbox command on a clear control region leaves its work, which left no staged copy, and its result (R120, R163). -/
theorem offerMailbox_answered {n : Nat} {mb : List Byte} {s u : State} {result : Result} (h1 : 1 ≤ n) (h10 : n ≤ 10) (hb : mb.length = 16)
    (h : ControlClear s (0x3000 + 16 * (n - 1)) 16) (hu : command n mb (s.carried (0x3000 + 16 * (n - 1)) mb) = (u, result))
    (hn : u.NoStaged) : offerMailbox n mb s = .next (answered n mb result u) := by
  have hrun : runCommand n mb (s.carried (0x3000 + 16 * (n - 1)) mb) = answered n mb result u := by
    unfold runCommand
    rw [hu]
    rfl
  have hstaged : (answered n mb result u).NoStaged := hn.of_eq (finishCommand_channels _ _ _ u)
  rw [offerMailbox_clear h1 h10 hb h, hrun, applyAllStaged_noStaged hstaged]

/-- The state whose write went downstream holds no staged copy when the state before held none. -/
theorem State.NoStaged.carried {s : State} (h : s.NoStaged) (off : Nat) (bytes : List Byte) : (s.carried off bytes).NoStaged := h.of_eq rfl

theorem ringOf_above {n : Nat} (h : 47 < n) : ringOf n = none := dif_neg (by omega)

theorem ringOf_val (r : RingNo) : ringOf r.val = some r := dif_pos r.isLt

/-! ### CANCEL_EVENT -/

/-- The one number of all below `n` that passes a test is what a filter leaves. -/
theorem filter_finRange_one {n : Nat} {test : Fin n → Bool} {i : Fin n} (h : test i = true) (hn : ∀ j, j ≠ i → test j = false) :
    (List.finRange n).filter test = [i] := by
  have e : (List.finRange n).filter test = (List.finRange n).filter (· == i) := by
    refine List.filter_congr fun j _ => ?_
    by_cases hj : j = i
    · rw [hj, h, beq_self_eq_true]
    · rw [hn j hj, beq_false_of_ne hj]
  rw [e, List.filter_beq, List.count_eq_one_of_mem (List.nodup_finRange n) (List.mem_finRange i)]
  rfl

/-- Pod `p` waits for event `e` of ring `r`, BOUND or PENDING: a CANCEL unbinds it (R63 step 2). -/
def State.cancels (s : State) (r : RingNo) (e : BitVec 32) (p : PodNo) : Bool :=
  s.bindingIs p r e && ((s.pod p).state == .bound || (s.pod p).state == .pending)

/-- The state without the queue entries of ring `r` and event `e` (R63 step 1). -/
def State.withoutCue (s : State) (r : RingNo) (e : BitVec 32) : State :=
  { s with cueQueue := s.cueQueue.filter fun x => !decide (x.ring = r ∧ x.event = e) }

/-- A CANCEL removes the entries, then unbinds the pods ascending (R63). -/
theorem cancelBreak_eq (r : RingNo) (e : BitVec 32) (s : State) :
    (cancelBreak r e s).1 = forEach (allPods.filter (s.cancels r e)) unbind (s.withoutCue r e) := rfl

theorem cancelEvent_above {mb : List Byte} {s : State} (h : 47 < (byteAt mb 4).toNat) : cancelEvent mb s = (s, .range) := by
  unfold cancelEvent
  rw [ringOf_above h]

theorem cancelEvent_ring {mb : List Byte} {r : RingNo} (s : State) (h : (byteAt mb 4).toNat = r.val) :
    cancelEvent mb s = (forEach (allPods.filter (s.cancels r (BitVec.ofNat 32 (fieldNat mb 8 4)))) unbind
      (s.withoutCue r (BitVec.ofNat 32 (fieldNat mb 8 4))), .accepted) := by
  unfold cancelEvent
  rw [h, ringOf_val]
  exact congrArg (·, Result.accepted) (cancelBreak_eq r _ s)

/-- The command on a clear control region leaves what `cancelEvent` makes of the state whose write went downstream. -/
theorem exec_cancelEvent {mb : List Byte} {s u : State} {result : Result} (h : ControlClear s 0x3020 16) (hb : mb.length = 16)
    (hu : cancelEvent mb (s.carried 0x3020 mb) = (u, result)) : exec (.cancelEvent mb) s = .next (answered 3 mb result u) := by
  have hs : Sched (s.carried 0x3020 mb) u := by
    have := cancelEvent_sched mb (s.carried 0x3020 mb)
    rwa [hu] at this
  exact offerMailbox_answered (n := 3) (by decide) (by decide) hb h hu (hs.toEng.noStaged (h.noStaged.carried _ _))

/-- With no BOUND or PENDING pod of the event a CANCEL has no pod to unbind. -/
theorem cancels_none {s : State} {r : RingNo} {e : BitVec 32}
    (h : ∀ p, s.bindingIs p r e = true → (s.pod p).state ≠ .bound ∧ (s.pod p).state ≠ .pending) : allPods.filter (s.cancels r e) = [] := by
  rw [List.filter_eq_nil_iff]
  intro p _ hp
  simp only [State.cancels, Bool.and_eq_true, Bool.or_eq_true, beq_iff_eq] at hp
  obtain ⟨hb, hst⟩ := hp
  obtain ⟨hbound, hpending⟩ := h p hb
  exact hst.elim hbound hpending

/-- With one pod bound to the event, and BOUND, a CANCEL unbinds that pod. -/
theorem cancels_one {s : State} {r : RingNo} {e : BitVec 32} {p : PodNo} (hb : s.bindingIs p r e = true) (hst : (s.pod p).state = .bound)
    (ho : ∀ q, q ≠ p → s.bindingIs q r e = false) : allPods.filter (s.cancels r e) = [p] :=
  filter_finRange_one (by simp [State.cancels, hb, hst]) fun q hq => by simp [State.cancels, ho q hq]

/-- When every queue entry is the event's, none stays. -/
theorem withoutCue_cueQueue {s : State} {r : RingNo} {e : BitVec 32} (h : ∀ x, x ∈ s.cueQueue → x.ring = r ∧ x.event = e) :
    (s.withoutCue r e).cueQueue = [] := by
  refine List.filter_eq_nil_iff.mpr fun x hx => ?_
  simp [h x hx]

end Sys2Proof.Machine

namespace Sys2Proof.Proofs

open Sys2Proof.Machine

/-- Settles O58: the command runs with the rest of the commands kept, and none overfills a queue; with none waiting nothing changes. -/
theorem capacityKept : Obligations.CapacityKept := by
  intro s t k h
  unfold step at h
  split at h
  · cases h
    exact k
  · exact exec_capacity (k.pending _) h

/-- Settles O59: at reset every queue is empty. -/
theorem capacityAtReset : Obligations.CapacityAtReset := reset_capacity

/-- Settles O20: the ring number is out of range, or the entries go and there is no pod to unbind. -/
theorem cancelEventRemoves : Obligations.CancelEventRemoves := by
  intro s mb h hl
  refine ⟨fun hr => exec_cancelEvent h hl (cancelEvent_above hr), fun r e hr he hno => ?_⟩
  subst he
  have hcancel := cancelEvent_ring (s.carried 0x3020 mb) hr
  rw [cancels_none (s := s.carried 0x3020 mb) hno] at hcancel
  exact exec_cancelEvent h hl hcancel

/-- Settles O21: with the queue emptied the pod that is unbound finds no other cue, so it waits READY. -/
theorem cancelEventUnbinds : Obligations.CancelEventUnbinds := by
  intro s mb r e p h hl hr he hb hst ho hq
  subst he
  have hcancel := cancelEvent_ring (s.carried 0x3020 mb) hr
  rw [cancels_one (s := s.carried 0x3020 mb) hb hst ho] at hcancel
  have hempty := withoutCue_cueQueue (s := s.carried 0x3020 mb) hq
  refine ⟨_, exec_cancelEvent h hl (hcancel.trans (congrArg (·, Result.accepted) (unbind_noCues hempty))), ?_⟩
  have hpod := makeReady_pod p p (dropPodTargets p ((s.carried 0x3020 mb).withoutCue r (BitVec.ofNat 32 (fieldNat mb 8 4))))
  rw [if_pos rfl] at hpod
  refine ⟨congrArg Pod.state hpod, congrArg Pod.binding hpod, (congrArg Pod.record hpod).trans rfl, ?_, fun k => ?_, hempty, rfl⟩
  · exact (makeReady_readyList p _ _).trans (if_pos rfl)
  · exact dropPodTargets_watchList p k _

end Sys2Proof.Proofs
end

section
/-! PROOFS. Clip and pod record writes, pods bound by SPLICE_NOW, and pods closed by POD_REVOKE. -/

namespace Sys2Proof.Machine

/-! ### Clip records -/

theorem takeClipRecord_inUse {n : ClipNo} {s : State} (bytes : List Byte) (h : s.clipInUse n = true) :
    takeClipRecord n bytes s = (s, some .inUse) := by
  unfold takeClipRecord
  dsimp only
  rw [if_pos h]

theorem takeClipRecord_invalid {n : ClipNo} {bytes : List Byte} {s : State} (h : s.clipInUse n = false) (hv : (parseClip bytes).valid = false) :
    takeClipRecord n bytes s = (s.setClip n (parseClip bytes), some .invalid) := by
  simp [takeClipRecord, h, hv]

/-- No READY pod waits for the clip, so none is tried again (R66). -/
theorem takeClipRecord_valid {n : ClipNo} {bytes : List Byte} {s : State} (h : s.clipInUse n = false) (hv : (parseClip bytes).valid = true)
    (hp : ∀ p, (s.pod p).state = .ready → (s.pod p).record.lists n = false) :
    takeClipRecord n bytes s = (s.setClip n (parseClip bytes), none) := by
  have hheld : (allPods.filter fun p => (s.pod p).state == .ready && (s.pod p).record.lists n &&
      (s.setClip n (parseClip bytes)).clipsValid (s.pod p).record) = [] := by
    rw [List.filter_eq_nil_iff]
    intro p _ hpod
    simp only [Bool.and_eq_true, beq_iff_eq] at hpod
    obtain ⟨⟨hready, hlists⟩, -⟩ := hpod
    exact Bool.false_ne_true ((hp p hready).symm.trans hlists)
  unfold takeClipRecord
  simp only [h, hv, setClip_pod, hheld, Bool.false_eq_true, Bool.not_true, if_false]
  split <;> rfl

/-- A clip record's write is settled by its owner's answer (R66, R161). -/
theorem exec_clipRecord {s : State} {n : ClipNo} {record : List Byte} {answer : State × Option RefuseReason}
    (h : ControlClear s (0x8000 + 32 * n.val) 32) (hl : record.length = 32)
    (ha : takeClipRecord n record (s.carried (0x8000 + 32 * n.val) record) = answer)
    (hs : (settleClip (s.regionAddr (0x8000 + 32 * n.val)) answer).NoStaged) :
    exec (.clipRecordWrite n record) s = .next (settleClip (s.regionAddr (0x8000 + 32 * n.val)) answer) := by
  have hn := n.isLt
  subst ha
  exact (offerRecord_clear (id := .clip n) hl rfl (by omega) (recordAt_clip n) h).trans
    (congrArg Host.Outcome.next (applyAllStaged_noStaged hs))

/-! ### Pod records -/

theorem isBusy_iff {x : PodState} : x.isBusy = true ↔ x ≠ .empty ∧ x ≠ .ready := by cases x <;> decide

/-- An EMPTY pod is loaded at the tail of its channel's ready list, then tried against the cue queue (R71). -/
theorem loadPod_empty {p : PodNo} {s : State} (rec : PodRecord) (h : (s.pod p).state = .empty) :
    loadPod p rec s =
      tryQueue p ((s.setPod p { (s.pod p).becomeReady with record := rec }).setReady rec.chan (s.readyList rec.chan ++ [p])) := by
  have hr : ((s.pod p).state == .ready) = false := by rw [h]; rfl
  unfold loadPod
  simp only [hr, Bool.false_and, Bool.false_eq_true, if_false]
  rfl

/-- A pod record for an EMPTY pod, its load flag set and its clips all VALID, loads the pod (R70, R71). -/
theorem takePodRecord_load {p : PodNo} {bytes : List Byte} {s : State} {rec : PodRecord} (h : (s.pod p).state = .empty)
    (hload : bitAt bytes 0 0 = true) (hrec : parsePod bytes = some rec) (hv : s.clipsValid rec = true) :
    takePodRecord p bytes s =
      .ok (tryQueue p ((s.setPod p { (s.pod p).becomeReady with record := rec }).setReady rec.chan (s.readyList rec.chan ++ [p]))) := by
  unfold takePodRecord
  rw [h, if_neg (by decide), show podLoadFlag bytes = true from hload, if_neg (by decide), hrec, ← loadPod_empty rec h]
  exact if_pos hv

/-- A pod record for an EMPTY pod, its load flag set, that is ill-formed or lists a clip that is not VALID (R70). -/
theorem takePodRecord_invalid {p : PodNo} {bytes : List Byte} {s : State} (h : (s.pod p).state = .empty) (hload : bitAt bytes 0 0 = true)
    (hbad : ∀ rec, parsePod bytes = some rec → s.clipsValid rec = false) : takePodRecord p bytes s = .error .invalid := by
  unfold takePodRecord
  rw [h, if_neg (by decide), show podLoadFlag bytes = true from hload, if_neg (by decide)]
  cases hrec : parsePod bytes with
  | none => rfl
  | some rec => exact if_neg (by rw [hbad rec hrec]; decide)

/-- A pod record's write is settled by its owner's answer (R161, R162). -/
theorem exec_podRecord {s : State} {p : PodNo} {record : List Byte} {answer : Except RefuseReason State}
    (h : ControlClear s (0x7000 + 64 * p.val) 64) (hl : record.length = 64)
    (ha : takePodRecord p record (s.carried (0x7000 + 64 * p.val) record) = answer)
    (hs : (settle (s.regionAddr (0x7000 + 64 * p.val)) answer (s.carried (0x7000 + 64 * p.val) record)).NoStaged) :
    exec (.podRecordWrite p record) s =
      .next (settle (s.regionAddr (0x7000 + 64 * p.val)) answer (s.carried (0x7000 + 64 * p.val) record)) := by
  have hp := p.isLt
  subst ha
  exact (offerRecord_clear (id := .pod p) hl rfl (by omega) (recordAt_pod p) h).trans
    (congrArg Host.Outcome.next (applyAllStaged_noStaged hs))

/-! ### Commands that are the Break Scheduler's -/

theorem chanOf_val (c : ChanNo) : chanOf c.val = some c := dif_pos c.isLt

theorem podOf_val (p : PodNo) : podOf p.val = some p := dif_pos p.isLt

theorem podOf_above {n : Nat} (h : 63 < n) : podOf n = none := dif_neg (by omega)

/-- A mailbox command that stays within `Sched`, on a clear control region, leaves its work and its result. -/
theorem offerMailbox_sched {n : Nat} {mb : List Byte} {s u : State} {result : Result} (h1 : 1 ≤ n) (h10 : n ≤ 10) (hb : mb.length = 16)
    (h : ControlClear s (0x3000 + 16 * (n - 1)) 16) (hu : command n mb (s.carried (0x3000 + 16 * (n - 1)) mb) = (u, result))
    (hs : Sched (s.carried (0x3000 + 16 * (n - 1)) mb) (command n mb (s.carried (0x3000 + 16 * (n - 1)) mb)).1) :
    offerMailbox n mb s = .next (answered n mb result u) := by
  rw [hu] at hs
  exact offerMailbox_answered h1 h10 hb h hu (hs.toEng.noStaged (h.noStaged.carried _ _))

/-! ### SPLICE_NOW -/

/-- With a free place in the watch list the binding is made (R79). -/
theorem bindPod_room {r : RingNo} {s : State} (h : s.watchHasRoom r = true) (p : PodNo) (c : ChanNo) (event : Option (BitVec 32)) (cv : CueValues) :
    bindPod p c r event cv s =
      (arm r (.out p) c cv.target cv.markSeq ((s.setReady c ((s.readyList c).filter (· != p))).modPod p (Pod.bind r event cv)), true) := by
  unfold bindPod
  rw [if_pos h]

/-- A pod number is not the byte that asks for the oldest pod (R164). -/
theorem podByte_ne {b : Byte} {p : PodNo} (h : b.toNat = p.val) : b ≠ 0xFF := by
  have := p.isLt
  rintro rfl
  simp at h
  omega

/-- The READY pod of the channel that the byte names, its clips VALID, is chosen (R164). -/
theorem spliceChoice_named {s : State} {c : ChanNo} {b : Byte} {p : PodNo} (hb : b.toNat = p.val) (hst : (s.pod p).state = .ready)
    (hc : (s.pod p).record.chan = c) (hv : s.clipsValid (s.pod p).record = true) : s.spliceChoice c b = some p := by
  unfold State.spliceChoice
  rw [if_neg (podByte_ne hb), hb, podOf_val, Option.filter_some, hst, hc, hv, beq_self_eq_true, beq_self_eq_true]
  rfl

/-- SPLICE_NOW with a pod chosen and a free place binds that pod (R80, R164). -/
theorem spliceNow_binds {mb : List Byte} {s : State} {c : ChanNo} {p : PodNo} (hc : (byteAt mb 4).toNat = c.val)
    (hb : (byteAt mb 5).toNat = p.val ∨ byteAt mb 5 = 0xFF) (hst : (s.chan c).state = .network) (hq : (s.chan c).queue = [])
    (hp : s.spliceChoice c (byteAt mb 5) = some p) (hroom : s.watchHasRoom (s.netRing c) = true) :
    spliceNow mb s =
      (arm (s.netRing c) (.out p) c .immediate ((s.ring (s.netRing c)).mark.map (·.seq))
        ((s.setReady c ((s.readyList c).filter (· != p))).modPod p (Pod.bind (s.netRing c) none (s.spliceValues (s.netRing c)))), .accepted) := by
  have hrange : ¬ (byteAt mb 5 ≠ 0xFF ∧ 63 < (byteAt mb 5).toNat) := by
    rintro ⟨hne, habove⟩
    have := p.isLt
    exact hb.elim (fun h => by omega) hne
  have hstate : ¬ ((s.chan c).state ≠ .network ∨ (s.chan c).queue ≠ []) := fun h => h.elim (· hst) (· hq)
  unfold spliceNow
  dsimp only
  rw [hc, chanOf_val]
  dsimp only
  rw [if_neg hrange, if_neg hstate, hp]
  dsimp only
  rw [bindPod_room hroom]
  rfl

/-! ### A pod that is closed (R75) -/

/-- State `t` is `s` but for its as-run queue, its flags and pod `p`: what the SPOT_NOT_AIRED records of the pod change. -/
def State.SpotsRecorded (p : PodNo) (s t : State) : Prop :=
  (∃ asRun flags pods, t = { s with asRun := asRun, flags := flags, pods := pods }) ∧ ∀ q, q ≠ p → t.pod q = s.pod q

theorem State.SpotsRecorded.refl (p : PodNo) (s : State) : s.SpotsRecorded p s := ⟨⟨_, _, _, rfl⟩, fun _ _ => rfl⟩

theorem State.SpotsRecorded.trans {p : PodNo} {s t u : State} : s.SpotsRecorded p t → t.SpotsRecorded p u → s.SpotsRecorded p u := by
  rintro ⟨⟨_, _, _, rfl⟩, hst⟩ ⟨⟨_, _, _, rfl⟩, htu⟩
  exact ⟨⟨_, _, _, rfl⟩, fun q hq => (htu q hq).trans (hst q hq)⟩

theorem recordNotAired_spots (p : PodNo) (why : Reason) (ends : EndFlags) (k : SpotNo) (s : State) :
    s.SpotsRecorded p (recordNotAired p why ends k s) := by
  unfold recordNotAired
  split
  · exact ⟨⟨_, _, _, rfl⟩, fun q hq => modPod_get_ne _ _ hq.symm⟩
  · exact State.SpotsRecorded.refl p s

/-- A pod is closed on a state in which no more than its own records have been made. -/
theorem closePod_eq (p : PodNo) (why : Reason) (ends : EndFlags) (s : State) :
    ∃ u, s.SpotsRecorded p u ∧ (u.pod p).record = (s.pod p).record ∧ closePod p why ends s = (dropPodTargets p u).modPod p Pod.close :=
  ⟨_, forEach_rel (State.SpotsRecorded.refl p) State.SpotsRecorded.trans (recordNotAired_spots p why ends) allSpots s,
    (forEach_sched (recordNotAired_sched p why ends) allSpots s).recs p, rfl⟩

theorem closePod_cueQueue (p : PodNo) (why : Reason) (ends : EndFlags) (s : State) : (closePod p why ends s).cueQueue = s.cueQueue := by
  obtain ⟨u, ⟨⟨_, _, _, rfl⟩, -⟩, -, hu⟩ := closePod_eq p why ends s
  rw [hu]
  rfl

theorem closePod_watchList (p : PodNo) (why : Reason) (ends : EndFlags) (s : State) (r : RingNo) :
    (closePod p why ends s).watchList r = (s.watchList r).filter fun e => !(e.kind.pod? == some p) := by
  obtain ⟨u, ⟨⟨_, _, _, rfl⟩, -⟩, -, hu⟩ := closePod_eq p why ends s
  rw [hu]
  exact dropPodTargets_watchList p r _

theorem closePod_chan (p : PodNo) (why : Reason) (ends : EndFlags) (s : State) (c : ChanNo) :
    (closePod p why ends s).chan c =
      if c = (s.pod p).record.chan then { s.chan c with queue := (s.chan c).queue.filter fun pt => !(pt.kind.pod? == some p) }
      else s.chan c := by
  obtain ⟨u, ⟨⟨_, _, _, rfl⟩, -⟩, hrec, hu⟩ := closePod_eq p why ends s
  rw [hu, modPod_chan, dropPodTargets_chan, hrec]
  rfl

theorem closePod_queue (p : PodNo) (why : Reason) (ends : EndFlags) (s : State) :
    ((closePod p why ends s).chan (s.pod p).record.chan).queue =
      (s.chan (s.pod p).record.chan).queue.filter fun pt => !(pt.kind.pod? == some p) := by
  rw [closePod_chan, if_pos rfl]

theorem closePod_pod_self (p : PodNo) (why : Reason) (ends : EndFlags) (s : State) :
    ((closePod p why ends s).pod p).state = .empty ∧ ((closePod p why ends s).pod p).binding = none ∧
      ((closePod p why ends s).pod p).anchor = none := by
  obtain ⟨u, -, -, hu⟩ := closePod_eq p why ends s
  rw [hu, modPod_get_self]
  exact ⟨rfl, rfl, rfl⟩

theorem closePod_pod_ne {p q : PodNo} (why : Reason) (ends : EndFlags) (s : State) (h : q ≠ p) : (closePod p why ends s).pod q = s.pod q := by
  obtain ⟨u, ⟨-, hpods⟩, -, hu⟩ := closePod_eq p why ends s
  rw [hu, modPod_get_ne _ _ h.symm, dropPodTargets_pod]
  exact hpods q h

/-! ### POD_REVOKE -/

theorem revokePod_state {p : PodNo} {s : State} (h : (s.pod p).state = .empty ∨ (s.pod p).state = .airing ∨ (s.pod p).state = .suspended) :
    revokePod p s = (s, .state) := by
  unfold revokePod
  rcases h with h | h | h <;> rw [h]

theorem revokePod_ready {p : PodNo} {s : State} (h : (s.pod p).state = .ready) :
    revokePod p s =
      ((s.setReady (s.pod p).record.chan ((s.readyList (s.pod p).record.chan).filter (· != p))).setPod p { s.pod p with state := .empty },
        .accepted) := by
  unfold revokePod
  rw [h]
  rfl

theorem revokePod_closes {p : PodNo} {s : State} (h : (s.pod p).state = .bound ∨ (s.pod p).state = .pending) :
    revokePod p s = (closePod p .revoked {} s, .accepted) := by
  unfold revokePod
  rcases h with h | h <;> rw [h]

theorem podRevoke_pod {mb : List Byte} {p : PodNo} (s : State) (h : (byteAt mb 4).toNat = p.val) : podRevoke mb s = revokePod p s := by
  unfold podRevoke
  rw [h, podOf_val]

theorem podRevoke_above {mb : List Byte} (s : State) (h : 63 < (byteAt mb 4).toNat) : podRevoke mb s = (s, .range) := by
  unfold podRevoke
  rw [podOf_above h]

/-- The command on a clear control region leaves what `podRevoke` makes of the state whose write went downstream. -/
theorem exec_podRevoke {mb : List Byte} {s u : State} {result : Result} (h : ControlClear s 0x3030 16) (hb : mb.length = 16)
    (hu : podRevoke mb (s.carried 0x3030 mb) = (u, result)) : exec (.podRevoke mb) s = .next (answered 4 mb result u) :=
  offerMailbox_sched (n := 4) (by decide) (by decide) hb h hu (podRevoke_sched mb _)

end Sys2Proof.Machine

namespace Sys2Proof.Proofs

open Sys2Proof.Machine

/-- Settles O36: the record's owner answers by the clip's use and the record's validity. -/
theorem clipRecordWritten : Obligations.ClipRecordWritten := by
  intro s n record h hl
  exact ⟨fun hu => exec_clipRecord h hl (takeClipRecord_inUse record hu) (h.noStaged.of_eq rfl),
    fun hu hv => exec_clipRecord h hl (takeClipRecord_invalid hu hv) (h.noStaged.of_eq rfl),
    fun hu hv hp => exec_clipRecord h hl (takeClipRecord_valid hu hv hp) (h.noStaged.of_eq rfl)⟩

/-- Settles O35: a busy pod, then an EMPTY one by its load flag and the record's validity. -/
theorem podRecordWritten : Obligations.PodRecordWritten := by
  intro s p record h hl
  refine ⟨fun he hr => ?_, fun he hload => ?_, fun he hload hbad => ?_, fun rec he hload hrec hv => ?_⟩
  · exact exec_podRecord h hl (if_pos (isBusy_iff.mpr ⟨he, hr⟩)) (h.noStaged.of_eq rfl)
  · have hidle : ¬ (s.pod p).state.isBusy = true := fun hb => (isBusy_iff.mp hb).1 he
    have hskip : (!podLoadFlag record) = true := by rw [show podLoadFlag record = false from hload]; rfl
    exact exec_podRecord h hl ((if_neg hidle).trans (if_pos hskip)) (h.noStaged.of_eq rfl)
  · exact exec_podRecord h hl (takePodRecord_invalid (s := s.carried (0x7000 + 64 * p.val) record) he hload hbad) (h.noStaged.of_eq rfl)
  · exact exec_podRecord h hl (takePodRecord_load (s := s.carried (0x7000 + 64 * p.val) record) he hload hrec hv)
      ((tryQueue_sched p _).toEng.noStaged (h.noStaged.of_eq rfl))

/-- Settles O18: the command's choice is the pod, and the binding finds a free place. -/
theorem spliceNowBinds : Obligations.SpliceNowBinds := by
  intro s mb c p h hl hc hst hq hpod hroom
  have hchoice : s.spliceChoice c (byteAt mb 5) = some p := by
    rcases hpod with ⟨hb, hready, hchan, hv⟩ | ⟨hb, hfind⟩
    · exact spliceChoice_named hb hready hchan hv
    · exact (if_pos hb).trans hfind
  have hplace : s.watchHasRoom (s.netRing c) = true := decide_eq_true hroom
  exact offerMailbox_sched (n := 1) (by decide) (by decide) hl h
    (spliceNow_binds (s := s.carried 0x3000 mb) hc (hpod.imp (·.1) (·.1)) hst hq hchoice hplace) (spliceNow_sched mb _)

/-- Settles O22: the number is out of range, or `revokePod` acts by the pod's state. -/
theorem podRevoked : Obligations.PodRevoked := by
  intro s mb h hl
  refine ⟨fun hr => exec_podRevoke h hl (podRevoke_above _ hr), fun p hp => ?_⟩
  have hrevoke := podRevoke_pod (s.carried 0x3030 mb) hp
  refine ⟨fun hst => exec_podRevoke h hl (hrevoke.trans (revokePod_state hst)),
    fun hst => exec_podRevoke h hl (hrevoke.trans (revokePod_ready hst)), fun hst => ?_⟩
  obtain ⟨hempty, hbinding, hanchor⟩ := closePod_pod_self p .revoked {} (s.carried 0x3030 mb)
  have hexec := exec_podRevoke h hl (hrevoke.trans (revokePod_closes hst))
  have hwatch := closePod_watchList p .revoked {} (s.carried 0x3030 mb)
  have hqueue := closePod_queue p .revoked {} (s.carried 0x3030 mb)
  generalize closePod p .revoked {} (s.carried 0x3030 mb) = u at *
  exact ⟨_, hexec, rfl, hempty, hbinding, hanchor, hwatch, hqueue⟩

end Sys2Proof.Proofs
end

section
/-! PROOFS. Channel records that are staged, and the staged copy that a POD_REVOKE lets in. -/

namespace Sys2Proof.Machine

/-! ### Copies that wait (R118) -/

/-- An effect that changes nothing, taken for each element of a list. -/
theorem forEach_fixed {α : Type} {f : α → State → State} {s : State} (h : ∀ x, f x s = s) (xs : List α) : forEach xs f s = s := by
  induction xs with
  | nil => rfl
  | cons x xs ih => exact (congrArg (forEach xs f) (h x)).trans ih

theorem isStarted_iff {x : PodState} : x.isStarted = true ↔ x = .pending ∨ x = .airing ∨ x = .suspended := by cases x <;> decide

theorem hasStartedPod_iff {s : State} {c : ChanNo} :
    s.hasStartedPod c = true ↔
      ∃ p, ((s.pod p).state = .pending ∨ (s.pod p).state = .airing ∨ (s.pod p).state = .suspended) ∧ (s.pod p).record.chan = c := by
  have hpod : ∀ p, (s.ownedBy p c && (s.pod p).state.isStarted) = true ↔ (s.pod p).state.isStarted = true ∧ (s.pod p).record.chan = c := by
    intro p
    unfold State.ownedBy
    cases (s.pod p).state <;> simp [PodState.isStarted]
  simp only [State.hasStartedPod, List.any_eq_true, hpod, isStarted_iff]
  exact ⟨fun ⟨p, _, hp⟩ => ⟨p, hp⟩, fun ⟨p, hp⟩ => ⟨p, List.mem_finRange p, hp⟩⟩

/-- A channel stages exactly while no record of it is applied at once (R118). -/
theorem stages_iff {s : State} {c : ChanNo} : s.Stages c ↔ s.appliesAtOnce c = false := by
  unfold State.Stages State.appliesAtOnce
  rw [← hasStartedPod_iff]
  cases (s.chan c).state <;> simp

theorem applyStaged_waits {s : State} {c : ChanNo} (h : (s.chan c).staged ≠ none → s.Stages c) : applyStaged c s = s := by
  unfold applyStaged
  split
  · rfl
  · next r hr => exact if_neg (by rw [stages_iff.mp (h (by rw [hr]; exact Option.some_ne_none r))]; decide)

/-- While every channel that holds a copy stages, the last part of an event does nothing (R120). -/
theorem applyAllStaged_waits {s : State} (h : ∀ d, (s.chan d).staged ≠ none → s.Stages d) : applyAllStaged s = s :=
  forEach_fixed (fun d => applyStaged_waits (h d)) allChans

/-- Staging depends on the channels' states and on the pods alone. -/
theorem State.Stages.of_eq {s t : State} {c : ChanNo} (h : s.Stages c) (hc : (t.chan c).state = (s.chan c).state) (hp : t.pods = s.pods) :
    t.Stages c := by
  unfold State.Stages at h ⊢
  simpa only [hc, pod_congr hp] using h

/-- A channel record's write is settled by its owner's answer, where every copy then held waits (R120, R161, R162). -/
theorem exec_channelRecord_staged {s : State} {c : ChanNo} {record : List Byte} {answer : Except RefuseReason State}
    (h : ControlStaged s (0x5000 + 32 * c.val) 32) (hl : record.length = 32)
    (ha : takeChannelRecord c record (s.carried (0x5000 + 32 * c.val) record) = answer)
    (hs : ∀ d, ((settle (s.regionAddr (0x5000 + 32 * c.val)) answer (s.carried (0x5000 + 32 * c.val) record)).chan d).staged ≠ none →
      (settle (s.regionAddr (0x5000 + 32 * c.val)) answer (s.carried (0x5000 + 32 * c.val) record)).Stages d) :
    exec (.channelRecordWrite c record) s =
      .next (settle (s.regionAddr (0x5000 + 32 * c.val)) answer (s.carried (0x5000 + 32 * c.val) record)) := by
  have hc := c.isLt
  subst ha
  exact (offerRecord_off (id := .channel c) hl rfl (by omega) (recordAt_channel c) h.high h.off).trans
    (congrArg Host.Outcome.next (applyAllStaged_waits hs))

/-- A record of a channel that stages is kept as its copy, in place of one held before (R118). -/
theorem exec_channelRecord_stages {s : State} {c : ChanNo} {record : List Byte} (h : ControlStaged s (0x5000 + 32 * c.val) 32)
    (hl : record.length = 32) (hst : s.Stages c) :
    exec (.channelRecordWrite c record) s =
      .next ((s.carried (0x5000 + 32 * c.val) record).setChan c { s.chan c with staged := some (parseChannel record) }) := by
  have htake : takeChannelRecord c record (s.carried (0x5000 + 32 * c.val) record) =
      .ok ((s.carried (0x5000 + 32 * c.val) record).setChan c { s.chan c with staged := some (parseChannel record) }) :=
    if_neg (by rw [stages_iff.mp (hst.of_eq (t := s.carried (0x5000 + 32 * c.val) record) rfl rfl)]; decide)
  refine exec_channelRecord_staged h hl htake fun d hd => ?_
  unfold settle at hd ⊢
  dsimp only at hd ⊢
  rw [setChan_get] at hd
  by_cases hc : c = d
  · subst hc
    exact hst.of_eq (by rw [setChan_get_self]) rfl
  · rw [if_neg hc] at hd
    exact (h.waits d hd).of_eq (congrArg Channel.state (setChan_get_ne _ _ hc)) rfl

/-! ### What becomes of a record that is applied (R119) -/

/-- A record that enables the channel and fails a check of R14. -/
theorem applyChannel_invalid {s : State} {c : ChanNo} {r : ChannelRecord} (he : r.enable = true) (hw : s.windowOk c r = false) :
    applyChannel c r s = .error .invalid := by
  unfold applyChannel
  dsimp only
  rw [he, hw]
  rfl

/-- A record that would disable a locked-down channel (R153). -/
theorem applyChannel_protected {s : State} {c : ChanNo} {r : ChannelRecord} (he : r.enable = false) (hon : (s.chan c).enabled = true)
    (hl : setHas s.alert.lockdown c = true) : applyChannel c r s = .error .isProtected := by
  unfold applyChannel
  dsimp only
  rw [he, hon, hl]
  rfl

/-- A record that would disable a locked-down channel, which may be applied at once, is refused (R118, R153). -/
theorem exec_channelRecord_protected {s : State} {c : ChanNo} {record : List Byte} (h : ControlStaged s (0x5000 + 32 * c.val) 32)
    (hl : record.length = 32) (hst : (s.chan c).state = .network) (hno : s.hasStartedPod c = false)
    (hlock : setHas s.alert.lockdown c = true) (he : (parseChannel record).enable = false) :
    exec (.channelRecordWrite c record) s =
      .next (refuse (s.regionAddr (0x5000 + 32 * c.val)) .isProtected (s.carried (0x5000 + 32 * c.val) record)) := by
  have hat : s.appliesAtOnce c = true := by simp [State.appliesAtOnce, hst, hno]
  have hon : (s.chan c).enabled = true := by simp [Channel.enabled, hst]
  have htake : takeChannelRecord c record (s.carried (0x5000 + 32 * c.val) record) = .error .isProtected :=
    (if_pos hat).trans (applyChannel_protected he hon hlock)
  exact exec_channelRecord_staged h hl htake fun d hd => (h.waits d hd).of_eq rfl rfl

/-- With no cue queued no pending set is left (R60). -/
theorem leaveWaiting_noCues {s : State} (c : ChanNo) (r : ChannelRecord) (h : s.cueQueue = []) : leaveWaiting c r s = s := by
  unfold leaveWaiting
  rw [h]
  exact congrArg (fun l => { s with cueQueue := l }) h.symm

/-- A record that keeps an enabled channel on its ring is put in force, and nothing else changes. -/
theorem applyChannel_kept {s : State} {c : ChanNo} {r : ChannelRecord} (hq : s.cueQueue = []) (hon : (s.chan c).enabled = true)
    (he : r.enable = true) (hw : s.windowOk c r = true) (hr : r.ring = (s.chan c).inForce.ring) :
    applyChannel c r s = .ok (s.setChan c { s.chan c with inForce := r }) := by
  unfold applyChannel enforce
  simp only [leaveWaiting_noCues c r hq, he, hw, hon, hr, bne_self_eq_false, Bool.not_true, Bool.and_false, Bool.false_and, Bool.or_false,
    Bool.false_eq_true, if_false, ne_eq, not_true_eq_false]
  rfl

/-- Everything channel `c` waits for is gone from the watch lists and from its switch queue (R119 step 3). -/
def State.withoutTargets (s : State) (c : ChanNo) : State := dropPoints c (fun _ => true) (dropEntries (fun e => e.chan == c) s)

/-- Channel `c` in OFF under a record that disables it: its targets are gone, and its outstanding window reads are plain (R119). -/
def State.turnedOff (s : State) (c : ChanNo) (r : ChannelRecord) : State :=
  plainReads c ((s.withoutTargets c).setChan c { (s.withoutTargets c).chan c with inForce := r }.disable)

/-- A record that disables a channel with no BOUND pod and no lock-down is put in force. -/
theorem applyChannel_disabled {s : State} {c : ChanNo} {r : ChannelRecord} (hq : s.cueQueue = [])
    (hb : ∀ p, (s.pod p).record.chan = c → (s.pod p).state ≠ .bound) (he : r.enable = false) (hl : setHas s.alert.lockdown c = false) :
    applyChannel c r s = .ok (s.turnedOff c r) := by
  have hnone : (allPods.filter fun p => s.ownedBy p c && (s.pod p).state == .bound) = [] := by
    rw [List.filter_eq_nil_iff]
    intro p _ hp
    simp only [State.ownedBy, Bool.and_eq_true, beq_iff_eq] at hp
    obtain ⟨⟨-, hchan⟩, hbound⟩ := hp
    exact hb p hchan hbound
  have hw : withdrawTargets c s = s.withoutTargets c := by
    unfold withdrawTargets
    rw [hnone]
    rfl
  unfold applyChannel enforce
  simp only [leaveWaiting_noCues c r hq, he, hl, hw, Bool.not_false, Bool.and_false, Bool.false_and, Bool.true_or, Bool.false_eq_true, if_false,
    if_true, modChan_modChan]
  rfl

/-- The checks of R14 read the rings, the base of the control region, and the channels' states and records in force. -/
theorem windowOk_congr {s t : State} (c : ChanNo) (r : ChannelRecord) (hr : t.rings = s.rings) (hb : t.straps = s.straps)
    (hc : ∀ d, (t.chan d).state = (s.chan d).state ∧ (t.chan d).inForce = (s.chan d).inForce) : t.windowOk c r = s.windowOk c r := by
  have hring : ∀ j, t.ring j = s.ring j := fun j => by simp only [State.ring, hr]
  unfold State.windowOk State.regionMeets State.windowMeets State.windowBytes State.windowBase State.netRing State.regionBase Channel.enabled
  simp only [hring, hb, hc]

/-! ### The one copy that is applied (R120) -/

/-- The state with channel `c`'s copy taken out. -/
def State.unstaged (s : State) (c : ChanNo) : State := s.setChan c { s.chan c with staged := none }

theorem unstaged_noStaged {s : State} {c : ChanNo} (h : ∀ d, d ≠ c → (s.chan d).staged = none) : (s.unstaged c).NoStaged := by
  intro d
  unfold State.unstaged
  rw [setChan_get]
  split
  · rfl
  · next hd => exact h d (Ne.symm hd)

/-- A copy whose condition holds is applied, or refused and discarded (R119, R120, R162). -/
theorem applyStaged_now {s : State} {c : ChanNo} {r : ChannelRecord} (h : (s.chan c).staged = some r) (ha : s.appliesAtOnce c = true) :
    applyStaged c s = settle (s.regionAddr (0x5000 + 32 * c.val)) (applyChannel c r (s.unstaged c)) (s.unstaged c) := by
  unfold applyStaged
  rw [h]
  dsimp only
  rw [if_pos ha]
  rfl

/-- When only channel `c` holds a copy, and none is left once it is applied, the last part of the event is that copy's. -/
theorem applyAllStaged_one {s : State} {c : ChanNo} (ho : ∀ d, d ≠ c → (s.chan d).staged = none) (hn : (applyStaged c s).NoStaged) :
    applyAllStaged s = applyStaged c s := by
  suffices ∀ l : List ChanNo, c ∈ l → forEach l applyStaged s = applyStaged c s from this _ (List.mem_finRange c)
  intro l hl
  induction l with
  | nil => cases hl
  | cons d l ih =>
    show forEach l applyStaged (applyStaged d s) = applyStaged c s
    by_cases hd : d = c
    · rw [hd]
      exact forEach_fixed (fun x => applyStaged_none (hn x)) l
    · rw [applyStaged_none (ho d hd)]
      exact ih ((List.mem_cons.mp hl).resolve_left (Ne.symm hd))

/-! ### A channel that is turned off (R119) -/

theorem withoutTargets_sched (s : State) (c : ChanNo) : Sched s (s.withoutTargets c) := (dropEntries_sched _ s).trans (dropPoints_sched c _ _)

theorem turnedOff_noStaged {s : State} (h : s.NoStaged) (c : ChanNo) (r : ChannelRecord) : (s.turnedOff c r).NoStaged := by
  have hw := (withoutTargets_sched s c).toEng.noStaged h
  exact (setChan_noStaged hw (x := { (s.withoutTargets c).chan c with inForce := r }.disable) (hw c)).of_eq rfl

theorem turnedOff_chan_self (s : State) (c : ChanNo) (r : ChannelRecord) :
    (s.turnedOff c r).chan c = { s.chan c with inForce := r, queue := [] }.disable := by
  have hw : (s.withoutTargets c).chan c = { s.chan c with queue := [] } := by
    unfold State.withoutTargets
    rw [dropPoints_chan, if_pos rfl, dropEntries_chan]
    simp
  refine (setChan_get_self (s.withoutTargets c) c _).trans ?_
  rw [hw]

theorem turnedOff_chan_ne {s : State} {c d : ChanNo} (r : ChannelRecord) (h : d ≠ c) : (s.turnedOff c r).chan d = s.chan d :=
  (setChan_get_ne (s.withoutTargets c) _ h.symm).trans ((dropPoints_chan c d _ _).trans (if_neg h))

theorem turnedOff_pods (s : State) (c : ChanNo) (r : ChannelRecord) : (s.turnedOff c r).pods = s.pods := rfl

theorem turnedOff_asRun (s : State) (c : ChanNo) (r : ChannelRecord) : (s.turnedOff c r).asRun = s.asRun := rfl

theorem turnedOff_lastCommand (s : State) (c : ChanNo) (r : ChannelRecord) : (s.turnedOff c r).lastCommand = s.lastCommand := rfl

theorem turnedOff_watchList (s : State) (c : ChanNo) (r : ChannelRecord) (k : RingNo) :
    (s.turnedOff c r).watchList k = (s.watchList k).filter fun e => !(e.chan == c) := dropEntries_watchList _ s k

/-! ### The POD_REVOKE of a channel's started pod -/

/-- State `w` is `s` with pod `p` of channel `c` closed by a POD_REVOKE: what a copy of `c` then reads (R75, R83). -/
structure RevokedFrom (s w : State) (c : ChanNo) (p : PodNo) : Prop where
  straps   : w.straps = s.straps
  rings    : w.rings = s.rings
  cueQueue : w.cueQueue = s.cueQueue
  alert    : w.alert = s.alert
  chan     : w.chan c = { s.chan c with queue := (w.chan c).queue }
  chans    : ∀ d, d ≠ c → w.chan d = s.chan d
  pod      : (w.pod p).state = .empty
  pods     : ∀ q, q ≠ p → w.pod q = s.pod q
  watch    : ∀ r, w.watchList r = (s.watchList r).filter fun e => !(e.kind.pod? == some p)

theorem revokedFrom_closePod {s : State} {c : ChanNo} {p : PodNo} (mb : List Byte) (h : (s.pod p).record.chan = c) :
    RevokedFrom s (answered 4 mb .accepted (closePod p .revoked {} (s.carried 0x3030 mb))) c p := by
  have hs := closePod_sched p .revoked {} (s.carried 0x3030 mb)
  have hne : ∀ d, d ≠ c → (closePod p .revoked {} (s.carried 0x3030 mb)).chan d = s.chan d := fun d hd =>
    (closePod_chan p .revoked {} (s.carried 0x3030 mb) d).trans (if_neg (h ▸ hd))
  obtain ⟨hempty, -, -⟩ := closePod_pod_self p .revoked {} (s.carried 0x3030 mb)
  have hpods : ∀ q, q ≠ p → (closePod p .revoked {} (s.carried 0x3030 mb)).pod q = s.pod q := fun q hq =>
    closePod_pod_ne .revoked {} (s.carried 0x3030 mb) hq
  have hwatch := closePod_watchList p .revoked {} (s.carried 0x3030 mb)
  have hcues := closePod_cueQueue p .revoked {} (s.carried 0x3030 mb)
  generalize closePod p .revoked {} (s.carried 0x3030 mb) = u at *
  exact ⟨hs.straps, hs.rings, hcues, hs.alert, hs.chans c, hne, hempty, hpods, hwatch⟩

/-- The revoke of a PENDING pod closes it, then staged copies are applied (R83, R120). -/
theorem exec_podRevoke_pending {s : State} {mb : List Byte} {p : PodNo} (high : s.rstLow = false) (hoff : s.OffRings (s.regionBase + 0x3030) 16)
    (hl : mb.length = 16) (hp : (byteAt mb 4).toNat = p.val) (hst : (s.pod p).state = .pending) :
    exec (.podRevoke mb) s = .next (applyAllStaged (answered 4 mb .accepted (closePod p .revoked {} (s.carried 0x3030 mb)))) := by
  have hrun : runCommand 4 mb (s.carried 0x3030 mb) = answered 4 mb .accepted (closePod p .revoked {} (s.carried 0x3030 mb)) := by
    show finishCommand _ 4 (podRevoke mb (s.carried 0x3030 mb)).2 (podRevoke mb (s.carried 0x3030 mb)).1 = _
    rw [podRevoke_pod _ hp, revokePod_closes (s := s.carried 0x3030 mb) (.inr hst)]
    rfl
  exact (offerMailbox_off (n := 4) (by decide) (by decide) hl high hoff).trans (congrArg (Host.Outcome.next ∘ applyAllStaged) hrun)

namespace RevokedFrom

variable {s w : State} {c : ChanNo} {p : PodNo}

/-- With its only started pod closed, the channel's copy may be applied (R118). -/
theorem applies (h : RevokedFrom s w c p) (hst : (s.chan c).state = .network)
    (ho : ∀ q, q ≠ p → (s.pod q).record.chan = c → (s.pod q).state = .empty ∨ (s.pod q).state = .ready) : w.appliesAtOnce c = true := by
  have hnetwork : (w.chan c).state = .network := by rw [h.chan]; exact hst
  rw [← Bool.not_eq_false, ← stages_iff]
  rintro ⟨-, hstate | ⟨q, hq, hc⟩⟩
  · exact hstate hnetwork
  · by_cases hp : q = p
    · subst hp
      simp [h.pod] at hq
    · rw [h.pods q hp] at hq hc
      rcases ho q hp hc with hidle | hidle <;> simp [hidle] at hq

/-- No pod of the channel is BOUND. -/
theorem noBound (h : RevokedFrom s w c p)
    (ho : ∀ q, q ≠ p → (s.pod q).record.chan = c → (s.pod q).state = .empty ∨ (s.pod q).state = .ready) (q : PodNo)
    (hc : (w.pod q).record.chan = c) : (w.pod q).state ≠ .bound := by
  by_cases hp : q = p
  · rw [hp, h.pod]
    decide
  · rw [h.pods q hp] at hc ⊢
    rcases ho q hp hc with hidle | hidle <;> simp [hidle]

theorem enabled (h : RevokedFrom s w c p) (hst : (s.chan c).state = .network) : ((w.unstaged c).chan c).enabled = true := by
  rw [State.unstaged, setChan_get_self, h.chan, Channel.enabled, hst]
  rfl

theorem windowOk (h : RevokedFrom s w c p) (r : ChannelRecord) : (w.unstaged c).windowOk c r = s.windowOk c r := by
  refine windowOk_congr c r h.rings h.straps fun d => ?_
  unfold State.unstaged
  rw [setChan_get]
  split
  · next hd =>
    subst hd
    rw [h.chan]
    exact ⟨rfl, rfl⟩
  · next hd =>
    rw [h.chans d (Ne.symm hd)]
    exact ⟨rfl, rfl⟩

/-- The copy of the channel is settled, and no other is held (R120). -/
theorem applyAllStaged_eq (h : RevokedFrom s w c p) {new : ChannelRecord} {answer : Except RefuseReason State}
    (hst : (s.chan c).state = .network) (hnew : (s.chan c).staged = some new) (hno : ∀ d, d ≠ c → (s.chan d).staged = none)
    (ho : ∀ q, q ≠ p → (s.pod q).record.chan = c → (s.pod q).state = .empty ∨ (s.pod q).state = .ready)
    (ha : applyChannel c new (w.unstaged c) = answer)
    (hn : (settle (s.regionAddr (0x5000 + 32 * c.val)) answer (w.unstaged c)).NoStaged) :
    applyAllStaged w = settle (s.regionAddr (0x5000 + 32 * c.val)) answer (w.unstaged c) := by
  have haddr : w.regionAddr (0x5000 + 32 * c.val) = s.regionAddr (0x5000 + 32 * c.val) := by
    unfold State.regionAddr State.regionBase
    rw [h.straps]
  have hcopy : (w.chan c).staged = some new := by rw [h.chan]; exact hnew
  have hnow := applyStaged_now hcopy (h.applies hst ho)
  rw [ha, haddr] at hnow
  rw [← hnow] at hn ⊢
  exact applyAllStaged_one (fun d hd => by rw [h.chans d hd]; exact hno d hd) hn

end RevokedFrom

end Sys2Proof.Machine

namespace Sys2Proof.Proofs

open Sys2Proof.Machine

/-- Settles O33: the write of a record, then the copy that the revoke of the channel's started pod lets in. -/
theorem channelStagedOrRefused : Obligations.ChannelStagedOrRefused := by
  refine ⟨fun s c record h hl => ⟨exec_channelRecord_stages h hl, exec_channelRecord_protected h hl⟩, ?_⟩
  intro s w mb c p new high hoff hl hp hpod hrec hst hnew hno ho hq hw
  have hexec : exec (.podRevoke mb) s = .next (applyAllStaged w) := hw ▸ exec_podRevoke_pending high hoff hl hp hpod
  have hfrom : RevokedFrom s w c p := hw ▸ revokedFrom_closePod mb hrec
  clear hw
  have hsettled : ∀ answer, applyChannel c new (w.unstaged c) = answer →
      (settle (s.regionAddr (0x5000 + 32 * c.val)) answer (w.unstaged c)).NoStaged →
      exec (.podRevoke mb) s = .next (settle (s.regionAddr (0x5000 + 32 * c.val)) answer (w.unstaged c)) := fun answer ha hn =>
    hexec.trans (congrArg Host.Outcome.next (hfrom.applyAllStaged_eq hst hnew hno ho ha hn))
  have hclear : (w.unstaged c).NoStaged := unstaged_noStaged fun d hd => by rw [hfrom.chans d hd]; exact hno d hd
  have hcues : (w.unstaged c).cueQueue = [] := hfrom.cueQueue.trans hq
  have hself : (w.unstaged c).chan c = { w.chan c with staged := none } := setChan_get_self w c _
  refine ⟨fun he hok hring => ?_, fun he hbad => ?_, fun he hlock => ?_, fun he hlock => ?_⟩
  · have hkept : new.ring = ((w.unstaged c).chan c).inForce.ring := by rw [hself, hfrom.chan]; exact hring
    have happly := applyChannel_kept hcues (hfrom.enabled hst) he ((hfrom.windowOk new).trans hok) hkept
    rw [hself] at happly
    refine (hsettled _ happly (setChan_noStaged hclear rfl)).trans (congrArg Host.Outcome.next ?_)
    exact setChan_setChan w c _ _
  · exact hsettled _ (applyChannel_invalid he ((hfrom.windowOk new).trans hbad)) (hclear.of_eq rfl)
  · exact hsettled _ (applyChannel_protected he (hfrom.enabled hst) (by rw [← hlock, ← hfrom.alert]; rfl)) (hclear.of_eq rfl)
  · have happly := applyChannel_disabled hcues (hfrom.noBound ho) he (by rw [← hlock, ← hfrom.alert]; rfl)
    refine ⟨_, hsettled _ happly (turnedOff_noStaged hclear c new), ?_, fun d hd => ?_, turnedOff_pods _ c new, turnedOff_asRun _ c new,
      turnedOff_lastCommand _ c new, fun r => ?_⟩
    · refine (turnedOff_chan_self (w.unstaged c) c new).trans ?_
      rw [hself, hfrom.chan]
      rfl
    · exact (turnedOff_chan_ne new hd).trans ((setChan_get_ne w _ hd.symm).trans (hfrom.chans d hd))
    · refine (turnedOff_watchList (w.unstaged c) c new r).trans ?_
      rw [show (w.unstaged c).watchList r = w.watchList r from rfl, hfrom.watch, List.filter_filter]

end Sys2Proof.Proofs
end

section
/-! PROOFS. Targets armed and withdrawn by command: RETURN_NOW, FEED_START and FEED_STOP. -/

namespace Sys2Proof.Machine

/-! ### Searches of the watch lists and of a switch queue -/

theorem hasEntry_iff {s : State} {c : ChanNo} {test : PointKind → Bool} :
    s.hasEntry c test = true ↔ ∃ r e, e ∈ s.watchList r ∧ e.chan = c ∧ test e.kind = true := by
  simp [State.hasEntry, allRings]

theorem hasEntry_eq_false {s : State} {c : ChanNo} {test : PointKind → Bool}
    (h : ∀ r e, e ∈ s.watchList r → e.chan = c → test e.kind = false) : s.hasEntry c test = false := by
  refine Bool.eq_false_iff.mpr fun hany => ?_
  obtain ⟨r, e, he, hc, ht⟩ := hasEntry_iff.mp hany
  exact Bool.false_ne_true ((h r e he hc).symm.trans ht)

theorem hasPoint_eq_false {s : State} {c : ChanNo} {test : PointKind → Bool} (h : ∀ pt, pt ∈ (s.chan c).queue → test pt.kind = false) :
    s.hasPoint c test = false :=
  List.any_eq_false.mpr fun pt hpt => Bool.eq_false_iff.mp (h pt hpt)

theorem returnEntry_isSome_iff {s : State} {r : RingNo} {p : PodNo} :
    (s.returnEntry r p).isSome = true ↔ ∃ e, e ∈ s.watchList r ∧ e.kind = .ret p := by
  simp [State.returnEntry, List.find?_isSome]

/-! ### Entries placed and replaced -/

@[simp] theorem armed_kind (s : State) (r : RingNo) (kind : PointKind) (c : ChanNo) (t : Target) (m : Option SeqNo) :
    (s.armed r kind c t m).kind = kind := by cases t <;> rfl

@[simp] theorem armed_chan (s : State) (r : RingNo) (kind : PointKind) (c : ChanNo) (t : Target) (m : Option SeqNo) :
    (s.armed r kind c t m).chan = c := by cases t <;> rfl

theorem WatchEntry.same_iff {a b : WatchEntry} : a.same b = true ↔ a.kind = b.kind ∧ a.chan = b.chan := by
  simp [WatchEntry.same]

/-- The entry of the kind and channel is replaced in its place, and every other entry stays (R86). -/
theorem rearm_eq (r : RingNo) (kind : PointKind) (c : ChanNo) (t : Target) (m : Option SeqNo) (s : State) :
    rearm r kind c t m s =
      s.setWatch r ((s.watchList r).map fun e => if e.kind = kind ∧ e.chan = c then s.armed r kind c t m else e) := by
  simp only [rearm, WatchEntry.same_iff, armed_kind, armed_chan]

theorem armed_setWatch (s : State) (r j : RingNo) (l : List WatchEntry) (kind : PointKind) (c : ChanNo) (t : Target) (m : Option SeqNo) :
    (s.setWatch j l).armed r kind c t m = s.armed r kind c t m := by cases t <;> rfl

/-- A second entry armed on the same ring stands behind the first (R84, R85). -/
theorem arm_arm (s : State) (r : RingNo) (kind kind' : PointKind) (c c' : ChanNo) (t t' : Target) (m m' : Option SeqNo) :
    arm r kind' c' t' m' (arm r kind c t m s) = s.setWatch r (s.watchList r ++ [s.armed r kind c t m, s.armed r kind' c' t' m']) := by
  unfold arm
  rw [setWatch_get_self, armed_setWatch, List.append_assoc]
  simp [State.setWatch]

/-! ### RETURN_NOW (R165) -/

/-- An unresolved RETURN entry of the pod is replaced in its place (R62, R86). -/
theorem armReturn_replaces {r : RingNo} {p : PodNo} {s : State} (t : Target) (h : ∃ e, e ∈ s.watchList r ∧ e.kind = .ret p) :
    armReturn r p t s = some (rearm r (.ret p) (s.pod p).record.chan t none s) := if_pos (returnEntry_isSome_iff.mpr h)

/-- A pod with no RETURN entry is given one when the list has a free place, and none when it has not (R62, R85). -/
theorem armReturn_new {r : RingNo} {p : PodNo} {s : State} (t : Target) (h : ∀ e, e ∈ s.watchList r → e.kind ≠ .ret p) :
    armReturn r p t s = if s.watchHasRoom r then some (arm r (.ret p) (s.pod p).record.chan t none s) else none :=
  if_neg fun hsome => by
    obtain ⟨e, he, hk⟩ := returnEntry_isSome_iff.mp hsome
    exact h e he hk

theorem chanOf_above {n : Nat} (h : 31 < n) : chanOf n = none := dif_neg (by omega)

theorem returnNow_above {mb : List Byte} (s : State) (h : 31 < (byteAt mb 4).toNat) : returnNow mb s = (s, .range) := by
  unfold returnNow
  rw [chanOf_above h]

theorem returnNow_notInsert {mb : List Byte} {s : State} {c : ChanNo} (hc : (byteAt mb 4).toNat = c.val) (hst : (s.chan c).state ≠ .insert) :
    returnNow mb s = (s, .state) := by
  unfold returnNow
  rw [hc, chanOf_val]
  dsimp only
  split
  · next h _ => exact absurd h hst
  · rfl

/-- With pod `p` playing and no RETURN point of it queued, the command answers by the arming of its target. -/
theorem returnNow_playing {mb : List Byte} {s : State} {c : ChanNo} {p : PodNo} (hc : (byteAt mb 4).toNat = c.val)
    (hst : (s.chan c).state = .insert) (hp : (s.chan c).playing = some p) (hq : ∀ pt, pt ∈ (s.chan c).queue → pt.kind ≠ .ret p)
    {answer : Option State} (ha : armReturn (s.netRing c) p .immediate s = answer) :
    returnNow mb s = answer.elim (s, .state) (·, .accepted) := by
  have hnone : s.hasPoint c (fun k => k == .ret p) = false := hasPoint_eq_false fun pt hpt => beq_false_of_ne (hq pt hpt)
  unfold returnNow
  rw [hc, chanOf_val]
  dsimp only
  rw [hst, hp]
  dsimp only
  rw [hnone, ha]
  cases answer <;> rfl

/-- The command on a clear control region leaves what `returnNow` makes of the state whose write went downstream. -/
theorem exec_returnNow {mb : List Byte} {s u : State} {result : Result} (h : ControlClear s 0x3010 16) (hb : mb.length = 16)
    (hu : returnNow mb (s.carried 0x3010 mb) = (u, result)) : exec (.returnNow mb) s = .next (answered 2 mb result u) :=
  offerMailbox_sched (n := 2) (by decide) (by decide) hb h hu (returnNow_sched mb _)

/-! ### Feed targets of a channel -/

theorem isFeedIn_eq_false : ∀ k : PointKind, k.feed? = none → k.isFeedIn = false
  | .out _, _ | .ret _, _ | .slotResume _ _, _ => rfl

theorem isFeedOut_eq_false : ∀ k : PointKind, k.feed? = none → k.isFeedOut = false
  | .out _, _ | .ret _, _ | .slotResume _ _, _ => rfl

/-- No watch entry and no switch point of channel `c` is of a feed kind (R122, R123). -/
structure State.NoFeedTargets (s : State) (c : ChanNo) : Prop where
  entries : ∀ r e, e ∈ s.watchList r → e.chan = c → e.kind.feed? = none
  points  : ∀ pt, pt ∈ (s.chan c).queue → pt.kind.feed? = none

namespace State.NoFeedTargets

variable {s : State} {c : ChanNo} {test : PointKind → Bool}

theorem hasEntry (h : s.NoFeedTargets c) (ht : ∀ k : PointKind, k.feed? = none → test k = false) : s.hasEntry c test = false :=
  hasEntry_eq_false fun r e he hc => ht e.kind (h.entries r e he hc)

theorem hasPoint (h : s.NoFeedTargets c) (ht : ∀ k : PointKind, k.feed? = none → test k = false) : s.hasPoint c test = false :=
  hasPoint_eq_false fun pt hpt => ht pt.kind (h.points pt hpt)

theorem hasFeedTarget (h : s.NoFeedTargets c) : s.hasFeedTarget c = false := by
  have hsome : ∀ k : PointKind, k.feed? = none → k.feed?.isSome = false := fun k hk => by rw [hk]; rfl
  exact Bool.or_eq_false_iff.mpr ⟨h.hasEntry hsome, h.hasPoint hsome⟩

/-- No watch list holds a FEED_OUT entry of the channel. -/
theorem find?_feedOut (h : s.NoFeedTargets c) (r : RingNo) : (s.watchList r).find? (fun e => e.chan == c && e.kind.isFeedOut) = none := by
  refine List.find?_eq_none.mpr fun e he hout => ?_
  obtain ⟨hc, hk⟩ := Bool.and_eq_true_iff.mp hout
  exact Bool.false_ne_true ((isFeedOut_eq_false e.kind (h.entries r e he (eq_of_beq hc))).symm.trans hk)

end State.NoFeedTargets

/-! ### FEED_START (R122) -/

theorem hasPendingPod_eq_false {s : State} {c : ChanNo} (h : ∀ p, (s.pod p).state = .pending → (s.pod p).record.chan ≠ c) :
    s.hasPendingPod c = false := by
  refine List.any_eq_false.mpr fun p _ hp => ?_
  simp only [State.ownedBy, Bool.and_eq_true, beq_iff_eq] at hp
  obtain ⟨⟨-, hchan⟩, hpending⟩ := hp
  exact h p hpending hchan

/-- With every check of R122 passed the targets are armed. -/
theorem feedStartCmd_accepted {mb : List Byte} {s : State} {c : ChanNo} {f : RingNo} (hc : (byteAt mb 4).toNat % 64 = c.val)
    (hf : (byteAt mb 5).toNat = f.val) (hst : (s.chan c).state = .network) (hpend : s.hasPendingPod c = false)
    (hfree : s.hasFeedTarget c = false) (hkind : (s.ring f).shadow.kind = .feed) (hspan : feedSpanOk (parseFeedStart mb) = true)
    (hroom : s.watchHasRoom (s.netRing c) (parseFeedStart mb).entries = true) :
    feedStartCmd mb s = (armFeed c f (parseFeedStart mb) s, .accepted) := by
  have hchan : chanOf (parseFeedStart mb).chan = some c := (congrArg chanOf hc).trans (chanOf_val c)
  have hring : ringOf (parseFeedStart mb).ring = some f := (congrArg ringOf hf).trans (ringOf_val f)
  unfold feedStartCmd
  simp [hchan, hring, hst, hpend, hfree, hkind, hspan, hroom]

theorem feedSpanOk_open {a : FeedStartArgs} (h : a.stop = none) : feedSpanOk a = true := by
  unfold feedSpanOk
  rw [h]
  cases a.start <;> rfl

theorem feedSpanOk_both {a : FeedStartArgs} {x y : Ticks} (hx : a.start = some x) (hy : a.stop = some y) :
    feedSpanOk a = ticksAfter y x := by
  unfold feedSpanOk
  rw [hx, hy]

/-- The entry armed for the start of a FEED_START: at its start PTS when bit 6 is set, immediate when it is clear (R85, R122). -/
theorem armed_ofStart (s : State) (r : RingNo) (kind : PointKind) (c : ChanNo) (mb : List Byte) :
    s.armed r kind c (targetOf (parseFeedStart mb).start) none =
      if (byteAt mb 4).getLsbD 6 then { kind := kind, chan := c, target := .atTick (timeField mb 6), pcrBase := none, markSeq := none }
      else { kind := kind, chan := c, target := .immediate, pcrBase := (s.ring r).pcrBase, markSeq := none } := by
  unfold parseFeedStart bitAt
  dsimp only
  split <;> rfl

/-- Without an end PTS the FEED_IN is armed alone (R122). -/
theorem armFeed_open {a : FeedStartArgs} (c : ChanNo) (f : RingNo) (s : State) (h : a.stop = none) :
    armFeed c f a s = arm (s.netRing c) (.feedIn f) c (targetOf a.start) none s := by
  unfold armFeed
  rw [h]

/-- With both times given the FEED_OUT stands behind the FEED_IN (R122). -/
theorem armFeed_span {a : FeedStartArgs} {x y : Ticks} (c : ChanNo) (f : RingNo) (s : State) (hx : a.start = some x) (hy : a.stop = some y) :
    armFeed c f a s = s.setWatch (s.netRing c) (s.watchList (s.netRing c) ++
      [{ kind := .feedIn f, chan := c, target := .atTick x, pcrBase := none, markSeq := none },
       { kind := .feedOut f, chan := c, target := .atTick y, pcrBase := none, markSeq := none }]) := by
  unfold armFeed
  rw [hx, hy]
  exact arm_arm s (s.netRing c) _ _ c c _ _ none none

/-- The command on a clear control region leaves what `feedStartCmd` makes of the state whose write went downstream. -/
theorem exec_feedStart {mb : List Byte} {s u : State} {result : Result} (h : ControlClear s 0x3040 16) (hb : mb.length = 16)
    (hu : feedStartCmd mb (s.carried 0x3040 mb) = (u, result)) : exec (.feedStart mb) s = .next (answered 5 mb result u) :=
  offerMailbox_sched (n := 5) (by decide) (by decide) hb h hu (feedStartCmd_sched mb _)

/-! ### FEED_STOP (R123) -/

theorem feedRing_feed {ch : Channel} {fd : FeedState} (hst : ch.state = .feed) (hfeed : ch.feed = some fd) : ch.feedRing = some fd.ring := by
  unfold Channel.feedRing
  rw [hst, hfeed]
  rfl

theorem feedRing_network {ch : Channel} (h : ch.state = .network) : ch.feedRing = none := by
  unfold Channel.feedRing
  rw [h]

/-- While a FEED_IN waits the command withdraws the channel's feed targets. -/
theorem feedStop_withdraws {mb : List Byte} {s : State} {c : ChanNo} (hc : (byteAt mb 4).toNat = c.val)
    (h : s.hasEntry c PointKind.isFeedIn = true) : feedStop mb s = (dropFeedTargets c s, .accepted) := by
  unfold feedStop
  rw [hc, chanOf_val]
  exact if_pos (.inl h)

/-- With no feed target of the channel the command answers by its feed and by the room of its watch list. -/
theorem feedStop_noTargets {mb : List Byte} {s : State} {c : ChanNo} (hc : (byteAt mb 4).toNat = c.val) (h : s.NoFeedTargets c)
    {feed : Option RingNo} (hf : (s.chan c).feedRing = feed) :
    feedStop mb s = feed.elim (s, .state) fun f =>
      if s.watchHasRoom (s.netRing c) then (arm (s.netRing c) (.feedOut f) c .immediate none s, .accepted) else (s, .state) := by
  have hno : ¬ (s.hasEntry c PointKind.isFeedIn = true ∨ s.hasPoint c PointKind.isFeedIn = true) := by
    simp [h.hasEntry isFeedIn_eq_false, h.hasPoint isFeedIn_eq_false]
  unfold feedStop
  rw [hc, chanOf_val]
  dsimp only
  rw [if_neg hno, hf, h.hasPoint isFeedOut_eq_false, h.find?_feedOut]
  cases feed <;> rfl

/-- The command on a clear control region leaves what `feedStop` makes of the state whose write went downstream. -/
theorem exec_feedStop {mb : List Byte} {s u : State} {result : Result} (h : ControlClear s 0x3050 16) (hb : mb.length = 16)
    (hu : feedStop mb (s.carried 0x3050 mb) = (u, result)) : exec (.feedStop mb) s = .next (answered 6 mb result u) :=
  offerMailbox_sched (n := 6) (by decide) (by decide) hb h hu (feedStop_sched mb _)

end Sys2Proof.Machine

namespace Sys2Proof.Proofs

open Sys2Proof.Machine

/-- Settles O19: the channel's number and state are answered first, then `armReturn` replaces the entry or finds its place. -/
theorem returnNowArms : Obligations.ReturnNowArms := by
  intro s mb h hl
  refine ⟨fun hr => exec_returnNow h hl (returnNow_above _ hr), fun c hc =>
    ⟨fun hst => exec_returnNow h hl (returnNow_notInsert (s := s.carried 0x3010 mb) hc hst), fun p new hst hp hq hnew => ?_⟩⟩
  subst hnew
  have hplay := @returnNow_playing mb (s.carried 0x3010 mb) c p hc hst hp hq
  refine ⟨fun hsome => ?_, fun hno hroom => ?_, fun hno hfull => ?_⟩
  · have hexec := exec_returnNow h hl (hplay (armReturn_replaces .immediate hsome))
    rw [rearm_eq] at hexec
    exact hexec
  · exact exec_returnNow h hl (hplay ((armReturn_new (s := s.carried 0x3010 mb) .immediate hno).trans (if_pos (decide_eq_true hroom))))
  · have hnoRoom : ¬ s.watchHasRoom (s.netRing c) = true := fun hroom => absurd (of_decide_eq_true hroom) (Nat.not_lt.mpr hfull)
    exact exec_returnNow h hl (hplay ((armReturn_new (s := s.carried 0x3010 mb) .immediate hno).trans (if_neg hnoRoom)))

/-- Settles O23: every check passes, and the targets are armed by the times that are given. -/
theorem feedStartArms : Obligations.FeedStartArms := by
  intro s mb c f h hl hc hf hst hpend hentries hpoints hkind
  have hfree : (s.carried 0x3040 mb).NoFeedTargets c := ⟨hentries, hpoints⟩
  have hcmd := feedStartCmd_accepted (s := s.carried 0x3040 mb) hc hf hst (hasPendingPod_eq_false hpend) hfree.hasFeedTarget hkind
  refine ⟨fun h7 hroom => ?_, fun h7 h6 hafter hroom => ?_⟩
  · have hstop : (parseFeedStart mb).stop = none := if_neg (Bool.eq_false_iff.mp h7)
    have hplace : (s.carried 0x3040 mb).watchHasRoom (s.netRing c) (parseFeedStart mb).entries = true := by
      rw [FeedStartArgs.entries, hstop]
      exact decide_eq_true hroom
    refine (exec_feedStart h hl (hcmd (feedSpanOk_open hstop) hplace)).trans ?_
    rw [armFeed_open c f _ hstop, arm, armed_ofStart]
    rfl
  · have hstart : (parseFeedStart mb).start = some (timeField mb 6) := if_pos h6
    have hstop : (parseFeedStart mb).stop = some (timeField mb 11) := if_pos h7
    have hplace : (s.carried 0x3040 mb).watchHasRoom (s.netRing c) (parseFeedStart mb).entries = true := by
      rw [FeedStartArgs.entries, hstop]
      exact decide_eq_true (Nat.succ_le_succ hroom)
    refine (exec_feedStart h hl (hcmd ((feedSpanOk_both hstart hstop).trans hafter) hplace)).trans ?_
    rw [armFeed_span c f _ hstart hstop]
    rfl

/-- Settles O24: a FEED_IN waits, or with no feed target the channel's feed decides. -/
theorem feedStopActs : Obligations.FeedStopActs := by
  intro s mb c h hl hc
  refine ⟨fun ⟨r, e, f, he, hchan, hk⟩ => ?_, fun hentries hpoints => ?_⟩
  · have hwaits : (s.carried 0x3050 mb).hasEntry c PointKind.isFeedIn = true := hasEntry_iff.mpr ⟨r, e, he, hchan, by rw [hk]; rfl⟩
    exact exec_feedStop h hl (feedStop_withdraws hc hwaits)
  · have hnone : (s.carried 0x3050 mb).NoFeedTargets c := ⟨hentries, hpoints⟩
    refine ⟨fun fd hst hfeed hroom => ?_, fun hst => ?_⟩
    · exact exec_feedStop h hl ((feedStop_noTargets hc hnone (feedRing_feed hst hfeed)).trans (if_pos (decide_eq_true hroom)))
    · exact exec_feedStop h hl (feedStop_noTargets hc hnone (feedRing_network hst))

end Sys2Proof.Proofs
end

section
/-! PROOFS. Window reads within a spot, and those at which an OUT or a RETURN point falls due. -/

namespace Sys2Proof.Machine

theorem ite_bne {α β : Type} [DecidableEq α] (x y : α) (a b : β) : (if x != y then a else b) = if x = y then b else a := by
  simp only [bne_iff_ne, ne_eq, ite_not]

theorem setPod_setPod (s : State) (p : PodNo) (x y : Pod) : (s.setPod p x).setPod p y = s.setPod p y := by
  unfold State.setPod
  simp

/-! ### A cell within a spot (R113) -/

/-- A pod whose spot `i` began at sequence `q` with this target stamp (R113 step 1). -/
def Pod.begun (pod : Pod) (i : SpotNo) (q : SeqNo) (stamp : Option Stamp) : Pod :=
  { pod with spotInfo := pod.spotInfo.set i.val { pod.spotInfo.get i with fate := .playing, startSeq := some q, startStamp := stamp } }

theorem begun_spotInfo (pod : Pod) (i : SpotNo) (q : SeqNo) (stamp : Option Stamp) :
    (pod.begun i q stamp).spotInfo.get i = { pod.spotInfo.get i with fate := .playing, startSeq := some q, startStamp := stamp } := by
  unfold Pod.begun
  rw [vector_get_set, if_pos rfl]

/-- The state in which a spot has begun when this is its first cell (R113 step 1). -/
def State.spotBegun (s : State) (c : ChanNo) (p : PodNo) (i : SpotNo) (cell : Nat) (q : SeqNo) : State :=
  if cell = 0 ∧ ((s.pod p).spotInfo.get i).fate = .unstarted then s.setPod p ((s.pod p).begun i q (s.chan c).spotTarget) else s

theorem spotBegun_channels (s : State) (c : ChanNo) (p : PodNo) (i : SpotNo) (cell : Nat) (q : SeqNo) :
    (s.spotBegun c p i cell q).channels = s.channels := by
  unfold State.spotBegun
  split <;> rfl

theorem spotBegun_first {s : State} {p : PodNo} {i : SpotNo} (c : ChanNo) (q : SeqNo) (h : ((s.pod p).spotInfo.get i).fate = .unstarted) :
    s.spotBegun c p i 0 q = s.setPod p ((s.pod p).begun i q (s.chan c).spotTarget) := if_pos ⟨rfl, h⟩

/-- A cell of a spot that is not its last: the position advances (R113 step 2). -/
theorem serveSpot_within {s : State} {p : PodNo} {i : SpotNo} {cell : Nat} (c : ChanNo) (q : SeqNo)
    (hcell : cell + 1 < (s.clip ((s.pod p).record.clipOf i.val)).cellCount.toNat) :
    serveSpot c p i cell (some q) s =
      ((s.spotBegun c p i cell q).setChan c { (s.chan c).detach with pos := some (.spot i (cell + 1)) },
        { addr := (s.clip ((s.pod p).record.clipOf i.val)).cellAddr cell, markReq := (s.chan c).markReq,
          serving := .source (s.clip ((s.pod p).record.clipOf i.val)).comps false (s.chan c).pendingIn none }) := by
  have hbegun : (if cell = 0 ∧ ((s.pod p).spotInfo.get i).fate = .unstarted then beginSpot c p i (some q) (s.modChan c Channel.detach)
      else s.modChan c Channel.detach) = (s.spotBegun c p i cell q).setChan c (s.chan c).detach := by
    unfold State.spotBegun
    split
    · unfold beginSpot
      rw [modChan_get_self]
      rfl
    · rfl
  unfold serveSpot
  dsimp only
  rw [if_neg hcell.ne]
  exact congrArg (Prod.mk · _) ((congrArg (fun v : State => v.modChan c _) hbegun).trans (setChan_modChan _ c _ _))

/-! ### The one point that is due (R100) -/

/-- The state in which the one point of channel `c`'s queue has been taken, counted when it is late (R100). -/
def State.pointTaken (s : State) (c : ChanNo) (late : Bool) : State :=
  { s.setChan c { s.chan c with queue := [], late := if late then counterAdd (s.chan c).late 1 else (s.chan c).late } with
    flags := if late then s.flags ||| flagMask .late else s.flags }

theorem pointTaken_chan_self (s : State) (c : ChanNo) (late : Bool) :
    (s.pointTaken c late).chan c =
      { s.chan c with queue := [], late := if late then counterAdd (s.chan c).late 1 else (s.chan c).late } :=
  setChan_get_self s c _

theorem pointTaken_chan_ne (s : State) {c d : ChanNo} (late : Bool) (h : d ≠ c) : (s.pointTaken c late).chan d = s.chan d :=
  setChan_get_ne s _ h.symm

theorem pointTaken_pod (s : State) (c : ChanNo) (late : Bool) (p : PodNo) : (s.pointTaken c late).pod p = s.pod p := rfl

theorem sendRead_chan (w : WindowRead) (addr : Addr) (s : State) (c : ChanNo) : (sendRead w addr s).chan c = s.chan c := rfl

/-- The due points of a queue that holds one. -/
theorem takeDue_one {c : ChanNo} {q : SeqNo} {pt : SwitchPoint} {s : State} {x : ReadCtx} (hq : (s.chan c).queue = [pt])
    (hdue : seqAtOrAfter q pt.seq = true) :
    takeDue c q 1 (s, x) = applyPoint { chan := c, pt := pt, seq := q, late := q != pt.seq } x (s.pointTaken c (q != pt.seq)) := by
  have htaken : ∀ late : Bool, (if late then countLate c (s.modChan c fun ch => { ch with queue := [] })
      else s.modChan c fun ch => { ch with queue := [] }) = s.pointTaken c late := by
    intro late
    cases late
    · rfl
    · exact congrArg (setFlag .late) (modChan_modChan s c _ _)
  unfold takeDue
  dsimp only
  rw [hq]
  dsimp only
  rw [if_pos hdue, htaken]
  rfl

/-- A read with no mark and one point, which is due: the point is applied, then the read is served (R99). -/
theorem offer_due {s u t : State} {c : ChanNo} {k : Nat} {addr : Addr} {pt : SwitchPoint} {q : SeqNo} {x : ReadCtx} {v : Served}
    (high : s.rstLow = false) (hns : s.NoStaged) (hat : s.AtWindow c k addr) (hm : (s.chan c).mark = .none) (hqueue : (s.chan c).queue = [pt])
    (hq : (s.ring (s.netRing c)).seqOf k = some q) (hdue : seqAtOrAfter q pt.seq = true)
    (hu : applyPoint { chan := c, pt := pt, seq := q, late := q != pt.seq } {} (s.quiet.pointTaken c (q != pt.seq)) = (u, x))
    (hv : serveRead c ((s.ring (s.netRing c)).classOf k) (some q) ((s.ring (s.netRing c)).shadow.slotAddr k) u = (t, v)) :
    offer (.read addr 192) s =
      .next (sendRead { chan := c, serving := v.serving, markReq := x.markReq || x.startMark || v.markReq, resume := x.resume } v.addr t) := by
  have hpoints : takePoints c (some q) (s.quiet, {}) = (u, x) := by
    unfold takePoints
    dsimp only
    rw [quiet_chan, hqueue]
    exact (takeDue_one (s := s.quiet) hqueue hdue).trans hu
  have hring : s.quiet.ring (s.quiet.netRing c) = s.ring (s.netRing c) := rfl
  have hfree : t.NoStaged := by
    have hpt := takeDue_eng c q 1 (s.quiet, {})
    rw [takeDue_one (s := s.quiet) hqueue hdue, hu] at hpt
    have hrd := serveRead_eng c ((s.ring (s.netRing c)).classOf k) (some q) ((s.ring (s.netRing c)).shadow.slotAddr k) u
    rw [hv] at hrd
    exact (hpt.trans hrd).noStaged hns
  rw [offer_window high hat]
  unfold spliceRead
  dsimp only
  rw [takeMark_none (s := s.quiet) hm, hring, hq, hpoints, hv]
  exact congrArg Host.Outcome.next (applyAllStaged_noStaged (hfree.of_eq rfl))

/-! ### An OUT point in NETWORK (R102) -/

/-- A pod that begins or resumes at spot `k` by a point (R102, R104). -/
def Pod.started (pod : Pod) (k : SpotNo) (pt : SwitchPoint) (late : Bool) : Pod :=
  { pod with
    state := .airing, anchor := some (pt.anchor, k),
    spotInfo := pod.spotInfo.set k.val { pod.spotInfo.get k with late := late, unaligned := !pt.aligned } }

/-- What the pod keeps of the spot it starts at. -/
theorem started_spotInfo (pod : Pod) (k : SpotNo) (pt : SwitchPoint) (late : Bool) :
    (pod.started k pt late).spotInfo.get k = { pod.spotInfo.get k with late := late, unaligned := !pt.aligned } := by
  unfold Pod.started
  rw [vector_get_set, if_pos rfl]

/-- A channel on the first cell of spot `k`, with the switch-in of the point that took it there (R45, R102). -/
def Channel.started (ch : Channel) (p : PodNo) (k : SpotNo) (pt : SwitchPoint) (ref : Ticks) : Channel :=
  { ch with
    state := .insert, playing := some p, pos := some (.spot k 0), wrapDue := false, spotTarget := some pt.stamp,
    pendingIn := some { place := some (pt.anchor, pt.stamp), ref := ref, origin := none } }

/-- The anchor spot's slot start is the anchor (R45). -/
theorem slotStart_anchor {s : State} {p : PodNo} {a : Ticks} {k : SpotNo} (h : (s.pod p).anchor = some (a, k)) : s.slotStart p k.val = a := by
  unfold State.slotStart State.spotSpan
  rw [h]
  dsimp only
  rw [List.drop_of_length_le (by simp)]
  exact BitVec.add_zero a

theorem startPod_eq (c : ChanNo) (p : PodNo) (k : SpotNo) (pt : SwitchPoint) (late : Bool) (s : State) :
    startPod c p k pt late s =
      (s.setPod p ((s.pod p).started k pt late)).setChan c
        ((s.chan c).started p k pt (s.clip ((s.pod p).record.clipOf k.val)).firstPts) := by
  have hpod : modSpot p k (fun i => { i with late := late, unaligned := !pt.aligned })
      (s.modPod p fun pod => { pod with state := .airing, anchor := some (pt.anchor, k) }) = s.setPod p ((s.pod p).started k pt late) := by
    unfold modSpot
    unfold State.modPod
    rw [setPod_get_self, setPod_setPod]
    rfl
  have hstart : ((s.setPod p ((s.pod p).started k pt late)).modChan c
      fun ch => { ch with state := .insert, playing := some p, pos := some (.spot k 0) }).slotStart p k.val = pt.anchor :=
    slotStart_anchor (k := k) (by rw [modChan_pod, setPod_get_self]; rfl)
  unfold startPod
  dsimp only
  rw [hpod]
  unfold switchToSpot
  dsimp only
  rw [hstart, modChan_modChan, modChan_pod, setPod_get_self]
  rfl

/-- The read at which a pod starts takes the first cell of its anchor spot, which begins (R102, R113). -/
theorem serveRead_started {s : State} {c : ChanNo} {cls : SlotClass} {p : PodNo} {k : SpotNo} (pt : SwitchPoint) (late : Bool) (q : SeqNo)
    (slot : Addr) (hc : cls ≠ .psi) (hf : ((s.pod p).spotInfo.get k).fate = .unstarted)
    (hcount : 1 < (s.clip ((s.pod p).record.clipOf k.val)).cellCount.toNat) :
    serveRead c cls (some q) slot (startPod c p k pt late s) =
      ((s.setPod p (((s.pod p).started k pt late).begun k q (some pt.stamp))).setChan c
          { ((s.chan c).started p k pt (s.clip ((s.pod p).record.clipOf k.val)).firstPts).detach with pos := some (.spot k 1) },
        { addr := (s.clip ((s.pod p).record.clipOf k.val)).cellAddr 0, markReq := (s.chan c).markReq,
          serving := .source (s.clip ((s.pod p).record.clipOf k.val)).comps false
            (some { place := some (pt.anchor, pt.stamp), ref := (s.clip ((s.pod p).record.clipOf k.val)).firstPts, origin := none })
            none }) := by
  rw [startPod_eq]
  generalize hch : (s.chan c).started p k pt _ = ch
  have hpod : ((s.setPod p ((s.pod p).started k pt late)).setChan c ch).pod p = (s.pod p).started k pt late := setPod_get_self s p _
  have hchan := setChan_get_self (s.setPod p ((s.pod p).started k pt late)) c ch
  rw [serveRead_spot slot (by rw [hchan, ← hch]; rfl) hc (by rw [hchan, ← hch]; rfl) (by rw [hchan, ← hch]; rfl),
    serveSpot_within c q (by rw [hpod]; exact hcount), spotBegun_first c q (by rw [hpod, started_spotInfo]; exact hf), hpod, hchan]
  have hstate : ∀ pod x, (((s.setPod p ((s.pod p).started k pt late)).setChan c ch).setPod p pod).setChan c x =
      (s.setPod p pod).setChan c x := fun pod x =>
    (congrArg (fun v : State => (v.setChan c ch).setChan c x) (setPod_setPod s p _ pod)).trans (setChan_setChan _ c ch x)
  rw [hstate, ← hch]
  rfl

/-- An OUT point of a PENDING pod, applied in NETWORK (R101, R102). -/
theorem applyPoint_out {d : Due} {p : PodNo} {x : ReadCtx} {s : State} (hst : (s.chan d.chan).state = .network) (hk : d.pt.kind = .out p)
    (hp : (s.pod p).state = .pending) : applyPoint d x s = (startPod d.chan p 0 d.pt d.late s, { x with startMark := true }) := by
  unfold applyPoint
  dsimp only
  rw [hst]
  dsimp only
  unfold applyInNetwork
  rw [hk]
  exact if_pos hp

/-! ### A RETURN point in INSERT (R103) -/

/-- A pod whose spots have all started is closed with no record (R75). -/
theorem closePod_started {p : PodNo} {s : State} (why : Reason) (ends : EndFlags)
    (h : ∀ k : SpotNo, k.val < (s.pod p).record.spots.length → ((s.pod p).spotInfo.get k).fate ≠ .unstarted) :
    closePod p why ends s = (dropPodTargets p s).modPod p Pod.close := by
  have hnone : ∀ k, recordNotAired p why ends k s = s := fun k => by
    unfold recordNotAired
    refine if_neg fun hk => ?_
    obtain ⟨hlt, hfate⟩ := Bool.and_eq_true_iff.mp hk
    exact h k (of_decide_eq_true hlt) (beq_iff_eq.mp hfate)
  unfold closePod
  rw [forEach_fixed hnone]

/-- The spot in progress is recorded, and the pod closed, when no other spot of it is still to start (R103 steps 1 and 2). -/
theorem endPlaying_spot {c : ChanNo} {p : PodNo} {k : SpotNo} {cell : Nat} {s : State} (ends : EndFlags)
    (hpos : (s.chan c).pos = some (.spot k cell)) (hfate : ((s.pod p).spotInfo.get k).fate = .playing)
    (hrest : ∀ j : SpotNo, j ≠ k → j.val < (s.pod p).record.spots.length → ((s.pod p).spotInfo.get j).fate ≠ .unstarted) :
    endPlaying c p ends s =
      (dropPodTargets p (markRecorded p k (asRunPush (s.playedRecord p k .spotTruncated cell ends) s))).modPod p Pod.close := by
  have hrec : recordInProgress p (s.chan c).pos .spotTruncated ends s =
      markRecorded p k (asRunPush (s.playedRecord p k .spotTruncated cell ends) s) := by
    rw [hpos]
    exact if_pos hfate
  unfold endPlaying
  rw [hrec]
  refine closePod_started _ _ fun j hj => ?_
  unfold markRecorded at hj ⊢
  rw [modSpot_pod_self] at hj ⊢
  dsimp only
  rw [vector_get_set]
  split
  · exact SpotFate.noConfusion
  · next hne => exact hrest j (Ne.symm hne) hj

/-- The one record of a pod whose only spot is in progress (R103). -/
theorem endPlaying_asRun {c : ChanNo} {p : PodNo} {cell : Nat} {s : State} (ends : EndFlags) (hpos : (s.chan c).pos = some (.spot 0 cell))
    (hfate : ((s.pod p).spotInfo.get 0).fate = .playing) (hone : (s.pod p).record.spots.length = 1) :
    (endPlaying c p ends s).asRun = s.asRun.push (s.playedRecord p 0 .spotTruncated cell ends) := by
  have honly : ∀ j : SpotNo, j ≠ 0 → j.val < (s.pod p).record.spots.length → ((s.pod p).spotInfo.get j).fate ≠ .unstarted :=
    fun j hj hlt => absurd (Fin.ext (Nat.lt_one_iff.mp (hone ▸ hlt))) hj
  rw [endPlaying_spot ends hpos hfate honly]
  rfl

theorem recordInProgress_channels (p : PodNo) (pos : Option Position) (kind : RecordKind) (ends : EndFlags) (s : State) :
    (recordInProgress p pos kind ends s).channels = s.channels := by
  unfold recordInProgress
  split
  · rfl
  · split <;> rfl
  · rfl
  · rfl

/-- Of the channels only the queue of the pod's own changes: the pod's points leave it (R75, R103). -/
theorem endPlaying_chan (c d : ChanNo) (p : PodNo) (ends : EndFlags) (s : State) :
    (endPlaying c p ends s).chan d =
      if d = (s.pod p).record.chan then { s.chan d with queue := (s.chan d).queue.filter fun pt => !(pt.kind.pod? == some p) }
      else s.chan d := by
  unfold endPlaying
  rw [closePod_chan, (recordInProgress_sched _ _ _ _ s).recs, chan_congr (recordInProgress_channels _ _ _ _ s)]

theorem endPlaying_closes (c : ChanNo) (p : PodNo) (ends : EndFlags) (s : State) :
    ((endPlaying c p ends s).pod p).state = .empty ∧ ((endPlaying c p ends s).pod p).binding = none :=
  have ⟨hempty, hunbound, _⟩ := closePod_pod_self p .truncated ends (recordInProgress p (s.chan c).pos .spotTruncated ends s)
  ⟨hempty, hunbound⟩

/-- A pod whose anchor spot plays has delivered a cell (R103 step 4). -/
theorem hasDelivered_playing {s : State} {p : PodNo} {a : Ticks} {k : SpotNo} (ha : (s.pod p).anchor = some (a, k))
    (hf : ((s.pod p).spotInfo.get k).fate = .playing) : s.hasDelivered p = true := by
  unfold State.hasDelivered
  rw [ha]
  dsimp only
  rw [hf]
  rfl

/-- A RETURN point of the playing pod, which has delivered a cell (R101, R103). -/
theorem applyPoint_ret {d : Due} {p : PodNo} {x : ReadCtx} {s : State} (hst : (s.chan d.chan).state = .insert)
    (hp : (s.chan d.chan).playing = some p) (hk : d.pt.kind = .ret p) (hd : s.hasDelivered p = true) :
    applyPoint d x s = ((endPlaying d.chan p d.ends s).modChan d.chan Channel.toNetwork, { x with markReq := true }) := by
  unfold applyPoint
  dsimp only
  rw [hst, hp]
  dsimp only
  unfold applyInInsert
  dsimp only
  rw [hk]
  dsimp only
  rw [if_pos rfl, hd]
  rfl

/-- A read in NETWORK goes to its slot and takes a held mark request (R105, R111). -/
theorem serveRead_network {s : State} {c : ChanNo} (cls : SlotClass) (q : SeqNo) (slot : Addr) (hst : (s.chan c).state = .network) :
    serveRead c cls (some q) slot s =
      (s.modChan c fun ch => { ch with markReq := false }, { addr := slot, serving := .network, markReq := (s.chan c).markReq }) := by
  unfold serveRead
  rw [hst]
  rfl

/-- The read at which the RETURN of the playing pod falls due is a network read with a mark request (R103, R105, R111). -/
theorem offer_return {s : State} {c : ChanNo} {k : Nat} {addr : Addr} {p : PodNo} {pt : SwitchPoint} {q : SeqNo} (high : s.rstLow = false)
    (hns : s.NoStaged) (hat : s.AtWindow c k addr) (hm : (s.chan c).mark = .none) (hst : (s.chan c).state = .insert)
    (hp : (s.chan c).playing = some p) (hd : s.hasDelivered p = true) (hqueue : (s.chan c).queue = [pt]) (hk : pt.kind = .ret p)
    (hq : (s.ring (s.netRing c)).seqOf k = some q) (hdue : seqAtOrAfter q pt.seq = true) :
    offer (.read addr 192) s =
      .next (sendRead { chan := c, serving := .network, markReq := true, resume := none } ((s.ring (s.netRing c)).shadow.slotAddr k)
        ((endPlaying c p { late := q != pt.seq, unaligned := !pt.aligned } (s.quiet.pointTaken c (q != pt.seq))).modChan c
          fun ch => { ch.toNetwork with markReq := false })) := by
  have hwc := pointTaken_chan_self s.quiet c (q != pt.seq)
  have happly := applyPoint_ret (d := { chan := c, pt := pt, seq := q, late := q != pt.seq }) (x := {})
    (s := s.quiet.pointTaken c (q != pt.seq)) (by rw [hwc]; exact hst) (by rw [hwc]; exact hp) hk hd
  have hserve := serveRead_network ((s.ring (s.netRing c)).classOf k) q ((s.ring (s.netRing c)).shadow.slotAddr k)
    (congrArg Channel.state (modChan_get_self (endPlaying c p { late := q != pt.seq, unaligned := !pt.aligned }
      (s.quiet.pointTaken c (q != pt.seq))) c Channel.toNetwork))
  have hread := offer_due high hns hat hm hqueue hq hdue happly hserve
  rw [modChan_modChan] at hread
  exact hread

end Sys2Proof.Machine

namespace Sys2Proof.Proofs

open Sys2Proof.Machine

/-- Settles O40: the read plays the spot's cell, which is not the clip's last. -/
theorem insertRead : Obligations.InsertRead := by
  intro s c k addr p i cell n q h hm hst hp hpos hn hq hcls hcount
  subst hn
  have hserve := (serveRead_spot (s := s.quiet) (q := q) ((s.ring (s.netRing c)).shadow.slotAddr k) hst hcls hp hpos).trans
    (serveSpot_within c q hcount)
  rw [← hq] at hserve
  exact offer_served h hm hserve
    (setChan_noStaged (h.noStaged.of_eq (spotBegun_channels s.quiet c p i cell q)) (h.noStaged c))

/-- Settles O42: the point starts the pod, whose first cell the read then takes. -/
theorem outPointApplied : Obligations.OutPointApplied := by
  intro s c k addr p pt n q high hns hat hm hst hqueue hk hp hfate hq hdue hcls hn hcount
  subst hn
  have hwc := pointTaken_chan_self s.quiet c (q != pt.seq)
  have happly := applyPoint_out (d := { chan := c, pt := pt, seq := q, late := q != pt.seq }) (x := {})
    (s := s.quiet.pointTaken c (q != pt.seq)) (by rw [hwc]; exact hst) hk hp
  have hserve := serveRead_started (s := s.quiet.pointTaken c (q != pt.seq)) (c := c) (p := p) (k := 0) pt (q != pt.seq) q
    ((s.ring (s.netRing c)).shadow.slotAddr k) hcls hfate hcount
  have hchan := setChan_get_self ((s.quiet.pointTaken c (q != pt.seq)).setPod p (((s.pod p).started 0 pt (q != pt.seq)).begun 0 q (some pt.stamp)))
    c { (((s.quiet.pointTaken c (q != pt.seq)).chan c).started p 0 pt (s.clip ((s.pod p).record.clipOf 0)).firstPts).detach with
        pos := some (.spot 0 1) }
  have hpod := setPod_get_self (s.quiet.pointTaken c (q != pt.seq)) p (((s.pod p).started 0 pt (q != pt.seq)).begun 0 q (some pt.stamp))
  refine ⟨_, offer_due high hns hat hm hqueue hq hdue happly hserve, rfl, rfl, congrArg Channel.state hchan, congrArg Channel.playing hchan,
    congrArg Channel.pos hchan, (congrArg Channel.queue hchan).trans (congrArg Channel.queue hwc), congrArg Pod.state hpod,
    congrArg Pod.anchor hpod, ?_, ?_, ite_bne _ _ _ _, rfl, rfl, rfl, fun d hd => ?_⟩
  · refine (congrArg (fun pod : Pod => pod.spotInfo.get 0) hpod).trans ?_
    rw [begun_spotInfo, started_spotInfo]
  · have hlate := (congrArg Channel.late hwc).trans (ite_bne q pt.seq _ _)
    exact (congrArg Channel.late hchan).trans hlate
  · exact (setChan_get_ne _ _ hd.symm).trans (pointTaken_chan_ne s.quiet _ hd)

/-- Settles O43: the point records the spot and closes the pod, and the read is a network read. -/
theorem returnPointApplied : Obligations.ReturnPointApplied := by
  intro s c k addr p pt a cell q high hns hat hm hst hp hpos hone hfate ha hchan hqueue hk hq hdue
  have hread := offer_return high hns hat hm hst hp (hasDelivered_playing ha hfate) hqueue hk hq hdue
  generalize ({ late := q != pt.seq, unaligned := !pt.aligned } : EndFlags) = ends at hread ⊢
  generalize (q != pt.seq) = late at hread
  have hwc := pointTaken_chan_self s.quiet c late
  have hframe := endPlaying_sched c p ends (s.quiet.pointTaken c late)
  have hchans := fun d => endPlaying_chan c d p ends (s.quiet.pointTaken c late)
  have hasRun := endPlaying_asRun (s := s.quiet.pointTaken c late) ends (by rw [hwc]; exact hpos) hfate hone
  obtain ⟨hempty, hunbound⟩ := endPlaying_closes c p ends (s.quiet.pointTaken c late)
  generalize endPlaying c p ends _ = e at hread hframe hchans hasRun hempty hunbound
  have hnet := modChan_get_self e c fun ch => { ch.toNetwork with markReq := false }
  have hqueued : (e.chan c).queue = [] := by
    rw [hchans, pointTaken_pod, quiet_pod, if_pos hchan.symm, hwc]
    rfl
  refine ⟨_, hread, congrArg (· ++ _) hframe.downOut, congrArg (· ++ _) hframe.outstanding, congrArg Channel.state hnet,
    congrArg Channel.playing hnet, congrArg Channel.pos hnet, congrArg Channel.pendingIn hnet, (congrArg Channel.queue hnet).trans hqueued,
    hempty, hunbound, hasRun, hframe.rings, fun d hd => ?_⟩
  rw [sendRead_chan, modChan_get_ne e _ hd.symm, hchans, pointTaken_pod, quiet_pod, if_neg fun he => hd (he.trans hchan),
    pointTaken_chan_ne _ _ hd, quiet_chan]

end Sys2Proof.Proofs
end

section
/-! PROOFS. Window reads in FEED: the cell of the feed read sequence, a jump when it is overrun, and an underrun. -/

namespace Sys2Proof.Machine

/-! ### Where an overrun read jumps to (R127) -/

/-- A start mark that is still held is jumped to. -/
theorem jumpTo_mark {r : Ring} {m : StartMark} (hm : r.mark = some m) (hheld : (r.writeCount - m.seq).toNat < r.shadow.slotCount.toNat) :
    r.jumpTo = m.seq := by
  unfold Ring.jumpTo
  rw [hm]
  exact if_pos hheld

/-- With no start mark, or one overrun, the newest cell is jumped to. -/
theorem jumpTo_newest {r : Ring} (h : ∀ m, r.mark = some m → r.shadow.slotCount.toNat ≤ (r.writeCount - m.seq).toNat) :
    r.jumpTo = r.writeCount - 1 := by
  unfold Ring.jumpTo
  split
  · next m hm => exact if_neg (h m hm).not_gt
  · rfl

/-! ### The three outcomes of a read in FEED (R126 to R128) -/

/-- A read in FEED, its slot neither PSI nor unwritten, goes to the feed (R106, R126). -/
theorem serveRead_feed {s : State} {c : ChanNo} {cls : SlotClass} {q : SeqNo} {fd : FeedState} (slot : Addr)
    (hs : (s.chan c).state = .feed) (hc : cls ≠ .psi) (hf : (s.chan c).feed = some fd) :
    serveRead c cls (some q) slot s = serveFeed c fd slot s := by
  unfold serveRead serveInsertion
  dsimp only
  rw [hs, hf]
  dsimp only
  rw [if_neg hc, if_neg (by simp)]

/-- A run with one underrun cell more (R126). -/
def FeedState.starved (fd : FeedState) : FeedState := { fd with run := { fd.run with underrun := heldInc fd.run.underrun } }

/-- A run with the cell of `fs` delivered (R128). -/
def FeedState.advanced (fd : FeedState) : FeedState :=
  { fd with fs := fd.fs + 1, run := { fd.run with delivered := heldInc fd.run.delivered } }

/-- A channel that has served the cell of `fs` of a run (R128). -/
def Channel.fed (ch : Channel) (fd : FeedState) : Channel := { ch.detach with feed := some fd.advanced }

/-- A channel whose run has jumped to sequence `fs` (R127). -/
def Channel.jumped (ch : Channel) (fd : FeedState) (fs : SeqNo) : Channel :=
  { ch with lostFeed := counterAdd ch.lostFeed (fs - fd.fs).toNat }

/-- The cell of sequence `fs` of a feed ring, as a read with this switch-in is served from it (R125, R128). -/
def Ring.servedCell (r : Ring) (fs : SeqNo) (sw : Option SwitchIn) (markReq : Bool) : Served :=
  { addr := r.shadow.slotAddr (r.slotOfSeq fs), serving := .source r.shadow.comps (r.classOf (r.slotOfSeq fs) == .psi) sw none,
    markReq := markReq }

theorem serveFeedCell_eq (c : ChanNo) (fd : FeedState) (jumped : Bool) (s : State) :
    serveFeedCell c fd jumped s =
      (s.setChan c ((s.chan c).fed fd),
        (s.ring fd.ring).servedCell fd.fs (s.chan c).pendingIn ((s.chan c).markReq || jumped)) := rfl

section
variable {s : State} {c : ChanNo} {fd : FeedState} (slot : Addr)

/-- The cell of `fs` is not yet written: an underrun (R126). -/
theorem serveFeed_underrun (h : seqBefore fd.fs (s.ring fd.ring).writeCount = false) :
    serveFeed c fd slot s =
      (setFlag .feed (s.setChan c { s.chan c with feed := some fd.starved, underrun := counterAdd (s.chan c).underrun 1 }),
        { addr := slot, serving := .nullSlot }) := by
  unfold serveFeed
  dsimp only
  rw [h]
  rfl

/-- The ring still holds the cell of `fs`: it is read (R128). -/
theorem serveFeed_held (h : seqBefore fd.fs (s.ring fd.ring).writeCount = true)
    (hheld : ((s.ring fd.ring).writeCount - fd.fs).toNat < (s.ring fd.ring).shadow.slotCount.toNat) :
    serveFeed c fd slot s =
      (s.setChan c ((s.chan c).fed fd), (s.ring fd.ring).servedCell fd.fs (s.chan c).pendingIn (s.chan c).markReq) := by
  unfold serveFeed
  dsimp only
  rw [h, if_neg (by decide), if_neg hheld.not_ge, serveFeedCell_eq, Bool.or_false]

/-- The cell of `fs` is overrun: the run jumps, which is counted as lost, and the cell it jumps to is read (R127, R128). -/
theorem serveFeed_overrun {fs : SeqNo} (h : seqBefore fd.fs (s.ring fd.ring).writeCount = true)
    (hover : (s.ring fd.ring).shadow.slotCount.toNat ≤ ((s.ring fd.ring).writeCount - fd.fs).toNat)
    (hfs : (s.ring fd.ring).jumpTo = fs) :
    serveFeed c fd slot s =
      (setFlag .feed (s.setChan c (((s.chan c).jumped fd fs).fed { fd with fs := fs })),
        (s.ring fd.ring).servedCell fs (s.chan c).pendingIn true) := by
  have hchan : (setFlag .feed (s.setChan c ((s.chan c).jumped fd fs))).chan c = (s.chan c).jumped fd fs := setChan_get_self s c _
  have hcell : serveFeed c fd slot s =
      serveFeedCell c { fd with fs := fs } true (setFlag .feed (s.setChan c ((s.chan c).jumped fd fs))) := by
    unfold serveFeed
    dsimp only
    rw [h, if_neg (by decide), if_pos hover, hfs]
    rfl
  rw [hcell, serveFeedCell_eq, hchan, Bool.or_true]
  exact congrArg (Prod.mk · _) (congrArg (setFlag .feed) (setChan_setChan s c _ _))

end

end Sys2Proof.Machine

namespace Sys2Proof.Proofs

open Sys2Proof.Machine

/-- Settles O44: the read goes to the feed, whose three outcomes are told apart by where `fs` stands in its ring. -/
theorem feedRead : Obligations.FeedRead := by
  intro s c k addr fd f q h hm hst hfd hf hq hcls
  subst hf
  have hserve := serveRead_feed (s := s.quiet) (q := q) ((s.ring (s.netRing c)).shadow.slotAddr k) hst hcls hfd
  have hfree := fun x hx => setChan_noStaged (s := s.quiet) h.noStaged (c := c) (x := x) hx
  rw [← hq] at hserve
  refine ⟨fun hwritten hheld => ?_, fun fs hwritten hover hjump => ?_, fun hwritten => ?_⟩
  · exact offer_served h hm (hserve.trans (serveFeed_held _ hwritten hheld)) (hfree _ (h.noStaged c))
  · have hfs : (s.ring fd.ring).jumpTo = fs := by
      rcases hjump with ⟨m, hmark, hheld, rfl⟩ | ⟨hoverrun, rfl⟩
      · exact jumpTo_mark hmark hheld
      · exact jumpTo_newest hoverrun
    exact offer_served h hm (hserve.trans (serveFeed_overrun _ hwritten hover hfs)) (hfree _ (h.noStaged c))
  · exact offer_served h hm (hserve.trans (serveFeed_underrun _ hwritten)) (hfree _ (h.noStaged c))

end Sys2Proof.Proofs
end

section
/-! PROOFS. What only the resets of the pins change: the lock-down set and the base of the control region. -/

namespace Sys2Proof.Machine

/-- The straps alone place the control region (R160). -/
theorem regionBase_congr {s t : State} (h : t.straps = s.straps) : t.regionBase = s.regionBase := by rw [regionBase_eq, regionBase_eq, h]

theorem rstRelease_alert (straps : Byte) (s : State) : (rstRelease straps s).alert = s.alert := by
  unfold rstRelease
  split <;> rfl

/-- No command but power-on reset takes a channel out of the lock-down set (R137, R153, R166). -/
theorem exec_lockdown {i : Instr} {s t : State} (hp : ∀ straps, i ≠ .powerOnReset straps) (h : exec i s = .next t) {c : ChanNo}
    (hc : setHas s.alert.lockdown c = true) : setHas t.alert.lockdown c = true := by
  by_cases ha : i = .rstNAssert
  · subst ha
    cases h
    exact hc
  by_cases hr : ∃ straps, i = .rstNRelease straps
  · obtain ⟨straps, rfl⟩ := hr
    cases h
    rw [rstRelease_alert]
    exact hc
  · exact (exec_keeps i hp ha (not_exists.mp hr) h).lockdown c hc

/-- No command but power-on reset and the release of RST_N samples the straps (R160). -/
theorem exec_straps {i : Instr} {s t : State} (hp : ∀ straps, i ≠ .powerOnReset straps) (hr : ∀ straps, i ≠ .rstNRelease straps)
    (h : exec i s = .next t) : t.straps = s.straps := by
  by_cases ha : i = .rstNAssert
  · subst ha
    cases h
    rfl
  · exact (exec_keeps i hp ha hr h).straps

end Sys2Proof.Machine

namespace Sys2Proof.Proofs

open Sys2Proof.Machine

/-- Settles O60: the assertion of RST_N keeps both and its release the set; every other command keeps what `Keeps` names. -/
theorem lockdownAndBaseKept : Obligations.LockdownAndBaseKept := by
  intro i s t hp h
  exact ⟨fun _ hc => exec_lockdown hp h hc, fun hr => regionBase_congr (exec_straps hp hr h)⟩

end Sys2Proof.Proofs
end

section
/-! PROOFS. The commands and the record of the Alert Controller: ALERT_ENGAGE, ALERT_END, LOCKDOWN and the alert record. -/

namespace Sys2Proof.Machine

/-! ### Commands that are the Alert Controller's -/

theorem hasFlag_of_flags {f : Flag} {w : BitVec 9} {s : State} (h : s.flags = w ||| flagMask f) : hasFlag f s = true := by
  unfold hasFlag
  rw [h]
  exact hasFlag_setFlag f { s with flags := w }

/-- An accepted command changes the last command alone (R163). -/
theorem answered_accepted (n : Nat) (mb : List Byte) (u : State) :
    answered n mb .accepted u = { u with lastCommand := some { tag := some (mailboxTag mb), mailbox := n, result := .accepted } } := rfl

/-- A mailbox command that stays within `Alr`, on a clear control region, leaves its work and its result. -/
theorem offerMailbox_alr {n : Nat} {mb : List Byte} {s u : State} {result : Result} (h1 : 1 ≤ n) (h10 : n ≤ 10) (hb : mb.length = 16)
    (h : ControlClear s (0x3000 + 16 * (n - 1)) 16) (hu : command n mb (s.carried (0x3000 + 16 * (n - 1)) mb) = (u, result))
    (hs : Alr (s.carried (0x3000 + 16 * (n - 1)) mb) (command n mb (s.carried (0x3000 + 16 * (n - 1)) mb)).1) :
    offerMailbox n mb s = .next (answered n mb result u) := by
  rw [hu] at hs
  exact offerMailbox_answered h1 h10 hb h hu (hs.noStaged (h.noStaged.carried _ _))

theorem exec_alertEngage {mb : List Byte} {s u : State} {result : Result} (h : ControlClear s 0x3060 16) (hb : mb.length = 16)
    (hu : alertEngage (s.carried 0x3060 mb) = (u, result)) : exec (.alertEngage mb) s = .next (answered 7 mb result u) :=
  offerMailbox_alr (n := 7) (by decide) (by decide) hb h hu (alertEngage_alr _)

theorem exec_alertEnd {mb : List Byte} {s u : State} {result : Result} (h : ControlClear s 0x3070 16) (hb : mb.length = 16)
    (hu : alertEnd (s.carried 0x3070 mb) = (u, result)) : exec (.alertEnd mb) s = .next (answered 8 mb result u) :=
  offerMailbox_alr (n := 8) (by decide) (by decide) hb h hu (alertEnd_alr _)

theorem exec_lockdownCmd {mb : List Byte} {s : State} (h : ControlClear s 0x3080 16) (hb : mb.length = 16) :
    exec (.lockdown mb) s = .next (answered 9 mb .accepted (lockDown (BitVec.ofNat 32 (fieldNat mb 4 4)) (s.carried 0x3080 mb))) :=
  offerMailbox_alr (n := 9) (by decide) (by decide) hb h rfl (lockDown_alr _ _)

/-! ### Source sets -/

theorem hasSource_dropSource (set : SourceSet) (x y : Source) :
    hasSource (dropSource set x) y = (hasSource set y && decide (y ≠ x)) := by
  cases x <;> cases y <;> revert set <;> decide

/-! ### ALERT_ENGAGE (R143) -/

theorem alertEngage_engaged {s : State} (h : hasSource s.alert.engaged .command = true) : alertEngage s = (s, .accepted) := if_pos h

theorem alertEngage_noClip {s : State} (h : hasSource s.alert.engaged .command = false) (hc : s.sourceClip .command = none) :
    alertEngage s = (setFlag .alert s, .state) := by
  unfold alertEngage
  rw [h, hc]
  rfl

theorem alertEngage_clip {s : State} {n : ClipNo} (h : hasSource s.alert.engaged .command = false) (hc : s.sourceClip .command = some n) :
    alertEngage s = (engage .command s, .accepted) := by
  unfold alertEngage
  rw [h, hc]
  rfl

/-! ### ALERT_END (R143) -/

theorem alertEnd_idle {s : State} (h : s.alert.state = .idle) : alertEnd s = (s, .state) := if_pos h

/-- During an episode ALERT_END releases, one after the other, the sources that it releases when they are engaged. -/
theorem alertEnd_running {s : State} (h : s.alert.state ≠ .idle) :
    ∃ l, (∀ x, x ∈ l ↔ s.EndReleases x) ∧ alertEnd s = (forEach l release s, .accepted) := by
  unfold alertEnd State.EndReleases
  dsimp only
  rw [if_neg h]
  cases hp : s.alert.isProtected
  · refine ⟨.command :: ((if s.alert.record.line0.mode = .latch then [.line0] else []) ++
      if s.alert.record.line1.mode = .latch then [.line1] else []), fun x => ?_, ?_⟩
    · cases x <;> simp
    · unfold releaseLatched
      cases s.alert.record.line0.mode <;> cases s.alert.record.line1.mode <;> rfl
  · exact ⟨[.command], fun x => by simp, rfl⟩

/-- A release that leaves no source engaged, the minimum hold having run out, ends the episode (R139, R140). -/
theorem release_ends {x : Source} {s : State} (h : hasSource s.alert.engaged x = true) (h0 : dropSource s.alert.engaged x = 0)
    (ht : s.alert.record.hold ≤ s.alert.timer.toNat) :
    release x s = { s with
      alert := { s.alert with state := .idle, engaged := 0, playing := none }
      asRun := s.asRun.push { kind := .alertEnd, reason := some .released, episodeMs := some s.alert.timer, sources := some s.alert.episode }
      flags := s.flags ||| flagMask .asrun
      channels := (release x s).channels } ∧
    ∀ c, (release x s).chan c =
      if (s.chan c).state = .alert then { s.chan c with mark := .restore }
      else if (s.chan c).mark = .engage then { s.chan c with mark := .none }
      else s.chan c := by
  obtain ⟨-, -, hends⟩ := release_spec h
  rw [hends h0 ht]
  exact enterIdle_spec .released { s with alert := { s.alert with engaged := 0 } }

theorem release_engaged {x : Source} {s : State} (h : hasSource s.alert.engaged x = true) :
    (release x s).alert.engaged = dropSource s.alert.engaged x := by
  obtain ⟨hplays, hholds, -⟩ := release_spec h
  by_cases h0 : dropSource s.alert.engaged x = 0
  · rw [h0]
    by_cases ht : s.alert.timer.toNat < s.alert.record.hold
    · rw [hholds h0 ht]
    · rw [(release_ends h h0 (by omega)).1]
  · rw [(hplays h0).1]

/-- Releasing sources that are not engaged changes nothing (R139). -/
theorem forEach_release_absent {l : List Source} {s : State} (h : ∀ x ∈ l, hasSource s.alert.engaged x = false) :
    forEach l release s = s := by
  induction l with
  | nil => rfl
  | cons x l ih =>
    show forEach l release (release x s) = s
    rw [release_absent (h x List.mem_cons_self)]
    exact ih fun y hy => h y (List.mem_cons_of_mem x hy)

/-- Where one of the sources is engaged, to release them all is to release it (R139). -/
theorem forEach_release_one {l : List Source} {x : Source} {s : State} (hx : x ∈ l) (he : hasSource s.alert.engaged x = true)
    (h : ∀ y ∈ l, y ≠ x → hasSource s.alert.engaged y = false) : forEach l release s = release x s := by
  induction l with
  | nil => exact absurd hx List.not_mem_nil
  | cons y l ih =>
    show forEach l release (release y s) = release x s
    by_cases hy : y = x
    · subst hy
      refine forEach_release_absent fun z hz => ?_
      rw [release_engaged he, hasSource_dropSource]
      by_cases hzy : z = y
      · simp [hzy]
      · simp [h z (List.mem_cons_of_mem y hz) hzy]
    · rw [release_absent (h y List.mem_cons_self hy)]
      exact ih ((List.mem_cons.mp hx).resolve_left (Ne.symm hy)) fun z hz => h z (List.mem_cons_of_mem y hz)

/-- ALERT_END with no engaged source to release. -/
theorem alertEnd_none {s : State} (hst : s.alert.state ≠ .idle) (h : ∀ x, hasSource s.alert.engaged x = true → ¬ s.EndReleases x) :
    alertEnd s = (s, .accepted) := by
  obtain ⟨l, hl, he⟩ := alertEnd_running hst
  rw [he, forEach_release_absent fun x hx => Bool.eq_false_iff.mpr fun hs => h x hs ((hl x).mp hx)]

/-- ALERT_END with one engaged source to release. -/
theorem alertEnd_one {s : State} {x : Source} (hst : s.alert.state ≠ .idle) (hx : hasSource s.alert.engaged x = true) (hr : s.EndReleases x)
    (h : ∀ y, y ≠ x → hasSource s.alert.engaged y = true → ¬ s.EndReleases y) : alertEnd s = (release x s, .accepted) := by
  obtain ⟨l, hl, he⟩ := alertEnd_running hst
  rw [he, forEach_release_one ((hl x).mpr hr) hx fun y hy hyx => Bool.eq_false_iff.mpr fun hs => h y hyx hs ((hl y).mp hy)]

/-! ### LOCKDOWN (R153) -/

theorem postedMark_engage (inAlert : Bool) (held : AlertMark) : postedMark .engage inAlert held = if inAlert then .source else .engage := by
  cases inAlert <;> rfl

/-- Marks posted to no channel change nothing. -/
theorem postAll_none {test : ChanNo → Bool} (m : Posting) (s : State) (h : ∀ c, test c = false) : postAll m test s = s := by
  have hnone : allChans.filter test = [] := List.filter_eq_nil_iff.mpr fun c _ => Bool.eq_false_iff.mp (h c)
  unfold postAll
  rw [hnone]
  rfl

theorem postParticipation_idle {s : State} (before : ChanSet) (h : s.alert.state = .idle) : postParticipation before s = s := by
  unfold postParticipation AlertCtl.running
  rw [h]
  rfl

/-- When no channel leaves the effective participation, an episode gives the enabled ones that join it an engage mark, and nothing else changes
(R144). -/
theorem postParticipation_grows {before : ChanSet} {s : State} (hst : s.alert.state ≠ .idle)
    (h : ∀ c, setHas before c = true → setHas s.alert.effective c = true) :
    postParticipation before s = { s with channels := (postParticipation before s).channels } ∧
    ∀ c, (postParticipation before s).chan c =
      if (s.chan c).state ≠ .off ∧ setHas s.alert.effective c = true ∧ setHas before c = false then
        { s.chan c with mark := if (s.chan c).state = .alert then .source else .engage }
      else s.chan c := by
  have hrun : s.alert.running = true := by simpa [AlertCtl.running] using hst
  have hnone : ∀ c, (setHas before c && !setHas s.alert.effective c) = false := fun c => by
    cases hb : setHas before c
    · rfl
    · rw [h c hb]; rfl
  have heq : postParticipation before s =
      postAll .engage (fun c => setHas s.alert.effective c && !setHas before c && (s.chan c).enabled) s := by
    unfold postParticipation
    rw [if_pos hrun]
    exact postAll_none _ _ hnone
  obtain ⟨hrest, hchan⟩ := postAll_spec .engage (fun c => setHas s.alert.effective c && !setHas before c && (s.chan c).enabled) s
  rw [heq]
  refine ⟨hrest, fun c => (hchan c).trans ?_⟩
  rw [postedMark_engage]
  refine if_congr ?_ (by simp) rfl
  simp only [Channel.enabled, Bool.and_eq_true, Bool.not_eq_true', bne_iff_ne]
  tauto

theorem setHas_or (a b : ChanSet) (c : ChanNo) : setHas (a ||| b) c = (setHas a c || setHas b c) := BitVec.getLsbD_or

/-- LOCKDOWN changes the lock-down set, and by an episode the marks of the enabled channels that join the effective participation (R144, R153). -/
theorem lockDown_spec (set : ChanSet) (s : State) :
    lockDown set s =
      { s with alert := { s.alert with lockdown := s.alert.lockdown ||| set }, channels := (lockDown set s).channels } ∧
    ∀ c, (lockDown set s).chan c =
      if s.alert.state ≠ .idle ∧ (s.chan c).state ≠ .off ∧ setHas set c = true ∧ setHas s.alert.effective c = false then
        { s.chan c with mark := if (s.chan c).state = .alert then .source else .engage }
      else s.chan c := by
  have hnow : ∀ c, setHas (modAlert (fun a => { a with lockdown := a.lockdown ||| set }) s).alert.effective c =
      (setHas s.alert.effective c || setHas set c) := fun c => by
    simp only [modAlert, AlertCtl.effective, setHas_or, Bool.or_assoc]
  unfold lockDown
  by_cases hst : s.alert.state = .idle
  · rw [postParticipation_idle _ (by exact hst)]
    exact ⟨rfl, fun c => (if_neg fun h => h.1 hst).symm⟩
  · obtain ⟨hrest, hchan⟩ := postParticipation_grows (before := s.alert.effective)
      (s := modAlert (fun a => { a with lockdown := a.lockdown ||| set }) s) hst fun c hc => by rw [hnow, hc, Bool.true_or]
    refine ⟨hrest, fun c => (hchan c).trans (if_congr ?_ rfl rfl)⟩
    rw [hnow, Bool.or_eq_true]
    constructor
    · rintro ⟨hoff, hin, hout⟩
      exact ⟨hst, hoff, hin.resolve_left (by simp [hout]), hout⟩
    · rintro ⟨-, hoff, hin, hout⟩
      exact ⟨hoff, .inr hin, hout⟩

/-! ### The alert record (R134) -/

theorem recordAt_alert : recordAt 0x6000 64 = some .alert := rfl

/-- The alert record's write is settled by its owner's answer (R134, R161). -/
theorem exec_alertRecord {s : State} {record : List Byte} {answer : Except RefuseReason State} (h : ControlClear s 0x6000 64)
    (hl : record.length = 64) (ha : takeAlertRecord record (s.carried 0x6000 record) = answer)
    (hs : (settle (s.regionAddr 0x6000) answer (s.carried 0x6000 record)).NoStaged) :
    exec (.alertRecordWrite record) s = .next (settle (s.regionAddr 0x6000) answer (s.carried 0x6000 record)) := by
  subst ha
  exact (offerRecord_clear hl rfl (by decide) recordAt_alert h).trans (congrArg Host.Outcome.next (applyAllStaged_noStaged hs))

theorem takeAlertRecord_protected {s : State} (bytes : List Byte) (h : s.alert.isProtected = true) :
    takeAlertRecord bytes s = .error .isProtected := if_pos h

/-- A line taken to FOLLOW whose source is not engaged releases nothing (R134). -/
theorem modeReleased_absent {x : Source} {s : State} (old new : LineConfig) (f : LineFilter) (h : hasSource s.alert.engaged x = false) :
    modeReleased x old new f s = s := by
  unfold modeReleased
  rw [release_absent h, ite_self]

theorem hasSource_zero (x : Source) : hasSource 0 x = false := by cases x <;> rfl

/-- In IDLE with no source engaged the record is taken, with no marks and no release (R134). -/
theorem takeAlertRecord_idle {s : State} (bytes : List Byte) (hp : s.alert.isProtected = false) (hst : s.alert.state = .idle)
    (he : s.alert.engaged = 0) :
    takeAlertRecord bytes s = .ok { s with alert := { s.alert with record := parseAlert bytes } } := by
  have hbusy : s.alert.changesBusyClip (parseAlert bytes) = false := by
    unfold AlertCtl.changesBusyClip AlertCtl.running
    rw [hst]
    rfl
  have habsent : ∀ x, hasSource (modAlert (fun a => { a with record := parseAlert bytes }) s).alert.engaged x = false := fun x =>
    (congrArg (hasSource · x) he).trans (hasSource_zero x)
  unfold takeAlertRecord
  dsimp only
  rw [hp, hbusy, postParticipation_idle _ (by exact hst), modeReleased_absent _ _ _ (habsent .line0), modeReleased_absent _ _ _ (habsent .line1)]
  rfl

end Sys2Proof.Machine

namespace Sys2Proof.Proofs

open Sys2Proof.Machine

/-- Settles O25: COMMAND is engaged already, has no clip to play, or starts an episode in IDLE. -/
theorem alertEngaged : Obligations.AlertEngaged := by
  intro s mb h hl
  refine ⟨fun he => exec_alertEngage h hl (alertEngage_engaged he), fun he hc => exec_alertEngage h hl (alertEngage_noClip he hc),
    fun n h0 hst hc => ?_⟩
  have he : hasSource s.alert.engaged .command = false := by rw [h0]; exact hasSource_zero _
  obtain ⟨hrest, hchan⟩ := engage_idle (s := s.carried 0x3060 mb) hst h0 hc
  have hframe := engage_alr .command (s.carried 0x3060 mb)
  rw [show addSource 0 .command = 4 by decide] at hrest
  refine ⟨_, exec_alertEngage h hl (alertEngage_clip (s := s.carried 0x3060 mb) he hc), congrArg State.alert hrest, congrArg State.asRun hrest,
    hasFlag_of_flags (congrArg State.flags hrest), rfl, hchan, hframe.rings, hframe.pods, hframe.clips, hframe.watch,
    hframe.cueQueue⟩

/-- Settles O26: in IDLE, with nothing to release, and with one source to release, by what a release does. -/
theorem alertEnded : Obligations.AlertEnded := by
  intro s mb h hl
  refine ⟨fun hst => exec_alertEnd h hl (alertEnd_idle hst), fun hst hno => exec_alertEnd h hl (alertEnd_none (s := s.carried 0x3070 mb) hst hno),
    fun x hst hx hr hno => ?_⟩
  have hexec := exec_alertEnd h hl (alertEnd_one (s := s.carried 0x3070 mb) hst hx hr hno)
  obtain ⟨hplays, hholds, -⟩ := release_spec (s := s.carried 0x3070 mb) hx
  refine ⟨fun h0 => ⟨_, hexec, hplays h0⟩, fun h0 ht => ?_, fun h0 ht => ?_⟩
  · rw [hholds h0 ht] at hexec
    exact hexec
  · obtain ⟨hrest, hchan⟩ := release_ends (s := s.carried 0x3070 mb) hx h0 ht
    have hframe := release_alr x (s.carried 0x3070 mb)
    exact ⟨_, hexec, congrArg State.alert hrest, congrArg State.asRun hrest, rfl, hchan, hframe.rings, hframe.pods, hframe.clips,
      hframe.watch, hframe.cueQueue⟩

/-- Settles O27: the command leaves what `lockDown` makes of the state whose write went downstream. -/
theorem lockdownAdds : Obligations.LockdownAdds := by
  intro s mb set h hl hset
  subst hset
  obtain ⟨hrest, hchan⟩ := lockDown_spec (BitVec.ofNat 32 (fieldNat mb 4 4)) (s.carried 0x3080 mb)
  refine ⟨_, exec_lockdownCmd h hl, ?_, hchan⟩
  rw [answered_accepted]
  exact congrArg (fun u : State => { u with lastCommand := some { tag := some (mailboxTag mb), mailbox := 9, result := .accepted } }) hrest

/-- Settles O34: the record is refused while the splicer is protected, and in IDLE taken with nothing else to do. -/
theorem alertRecordWritten : Obligations.AlertRecordWritten := by
  intro s record h hl
  have hclear := h.noStaged.carried 0x6000 record
  exact ⟨fun hp => exec_alertRecord h hl (takeAlertRecord_protected record hp) (hclear.of_eq rfl),
    fun hp hst he => exec_alertRecord h hl (takeAlertRecord_idle (s := s.carried 0x6000 record) record hp hst he) (hclear.of_eq rfl)⟩

end Sys2Proof.Proofs
end

section
/-! PROOFS. Window reads in ALERT that take a SOURCE or a RESTORE mark. -/

namespace Sys2Proof.Machine

/-! ### SOURCE (R148) -/

theorem playingClip_eq {s : State} {x : Source} {n : ClipNo} (hx : s.alert.playing = some x) (hn : s.alert.record.clipOf x = some n) :
    s.playingClip = some (x, n) := by
  unfold State.playingClip
  rw [hx, Option.bind_some, hn]
  rfl

/-- With no new pass to begin, a redirected read takes the switch-in and the mark request (R37, R111). -/
theorem detach_noPass {ch : Channel} (h : ch.wrapDue = false) : ch.detach = { ch with pendingIn := none, markReq := false } := by
  simp [Channel.detach, h]

/-- A channel in ALERT that has taken a SOURCE mark onto another source `x` with clip `n` (R148). -/
def Channel.sourceChanged (ch : Channel) (x : Source) (n : ClipNo) (sw : SwitchIn) : Channel :=
  { ch with mark := .none, alert := some (x, n), alertCell := 0, pendingIn := some sw, wrapDue := false }

section
variable {s : State} {c : ChanNo} {x y : Source} {n m : ClipNo}

/-- A SOURCE mark in ALERT is taken by the playing source (R99, R148). -/
theorem takeMark_source (hm : (s.chan c).mark = .source) (hst : (s.chan c).state = .alert) (hx : s.alert.playing = some x)
    (hn : s.alert.record.clipOf x = some n) (ha : (s.chan c).alert = some (y, m)) :
    takeMark c s =
      if y = x then (s.modChan c fun ch => { ch with mark := .none }, {})
      else (playSource c x n (s.modChan c fun ch => { ch with mark := .none }), { markReq := true }) := by
  have hclip : (s.modChan c fun ch => { ch with mark := .none }).playingClip = some (x, n) :=
    playingClip_eq (s := s.modChan c _) hx hn
  have halert : ((s.modChan c fun ch => { ch with mark := .none }).chan c).alert = some (y, m) := by
    rw [modChan_get_self]
    exact ha
  unfold takeMark
  dsimp only
  rw [hm, hst]
  dsimp only
  unfold takeSource
  rw [hclip, halert]
  simp only [Option.map_some, Option.some.injEq]

/-- A SOURCE mark for another source plays that source's clip (R148). -/
theorem takeMark_otherSource (hm : (s.chan c).mark = .source) (hst : (s.chan c).state = .alert) (hx : s.alert.playing = some x)
    (hn : s.alert.record.clipOf x = some n) (ha : (s.chan c).alert = some (y, m)) (hxy : x ≠ y) :
    takeMark c s = (s.setChan c ((s.chan c).sourceChanged x n (s.estimateSwitchIn n)), { markReq := true }) := by
  rw [takeMark_source hm hst hx hn ha, if_neg hxy.symm]
  unfold playSource
  rw [modChan_modChan]
  refine congrArg (fun ch => (s.setChan c ch, _)) ?_
  simp [Channel.sourceChanged, Channel.withSwitchIn, hst, State.estimateSwitchIn, State.clip]

/-- A SOURCE mark for the source that plays already changes the mark alone (R148). -/
theorem takeMark_sameSource (hm : (s.chan c).mark = .source) (hst : (s.chan c).state = .alert) (hx : s.alert.playing = some x)
    (hn : s.alert.record.clipOf x = some n) (ha : (s.chan c).alert = some (x, m)) :
    takeMark c s = (s.setChan c { s.chan c with mark := .none }, {}) := by
  rw [takeMark_source hm hst hx hn ha, if_pos rfl]
  rfl

end

/-! ### RESTORE (R151) -/

/-- A RESTORE mark with NETWORK saved puts the channel back in NETWORK (R151). -/
theorem takeMark_restore {s : State} {c : ChanNo} (hm : (s.chan c).mark = .restore) (hst : (s.chan c).state = .alert)
    (hsv : (s.chan c).saved = some .network) :
    takeMark c s =
      (s.setChan c { (s.chan c).leaveAlert .network with mark := .none, playing := none }, { markReq := true }) := by
  have hsaved : ((s.modChan c fun ch => { ch with mark := .none }).chan c).saved = some .network := by
    rw [modChan_get_self]
    exact hsv
  unfold takeMark
  dsimp only
  rw [hm, hst]
  dsimp only
  unfold takeRestore
  dsimp only
  rw [hsaved]
  dsimp only
  rw [modChan_modChan]
  rfl

end Sys2Proof.Machine

namespace Sys2Proof.Proofs

open Sys2Proof.Machine

/-- Settles O46: another source's clip plays from cell 0, whose read moves on to cell 1; for the same source the read takes the next cell. -/
theorem sourceMarkTaken : Obligations.SourceMarkTaken := by
  intro s c k addr x y n m q h hm hst ha hx hn hq hcls
  refine ⟨fun hxy hcount => ?_, fun hxy hcount hw => ?_⟩
  · have hget := setChan_get_self s.quiet c ((s.chan c).sourceChanged x n (s.quiet.estimateSwitchIn n))
    have hserve := (serveRead_alert (q := q) ((s.ring (s.netRing c)).shadow.slotAddr k) ((congrArg Channel.state hget).trans hst) hcls
      (congrArg Channel.alert hget)).trans (serveAlert_within (by rw [hget]; exact hcount) (congrArg Channel.wrapDue hget))
    rw [hget, setChan_setChan, ← hq] at hserve
    exact offer_marked h (takeMark_otherSource (s := s.quiet) hm hst hx hn ha hxy) (congrArg Channel.queue hget :) hserve
      (setChan_noStaged (s := s.quiet) h.noStaged (h.noStaged c))
  · subst hxy
    have hget := setChan_get_self s.quiet c { s.chan c with mark := .none }
    have hserve := (serveRead_alert (q := q) ((s.ring (s.netRing c)).shadow.slotAddr k) ((congrArg Channel.state hget).trans hst) hcls
      ((congrArg Channel.alert hget).trans ha)).trans (serveAlert_within (by rw [hget]; exact hcount) ((congrArg Channel.wrapDue hget).trans hw))
    rw [hget, setChan_setChan, ← hq] at hserve
    have hread := offer_marked h (takeMark_sameSource (s := s.quiet) hm hst hx hn ha) (congrArg Channel.queue hget :) hserve
      (setChan_noStaged (s := s.quiet) h.noStaged (h.noStaged c))
    have hkept : { ({ s.chan c with mark := .none } : Channel).detach with alertCell := (s.chan c).alertCell + 1 } =
        { s.chan c with mark := .none, alertCell := (s.chan c).alertCell + 1, pendingIn := none, markReq := false } := by
      rw [detach_noPass (by exact hw)]
    exact hread.trans (congrArg (fun ch => Host.Outcome.next (sendRead _ _ (s.quiet.setChan c ch))) hkept)

/-- Settles O47: the mark leaves the channel in NETWORK, whose read is a network read. -/
theorem restoreMarkTaken : Obligations.RestoreMarkTaken := by
  intro s c k addr q h hm hst hsv hq
  have hget := setChan_get_self s.quiet c { (s.chan c).leaveAlert .network with mark := .none, playing := none }
  have hserve := serveRead_network ((s.ring (s.netRing c)).classOf k) q ((s.ring (s.netRing c)).shadow.slotAddr k) (congrArg Channel.state hget)
  rw [setChan_modChan, ← hq] at hserve
  exact offer_marked h (takeMark_restore (s := s.quiet) hm hst hsv) (congrArg Channel.queue hget :) hserve
    (setChan_noStaged (s := s.quiet) h.noStaged (h.noStaged c))

end Sys2Proof.Proofs
end

section
/-! PROOFS. The two events of the reference clock: a sample of the lines, and the advance of the episode timer. -/

namespace Sys2Proof.Machine

/-! ### What a sample sets, and nothing else of the Alert Controller does -/

/-- The levels that a sample of the lines sets: both filters and the PROT_N level (R135, R142). -/
def AlertCtl.levels (a : AlertCtl) : LineFilter × LineFilter × Bool := (a.filter0, a.filter1, a.protHigh)

@[simp] theorem postAll_alert (m : Posting) (test : ChanNo → Bool) (s : State) : (postAll m test s).alert = s.alert :=
  (congrArg State.alert (postAll_spec m test s).1 :)

theorem recomputePlaying_levels (s : State) : (recomputePlaying s).alert.levels = s.alert.levels := by
  rw [(recomputePlaying_spec s).1]
  rfl

theorem engage_levels (x : Source) (s : State) : (engage x s).alert.levels = s.alert.levels := by
  unfold engage
  split
  · rfl
  · dsimp only
    split
    · rw [postAll_alert]; rfl
    · rw [recomputePlaying_levels]; rfl
    · rw [recomputePlaying_levels]; rfl

theorem release_levels (x : Source) (s : State) : (release x s).alert.levels = s.alert.levels := by
  by_cases h : hasSource s.alert.engaged x = true
  · obtain ⟨hplays, hholds, -⟩ := release_spec h
    by_cases h0 : dropSource s.alert.engaged x = 0
    · by_cases ht : s.alert.timer.toNat < s.alert.record.hold
      · rw [hholds h0 ht]; rfl
      · rw [(release_ends h h0 (by omega)).1]; rfl
    · rw [(hplays h0).1]; rfl
  · rw [release_absent (Bool.eq_false_iff.mpr h)]

theorem lineChanged_levels (x : Source) (mode : LineMode) (before after : Bool) (s : State) :
    (lineChanged x mode before after s).alert.levels = s.alert.levels := by
  unfold lineChanged
  split
  · rfl
  · split
    · split
      · rfl
      · exact engage_levels x s
    · split
      · exact release_levels x s
      · rfl

/-! ### A change of one filtered level (R136) -/

theorem lineChanged_same (x : Source) (mode : LineMode) {before after : Bool} (s : State) (h : after = before) :
    lineChanged x mode before after s = s := if_pos h.symm

/-- A line that becomes ACTIVE engages its source, unless that is engaged already (R136). -/
theorem lineChanged_active (x : Source) (mode : LineMode) (s : State) :
    lineChanged x mode false true s = if hasSource s.alert.engaged x then s else engage x s := rfl

/-- A line that becomes INACTIVE has its source released in mode FOLLOW (R136). -/
theorem lineChanged_follow (x : Source) (s : State) : lineChanged x .follow true false s = release x s := rfl

theorem lineChanged_latch (x : Source) (s : State) : lineChanged x .latch true false s = s := rfl

theorem engage_noClip {x : Source} {s : State} (h : s.sourceClip x = none) : engage x s = setFlag .alert s := by
  unfold engage
  rw [h]
  rfl

/-! ### The sample (R135) -/

/-- The filter after a sample, with its level written out (R135). -/
theorem sample_eq (f : LineFilter) (length : Nat) (level : Bool) :
    f.sample length level =
      if level = f.active then { active := level, run := 0 }
      else if length ≤ f.run + 1 then { active := level, run := 0 }
      else { active := f.active, run := f.run + 1 } := by
  unfold LineFilter.sample
  split
  · next h => rw [h]
  · rfl

/-- The state as a sample leaves the filters and the PROT_N level, before any line acts on its source (R135, R142). -/
def State.sampled (s : State) (f0 f1 : LineFilter) (prot : Bool) : State :=
  { s with upOut := [], downOut := [], alert := { s.alert with filter0 := f0, filter1 := f1, protHigh := prot } }

/-- While RST_N is high, a sample filters both lines, and LINE0 acts before LINE1 (R135, R136). -/
theorem exec_lineSample {s : State} {l0 l1 : Bool} {f0 f1 : LineFilter} (prot : Bool) (h : s.rstLow = false)
    (h0 : s.alert.filter0.sample s.alert.record.line0.filter (s.alert.record.line0.activeAt l0) = f0)
    (h1 : s.alert.filter1.sample s.alert.record.line1.filter (s.alert.record.line1.activeAt l1) = f1) :
    exec (.lineSample l0 l1 prot) s =
      .next (lineChanged .line1 s.alert.record.line1.mode s.alert.filter1.active f1.active
        (lineChanged .line0 s.alert.record.line0.mode s.alert.filter0.active f0.active (s.sampled f0 f1 prot))) := by
  subst h0 h1
  have hexec : exec (.lineSample l0 l1 prot) s = execLineSample l0 l1 prot s := rfl
  rw [hexec]
  unfold execLineSample
  rw [h]
  rfl

/-- Where one filtered level changes, its line alone acts (R136). -/
theorem lineChanged_turns {s : State} {f0 f1 : LineFilter} {x : Source} {set : SourceSet} {mode : LineMode} {after : Bool} (u : State)
    (h : s.LineTurns f0 f1 x set mode after) :
    lineChanged .line1 s.alert.record.line1.mode s.alert.filter1.active f1.active
      (lineChanged .line0 s.alert.record.line0.mode s.alert.filter0.active f0.active u) = lineChanged x mode (!after) after u := by
  rcases h with ⟨rfl, -, rfl, hbefore, hafter, hother⟩ | ⟨rfl, -, rfl, hother, hbefore, hafter⟩
  · rw [lineChanged_same _ _ _ hother, hbefore, hafter]
  · rw [lineChanged_same _ _ u hother, hbefore, hafter]

/-! ### Sets that hold one source -/

theorem State.LineTurns.set_eq {s : State} {f0 f1 : LineFilter} {x : Source} {set : SourceSet} {mode : LineMode} {after : Bool}
    (h : s.LineTurns f0 f1 x set mode after) : set = addSource 0 x := by
  rcases h with ⟨rfl, rfl, -⟩ | ⟨rfl, rfl, -⟩ <;> decide

theorem addSource_zero (x : Source) : addSource 0 x = BitVec.twoPow 3 (sourceBit x) := BitVec.zero_or

theorem addSource_eq (set : SourceSet) (x : Source) : addSource set x = set ||| addSource 0 x := by
  rw [addSource_zero]
  rfl

theorem dropSource_eq (set : SourceSet) (x : Source) : dropSource set x = set &&& ~~~ addSource 0 x := by
  rw [addSource_zero]
  rfl

theorem hasSource_single (x : Source) : hasSource (addSource 0 x) x = true := by cases x <;> rfl

/-- Without one of its sources a set is empty exactly when it held no other. -/
theorem dropSource_eq_zero {set : SourceSet} {x : Source} (h : hasSource set x = true) : dropSource set x = 0 ↔ set = addSource 0 x := by
  cases x <;> revert set <;> decide

/-- The one source of a set is engaged, and without it none is. -/
theorem dropSource_single {set : SourceSet} {x : Source} (h : set = addSource 0 x) : hasSource set x = true ∧ dropSource set x = 0 := by
  have hx : hasSource set x = true := by rw [h]; exact hasSource_single x
  exact ⟨hx, (dropSource_eq_zero hx).mpr h⟩

/-! ### The episode timer (R137) -/

/-- While RST_N is high, 1 ms more (R137). -/
theorem exec_episodeTimerAdvance {s : State} (h : s.rstLow = false) : exec .episodeTimerAdvance s = .next (advanceTimer s.quiet) := by
  have hexec : exec .episodeTimerAdvance s = execEpisodeTimerAdvance s := rfl
  rw [hexec]
  unfold execEpisodeTimerAdvance
  rw [h]
  rfl

/-- The state with the timer at `now`. -/
def State.timed (s : State) (now : BitVec 32) : State := { s with alert := { s.alert with timer := now } }

section
variable {s : State} {now : BitVec 32}

theorem advanceTimer_idle (h : s.alert.state = .idle) : advanceTimer s = s := by
  unfold advanceTimer AlertCtl.running
  rw [h]
  rfl

/-- During an episode the time limit is tested first, then the hold (R140, R141). -/
theorem advanceTimer_running (h : s.alert.state ≠ .idle) (hn : now = heldInc s.alert.timer) :
    advanceTimer s =
      if s.alert.record.limit ≠ 0 ∧ s.alert.record.limit * 60000 ≤ now.toNat then enterIdle .limit (setFlag .limit (s.timed now))
      else if s.alert.state = .hold ∧ s.alert.record.hold ≤ now.toNat then enterIdle .released (s.timed now)
      else s.timed now := by
  subst hn
  exact if_pos (by simpa [AlertCtl.running] using h)

theorem advanceTimer_limit (h : s.alert.state ≠ .idle) (hn : now = heldInc s.alert.timer) (h0 : s.alert.record.limit ≠ 0)
    (hl : s.alert.record.limit * 60000 ≤ now.toNat) : advanceTimer s = enterIdle .limit (setFlag .limit (s.timed now)) := by
  rw [advanceTimer_running h hn, if_pos ⟨h0, hl⟩]

/-- Below the limit HOLD ends when the minimum hold is reached (R140). -/
theorem advanceTimer_held (h : s.alert.state = .hold) (hn : now = heldInc s.alert.timer)
    (hl : s.alert.record.limit = 0 ∨ now.toNat < s.alert.record.limit * 60000) (hh : s.alert.record.hold ≤ now.toNat) :
    advanceTimer s = enterIdle .released (s.timed now) := by
  rw [advanceTimer_running (by simp [h]) hn, if_neg (by omega), if_pos ⟨h, hh⟩]

/-- Below the limit ACTIVE goes on, and HOLD until the minimum hold is reached (R140, R141). -/
theorem advanceTimer_below (h : s.alert.state = .active ∨ s.alert.state = .hold ∧ now.toNat < s.alert.record.hold)
    (hn : now = heldInc s.alert.timer) (hl : s.alert.record.limit = 0 ∨ now.toNat < s.alert.record.limit * 60000) :
    advanceTimer s = s.timed now := by
  have hrun : s.alert.state ≠ .idle := by rcases h with h | ⟨h, -⟩ <;> simp [h]
  have hhold : ¬ (s.alert.state = .hold ∧ s.alert.record.hold ≤ now.toNat) := by
    rintro ⟨hst, hle⟩
    rcases h with h | ⟨-, hlt⟩
    · simp [h] at hst
    · omega
  rw [advanceTimer_running hrun hn, if_neg (by omega), if_neg hhold]

end

end Sys2Proof.Machine

namespace Sys2Proof.Proofs

open Sys2Proof.Machine

/-- Settles O56: the one line that turns acts by R136, and what it does is an engagement's or a release's. -/
theorem lineSampled : Obligations.LineSampled := by
  intro s u l0 l1 prot level0 level1 f0 f1 high hl0 hl1 hf0 hf1 hu
  have hs0 : s.alert.filter0.sample s.alert.record.line0.filter (s.alert.record.line0.activeAt l0) = f0 := by
    rw [hf0, hl0]
    exact sample_eq _ _ _
  have hs1 : s.alert.filter1.sample s.alert.record.line1.filter (s.alert.record.line1.activeAt l1) = f1 := by
    rw [hf1, hl1]
    exact sample_eq _ _ _
  have hexec := exec_lineSample prot high hs0 hs1
  obtain rfl : u = s.sampled f0 f1 prot := hu
  clear hf0 hf1 hl0 hl1 hs0 hs1
  refine ⟨⟨_, hexec, ?_⟩, fun h0 h1 => ?_, fun x set mode => ⟨fun hturn => ?_, fun hturn => ?_⟩⟩
  · have hlevels := (lineChanged_levels .line1 s.alert.record.line1.mode s.alert.filter1.active f1.active
      (lineChanged .line0 s.alert.record.line0.mode s.alert.filter0.active f0.active (s.sampled f0 f1 prot))).trans
      (lineChanged_levels .line0 s.alert.record.line0.mode s.alert.filter0.active f0.active (s.sampled f0 f1 prot))
    simpa [AlertCtl.levels, State.sampled] using hlevels
  · rw [hexec, lineChanged_same _ _ _ h1, lineChanged_same _ _ _ h0]
  · rw [lineChanged_turns _ hturn, Bool.not_true, lineChanged_active] at hexec
    obtain rfl := hturn.set_eq
    have habsent : hasSource s.alert.engaged x = false → exec (.lineSample l0 l1 prot) s = .next (engage x (s.sampled f0 f1 prot)) :=
      fun he => hexec.trans (congrArg Host.Outcome.next (if_neg (Bool.eq_false_iff.mp he)))
    refine ⟨fun he => hexec.trans (congrArg Host.Outcome.next (if_pos he)), fun he hc => ?_, fun n hst he hc => ?_, fun n hst he hc => ?_⟩
    · rw [habsent he, engage_noClip (s := s.sampled f0 f1 prot) hc]
    · have hplays := engage_running (s := s.sampled f0 f1 prot) hst hc
      rw [addSource_eq, addSource_eq (s.sampled f0 f1 prot).alert.episode] at hplays
      exact ⟨_, habsent he, hplays⟩
    · obtain ⟨hrest, hchan⟩ := engage_idle (s := s.sampled f0 f1 prot) hst he hc
      exact ⟨_, habsent (by rw [he]; exact hasSource_zero x), congrArg State.alert hrest, congrArg State.asRun hrest,
        hasFlag_of_flags (congrArg State.flags hrest), hchan⟩
  · rw [lineChanged_turns _ hturn, Bool.not_false] at hexec
    obtain rfl := hturn.set_eq
    have hfollow : mode = .follow → exec (.lineSample l0 l1 prot) s = .next (release x (s.sampled f0 f1 prot)) := fun hm => by
      rw [hexec, hm, lineChanged_follow]
    refine ⟨fun hno => ?_, fun hm hx hne => ?_, fun hm he ht => ?_, fun hm he ht => ?_⟩
    · cases mode with
      | latch => exact hexec
      | follow =>
        rw [hfollow rfl, release_absent (s := s.sampled f0 f1 prot) (hno.resolve_left (by decide))]
    · obtain ⟨hplays, -, -⟩ := release_spec (s := s.sampled f0 f1 prot) hx
      have hmore := hplays fun h0 => hne ((dropSource_eq_zero hx).mp h0)
      rw [dropSource_eq] at hmore
      exact ⟨_, hfollow hm, hmore⟩
    · obtain ⟨hx, h0⟩ := dropSource_single he
      obtain ⟨-, hholds, -⟩ := release_spec (s := s.sampled f0 f1 prot) hx
      exact (hfollow hm).trans (congrArg Host.Outcome.next (hholds h0 ht))
    · obtain ⟨hx, h0⟩ := dropSource_single he
      obtain ⟨hrest, hchan⟩ := release_ends (s := s.sampled f0 f1 prot) hx h0 ht
      exact ⟨_, hfollow hm, congrArg State.alert hrest, congrArg State.asRun hrest, hchan⟩

/-- Settles O57: the advance in IDLE, at the limit, and below it with the hold reached or not. -/
theorem episodeTimerAdvances : Obligations.EpisodeTimerAdvances := by
  intro s now high hn
  have hexec := exec_episodeTimerAdvance high
  refine ⟨fun hst => ?_, fun hl => ⟨fun hst => ?_, fun hst hh => ?_⟩, fun hst h0 hl => ?_⟩
  · exact hexec.trans (congrArg Host.Outcome.next (advanceTimer_idle (s := s.quiet) hst))
  · exact hexec.trans (congrArg Host.Outcome.next (advanceTimer_below (s := s.quiet) hst hn hl))
  · rw [advanceTimer_held (s := s.quiet) hst hn hl hh] at hexec
    obtain ⟨hrest, hchan⟩ := enterIdle_spec .released (s.quiet.timed now)
    exact ⟨_, hexec, congrArg State.alert hrest, congrArg State.flags hrest, congrArg State.asRun hrest, hchan⟩
  · rw [advanceTimer_limit (s := s.quiet) hst hn h0 hl] at hexec
    obtain ⟨hrest, hchan⟩ := enterIdle_spec .limit (setFlag .limit (s.quiet.timed now))
    refine ⟨_, hexec, congrArg State.alert hrest, ?_, congrArg State.asRun hrest, hchan⟩
    unfold hasFlag
    rw [congrArg State.flags hrest]
    exact flag_mono (hasFlag_setFlag .limit (s.quiet.timed now))

end Sys2Proof.Proofs
end

section
/-! PROOFS. What the splicer reports: the bytes of the status window, and the as-run queue's consume index. -/

namespace Sys2Proof.Machine

/-! ### A byte among the fields of a structure -/

theorem byteAt_append (xs ys : List Byte) (i : Nat) :
    byteAt (xs ++ ys) i = if i < xs.length then byteAt xs i else byteAt ys (i - xs.length) := by
  unfold byteAt
  rw [List.getD_eq_getElem?_getD, List.getElem?_append]
  split <;> rfl

/-- A byte of a structure whose first field is a number lies in that field or in those behind it. -/
@[simp] theorem byteAt_toBytes_append (n v : Nat) (rest : List Byte) (i : Nat) :
    byteAt (toBytes n v ++ rest) i = if i < n then byteAt (toBytes n v) i else byteAt rest (i - n) := by
  rw [byteAt_append, toBytes_length]

/-- An absent field takes the same bytes as a present one. -/
@[simp] theorem byteAt_optField_append (fr : Nat → Byte) (off n : Nat) (v : Option Nat) (rest : List Byte) (i : Nat) :
    byteAt (optField fr off n v ++ rest) i = if i < n then byteAt (optField fr off n v) i else byteAt rest (i - n) := by
  rw [byteAt_append, optField_length]

@[simp] theorem byteAt_toBytes_one (v : Nat) : byteAt (toBytes 1 v) 0 = BitVec.ofNat 8 v :=
  congrArg (BitVec.ofNat 8) (Nat.div_one v)

/-- A two-byte field is its two bytes, most significant first (11.8). -/
@[simp] theorem byteAt_toBytes_two (v : Nat) : byteAt (toBytes 2 v) 0 ++ byteAt (toBytes 2 v) 1 = BitVec.ofNat 16 v := by
  have hbytes : byteAt (toBytes 2 v) 0 ++ byteAt (toBytes 2 v) 1 = BitVec.ofNat 8 (v / 256) ++ BitVec.ofNat 8 (v / 1) := rfl
  apply BitVec.eq_of_toNat_eq
  rw [hbytes, BitVec.toNat_append, ← Nat.shiftLeft_add_eq_or_of_lt (BitVec.isLt _), Nat.shiftLeft_eq]
  simp only [BitVec.toNat_ofNat]
  omega

/-! ### The device block -/

section
variable (fr : Nat → Byte) (s : State)

theorem deviceHead_identity :
    byteAt (deviceHead fr s) 0x000 = 0x48 ∧ byteAt (deviceHead fr s) 0x001 = 0x32 ∧ byteAt (deviceHead fr s) 0x002 = 0x01 := by
  have hmodel : byteAt (toBytes 2 0x4832) 0 = 0x48 ∧ byteAt (toBytes 2 0x4832) 1 = 0x32 := by decide
  unfold deviceHead
  simpa using hmodel

theorem deviceHead_engaged : byteAt (deviceHead fr s) 0x004 = s.alert.engaged.setWidth 8 := by
  unfold deviceHead
  simp

theorem deviceHead_flags : byteAt (deviceHead fr s) 0x014 ++ byteAt (deviceHead fr s) 0x015 = s.flags.setWidth 16 := by
  unfold deviceHead
  simp

theorem deviceHead_enables : byteAt (deviceHead fr s) 0x016 ++ byteAt (deviceHead fr s) 0x017 = s.enables.setWidth 16 := by
  unfold deviceHead
  simp

/-- The as-run queue's lost counter and its two indices (R157, R158). -/
theorem deviceHead_asRun :
    byteAt (deviceHead fr s) 0x034 ++ byteAt (deviceHead fr s) 0x035 = s.asRun.lost ∧
    byteAt (deviceHead fr s) 0x036 = s.asRun.producer ∧ byteAt (deviceHead fr s) 0x037 = s.asRun.consume := by
  unfold deviceHead
  simp

theorem deviceHead_cueCount : byteAt (deviceHead fr s) 0x038 = BitVec.ofNat 8 s.cueQueue.length := by
  unfold deviceHead
  simp

end

/-! ### The writable words as they read (R169) -/

theorem deviceWords_flags (s : State) : byteAt (deviceWords s) 0x00 ++ byteAt (deviceWords s) 0x01 = s.flags.setWidth 16 := by
  unfold deviceWords
  simp

theorem deviceWords_consume (s : State) : byteAt (deviceWords s) 0x18 = s.asRun.consume := by
  unfold deviceWords
  simp

/-! ### The areas of the status window (11.8) -/

section
variable (fr : Nat → Byte) (s : State)

theorem statusByte_device {off : Nat} (h : off < 0x100) : statusByte fr s off = byteAt (deviceHead fr s) off := if_pos h

theorem statusByte_words {off : Nat} (h1 : 0x100 ≤ off) (h2 : off < 0x200) :
    statusByte fr s off = byteAt (deviceWords s) (off - 0x100) :=
  (if_neg (Nat.not_lt.mpr h1)).trans (if_pos h2)

theorem statusByte_ring (r : RingNo) {i : Nat} (h : i < 32) :
    statusByte fr s (0x200 + 32 * r.val + i) = byteAt (ringStatus fr (0x200 + 32 * r.val) (s.ring r)) i := by
  have hr := r.isLt
  have hk : (0x200 + 32 * r.val + i - 0x200) / 32 = r.val := by omega
  have hi : (0x200 + 32 * r.val + i - 0x200) % 32 = i := by omega
  unfold statusByte
  dsimp only
  rw [if_neg (by omega), if_neg (by omega), if_pos (by omega), hk, hi, Fin.ofNat_val_eq_self]

theorem statusByte_channel (c : ChanNo) {i : Nat} (h : i < 128) :
    statusByte fr s (0xC00 + 128 * c.val + i) = byteAt (chanStatus fr (0xC00 + 128 * c.val) s c) i := by
  have hc := c.isLt
  have hk : (0xC00 + 128 * c.val + i - 0xC00) / 128 = c.val := by omega
  have hi : (0xC00 + 128 * c.val + i - 0xC00) % 128 = i := by omega
  unfold statusByte
  dsimp only
  rw [if_neg (by omega), if_neg (by omega), if_neg (by omega), if_neg (by omega), if_pos (by omega), hk, hi, Fin.ofNat_val_eq_self]

/-- An as-run slot that holds no record reads as zero (R168). -/
theorem statusByte_noRecord {j : Fin 128} {i : Nat} (h : i < 40) (hj : s.asRun.slots.get j = none) :
    statusByte fr s (0x1C00 + 40 * j.val + i) = 0 := by
  have hk : (0x1C00 + 40 * j.val + i - 0x1C00) / 40 = j.val := by omega
  have hslot : s.asRun.slots[j.val]? = some none := by
    rw [Vector.getElem?_eq_getElem j.isLt, ← hj, Vector.get_eq_getElem]
  unfold statusByte
  dsimp only
  rw [if_neg (by omega), if_neg (by omega), if_neg (by omega), if_neg (by omega), if_neg (by omega), hk, hslot]

end

/-- A ring status record begins with the ring's kind. -/
theorem ringStatus_kind (fr : Nat → Byte) (off : Nat) (r : Ring) :
    byteAt (ringStatus fr off r) 0 = BitVec.ofNat 8 (ringKindCode r.shadow.kind) := by
  unfold ringStatus
  simp

/-- A channel status record begins with the channel's state. -/
theorem chanStatus_state (fr : Nat → Byte) (off : Nat) (s : State) (c : ChanNo) :
    byteAt (chanStatus fr off s c) 0 = BitVec.ofNat 8 (chanStateCode (s.chan c).state) := by
  unfold chanStatus chanHead
  simp

/-! ### The writable words as they are taken (R169) -/

theorem takeWord_staged (x : StatusWord) (bytes : List Byte) (s : State) (c : ChanNo) :
    ((takeWord x bytes s).chan c).staged = (s.chan c).staged := by
  cases x with
  | flagClear | flagEnables | consumeIndex => rfl
  | counterClear => simp [takeWord, clearCounters, State.chan, Vector.get_eq_getElem]

/-- A whole write of a writable word takes the word and does nothing else (R169). -/
theorem offerWord_taken (x : StatusWord) {word : List Byte} {s : State} (hb : word.length = 8) (h : ControlClear s (wordOffset x) 8) :
    offerWhole (wordOffset x) 8 word s = .next (takeWord x word (s.carried (wordOffset x) word)) := by
  have hns : (takeWord x word (s.carried (wordOffset x) word)).NoStaged := fun c =>
    (takeWord_staged x word _ c).trans (h.noStaged c)
  rw [offerWord_clear x hb h, applyAllStaged_noStaged hns]

/-! ### The consume index (R158) -/

/-- An advance over no more records than are held gives back those it passes. -/
theorem AsRun.consumeTo_within {q : AsRun} {c : BitVec 8} (h : (c - q.consume).toNat ≤ q.held) : q.consumeTo c = { q with consume := c } :=
  if_pos h

/-- An advance over more records than are held gives back all of them. -/
theorem AsRun.consumeTo_beyond {q : AsRun} {c : BitVec 8} (h : q.held < (c - q.consume).toNat) :
    q.consumeTo c = { q with consume := q.producer } :=
  if_neg (Nat.not_le.mpr h)

/-- A write of CONSUME_INDEX changes the as-run queue's consume index alone (R158, R169). -/
theorem exec_consumeIndex {s : State} {word : List Byte} {q : AsRun} (h : ControlClear s 0x118 8) (hb : word.length = 8)
    (hq : s.asRun.consumeTo (byteAt word 0) = q) :
    exec (.consumeIndex word) s = .next { s.carried 0x118 word with asRun := q } := by
  subst hq
  exact offerWord_taken .consumeIndex hb h

end Sys2Proof.Machine

namespace Sys2Proof.Proofs

open Sys2Proof.Machine

/-- Settles O10: each byte lies in its area of the window, at its field's place there. -/
theorem statusShows : Obligations.StatusShows := by
  intro s free
  obtain ⟨hid0, hid1, hid2⟩ := deviceHead_identity free s
  obtain ⟨hlost, hproducer, hconsume⟩ := deviceHead_asRun free s
  simp (disch := decide) only [statusByte_device, statusByte_words, Nat.reduceSub]
  refine ⟨hid0, hid1, hid2, deviceHead_engaged free s, deviceHead_flags free s, deviceHead_enables free s, hlost, hproducer, hconsume,
    deviceHead_cueCount free s, deviceWords_flags s, deviceWords_consume s, fun r => ?_, fun c => ?_,
    fun j i hi hj => statusByte_noRecord free s hi hj⟩
  · exact (statusByte_ring free s r (i := 0) (by decide)).trans (ringStatus_kind _ _ _)
  · exact (statusByte_channel free s c (i := 0) (by decide)).trans (chanStatus_state _ _ _ _)

/-- Settles O30: the advance is within the records held, or beyond them. -/
theorem consumeIndexMoves : Obligations.ConsumeIndexMoves := by
  intro s word h hb
  exact ⟨fun hwithin => exec_consumeIndex h hb (AsRun.consumeTo_within hwithin),
    fun hbeyond => exec_consumeIndex h hb (AsRun.consumeTo_beyond hbeyond)⟩

end Sys2Proof.Proofs
end

section
/-! PROOFS. Writes to the control region that are not whole, that meet none of its areas, or that take the words for flags, enables and
counters. -/

namespace Sys2Proof.Machine

/-! ### A write within the control region -/

/-- Where Control Intake leaves the channels alone, its work on a write is all that the write does besides going downstream (R3, R160). -/
theorem offer_intake {s t : State} {w : WriteReq} {off : Nat} (h : ControlClear s off w.bytes.length)
    (ha : w.addr.toNat = s.regionBase + off) (ho : off < 0x10000) (hl : lengthOk w.bytes.length = true)
    (ht : intake w (s.carry (.write w)) = t) (hc : t.channels = s.channels) : offer (.write w) s = .next t := by
  rw [offer_region hl ha ho h.high h.off, ht, applyAllStaged_noStaged (h.noStaged.of_eq hc)]

theorem lengthOk_pos {n : Nat} (h : lengthOk n = true) : 0 < n :=
  Nat.lt_of_lt_of_le (by decide) (Laws.PortWellFormed.of_lengthOk h).1

/-! ### Records (R161) -/

/-- An offset outside every record area is no record's. -/
theorem recordAt_outside {off : Nat} (len : Nat) (h : ∀ a ∈ recordAreas, off < a.1 ∨ a.1 + a.2 ≤ off) : recordAt off len = none := by
  simp only [recordAreas, List.forall_mem_cons] at h
  obtain ⟨hring, hchan, halert, hpod, hclip, -⟩ := h
  unfold recordAt
  rw [recordIndex_off (by decide) hring, recordIndex_off (by decide) hchan, recordIndex_off (by decide) hclip,
    recordIndex_off (by decide) hpod, if_neg (show ¬ off = 0x6000 by omega), Option.map_none]
  simp only [ite_self]

/-- The record areas leave alone a write that touches none of them. -/
theorem examineRecords_outside {w : WriteReq} {s : State} {off : Nat} (ha : w.addr.toNat = s.regionBase + off)
    (hl : 0 < w.bytes.length) (h : s.recordAreaMeets w = false) : examineRecords w s = s := by
  have hnone : recordAt off w.bytes.length = none := by
    refine recordAt_outside _ fun a harea => ?_
    have hmeets := List.any_eq_false.mp h a harea
    rw [ha, rangesMeet_iff] at hmeets
    omega
  unfold examineRecords State.recordOf
  rw [offsetOf_at ha, Option.bind_some, hnone, h, ite_self]
  rfl

/-- A write that touches a record area and is no whole record is refused PARTIAL with its own address. -/
theorem examineRecords_partial {w : WriteReq} {s : State} {off : Nat} (ha : w.addr.toNat = s.regionBase + off)
    (hm : s.recordAreaMeets w = true) (h : writeFull w = false ∨ recordAt off w.bytes.length = none) :
    examineRecords w s = refuse w.addr .partialWrite s := by
  have hnone : s.recordOf w = none := by
    unfold State.recordOf
    rw [offsetOf_at ha, Option.bind_some]
    rcases h with hpart | hrec
    · rw [hpart]; rfl
    · rw [hrec, ite_self]
  unfold examineRecords
  rw [hnone, hm]
  rfl

/-! ### Mailboxes (R163) -/

/-- Only an offset at a record's start has an index. -/
theorem recordIndex_between {start size count off : Nat} (h : ∀ i, off ≠ start + size * i) : recordIndex start size count off = none := by
  unfold recordIndex
  rw [List.find?_eq_none]
  intro i _
  simpa using h i

/-- A write that is not full, not of 16 bytes or not at a mailbox's start carries no command. -/
theorem mailboxOf_none {w : WriteReq} {s : State} {off : Nat} (ha : w.addr.toNat = s.regionBase + off)
    (h : writeFull w = false ∨ w.bytes.length ≠ 16 ∨ off % 16 ≠ 0) : s.mailboxOf w = none := by
  unfold State.mailboxOf
  rw [offsetOf_at ha, Option.bind_some]
  by_cases hwhole : w.bytes.length = 16 ∧ writeFull w = true
  · have hat : ∀ i, off ≠ 0x3000 + 16 * i := by
      rcases h with hpart | hlen | hmod
      · simp [hwhole.2] at hpart
      · exact absurd hwhole.1 hlen
      · intro i
        omega
    rw [if_pos hwhole, recordIndex_between hat, Option.map_none]
  · rw [if_neg hwhole]

/-- The lowest mailbox touched is the one that a write begins in, or mailbox 1 for a write that begins below them all. -/
theorem lowestMailbox_at {w : WriteReq} {s : State} {off n : Nat} (ha : w.addr.toNat = s.regionBase + off) (hl : 0 < w.bytes.length)
    (h1 : 1 ≤ n) (h10 : n ≤ 10) (hend : off < 0x3000 + 16 * n) (hstart : 0x3000 + 16 * (n - 1) < off + w.bytes.length)
    (hlow : n = 1 ∨ 0x3000 + 16 * (n - 1) ≤ off) : s.lowestMailbox w = some n := by
  have hfind : ((List.range 10).find? fun i => rangesMeet w.addr.toNat w.bytes.length (s.regionBase + 0x3000 + 16 * i) 16) =
      some (n - 1) := by
    rw [List.find?_range_eq_some, ha]
    refine ⟨rangesMeet_true hl (by decide) (by omega) (by omega), List.mem_range.mpr (by omega), fun j hj => ?_⟩
    rw [rangesMeet_false (by omega)]
    rfl
  unfold State.lowestMailbox
  rw [hfind, Option.map_some, Nat.sub_add_cancel h1]

/-- Any other write that touches a mailbox leaves MALFORMED for the lowest it touches, with no tag. -/
theorem examineMailboxes_malformed {w : WriteReq} {s : State} {n : Nat} (hnone : s.mailboxOf w = none) (hlow : s.lowestMailbox w = some n) :
    examineMailboxes w s = finishCommand none n .malformed s := by
  unfold examineMailboxes examineMalformed
  rw [hnone, hlow]

/-! ### Writable words (R169) -/

/-- The same refusal twice leaves what it leaves once. -/
theorem refuse_refuse (a : Addr) (why : RefuseReason) (s : State) : refuse a why (refuse a why s) = refuse a why s := by
  simp only [refuse, setFlag, BitVec.or_assoc, BitVec.or_self]

/-- A write covers a word only if it spans its eight bytes and enables them all. -/
theorem coversWord_false {w : WriteReq} {s : State} {x : StatusWord} {off : Nat} (ha : w.addr.toNat = s.regionBase + off)
    (h : off ≤ wordOffset x → wordOffset x + 8 ≤ off + w.bytes.length →
      ((w.bytes.drop (wordOffset x - off)).take 8).all (·.2) = false) : s.coversWord w x = false := by
  have hbegin : s.wordBase x - w.addr.toNat = wordOffset x - off := by
    unfold State.wordBase
    omega
  by_cases hle : off ≤ wordOffset x
  · by_cases hspan : wordOffset x + 8 ≤ off + w.bytes.length
    · have hdisabled : (s.wordPart w x).all (·.2) = false := by
        unfold State.wordPart
        rw [hbegin]
        exact h hle hspan
      unfold State.coversWord
      rw [hdisabled, Bool.and_false]
    · have hshort : (s.wordPart w x).length ≠ 8 := by
        unfold State.wordPart
        rw [hbegin, List.length_take, List.length_drop]
        omega
      unfold State.coversWord
      rw [beq_false_of_ne hshort, Bool.and_false, Bool.false_and]
  · have hbelow : ¬ w.addr.toNat ≤ s.wordBase x := by
      unfold State.wordBase
      omega
    unfold State.coversWord
    rw [decide_eq_false hbelow, Bool.false_and, Bool.false_and]

/-- Words that a write covers none of take nothing: it is refused PARTIAL if it touches one of them. -/
theorem forEach_examineWord_partial {w : WriteReq} (l : List StatusWord) {s : State} (h : ∀ y, s.coversWord w y = false) :
    forEach l (examineWord w) s = if l.any (s.touchesWord w) then refuse w.addr .partialWrite s else s := by
  induction l generalizing s with
  | nil => rfl
  | cons y l ih =>
    show forEach l (examineWord w) (examineWord w y s) = _
    rw [List.any_cons]
    unfold examineWord
    rw [h y]
    cases s.touchesWord w y with
    | false => exact ih h
    | true =>
      have hrefused := ih (s := refuse w.addr .partialWrite s) h
      rw [refuse_refuse, ite_self] at hrefused
      exact hrefused

/-- A write that touches a writable word and covers none is refused PARTIAL, and below the mailboxes that is all. -/
theorem intake_wordPartial {w : WriteReq} {s : State} {off : Nat} {x : StatusWord} (ha : w.addr.toNat = s.regionBase + off)
    (hend : off + w.bytes.length ≤ 0x3000) (ht : s.touchesWord w x = true) (hc : ∀ y, s.coversWord w y = false) :
    intake w s = refuse w.addr .partialWrite s := by
  have hwords : forEach [.flagClear, .flagEnables, .counterClear, .consumeIndex] (examineWord w) s = refuse w.addr .partialWrite s := by
    rw [forEach_examineWord_partial _ hc, if_pos]
    exact List.any_eq_true.mpr ⟨x, by cases x <;> decide, ht⟩
  have ha' : w.addr.toNat = (refuse w.addr .partialWrite s).regionBase + off := ha
  unfold intake
  dsimp only
  rw [hwords, examineMailboxes_off ha' (.inl hend), examineRecords_off ha' (by omega)]

/-- COUNTER_CLEAR leaves of each ring all but its two counters. -/
@[simp] theorem clearCounters_ring (s : State) (r : RingNo) : (clearCounters s).ring r = { s.ring r with syncLoss := 0, order := 0 } := by
  simp [clearCounters, State.ring, Vector.get_eq_getElem]

/-- COUNTER_CLEAR leaves of each channel all but its three counters. -/
@[simp] theorem clearCounters_chan (s : State) (c : ChanNo) :
    (clearCounters s).chan c = { s.chan c with late := 0, underrun := 0, lostFeed := 0 } := by
  simp [clearCounters, State.chan, Vector.get_eq_getElem]

end Sys2Proof.Machine

namespace Sys2Proof.Proofs

open Sys2Proof.Machine

/-- Settles O29: each word is taken whole, and of the three only COUNTER_CLEAR reaches rings and channels. -/
theorem wordWrites : Obligations.WordWrites := by
  intro s word hb
  refine ⟨offerWord_taken .flagClear hb, offerWord_taken .flagEnables hb, fun h => ?_⟩
  exact ⟨clearCounters (s.carried 0x110 word), offerWord_taken .counterClear hb h, rfl, clearCounters_ring _, clearCounters_chan _⟩

/-- Settles O37: of the three kinds of area one examines the write, finds it not whole, and the others leave it. -/
theorem partialWritesRefused : Obligations.PartialWritesRefused := by
  intro s w off h ha ho hl
  have ha' : w.addr.toNat = (s.carry (.write w)).regionBase + off := ha
  refine ⟨fun hlow hmeets hpart => ?records, fun n h1 h10 hlow hhigh hend hstart hlowest hpart => ?mailboxes,
    fun x hhigh hend hstart hpart => ?words⟩
  case records =>
    refine offer_intake h ha ho hl ?_ rfl
    rw [intake_noWord ha' (by omega), examineMailboxes_off ha' (.inr hlow), examineRecords_partial ha' hmeets hpart]
  case mailboxes =>
    refine offer_intake (t := finishCommand none n .malformed (s.carry (.write w))) h ha ho hl ?_ (finishCommand_channels _ _ _ _)
    rw [intake_noWord ha' (.inr hlow), examineMailboxes_malformed (mailboxOf_none ha' hpart)
      (lowestMailbox_at ha' (lengthOk_pos hl) h1 h10 hend hstart hlowest)]
    exact examineRecords_off (s := finishCommand none n .malformed (s.carry (.write w))) ha' hhigh
  case words =>
    have htouch : (s.carry (.write w)).touchesWord w x = true := by
      unfold State.touchesWord State.wordBase
      rw [ha']
      exact rangesMeet_true (lengthOk_pos hl) (by decide) (by omega) (by omega)
    exact offer_intake h ha ho hl (intake_wordPartial ha' hhigh htouch fun y => coversWord_false ha' (hpart y)) rfl

/-- Settles O38: no word, no mailbox and no record area examines the write. -/
theorem controlRegionOther : Obligations.ControlRegionOther := by
  intro s w off h ha ho hl hwords hmailboxes hrecords
  have ha' : w.addr.toNat = (s.carry (.write w)).regionBase + off := ha
  refine offer_intake h ha ho hl ?_ rfl
  rw [intake_noWord ha' hwords, examineMailboxes_off ha' hmailboxes, examineRecords_outside ha' (lengthOk_pos hl) hrecords]

end Sys2Proof.Proofs
end

section
/-! PROOFS. A step as its two cases, by whether a command waits (log 2). -/

namespace Sys2Proof.Machine

/-- With no command waiting the splicer idles (log 2). -/
theorem step_idle {s : State} (h : s.pending = []) : step s = .next s := by
  unfold step
  rw [h]

/-- The command at the front of the queue runs on the state that holds the queue's rest. -/
theorem step_front {s : State} {c : Instr} {rest : List Instr} (h : s.pending = c :: rest) :
    step s = exec c { s with pending := rest } := by
  unfold step
  rw [h]

end Sys2Proof.Machine

namespace Sys2Proof.Proofs

open Sys2Proof.Machine

/-- Settles O1: the queue of commands is empty or has a front, and a step is given by that case. -/
theorem stepRunsFront : Obligations.StepRunsFront :=
  ⟨fun _ h => step_idle h, fun _ _ _ h => step_front h⟩

end Sys2Proof.Proofs
end
